-- ==== Sys2Proof/Word.lean ====
section
/-! DEFINITION. The word types of the block. Every value of this hardware is unsigned (spec 00_scope.md R10).
Pin numbers, unit numbers, counts, cursors and frequencies are naturals; only what the spec treats as bits is a
bit vector: register contents, bytes on the wire, colours, coordinates, the divisor encoding. -/

namespace Sys2Proof

/-- A byte: a wire byte, a byte of a caller buffer or of an init table. -/
abbrev Byte := BitVec 8

/-- A 16-bit value: a colour (5-6-5) or a coordinate (R82). -/
abbrev Half := BitVec 16

/-- A 32-bit value: a word register, the CLOCK register, a divisor encoding, a speed in kHz (R21, R31, R82). -/
abbrev Word := BitVec 32

end Sys2Proof
end

