-- ==== Sys2Proof/Config.lean ====
section
/-! DEFINITION. What an implementation fixes (the named parameters of spec 00_scope.md R9), as one record of plain data,
and the free values: constants without a body, of which nothing can be proved. The record is carried by `State.params`,
which no step changes (R58), so that a statement about every state is a statement about every configuration
(log entry 1). `Params.default` is what State.reset carries; no statement rests on it. -/

namespace Sys2Proof

/-- The four pins of a unit or of a peripheral, in the spec's order (sdi, sdo, sck, cs). Pin 0 means "none" (R27). -/
structure PinSet where
  sdi : Nat
  sdo : Nat
  sck : Nat
  cs : Nat
  deriving DecidableEq, Repr

/-- The named parameters of R9. `periph` and `defPins` list their value for the units
`firstUnit, firstUnit + 1, ...`; `ded` and `stuck` are indexed by peripheral. -/
structure Params where
  /-- `FIRST_UNIT` -/
  firstUnit : Nat
  /-- `LAST_UNIT` -/
  lastUnit : Nat
  /-- `NSLOT`, device slots per peripheral -/
  nslot : Nat
  /-- `periph(u)`, one entry per unit -/
  periph : List (Fin 4)
  /-- `NPINS` -/
  npins : Nat
  /-- `DED(p)`, the dedicated pins of each peripheral -/
  ded : Vector PinSet 4
  /-- `DEF_PINS(u)`, one entry per unit -/
  defPins : List PinSet
  /-- `SYSCLK_HZ` -/
  sysclkHz : Nat
  /-- `DISP_UNIT` -/
  dispUnit : Nat
  /-- `TOUCH_UNIT` -/
  touchUnit : Nat
  /-- `DC_PIN` -/
  dcPin : Nat
  /-- `DC_CMD_LEVEL` -/
  dcCmdLevel : Bool
  /-- `DC_DATA_LEVEL` -/
  dcDataLevel : Bool
  /-- `CMD_CASET` -/
  cmdCaset : Byte
  /-- `CMD_PASET` -/
  cmdPaset : Byte
  /-- `CMD_RAMWR` -/
  cmdRamwr : Byte
  /-- `CMD_RAMRD` -/
  cmdRamrd : Byte
  /-- `INIT_SENTINEL` -/
  initSentinel : Byte
  /-- `PERIPH_STUCK(p)` -/
  stuck : Vector Bool 4
  /-- `OWNER_SPI`, symbolic: a number that stands for the identity -/
  ownerSpi : Nat
  deriving DecidableEq, Repr

/-- A unit number is valid when `FIRST_UNIT <= u <= LAST_UNIT` (R82). -/
def Params.inRange (p : Params) (u : Nat) : Bool := p.firstUnit ≤ u && u ≤ p.lastUnit

/-- How many units there are. -/
def Params.unitCount (p : Params) : Nat := p.lastUnit + 1 - p.firstUnit

/-- `periph(u)` of R9. -/
def Params.periphOf (p : Params) (u : Nat) : Fin 4 := p.periph.getD (u - p.firstUnit) 0

/-- `DED(p)` of R9. -/
def Params.dedOf (p : Params) (q : Fin 4) : PinSet := p.ded.get q

/-- `DEF_PINS(u)` of R9. -/
def Params.defPinsOf (p : Params) (u : Nat) : PinSet := p.defPins.getD (u - p.firstUnit) ⟨0, 0, 0, 0⟩

/-- `PERIPH_STUCK(p)` of R9. -/
def Params.isStuck (p : Params) (q : Fin 4) : Bool := p.stuck.get q

/-- All four pins are below `NPINS` (R82). -/
def Params.pinsOk (p : Params) (g : PinSet) : Bool :=
  g.sdi < p.npins && g.sdo < p.npins && g.sck < p.npins && g.cs < p.npins

/-- The side conditions R9 puts on its parameters: the unit range is not empty and holds at most `4 * NSLOT` units
(R23), the lists have one entry per unit, default pins are pins, the display and touch units are in range, `DC_PIN` is
a nonzero pin, the two mode levels differ, and the system clock is positive and fits 32 bits (R110: "`SYSCLK_HZ` and all
frequencies fit 32 bits"). -/
def Params.wf (p : Params) : Bool :=
  p.firstUnit ≤ p.lastUnit && 1 ≤ p.nslot && p.unitCount ≤ 4 * p.nslot
    && p.periph.length == p.unitCount && p.defPins.length == p.unitCount
    && p.defPins.all p.pinsOk
    && p.inRange p.dispUnit && p.inRange p.touchUnit
    && p.dcPin != 0 && p.dcPin < p.npins && p.dcCmdLevel != p.dcDataLevel && 0 < p.sysclkHz
    && p.sysclkHz < 2 ^ 32

/-- The four originated command bytes differ from each other. R9 does not ask it; only the decoder of wire commands
needs it. -/
def Params.wireDistinct (p : Params) : Bool :=
  p.cmdCaset != p.cmdPaset && p.cmdCaset != p.cmdRamwr && p.cmdCaset != p.cmdRamrd
    && p.cmdPaset != p.cmdRamwr && p.cmdPaset != p.cmdRamrd && p.cmdRamwr != p.cmdRamrd

/-- The defaults of R9: `FIRST_UNIT = 0`, `NSLOT = 1`, `LAST_UNIT = 4*NSLOT - 1`, `periph(u) = u div NSLOT`,
`NPINS = 40`, `DED(2)`, `DED(3)`, `DEF_PINS(u) = DED(periph(u))`, 80 MHz, the levels, the command bytes, the sentinel,
nothing stuck. R9 leaves open `DED(0)`, `DED(1)` (here: no pins), `DISP_UNIT`, `TOUCH_UNIT`, `DC_PIN` (here 2, 3, 27)
and `OWNER_SPI` (here 1). DESIGN CHOICE (log entry 1). -/
def Params.default : Params where
  firstUnit := 0
  lastUnit := 3
  nslot := 1
  periph := [0, 1, 2, 3]
  npins := 40
  ded := #v[⟨0, 0, 0, 0⟩, ⟨0, 0, 0, 0⟩, ⟨12, 13, 14, 15⟩, ⟨19, 23, 18, 5⟩]
  defPins := [⟨0, 0, 0, 0⟩, ⟨0, 0, 0, 0⟩, ⟨12, 13, 14, 15⟩, ⟨19, 23, 18, 5⟩]
  sysclkHz := 80000000
  dispUnit := 2
  touchUnit := 3
  dcPin := 27
  dcCmdLevel := false
  dcDataLevel := true
  cmdCaset := 0x2A
  cmdPaset := 0x2B
  cmdRamwr := 0x2C
  cmdRamrd := 0x2E
  initSentinel := 0x00
  stuck := Vector.replicate 4 false
  ownerSpi := 1

/-- A bit the line answers when neither a script nor a loopback says which: free, one for each draw (R267, U10;
log entry 6). -/
opaque Config.lineBit : Nat → Bool

/-- The content of a freshly allocated staging buffer, one byte for each draw: unspecified (R266; log entry 7). -/
opaque Config.heapByte : Nat → Byte

/-- What the register at an offset reads as where R39 reserves it, whole registers and single bits: unspecified
(R39, U2; log entry 8). -/
opaque Config.reservedReg : Nat → Word

end Sys2Proof
end

