-- ==== Sys2Proof/Syntax.lean ====
section
/-! DEFINITION. The instructions: one constructor per row of spec/opcode_table.json. Three kinds (spec 00_scope.md R3): the
22 host operations (R81), the init table's header, records and sentinel (R83 to R88), and the four controller commands
the block puts on the wire (R89 to R93). Operand types are R82's; naturals are unbounded,
and what an operand must meet to be an encoding is checked in WellFormed. -/

namespace Sys2Proof

/-- `wordSizeBytes`: 1, 2 or 4 and nothing else (R64, R171). -/
inductive WordSize where
  | one
  | two
  | four
  deriving DecidableEq, Repr

/-- The word size in bytes. -/
def WordSize.bytes : WordSize → Nat
  | .one => 1
  | .two => 2
  | .four => 4

/-- The allocation draw, "a draw the model takes as an input of the operation" (R212). -/
inductive AllocDraw where
  | ok
  | fail
  deriving DecidableEq, Repr

/-- The two forms of an init table (R83). -/
inductive TableForm where
  | counted
  | sentinel
  deriving DecidableEq, Repr

/-- A caller buffer: `len` bytes of the caller's memory from address `base` on, in the order of increasing address
(R11, R64). -/
structure Buf where
  base : Nat
  len : Nat
  deriving DecidableEq, Repr

/-- The instructions of the block, in the opcode table's order. -/
inductive Instr where
  /-- `frequencyToDivisor(targetHz)`, R104 -/
  | freq2div (targetHz : Word)
  /-- `divisorToFrequency(divisorEncoding)`, R106 -/
  | div2freq (enc : Word)
  /-- `selectUnit(unit)`, R143 -/
  | pinmux (unit : Nat)
  /-- `transfer(unit, wordSizeBytes, wordCount, outBuffer|null, inBuffer|null)`, R172 -/
  | transfer (unit : Nat) (ws : WordSize) (wc : Nat) (out inb : Option Buf)
  /-- `configurePins(unit, sdi, sdo, sck, cs)`, R121 -/
  | cfgpins (unit sdi sdo sck cs : Nat)
  /-- `setMode(unit, mode)`, R122 -/
  | setmode (unit mode : Nat)
  /-- `setSpeed(unit, kHz)`, R123 -/
  | setspeed (unit : Nat) (kHz : Word)
  /-- `setChipSelectPin(unit, pin)`, R124 -/
  | setcs (unit pin : Nat)
  /-- `setDuplex(unit, bool)`, R125 -/
  | setduplex (unit : Nat) (full : Bool)
  /-- `select(unit)`, R141 -/
  | select (unit : Nat)
  /-- `deselect(unit)`, R152 -/
  | deselect (unit : Nat)
  /-- `init(unit, master)`, R130 -/
  | init (unit : Nat) (master : Bool)
  /-- `sendCommand(byte)`, R201 -/
  | sendcmd (cmd : Byte)
  /-- `sendData(bytes|null)`, R202; `null` is an encoding (R82) to which R202 gives no meaning (log entry 21) -/
  | senddata (bytes : Option Buf)
  /-- `setAddressWindow(x1, y1, x2, y2)`, R204 -/
  | setwin (x1 y1 x2 y2 : Half)
  /-- `pushPixel(color)`, R207 -/
  | pushpx (color : Half)
  /-- `pushPixelsRepeated(color, count)`, R208 -/
  | pushrep (color : Half) (count : Nat)
  /-- `pushPixelsBuffer(buffer|null, count)`, R209: the buffer is given as 16-bit colours, not as bytes; `null`
  can be written down (R82) and "is not a legal operand" (R209) -/
  | pushbuf (buffer : Option (List Half)) (count : Nat)
  /-- `readPixel(x, y)` with its allocation draw, R210 -/
  | readpx (x y : Half) (draw : AllocDraw)
  /-- `readPixels(x1, y1, x2, y2, count)` with its allocation draw, R211 -/
  | readpxs (x1 y1 x2 y2 : Half) (count : Nat) (draw : AllocDraw)
  /-- `readTouchSample(channelCmd)` with its allocation draw, R214 -/
  | readtouch (channelCmd : Byte) (draw : AllocDraw)
  /-- `runInitTable(table, form)`, R231: the table is an argument, an immutable sequence of bytes (R56 item 4, R75) -/
  | runinit (table : List Byte) (form : TableForm)
  /-- the header byte of a counted table, R83 -/
  | inithdr (count : Byte)
  /-- an init record without delay, R84 -/
  | initrec (cmd : Byte) (args : List Byte)
  /-- an init record with delay, R84, R86 -/
  | initrecD (cmd : Byte) (args : List Byte) (delay : Byte)
  /-- the sentinel of a sentinel-form table, R88 -/
  | initend
  /-- the column-address command with its payload, R90 -/
  | caset (x1 x2 : Half)
  /-- the row-address command with its payload, R90 -/
  | paset (y1 y2 : Half)
  /-- the memory-write command with its colours, R91 -/
  | ramwr (colors : List Half)
  /-- the memory-read command and the readback of `count` pixels, R92 -/
  | ramrd (count : Nat)
  deriving DecidableEq, Repr

end Sys2Proof
end

