-- ==== Sys2Proof/WellFormed.lean ====
section
/-! DEFINITION. Which instruction terms are encodings (spec 30_encoding.md R82, R95; 43_transfer_engine.md R171;
20_memory.md R68): "a value outside an operand's width is not an encoding and a model's well-formedness check refuses
it". Naturals (`unit`, `mode`, counts, buffer positions) have no width: "any other value is a legal encoding". What depends
on the state is checked by the meaning, and so is the content of an init table (R237). -/

namespace Sys2Proof

/-- `null`, or a buffer that holds at least `n` bytes (R68, R171). -/
def bufHolds (n : Nat) : Option Buf → Bool
  | none => true
  | some b => n ≤ b.len

/-- The first `n` bytes of the two buffers are the same place or do not meet: "partially overlapping buffers at
different offsets are refused" (R68). -/
def bufsApart (n : Nat) : Option Buf → Option Buf → Bool
  | some a, some b => a.base == b.base || a.base + n ≤ b.base || b.base + n ≤ a.base
  | _, _ => true

/-- At least `n` colours; "a `null` buffer is not a legal operand" (R209). -/
def colorsHold (n : Nat) : Option (List Half) → Bool
  | none => false
  | some cs => n ≤ cs.length

/-- The well-formedness check, under a configuration. -/
def Instr.wf (p : Params) : Instr → Bool
  | .freq2div _ => true
  | .div2freq _ => true
  | .pinmux u => p.inRange u
  | .transfer u ws wc o i =>
    p.inRange u && bufHolds (ws.bytes * wc) o && bufHolds (ws.bytes * wc) i && bufsApart (ws.bytes * wc) o i
  | .cfgpins _ a b c d => p.pinsOk ⟨a, b, c, d⟩
  | .setmode _ _ => true
  | .setspeed _ _ => true
  | .setcs _ g => g < p.npins
  | .setduplex _ _ => true
  | .select _ => true
  | .deselect _ => true
  | .init _ _ => true
  | .sendcmd _ => true
  | .senddata _ => true
  | .setwin _ _ _ _ => true
  | .pushpx _ => true
  | .pushrep _ _ => true
  | .pushbuf b n => colorsHold n b
  | .readpx _ _ _ => true
  | .readpxs _ _ _ _ _ _ => true
  | .readtouch _ _ => true
  | .runinit t _ => !t.isEmpty
  | .inithdr _ => true
  | .initrec _ args => args.length < 128
  | .initrecD _ args _ => args.length < 128
  | .initend => true
  | .caset _ _ => true
  | .paset _ _ => true
  | .ramwr _ => true
  | .ramrd _ => true

end Sys2Proof
end

