-- ==== Sys2Proof/Decode.lean ====
section
/-! DEFINITION. The decoder and the encoder (spec 30_encoding.md R80 to R95). There are four formats and a byte means
something only in a format: a host operation descriptor (R81), the header of a counted init table (R83), a record
position of an init table of a given form (R84, R88), a controller command on the wire (R89). The decoder is total,
refuses by name, and answers the instruction and the bytes that follow it. R81 fixes only the `OP` byte; the operand
bytes of a descriptor are the model's (log entry 2): signature order, least significant byte first, a natural in groups
of seven bits, so that every natural has an encoding (R82), `wordSizeBytes` as its base two logarithm, a byte that says
whether a buffer is `null`, the bytes of an init table after its length less one, the allocation draw as a last byte. -/

namespace Sys2Proof

/-- Why bytes are no instruction of a format. -/
inductive DecodeError where
  /-- the bytes end inside the instruction -/
  | truncated
  /-- `OP` outside `0x01..0x16` (R95) -/
  | unknownOp (op : Byte)
  /-- `wordSizeBytes` not 1, 2, 4 (R95) -/
  | badWordSize (code : Byte)
  /-- a `bool` or `master` other than 0 and 1 (R82) -/
  | badBool (code : Byte)
  /-- a buffer operand that is neither `null` nor a buffer -/
  | badBuffer (code : Byte)
  /-- an allocation draw other than ok and fail -/
  | badDraw (code : Byte)
  /-- a table form other than COUNTED and SENTINEL -/
  | badForm (code : Byte)
  /-- no command byte the block originates (R89) -/
  | unknownCommand (cmd : Byte)
  /-- half a colour at the end of a pixel payload (R91) -/
  | oddPayload
  deriving DecidableEq, Repr

/-- The format in which bytes are read. -/
inductive Format where
  | hostop
  | inithdr
  | initrec (form : TableForm)
  | wirecmd
  deriving DecidableEq, Repr

/-- A reader of bytes: from the bytes that stand next, an item and the bytes after it, or why there is none. -/
abbrev Reader := StateT (List Byte) (Except DecodeError)

/-! ## Operands -/

def getByte : Reader Byte := fun bs =>
  match bs with
  | b :: r => .ok (b, r)
  | [] => .error .truncated

/-- Two bytes, least significant first. -/
def getHalf : Reader Half := do
  let a ← getByte
  let b ← getByte
  return b ++ a

/-- Two bytes, most significant first, as the wire carries coordinates and colours (R63). -/
def getHalfBe : Reader Half := do
  let a ← getByte
  let b ← getByte
  return a ++ b

/-- Four bytes, least significant first. -/
def getWord : Reader Word := do
  let a ← getHalf
  let b ← getHalf
  return b ++ a

/-- A natural: seven bits a byte, the low ones first, the top bit of a byte set when another follows. -/
def getNat : Reader Nat
  | [] => .error .truncated
  | b :: r =>
    if b.getLsbD 7 then
      match getNat r with
      | .ok (n, rest) => .ok ((b &&& 0x7F).toNat + 128 * n, rest)
      | .error e => .error e
    else .ok (b.toNat, r)

def getBool : Reader Bool := do
  let b ← getByte
  if b = 0 then return false else if b = 1 then return true else throw (.badBool b)

def getWordSize : Reader WordSize := do
  let b ← getByte
  if b = 0 then return .one else if b = 1 then return .two else if b = 2 then return .four else throw (.badWordSize b)

def getDraw : Reader AllocDraw := do
  let b ← getByte
  if b = 0 then return .ok else if b = 1 then return .fail else throw (.badDraw b)

def getForm : Reader TableForm := do
  let b ← getByte
  if b = 0 then return .counted else if b = 1 then return .sentinel else throw (.badForm b)

def getBuf : Reader Buf := do
  let base ← getNat
  let len ← getNat
  return ⟨base, len⟩

/-- What may be `null`: the byte 0 and what `r` reads, or the byte 1 alone. -/
def getOpt {α : Type} (r : Reader α) : Reader (Option α) := do
  let b ← getByte
  if b = 0 then do
    let x ← r
    return some x
  else if b = 1 then return none
  else throw (.badBuffer b)

/-- `n` bytes. -/
def getBytes : Nat → Reader (List Byte)
  | 0 => return []
  | n + 1 => do
    let b ← getByte
    let bs ← getBytes n
    return b :: bs

/-- An init table: its length less one (every well-formed table has a byte, R237), then its bytes. -/
def getTable : Reader (List Byte) := do
  let n ← getNat
  getBytes (n + 1)

/-- `n` colours, high byte first. -/
def getColors : Nat → Reader (List Half)
  | 0 => return []
  | n + 1 => do
    let c ← getHalfBe
    let cs ← getColors n
    return c :: cs

/-- Bytes read two by two as colours, high byte first. -/
def colorsOf : List Byte → Except DecodeError (List Half)
  | [] => .ok []
  | [_] => .error .oddPayload
  | a :: b :: r =>
    match colorsOf r with
    | .ok cs => .ok ((a ++ b) :: cs)
    | .error e => .error e

/-- A buffer of colours: their number, then the colours. -/
def getColorBuf : Reader (List Half) := do
  let n ← getNat
  getColors n

/-- All that is left, as colours. -/
def getAllColors : Reader (List Half) := fun bs =>
  match colorsOf bs with
  | .ok cs => .ok (cs, [])
  | .error e => .error e

def putByte (b : Byte) : List Byte := [b]

def putHalf (h : Half) : List Byte := [h.extractLsb' 0 8, h.extractLsb' 8 8]

def putHalfBe (h : Half) : List Byte := [h.extractLsb' 8 8, h.extractLsb' 0 8]

def putWord (w : Word) : List Byte :=
  [w.extractLsb' 0 8, w.extractLsb' 8 8, w.extractLsb' 16 8, w.extractLsb' 24 8]

/-- `putNat`, with a bound on the number of bytes; the number itself is enough. -/
def putNatIn : Nat → Nat → List Byte
  | 0, n => [BitVec.ofNat 8 (n % 128)]
  | fuel + 1, n =>
    if n < 128 then [BitVec.ofNat 8 n] else BitVec.ofNat 8 (128 + n % 128) :: putNatIn fuel (n / 128)

def putNat (n : Nat) : List Byte := putNatIn n n

def putBool (b : Bool) : List Byte := if b then [1] else [0]

def putWordSize : WordSize → List Byte
  | .one => [0]
  | .two => [1]
  | .four => [2]

def putDraw : AllocDraw → List Byte
  | .ok => [0]
  | .fail => [1]

def putForm : TableForm → List Byte
  | .counted => [0]
  | .sentinel => [1]

def putBuf (b : Buf) : List Byte := putNat b.base ++ putNat b.len

def putOpt {α : Type} (put : α → List Byte) : Option α → List Byte
  | none => [1]
  | some x => 0 :: put x

def putTable (t : List Byte) : List Byte := putNat (t.length - 1) ++ t

def putColors : List Half → List Byte
  | [] => []
  | c :: cs => putHalfBe c ++ putColors cs

def putColorBuf (cs : List Half) : List Byte := putNat cs.length ++ putColors cs

/-! ## The formats -/

/-- The operands of a host operation, in signature order, after its `OP` byte (R81). -/
def getOperands (op : Byte) : Reader Instr :=
  match op.toNat with
  | 0x01 => do
    let a ← getWord
    return .freq2div a
  | 0x02 => do
    let a ← getWord
    return .div2freq a
  | 0x03 => do
    let a ← getNat
    return .pinmux a
  | 0x04 => do
    let u ← getNat
    let ws ← getWordSize
    let wc ← getNat
    let o ← getOpt getBuf
    let i ← getOpt getBuf
    return .transfer u ws wc o i
  | 0x05 => do
    let u ← getNat
    let di ← getNat
    let dq ← getNat
    let ck ← getNat
    let cs ← getNat
    return .cfgpins u di dq ck cs
  | 0x06 => do
    let a ← getNat
    let b ← getNat
    return .setmode a b
  | 0x07 => do
    let a ← getNat
    let b ← getWord
    return .setspeed a b
  | 0x08 => do
    let a ← getNat
    let b ← getNat
    return .setcs a b
  | 0x09 => do
    let a ← getNat
    let b ← getBool
    return .setduplex a b
  | 0x0A => do
    let a ← getNat
    return .select a
  | 0x0B => do
    let a ← getNat
    return .deselect a
  | 0x0C => do
    let a ← getNat
    let b ← getBool
    return .init a b
  | 0x0D => do
    let a ← getByte
    return .sendcmd a
  | 0x0E => do
    let a ← getOpt getBuf
    return .senddata a
  | 0x0F => do
    let x1 ← getHalf
    let y1 ← getHalf
    let x2 ← getHalf
    let y2 ← getHalf
    return .setwin x1 y1 x2 y2
  | 0x10 => do
    let a ← getHalf
    return .pushpx a
  | 0x11 => do
    let a ← getHalf
    let b ← getNat
    return .pushrep a b
  | 0x12 => do
    let b ← getOpt getColorBuf
    let n ← getNat
    return .pushbuf b n
  | 0x13 => do
    let a ← getHalf
    let b ← getHalf
    let c ← getDraw
    return .readpx a b c
  | 0x14 => do
    let x1 ← getHalf
    let y1 ← getHalf
    let x2 ← getHalf
    let y2 ← getHalf
    let n ← getNat
    let d ← getDraw
    return .readpxs x1 y1 x2 y2 n d
  | 0x15 => do
    let a ← getByte
    let b ← getDraw
    return .readtouch a b
  | 0x16 => do
    let a ← getTable
    let b ← getForm
    return .runinit a b
  | _ => throw (.unknownOp op)

/-- A host operation: the `OP` byte of R81, then the operands. -/
def getHost : Reader Instr := do
  let op ← getByte
  getOperands op

/-- The header of a counted table is its first byte, any value (R83). -/
def getHeader : Reader Instr := do
  let k ← getByte
  return .inithdr k

/-- `D = argc[7]` (R85). -/
def argcDelay (argc : Byte) : Bool := argc.getLsbD 7

/-- `n = argc[6:0]` (R85). -/
def argcCount (argc : Byte) : Nat := (argc &&& 0x7F).toNat

/-- An init record after its command byte: `argc`, `n` argument bytes, the delay code when `D = 1` (R84). -/
def getRecord (cmd : Byte) : Reader Instr := do
  let argc ← getByte
  let args ← getBytes (argcCount argc)
  if argcDelay argc then do
    let d ← getByte
    return .initrecD cmd args d
  else return .initrec cmd args

/-- A record position: in sentinel form the sentinel byte ends the table and no `argc` is read; in counted form no byte
is a sentinel (R88). -/
def getInit (p : Params) (form : TableForm) : Reader Instr := do
  let cmd ← getByte
  if form = .sentinel ∧ cmd = p.initSentinel then return .initend else getRecord cmd

/-- A controller command the block originates, with what follows it in data mode (R89 to R92). The four bytes are
parameters. The payload of a memory write is all that is left of the frame; the pixel count of a memory read is not on
the outgoing wire and stands here as an operand. -/
def getWire (p : Params) : Reader Instr := do
  let cmd ← getByte
  if cmd = p.cmdCaset then do
    let a ← getHalfBe
    let b ← getHalfBe
    return .caset a b
  else if cmd = p.cmdPaset then do
    let a ← getHalfBe
    let b ← getHalfBe
    return .paset a b
  else if cmd = p.cmdRamwr then do
    let cs ← getAllColors
    return .ramwr cs
  else if cmd = p.cmdRamrd then do
    let n ← getNat
    return .ramrd n
  else throw (.unknownCommand cmd)

/-- The reader of a format. -/
def getInstr (p : Params) : Format → Reader Instr
  | .hostop => getHost
  | .inithdr => getHeader
  | .initrec form => getInit p form
  | .wirecmd => getWire p

/-- The decoder: total on any bytes in any format. -/
def decode (p : Params) (f : Format) (bs : List Byte) : Except DecodeError (Instr × List Byte) :=
  (getInstr p f).run bs

/-! ## The encoder -/

/-- The format an instruction belongs to. Records are read alike in both forms unless their command byte is the
sentinel. -/
def formatOf : Instr → Format
  | .freq2div _ | .div2freq _ | .pinmux _ | .transfer _ _ _ _ _ | .cfgpins _ _ _ _ _ | .setmode _ _ | .setspeed _ _
  | .setcs _ _ | .setduplex _ _ | .select _ | .deselect _ | .init _ _ | .sendcmd _ | .senddata _ | .setwin _ _ _ _
  | .pushpx _ | .pushrep _ _ | .pushbuf _ _ | .readpx _ _ _ | .readpxs _ _ _ _ _ _ | .readtouch _ _
  | .runinit _ _ => .hostop
  | .inithdr _ => .inithdr
  | .initrec _ _ | .initrecD _ _ _ => .initrec .counted
  | .initend => .initrec .sentinel
  | .caset _ _ | .paset _ _ | .ramwr _ | .ramrd _ => .wirecmd

/-- `argc` of a record with `n` arguments: bit 7 the delay flag, bits 6:0 the count (R84). -/
def argcByte (delay : Bool) (n : Nat) : Byte := (if delay then 0x80 else 0x00) ||| BitVec.ofNat 8 (n % 128)

/-- The bytes of an instruction, from the tables of R81, R83, R84 and R89. -/
def encode (p : Params) : Instr → List Byte
  | .freq2div t => 0x01 :: putWord t
  | .div2freq v => 0x02 :: putWord v
  | .pinmux u => 0x03 :: putNat u
  | .transfer u ws wc o i => 0x04 :: (putNat u ++ putWordSize ws ++ putNat wc ++ putOpt putBuf o ++ putOpt putBuf i)
  | .cfgpins u a b c d => 0x05 :: (putNat u ++ putNat a ++ putNat b ++ putNat c ++ putNat d)
  | .setmode u m => 0x06 :: (putNat u ++ putNat m)
  | .setspeed u k => 0x07 :: (putNat u ++ putWord k)
  | .setcs u g => 0x08 :: (putNat u ++ putNat g)
  | .setduplex u d => 0x09 :: (putNat u ++ putBool d)
  | .select u => 0x0A :: putNat u
  | .deselect u => 0x0B :: putNat u
  | .init u m => 0x0C :: (putNat u ++ putBool m)
  | .sendcmd c => 0x0D :: putByte c
  | .senddata b => 0x0E :: putOpt putBuf b
  | .setwin x1 y1 x2 y2 => 0x0F :: (putHalf x1 ++ putHalf y1 ++ putHalf x2 ++ putHalf y2)
  | .pushpx c => 0x10 :: putHalf c
  | .pushrep c n => 0x11 :: (putHalf c ++ putNat n)
  | .pushbuf b n => 0x12 :: (putOpt putColorBuf b ++ putNat n)
  | .readpx x y d => 0x13 :: (putHalf x ++ putHalf y ++ putDraw d)
  | .readpxs x1 y1 x2 y2 n d => 0x14 :: (putHalf x1 ++ putHalf y1 ++ putHalf x2 ++ putHalf y2 ++ putNat n ++ putDraw d)
  | .readtouch c d => 0x15 :: (putByte c ++ putDraw d)
  | .runinit t f => 0x16 :: (putTable t ++ putForm f)
  | .inithdr k => [k]
  | .initrec c args => c :: argcByte false args.length :: args
  | .initrecD c args d => c :: argcByte true args.length :: (args ++ [d])
  | .initend => [p.initSentinel]
  | .caset a b => p.cmdCaset :: (putHalfBe a ++ putHalfBe b)
  | .paset a b => p.cmdPaset :: (putHalfBe a ++ putHalfBe b)
  | .ramwr cs => p.cmdRamwr :: putColors cs
  | .ramrd n => p.cmdRamrd :: putNat n

/-! ## The opcode table's words -/

/-- The format of a word of the opcode table. Rows of 16 bits are init records, read as in a counted table, where no
command byte is special. A byte is a host operation when R81 numbers it, the sentinel when it is the sentinel, a wire
command when R89 names it, and otherwise a table header, whose row leaves every bit free (log entry 3). -/
def tableFormat (p : Params) (nbits w : Nat) : Format :=
  if 8 < nbits then .initrec .counted
  else if 0x01 ≤ w ∧ w ≤ 0x16 then .hostop
  else if BitVec.ofNat 8 w = p.initSentinel then .initrec .sentinel
  else if BitVec.ofNat 8 w = p.cmdCaset ∨ BitVec.ofNat 8 w = p.cmdPaset ∨ BitVec.ofNat 8 w = p.cmdRamwr
      ∨ BitVec.ofNat 8 w = p.cmdRamrd then .wirecmd
  else .inithdr

/-- How many zero bytes follow a word of a format: enough for its longest instruction (130 bytes of an init record,
12 of a host operation whose operands are zero, 5 of a wire command). -/
def tablePadding : Format → Nat
  | .hostop => 32
  | .inithdr => 0
  | .initrec _ => 128
  | .wirecmd => 4

/-- The bytes of a table word in the order they are stored: a record's 16-bit value is `{cmd, argc}` with `cmd` in the
high half and at the lower index (R97, R84), then zeros. -/
def tableBytes (p : Params) (nbits w : Nat) : List Byte :=
  (if 8 < nbits then [BitVec.ofNat 8 (w / 256), BitVec.ofNat 8 w] else [BitVec.ofNat 8 w])
    ++ List.replicate (tablePadding (tableFormat p nbits w)) 0

/-- The instruction the decoder reads from a word of the opcode table, under the parameters' defaults. -/
def decodeTableWord (nbits w : Nat) : Option Instr :=
  match decode .default (tableFormat .default nbits w) (tableBytes .default nbits w) with
  | .ok (i, _) => some i
  | .error _ => none

end Sys2Proof
end

