-- ==== Sys2Proof/Machine/State.lean ====
section
/-! DEFINITION. The state of the block as plain data (spec 10_state.md R20 to R59), its reset value (R57), and the closed
lists of faults and refusals. INVENTORY.md, heading State, lists every field with its rule. -/

namespace Sys2Proof.Machine

/-! ## Registers of a peripheral -/

/-- The named control-register fields of R30 to R38, and the word registers of R21: what a `RegWrite` event names. -/
inductive RegField where
  | w (i : Fin 16)
  | cmdUsr
  | clock
  | ctrlWrBitOrder
  | ctrlRdBitOrder
  | userDoutdin
  | userUsrMosi
  | userUsrMiso
  | userCsSetup
  | userCsHold
  | userCkPhase
  | pinCkIdle
  | slaveMode
  | mosiDlen
  | misoDlen
  deriving DecidableEq, Repr

/-- The registers of one peripheral but for `CMD` (R29): "a model may hold the fields as a record of named values". -/
structure RegFile where
  /-- `W[0..15]`, R21 -/
  w : Vector Word 16
  /-- `CLOCK`, R31 -/
  clock : Word
  /-- `CTRL.WR_BIT_ORDER`, R32 -/
  wrBitOrder : Bool
  /-- `CTRL.RD_BIT_ORDER`, R32 -/
  rdBitOrder : Bool
  /-- `USER.DOUTDIN`, R33 -/
  doutdin : Bool
  /-- `USER.USR_MOSI`, R34 -/
  usrMosi : Bool
  /-- `USER.USR_MISO`, R34 -/
  usrMiso : Bool
  /-- `USER.CS_SETUP`, R35 -/
  csSetup : Bool
  /-- `USER.CS_HOLD`, R35 -/
  csHold : Bool
  /-- `USER.CK_PHASE`, R36 -/
  ckPhase : Bool
  /-- `PIN.CK_IDLE`, R36 -/
  ckIdle : Bool
  /-- `SLAVE.SLAVE_MODE`, R37 -/
  slaveMode : Bool
  /-- `MOSI_DLEN.BITLEN`, R38 -/
  mosiDlen : BitVec 24
  /-- `MISO_DLEN.BITLEN`, R38 -/
  misoDlen : BitVec 24
  deriving DecidableEq, Repr

/-- The register block `P[p]` of one peripheral (R29), with its in-flight transaction (R55). -/
structure PeriphRegs extends RegFile where
  /-- The transaction in flight, `none` when there is none: the registers as they stood at the write `CMD.USR <- 1`, which
  the shifter reads "as one snapshot" (R72). `CMD.USR` (R30) is 1 exactly while there is one. -/
  flight : Option RegFile
  deriving DecidableEq, Repr

/-- `CMD.USR` (R30). -/
def PeriphRegs.usr (r : PeriphRegs) : Bool := r.flight.isSome

/-! ## The unit table -/

/-- A unit record `U[u]` (R24). -/
structure UnitRec where
  sdi : Nat
  sdo : Nat
  sck : Nat
  cs : Nat
  mode : BitVec 2
  duplex : Bool
  speedKhz : Word
  divisor : Word
  dirty : Bool
  deriving DecidableEq, Repr

/-- The record every unit has at process start (R57). -/
def UnitRec.zero : UnitRec := ⟨0, 0, 0, 0, 0, false, 0, 0, false⟩

/-- The four pins of a record. -/
def UnitRec.pinSet (r : UnitRec) : PinSet := ⟨r.sdi, r.sdo, r.sck, r.cs⟩

/-! ## Collaborator state -/

/-- `dir[g]` (R44). -/
inductive Dir where
  | input
  | output
  deriving DecidableEq, Repr

/-- `pull[g]` (R44). -/
inductive Pull where
  | none
  | pullup
  deriving DecidableEq, Repr

/-- `func[g]` (R45). -/
inductive PinFn where
  | gpio
  | dedicated
  deriving DecidableEq, Repr

/-- `outRoute[g]` (R46): a peripheral's data-out or clock signal, or the detach sentinel `GPIO_DRIVEN`. -/
inductive OutRoute where
  | dout (p : Fin 4)
  | clk (p : Fin 4)
  | gpioDriven
  deriving DecidableEq, Repr

/-- What the GPIO and matrix collaborators hold for one pin (R44 to R46). -/
structure PinState where
  dir : Dir
  pull : Pull
  level : Bool
  fn : PinFn
  out : OutRoute
  deriving DecidableEq, Repr

/-- The model's value for a pin at reset, where R57 says "unspecified" (log entry 5). -/
def PinState.initial : PinState := ⟨.input, .none, false, .gpio, .gpioDriven⟩

/-- The answer of `Lock.acquire` (R264); an owner identity is a number. -/
inductive LockResult where
  | ok
  | conflict (owner : Nat)
  deriving DecidableEq, Repr

/-- The line, the device at the other end of the wires (R267): answers a test lists, one for each transaction in
order, and after them a loopback or free bits. -/
structure Line where
  script : List (List Bool)
  loopback : Bool
  deriving DecidableEq, Repr

/-! ## The trace -/

/-- `cfg` of a transaction (R176). -/
structure XferCfg where
  ckIdle : Bool
  ckPhase : Bool
  fullDuplex : Bool
  clock : Word
  deriving DecidableEq, Repr

/-- The event kinds of R16. The one input signal of a peripheral, `SIG(p).DIN`, is named by the peripheral; `none` is
`DETACHED`. -/
inductive Event where
  | regWrite (p : Fin 4) (field : RegField) (v : Word)
  | pinLevel (pin : Nat) (level : Bool)
  | pinDir (pin : Nat) (dir : Dir)
  | pinPull (pin : Nat) (pull : Pull)
  | pinFunc (pin : Nat) (fn : PinFn)
  | routeIn (sig : Fin 4) (src : Option Nat)
  | routeOut (pin : Nat) (route : OutRoute)
  | xfer (p : Fin 4) (cfg : XferCfg) (nout : Nat) (outbits : List Bool) (nin : Nat) (inbits : List Bool)
  | delay (ms : Nat)
  | irqOff
  | irqOn
  | suspendAll
  | resumeAll
  | lockAcquire (pin : Nat) (result : LockResult)
  deriving DecidableEq, Repr

/-! ## Results of operations -/

/-- The error kinds of R251 to R255 and R257. -/
inductive ErrorKind where
  | invalidUnit
  | invalidMode
  | slaveNotAllowed
  | cannotSetup
  | pinLockConflict (owner pin : Nat)
  | outOfMemory
  deriving DecidableEq, Repr

/-- The value an operation returns: none, an encoding, hertz, a colour, colours, a touch sample. -/
inductive Value where
  | none
  | encoding (v : Word)
  | hertz (f : Nat)
  | color (c : Half)
  | colors (cs : List Half)
  | sample (v : BitVec 12)
  deriving DecidableEq, Repr

/-- The result of a host operation (R250): `Ok(value)`, or an error, with the zero value R212 asks of a failed
readback. -/
inductive OpResult where
  | ok (v : Value)
  | err (e : ErrorKind) (v : Value)
  deriving DecidableEq, Repr

/-! ## Host tasks -/

/-- Where the init sequencer of a task stands: not running, at the header byte, at a record position (R231). -/
inductive SeqPhase where
  | idle
  | header
  | record
  deriving DecidableEq, Repr

/-- The sequencer of a task: the table it walks, an argument of `runInitTable` that no operation writes (R56 item 4, R75),
its form, the cursor `tp` and the count `remaining` (R53). -/
structure Seq where
  phase : SeqPhase
  form : TableForm
  table : List Byte
  tp : Nat
  remaining : Nat
  deriving DecidableEq, Repr

/-- A descriptor a host task has issued: the format it is written in, and its bytes. The spec gives hosts the format of host
operations only (R3, R80); that the others can stand in a queue too is the model's choice (log entry 3). -/
structure Descriptor where
  format : Format
  bytes : List Byte
  deriving DecidableEq, Repr

/-- What a task in the middle of an operation remembers of what it has read (R14, R65). -/
structure Locals where
  /-- the pins of a record, as read -/
  pins : PinSet
  /-- `last`, as read -/
  prev : Option Nat
  /-- the value about to be written into a register field -/
  word : Word
  /-- the register that is being changed, as read: the first micro-step of a field write (R65) -/
  reg : RegFile
  /-- how many micro-steps of the operation are passed over, because the test of their branch failed -/
  skip : Nat
  deriving DecidableEq, Repr

/-- An operation between two of its micro-steps: the instruction, how many micro-steps are behind it, and what the task
remembers. -/
structure Op where
  instr : Instr
  pos : Nat
  locals : Locals
  deriving DecidableEq, Repr

/-- A host task (R14): the operations it has issued and the block has not begun, the operation it is in the middle of, its
sequencer, the peripheral whose busy flag it spins on for ever (R299), and the result of its last finished operation
(R16). -/
structure Task where
  issue : List Descriptor
  op : Option Op
  seq : Seq
  spin : Option (Fin 4)
  result : Option OpResult
  deriving DecidableEq, Repr

/-- A sequencer that does not run. R53 and R57 give it no cursor, count, form or table; the model holds them in every task.
DESIGN CHOICE (log entry 14): 0, 0, the counted form and an empty table until the first run. -/
def Seq.stopped : Seq := ⟨.idle, .counted, [], 0, 0⟩

/-- A task that has issued nothing. -/
def Task.fresh : Task := ⟨[], none, .stopped, none, none⟩

/-- One turn of the schedule (R58): which of the other tasks takes over before the next step, a number that names none
leaving the running one, and how many micro-steps that step takes, `none` when it goes on to the end of the operation. -/
structure Turn where
  task : Nat
  micros : Option Nat
  deriving DecidableEq, Repr

/-! ## The caller's memory -/

/-- The caller's memory, where its buffers stand: a list of (address, byte) pairs in canonical form, see `Memory.wf`. -/
abbrev Memory := List Host.Cell

/-- What a byte that nothing has written reads as. The spec gives none; DESIGN CHOICE (log entry 9). -/
def Memory.blank : Byte := 0

/-! ## The state -/

/-- The state of the block. -/
structure State where
  /-- the named parameters of R9: not state in the spec's sense, no step changes them (R58) -/
  params : Params
  /-- `P[0..3]`, R29 -/
  periphs : Vector PeriphRegs 4
  /-- `U[FIRST_UNIT..LAST_UNIT]`, R23 -/
  units : List UnitRec
  /-- the last-selected-unit marker, `none` is `NONE`, R28 -/
  last : Option Nat
  /-- pins `0..NPINS-1`, R44 to R46 -/
  pins : List PinState
  /-- `inRoute[SIG(p).DIN]`, `none` is `DETACHED`, R47 -/
  inRoute : Vector (Option Nat) 4
  /-- `owner[g]` for each pin, `none` is `FREE`, R48 -/
  locks : List (Option Nat)
  /-- R49 -/
  irqDepth : Nat
  /-- R50 -/
  suspendDepth : Nat
  /-- the transfer cursor `off`, R54 -/
  off : Nat
  /-- the staging buffer, `none` when there is none, R51 -/
  staging : Option (List Byte)
  /-- the caller's memory, R56 item 3 -/
  mem : Memory
  /-- the line, R267 -/
  line : Line
  /-- the MODEL's own counter of free draws: the argument of the free values of Config -/
  draws : Nat
  /-- the trace, oldest event first, R16 -/
  trace : List Event
  /-- the host task that has the processor -/
  task : Task
  /-- the other host tasks -/
  others : List Task
  /-- the schedule, an input (R58), a turn for each step; after its last turn the running task goes on, operation by
  operation -/
  sched : List Turn
  deriving DecidableEq, Repr

/-- Why the machine stops. The block itself has no faults (R250). -/
inductive Fault where
  /-- Raised by the fetch of the init sequencer when the record at `tp` does not lie inside the table: "reading at
  `tp >= len(table)` is outside the table" (R53). RUNINIT checks the table and nothing writes it, so no run from reset
  comes there. Safe. -/
  | tableOverrun
  deriving DecidableEq, Repr

/-- Why an instruction has no meaning. -/
inductive Refusal where
  /-- Raised by an arm of `exec` that has no meaning yet. Safe. -/
  | notModelled (mnemonic : String)
  /-- Raised by the fetch: a descriptor that is no instruction (R95, U14). Safe. -/
  | badEncoding (e : DecodeError)
  /-- Raised by `transfer`, `selectUnit` and a frame for a unit outside `FIRST_UNIT..LAST_UNIT` (R171, R295, U15).
  Safe. -/
  | unitOutOfRange
  /-- Raised by `configurePins` and `setChipSelectPin` for a pin that is not below `NPINS` (R82, U14). Safe. -/
  | pinOutOfRange
  /-- Raised by `transfer` and `pushPixelsBuffer` for a buffer shorter than the transfer (R68, R171, U14). Safe. -/
  | bufferTooShort
  /-- Raised by `transfer` for partially overlapping buffers (R68). Safe. -/
  | buffersOverlap
  /-- Raised by `sendData` for `null`, an encoding (R82) to which R202 gives no meaning, and by `pushPixelsBuffer` for
  `null`, "not a legal operand" (R209). Safe. -/
  | nullBuffer
  /-- Raised by `runInitTable` for a table that is not well formed (R237, U13). Safe. -/
  | malformedTable
  /-- Raised by the shifter for a transaction with a bit order of 1, in slave mode, of more than 512 bits, or with one of
  the two data phases disabled (R176, U4, U5). Safe. -/
  | shifterUnspecified (p : Fin 4)
  deriving DecidableEq, Repr

/-! ## Reset -/

/-- The registers of a peripheral at reset. R57 leaves every field unspecified; the model takes zero, but one for `USR_MOSI`
and `USR_MISO`, the only value the block ever writes to them (R41). DESIGN CHOICE (log entry 4). -/
def RegFile.initial : RegFile where
  w := Vector.replicate 16 0
  clock := 0
  wrBitOrder := false
  rdBitOrder := false
  doutdin := false
  usrMosi := true
  usrMiso := true
  csSetup := false
  csHold := false
  ckPhase := false
  ckIdle := false
  slaveMode := false
  mosiDlen := 0
  misoDlen := 0

/-- A peripheral at reset: `CMD.USR = 0`, no transaction in flight (R30, R55). -/
def PeriphRegs.initial : PeriphRegs := { RegFile.initial with flight := none }

/-- What a task remembers at the start of an operation: nothing. The values are never read before they are stored. -/
def Locals.start : Locals := ⟨⟨0, 0, 0, 0⟩, none, 0, .initial, 0⟩

/-- The state at process start under a configuration (R57, R280). The spec gives any number of host tasks (R14, R270) and
makes the schedule and the line inputs (R58). DESIGN CHOICE (log entry 23): one host task that has issued nothing, no
others, an empty schedule, an empty line script without loopback. No step makes or ends a task, and a statement about every
state is one about any number of tasks, every schedule and every line. -/
def State.initial (p : Params) : State where
  params := p
  periphs := Vector.replicate 4 .initial
  units := List.replicate p.unitCount .zero
  last := none
  pins := List.replicate p.npins .initial
  inRoute := Vector.replicate 4 none
  locks := List.replicate p.npins none
  irqDepth := 0
  suspendDepth := 0
  off := 0
  staging := none
  mem := []
  line := ⟨[], false⟩
  draws := 0
  trace := []
  task := .fresh
  others := []
  sched := []

/-- The machine right after reset, under the parameters' defaults. -/
def State.reset : State := State.initial .default

end Sys2Proof.Machine
end

