-- ==== Sys2Proof/Machine/Flags.lean ====
section
/-! DEFINITION. The two kinds of flag (spec 10_state.md R42): `U[u].dirty` (R25) and `P[p].CMD.USR` (R30), with the
accessors of the unit table and of the peripherals they live in. There are no arithmetic condition codes. -/

namespace Sys2Proof.Machine

/-- The register block `P[p]`. -/
def State.periph (s : State) (p : Fin 4) : PeriphRegs := s.periphs.get p

/-- Store a register block. -/
def State.setPeriph (s : State) (p : Fin 4) (r : PeriphRegs) : State := { s with periphs := s.periphs.set p r p.isLt }

/-- The unit record `U[u]`; a number that is no unit has no record (read as all zero; no rule reads one). -/
def State.unit (s : State) (u : Nat) : UnitRec :=
  if s.params.inRange u then s.units.getD (u - s.params.firstUnit) .zero else .zero

/-- Store a unit record; a number that is no unit stores nothing. -/
def State.setUnit (s : State) (u : Nat) (r : UnitRec) : State :=
  if s.params.inRange u then { s with units := s.units.set (u - s.params.firstUnit) r } else s

/-- `U[u].dirty <- d` (R25). -/
def State.setDirty (s : State) (u : Nat) (d : Bool) : State := s.setUnit u { s.unit u with dirty := d }

/-- `P[p].CMD.USR`: the peripheral is busy (R30). -/
def State.busy (s : State) (p : Fin 4) : Bool := (s.periph p).usr

end Sys2Proof.Machine
end

