-- ==== Sys2Proof/Machine/Memory.lean ====
section
/-! DEFINITION. The caller's memory (spec 20_memory.md R64, R68): byte reads and writes over a list in canonical form, and
the multi-byte accesses `MemRead` and `MemWrite` of 00_scope.md R12 built from them in the order of increasing address. -/

namespace Sys2Proof.Machine

/-- Canonical form: addresses strictly rising, no entry equal to what an unlisted address reads as. -/
def Memory.wf : Memory → Bool
  | [] => true
  | c :: m => c.2 != Memory.blank && m.all (fun d => c.1 < d.1) && Memory.wf m

/-- One byte of the caller's memory. -/
def Memory.read : Memory → Nat → Byte
  | [], _ => Memory.blank
  | c :: m, a => if c.1 = a then c.2 else Memory.read m a

/-- Store one byte, keeping the canonical form. -/
def Memory.write : Memory → Nat → Byte → Memory
  | [], a, b => if b = Memory.blank then [] else [(a, b)]
  | c :: m, a, b =>
    if a < c.1 then (if b = Memory.blank then c :: m else (a, b) :: c :: m)
    else if a = c.1 then (if b = Memory.blank then m else (a, b) :: m)
    else c :: Memory.write m a b

/-- `MemRead(addr, n)` (R12). -/
def Memory.readBytes (m : Memory) (addr : Nat) : Nat → List Byte
  | 0 => []
  | n + 1 => m.read addr :: m.readBytes (addr + 1) n

/-- `MemWrite(addr, n, v)` (R12). -/
def Memory.writeBytes (m : Memory) (addr : Nat) : List Byte → Memory
  | [] => m
  | b :: bs => (m.write addr b).writeBytes (addr + 1) bs

end Sys2Proof.Machine
end

