-- ==== Sys2Proof/Machine/Ops.lean ====
section
/-! DEFINITION. The named micro-operations every rule is written in (spec 00_scope.md R12): emitting an event, writing a
register field, the calls on the collaborators (60_exceptions.md R262 to R266), and the two ends of an operation, `fail`
and `return` (R250). The block has no exceptions: its error results take their place, and nothing is saved or restored
(R258). -/

namespace Sys2Proof.Machine

/-- `emit e` (R12). -/
def State.emit (s : State) (e : Event) : State := { s with trace := s.trace ++ [e] }

/-! ## The ends of an operation -/

/-- The code of an error kind (R251 to R258). -/
def ErrorKind.code : ErrorKind → Nat
  | .invalidUnit => 1
  | .invalidMode => 2
  | .slaveNotAllowed => 3
  | .cannotSetup => 4
  | .pinLockConflict _ _ => 5
  | .outOfMemory => 6

/-- The code of a result: 0 is `Ok` (R258). -/
def OpResult.code : OpResult → Nat
  | .ok _ => 0
  | .err e _ => e.code

/-- Record the result of the running task's operation. -/
def State.setResult (s : State) (r : Option OpResult) : State := { s with task := { s.task with result := r } }

/-- `return v`: the operation ends with `Ok(v)` (R12). -/
def State.ret (s : State) (v : Value) : State := s.setResult (some (.ok v))

/-- `fail E`: the operation ends at once with the error result; what was written before stays written, nothing after it
happens (R12, R250). The one operation for every error kind. -/
def State.failWith (s : State) (e : ErrorKind) (v : Value) : State := s.setResult (some (.err e v))

/-! ## Registers -/

/-- A one-bit field as the value of a `RegWrite` event. -/
def bitWord (b : Bool) : Word := if b then 1 else 0

/-- The value of a register field but `CMD.USR`, zero-extended. -/
def RegFile.get (r : RegFile) : RegField → Word
  | .w i => Vector.get r.w i
  | .cmdUsr => 0
  | .clock => r.clock
  | .ctrlWrBitOrder => bitWord r.wrBitOrder
  | .ctrlRdBitOrder => bitWord r.rdBitOrder
  | .userDoutdin => bitWord r.doutdin
  | .userUsrMosi => bitWord r.usrMosi
  | .userUsrMiso => bitWord r.usrMiso
  | .userCsSetup => bitWord r.csSetup
  | .userCsHold => bitWord r.csHold
  | .userCkPhase => bitWord r.ckPhase
  | .pinCkIdle => bitWord r.ckIdle
  | .slaveMode => bitWord r.slaveMode
  | .mosiDlen => r.mosiDlen.setWidth 32
  | .misoDlen => r.misoDlen.setWidth 32

/-- Store a value into a register field but `CMD.USR`; each field takes as many low bits as it has. -/
def RegFile.put (r : RegFile) (f : RegField) (v : Word) : RegFile :=
  match f with
  | .w i => { r with w := r.w.set i v i.isLt }
  | .cmdUsr => r
  | .clock => { r with clock := v }
  | .ctrlWrBitOrder => { r with wrBitOrder := v.getLsbD 0 }
  | .ctrlRdBitOrder => { r with rdBitOrder := v.getLsbD 0 }
  | .userDoutdin => { r with doutdin := v.getLsbD 0 }
  | .userUsrMosi => { r with usrMosi := v.getLsbD 0 }
  | .userUsrMiso => { r with usrMiso := v.getLsbD 0 }
  | .userCsSetup => { r with csSetup := v.getLsbD 0 }
  | .userCsHold => { r with csHold := v.getLsbD 0 }
  | .userCkPhase => { r with ckPhase := v.getLsbD 0 }
  | .pinCkIdle => { r with ckIdle := v.getLsbD 0 }
  | .slaveMode => { r with slaveMode := v.getLsbD 0 }
  | .mosiDlen => { r with mosiDlen := v.setWidth 24 }
  | .misoDlen => { r with misoDlen := v.setWidth 24 }

/-- The value of a register field, zero-extended. -/
def PeriphRegs.get (r : PeriphRegs) (f : RegField) : Word := if f = .cmdUsr then bitWord r.usr else r.toRegFile.get f

/-- The write `CMD.USR <- v`: 1 starts a transaction on the registers as they stand (R72), 0 has no effect (R30), and a
transaction in flight stays what it is. -/
def PeriphRegs.start (r : PeriphRegs) (v : Bool) : PeriphRegs :=
  if v && !r.usr then { r with flight := some r.toRegFile } else r

/-- Store a value into a register field. A transaction in flight keeps its snapshot (R72, R291). -/
def PeriphRegs.put (r : PeriphRegs) (f : RegField) (v : Word) : PeriphRegs :=
  if f = .cmdUsr then r.start (v.getLsbD 0) else { r with toRegFile := r.toRegFile.put f v }

/-- `P[p].REG.FIELD <- v`: store, and append `RegWrite(p, REG.FIELD, v)` (R12). -/
def State.writeReg (s : State) (p : Fin 4) (f : RegField) (v : Word) : State :=
  (s.setPeriph p ((s.periph p).put f v)).emit (.regWrite p f v)

/-! ## GPIO and signal matrix (R262, R263) -/

/-- What is held for pin `g`. -/
def State.pin (s : State) (g : Nat) : PinState := s.pins.getD g .initial

/-- Store what is held for pin `g`. -/
def State.setPin (s : State) (g : Nat) (q : PinState) : State := { s with pins := s.pins.set g q }

/-- `Gpio.setDirection(g, d)`. -/
def State.gpioSetDirection (s : State) (g : Nat) (d : Dir) : State :=
  (s.setPin g { s.pin g with dir := d }).emit (.pinDir g d)

/-- `Gpio.setPullMode(g, m)`. -/
def State.gpioSetPullMode (s : State) (g : Nat) (m : Pull) : State :=
  (s.setPin g { s.pin g with pull := m }).emit (.pinPull g m)

/-- `Gpio.setLevel(g, v)`. -/
def State.gpioSetLevel (s : State) (g : Nat) (v : Bool) : State :=
  (s.setPin g { s.pin g with level := v }).emit (.pinLevel g v)

/-- `Matrix.selectPinFunction(g, f)`. -/
def State.matrixSelectPinFunction (s : State) (g : Nat) (f : PinFn) : State :=
  (s.setPin g { s.pin g with fn := f }).emit (.pinFunc g f)

/-- `Matrix.routeOutput(g, r)`, `invert` and `oe_invert` false (R263). -/
def State.matrixRouteOutput (s : State) (g : Nat) (r : OutRoute) : State :=
  (s.setPin g { s.pin g with out := r }).emit (.routeOut g r)

/-- `Matrix.routeInput(src, SIG(p).DIN)`, `invert` false; `none` is `DETACHED` (R263). -/
def State.matrixRouteInput (s : State) (src : Option Nat) (p : Fin 4) : State :=
  ({ s with inRoute := s.inRoute.set p src p.isLt } : State).emit (.routeIn p src)

/-- `Gpio.setOutput(g)`: GPIO function, output, `GPIO_DRIVEN`, three events (R262). -/
def State.gpioSetOutput (s : State) (g : Nat) : State :=
  ((s.matrixSelectPinFunction g .gpio).gpioSetDirection g .output).matrixRouteOutput g .gpioDriven

/-! ## Resource lock (R264) -/

/-- `owner[g]`, `none` is `FREE`. -/
def State.lockOwner (s : State) (g : Nat) : Option Nat := s.locks.getD g none

/-- What `Lock.acquire(OWNER_SPI, u, g)` answers: `ok` for a free pin and for one the same owner holds, else the conflict
with the owner. -/
def State.lockAnswer (s : State) (g : Nat) : LockResult :=
  match s.lockOwner g with
  | none => .ok
  | some o => if o = s.params.ownerSpi then .ok else .conflict o

/-- `Lock.acquire(OWNER_SPI, u, g)` with its event: a free pin becomes the caller's, nothing else changes. -/
def State.lockAcquire (s : State) (g : Nat) : State :=
  (match s.lockAnswer g with
    | .ok => { s with locks := s.locks.set g (some s.params.ownerSpi) }
    | .conflict _ => s).emit (.lockAcquire g (s.lockAnswer g))

/-! ## Scheduler (R265) -/

/-- `Sched.disableInterrupts()`. -/
def State.disableInterrupts (s : State) : State := ({ s with irqDepth := s.irqDepth + 1 } : State).emit .irqOff

/-- `Sched.enableInterrupts()`; at depth 0 it stays 0. -/
def State.enableInterrupts (s : State) : State := ({ s with irqDepth := s.irqDepth - 1 } : State).emit .irqOn

/-- `Sched.suspendAllTasks()`. -/
def State.suspendAllTasks (s : State) : State := ({ s with suspendDepth := s.suspendDepth + 1 } : State).emit .suspendAll

/-- `Sched.resumeAllTasks()`; at depth 0 it stays 0. -/
def State.resumeAllTasks (s : State) : State := ({ s with suspendDepth := s.suspendDepth - 1 } : State).emit .resumeAll

/-- `Sched.delay(ms)`: no state of the block changes (R234, R265). -/
def State.schedDelay (s : State) (ms : Nat) : State := s.emit (.delay ms)

/-! ## Heap (R266) -/

/-- `Heap.alloc(n)` when the draw is ok: a fresh buffer of `n` bytes of unspecified content. -/
def State.heapAlloc (s : State) (n : Nat) : State :=
  { s with staging := some ((List.range n).map fun k => Config.heapByte (s.draws + k)), draws := s.draws + n }

/-- `Heap.free`. -/
def State.heapFree (s : State) : State := { s with staging := none }

/-- The bytes of the staging buffer. -/
def State.raw (s : State) : List Byte := s.staging.getD []

/-- The `k`-th byte of the staging buffer. -/
def State.rawByte (s : State) (k : Nat) : Byte := s.raw.getD k 0

end Sys2Proof.Machine
end

