-- ==== Sys2Proof/Machine/Operands.lean ====
section
/-! DEFINITION. Operand forms and the byte and bit arithmetic of the rules: byte order inside the word registers (spec
20_memory.md R61), bit order on the wire (R62), coordinate, colour and touch payloads (R63, 44_display_protocol.md R203,
R206, R213, R214), the mode number (R94, R147), the delay code (R86), and where a transfer's bytes come from and go to. -/

namespace Sys2Proof.Machine

/-! ## Words, bytes, bits -/

/-- `bswap16` (R10). -/
def bswap16 (v : Half) : Half := v.extractLsb' 0 8 ++ v.extractLsb' 8 8

/-- The word whose bytes, from the least significant up, are `a b c d` (R61). -/
def wordOfBytes (a b c d : Byte) : Word := d ++ c ++ b ++ a

/-- Byte `k` (0 to 63) of a transfer buffer: `W[k div 4][8*(k mod 4)+7 : 8*(k mod 4)]` (R21). -/
def bufByte (w : Vector Word 16) (k : Nat) : Byte := (w.getD (k / 4) 0).extractLsb' (8 * (k % 4)) 8

/-- `wbit(p, k)`: bit `k` of the stream is `W[j div 4][8*(j mod 4) + 7 - (k mod 8)]` with `j = k div 8` (R62, R176). -/
def wbit (w : Vector Word 16) (k : Nat) : Bool :=
  (w.getD (k / 8 / 4) 0).getLsbD (8 * (k / 8 % 4) + 7 - k % 8)

/-- The position in the stream of bit `b` of word `i`: the inverse of `wbit`'s mapping. -/
def streamPos (i b : Nat) : Nat := 8 * (4 * i + b / 8) + (7 - b % 8)

/-- The number with `n` bits given by a function of the bit's place. -/
def natOfBits (f : Nat → Bool) : Nat → Nat
  | 0 => 0
  | n + 1 => natOfBits f n + (if f n then 2 ^ n else 0)

/-- Word `i` after `nin` received bits: the bits of the stream that fell into it, the others as they were (R176). -/
def receivedWord (inbits : List Bool) (nin i : Nat) (old : Word) : Word :=
  if nin ≤ 32 * i then old
  else BitVec.ofNat 32
    (natOfBits (fun b => if streamPos i b < nin then inbits.getD (streamPos i b) false else old.getLsbD b) 32)

/-- `for k in 0 .. nin-1: wbit(p, k) <- inbits[k]` (R176), word by word. -/
def storeReceived (inbits : List Bool) (nin : Nat) (w : Vector Word 16) : Vector Word 16 :=
  (List.range 16).foldl (fun v i => v.setIfInBounds i (receivedWord inbits nin i (w.getD i 0))) w

/-! ## Payloads -/

/-- `win(a, b)`: two coordinates, each high byte first (R203). -/
def win (a b : Half) : List Byte := [a.extractLsb' 8 8, a.extractLsb' 0 8, b.extractLsb' 8 8, b.extractLsb' 0 8]

/-- `px(c)`: a colour, high byte first (R206). -/
def px (c : Half) : List Byte := [c.extractLsb' 8 8, c.extractLsb' 0 8]

/-- `px(c0) ++ px(c1) ++ ...` (R206). -/
def pxs (cs : List Half) : List Byte := cs.flatMap px

/-- `rgb565(r, g, b) = ((r & 0xF8) << 8) | ((g & 0xFC) << 3) | (b >> 3)` (R213, 90_conflicts.md C3). -/
def rgb565 (r g b : Byte) : Half :=
  ((r &&& 0xF8).setWidth 16 <<< 8) ||| ((g &&& 0xFC).setWidth 16 <<< 3) ||| (b >>> 3).setWidth 16

/-- `((b0 << 8) | b1) >> 4`, 12 bits (R214). -/
def touchValue (b0 b1 : Byte) : BitVec 12 := (b0 ++ b1 : BitVec 16).extractLsb' 4 12

/-- The delay a code asks for, in milliseconds: 255 means 500 (R86). -/
def delayMs (code : Byte) : Nat := if code = 255 then 500 else code.toNat

/-- `CK_IDLE = mode[1]` (R147). -/
def modeIdle (m : BitVec 2) : Bool := m.getLsbD 1

/-- `CK_PHASE = mode[0]` (R147). -/
def modePhase (m : BitVec 2) : Bool := m.getLsbD 0

/-! ## Buffers of a transfer -/

/-- Where the bytes of a transfer come from: nowhere (the all-ones filler), a byte sequence the operation builds, the
caller's memory from an address on (R173, R180). -/
inductive OutSrc where
  | filler
  | bytes (bs : List Byte)
  | mem (base : Nat)
  deriving DecidableEq, Repr

/-- Where received bytes go: nowhere, the caller's memory from an address on, the staging buffer (R175). -/
inductive InDst where
  | drop
  | mem (base : Nat)
  | staging
  deriving DecidableEq, Repr

/-- An output buffer operand, or `null`. -/
def OutSrc.ofBuf : Option Buf → OutSrc
  | none => .filler
  | some b => .mem b.base

/-- An input buffer operand, or `null`. -/
def InDst.ofBuf : Option Buf → InDst
  | none => .drop
  | some b => .mem b.base

/-- `0xFF if out = null else out[k]` (R173). -/
def State.outByte (s : State) (src : OutSrc) (k : Nat) : Byte :=
  match src with
  | .filler => 0xFF
  | .bytes bs => bs.getD k 0
  | .mem base => s.mem.read (base + k)

/-- `in[off + k] <- bs[k]` for every byte of a chunk (R175). -/
def State.storeIn (s : State) (dst : InDst) (off : Nat) (bs : List Byte) : State :=
  match dst with
  | .drop => s
  | .mem base => { s with mem := s.mem.writeBytes (base + off) bs }
  | .staging => { s with staging := some (s.raw.take off ++ bs ++ s.raw.drop (off + bs.length)) }

end Sys2Proof.Machine
end

