-- ==== Sys2Proof/Machine/Clock.lean ====
section
/-! DEFINITION. The clock divisor calculator (spec 40_clock_divisor.md R100 to R110): host operations FREQ2DIV and DIV2FREQ.
The search of R105 is written with one candidate for each `n`: the smallest `pre` whose frequency does not exceed the
target, which is `SYSCLK_HZ div ((t + 1) * (n + 1))`; an obligation says that the result is the one R105 describes. -/

namespace Sys2Proof.Machine

/-- `enc(e, pre, n, h, l)` (R101). -/
def clockEnc (e pre n h l : Nat) : Word := BitVec.ofNat 32 ((e <<< 31) ||| (pre <<< 18) ||| (n <<< 12) ||| (h <<< 6) ||| l)

/-- Field `EQU_SYSCLK` (R101). -/
def clockEqu (v : Word) : Bool := v.getLsbD 31

/-- Field `PRE` (R101). -/
def clockPre (v : Word) : Nat := (v.extractLsb' 18 13).toNat

/-- Field `N` (R101). -/
def clockN (v : Word) : Nat := (v.extractLsb' 12 6).toNat

/-- Field `H` (R101). -/
def clockH (v : Word) : Nat := (v.extractLsb' 6 6).toNat

/-- Field `L` (R101). -/
def clockL (v : Word) : Nat := (v.extractLsb' 0 6).toNat

/-- `freq(v)` (R102), for a system clock of `sys` hertz. -/
def freq (sys : Nat) (v : Word) : Nat := if clockEqu v then sys else sys / ((clockPre v + 1) * (clockN v + 1))

/-- `EQU_ENC` (R103). -/
def equEnc : Word := 0x80000000

/-- `MIN_ENC = enc(0, 8191, 63, 0, 32)` (R103). -/
def minEnc : Word := clockEnc 0 8191 63 0 32

/-- `FLOOR_HZ = SYSCLK_HZ div 524288` (R103). -/
def floorHz (sys : Nat) : Nat := sys / 524288

/-- `f(n, pre)` (R105). -/
def candFreq (sys n pre : Nat) : Nat := sys / ((pre + 1) * (n + 1))

/-- The smallest `pre` with `f(n, pre) <= t`. -/
def candPre (sys t n : Nat) : Nat := sys / ((t + 1) * (n + 1))

/-- One step of the walk over `n`: keep this `n`'s candidate only when it exists and is strictly better (R105). -/
def bestStep (sys t : Nat) (best : Option (Nat × Nat)) (n : Nat) : Option (Nat × Nat) :=
  if 8191 < candPre sys t n then best
  else
    match best with
    | none => some (n, candPre sys t n)
    | some (m, pre) => if candFreq sys m pre < candFreq sys n (candPre sys t n) then some (n, candPre sys t n) else best

/-- `best(t)`: the walk over `n = 1 .. 63`, upward (R105). -/
def best (sys t : Nat) : Option (Nat × Nat) := ((List.range 63).map (· + 1)).foldl (bestStep sys t) none

/-- `frequencyToDivisor(t)` (R104). The search always finds a candidate where it is made. -/
def frequencyToDivisor (sys t : Nat) : Word :=
  if sys ≤ t then equEnc
  else if t < floorHz sys then minEnc
  else
    match best sys t with
    | some (n, pre) => clockEnc 0 pre n 0 ((n + 1) / 2)
    | none => minEnc

/-- `divisorToFrequency(v) = freq(v)` (R106). -/
def divisorToFrequency (sys : Nat) (v : Word) : Nat := freq sys v

/-- FREQ2DIV (R104): a pure function; no state but the result, no event, no error. -/
def execFreq2div (t : Word) (s : State) : Host.Outcome State Fault Refusal :=
  .next (s.ret (.encoding (frequencyToDivisor s.params.sysclkHz t.toNat)))

/-- DIV2FREQ (R106): a pure function; no state but the result, no event, no error. -/
def execDiv2freq (v : Word) (s : State) : Host.Outcome State Fault Refusal :=
  .next (s.ret (.hertz (divisorToFrequency s.params.sysclkHz v)))

end Sys2Proof.Machine
end

