-- ==== Sys2Proof/Machine/RegMap.lean ====
section
/-! DEFINITION. The numeric register map (spec 10_state.md R39, R65, R66): offsets and bit positions inside one peripheral's
block. It says which fields share a register, and so what a write of one field writes back (R65); and it gives a bus-level
view of the registers, which no operation of the block reaches. -/

namespace Sys2Proof.Machine

/-- Where a field lies: the byte offset of its register, its lowest bit, its width (R39). -/
def RegField.place : RegField → Nat × Nat × Nat
  | .cmdUsr => (0x00, 18, 1)
  | .ctrlRdBitOrder => (0x08, 25, 1)
  | .ctrlWrBitOrder => (0x08, 26, 1)
  | .clock => (0x18, 0, 32)
  | .userDoutdin => (0x1C, 0, 1)
  | .userCsHold => (0x1C, 4, 1)
  | .userCsSetup => (0x1C, 5, 1)
  | .userCkPhase => (0x1C, 7, 1)
  | .userUsrMosi => (0x1C, 27, 1)
  | .userUsrMiso => (0x1C, 28, 1)
  | .mosiDlen => (0x28, 0, 24)
  | .misoDlen => (0x2C, 0, 24)
  | .pinCkIdle => (0x34, 29, 1)
  | .slaveMode => (0x38, 30, 1)
  | .w i => (0x80 + 4 * i.val, 0, 32)

/-- The control-register fields. -/
def controlFields : List RegField :=
  [.cmdUsr, .ctrlRdBitOrder, .ctrlWrBitOrder, .clock, .userDoutdin, .userCsHold, .userCsSetup, .userCkPhase,
    .userUsrMosi, .userUsrMiso, .mosiDlen, .misoDlen, .pinCkIdle, .slaveMode]

/-- Every field of the map. -/
def allFields : List RegField := controlFields ++ (List.range 16).map fun i => .w (Fin.ofNat 16 i)

/-- The fields of the register at an offset. -/
def fieldsAt (off : Nat) : List RegField := allFields.filter fun f => f.place.1 == off

/-- The second micro-step of a field write (R65): the whole register of the field is written, the field `f` with the value
`v`, the others as they were read into `old`. -/
def PeriphRegs.writeBack (r : PeriphRegs) (old : RegFile) (f : RegField) (v : Word) : PeriphRegs :=
  { r with toRegFile := ((fieldsAt f.place.1).foldl (fun acc g => acc.put g (old.get g)) r.toRegFile).put f v }

/-- The low `width` bits. -/
def lowMask (width : Nat) : Word := BitVec.ofNat 32 (2 ^ width - 1)

/-- Put a field's value into its place in a register. -/
def insertField (acc : Word) (f : RegField) (v : Word) : Word :=
  (acc &&& ~~~(lowMask f.place.2.2 <<< f.place.2.1)) ||| ((v &&& lowMask f.place.2.2) <<< f.place.2.1)

/-- A field's value out of a register. -/
def extractField (v : Word) (f : RegField) : Word := (v >>> f.place.2.1) &&& lowMask f.place.2.2

/-- A 32-bit read at an offset: no side effect (R66); reserved offsets and bits read as free values (R39, U2). A
misaligned access is refused (R65). -/
def PeriphRegs.busRead (r : PeriphRegs) (off : Nat) : Option Word :=
  if off % 4 = 0 then
    some ((fieldsAt off).foldl (fun acc f => insertField acc f (r.get f)) (Config.reservedReg off))
  else none

/-- A 32-bit write at an offset: every field of the register is stored, reserved bits are dropped (U2). A misaligned
access is refused (R65), and so is a write of 1 to `CMD.USR` while it is 1 (R30, U3). -/
def PeriphRegs.busWrite (r : PeriphRegs) (off : Nat) (v : Word) : Option PeriphRegs :=
  if off % 4 = 0 ∧ ¬(off = 0 ∧ r.usr = true ∧ v.getLsbD 18 = true) then
    some ((fieldsAt off).foldl (fun acc f => acc.put f (extractField v f)) r)
  else none

end Sys2Proof.Machine
end

