-- ==== Sys2Proof/Machine/Flow.lean ====
section
/-! DEFINITION. How a sequence of micro-steps can go: it runs on, it spins for ever on a busy flag (spec 20_memory.md R71),
or it reaches a point to which the spec gives no meaning. -/

namespace Sys2Proof.Machine

/-- What a sequence of micro-steps comes to. -/
inductive Flow where
  /-- it ran to its end -/
  | run (s : State)
  /-- the task spins for ever; nothing after this point happens -/
  | hung (s : State)
  /-- the spec gives it no meaning -/
  | refuse (r : Refusal)

/-- Do `k` after `f`, if `f` ran to its end. -/
def Flow.andThen : Flow → (State → Flow) → Flow
  | .run s, k => k s
  | .hung s, _ => .hung s
  | .refuse r, _ => .refuse r

/-- Apply `g` to the state after `f`, if `f` ran to its end. -/
def Flow.andDo (f : Flow) (g : State → State) : Flow := f.andThen fun s => .run (g s)

/-- The outcome of an operation whose micro-steps are `f` and whose return is `ret`. A hang is a next state: the brackets
stay open and the task makes no further step (R299). -/
def Flow.outcome (f : Flow) (ret : State → State) : Host.Outcome State Fault Refusal :=
  match f with
  | .run s => .next (ret s)
  | .hung s => .next s
  | .refuse r => .refused r

end Sys2Proof.Machine
end

