-- ==== Sys2Proof/Machine/Shifter.lean ====
section
/-! DEFINITION. The shifter, the line, and the busy-wait (spec 43_transfer_engine.md R176, R177; 60_exceptions.md R267;
20_memory.md R71, R72). -/

namespace Sys2Proof.Machine

/-- `cfg` of a transaction (R176). -/
def RegFile.cfg (r : RegFile) : XferCfg := ⟨r.ckIdle, r.ckPhase, r.doutdin, r.clock⟩

/-- `nout` (R176). -/
def RegFile.nout (r : RegFile) : Nat := if r.usrMosi then r.mosiDlen.toNat + 1 else 0

/-- `nin` (R176). -/
def RegFile.nin (r : RegFile) : Nat := if r.usrMiso then r.misoDlen.toNat + 1 else 0

/-- `outbits` (R176). -/
def RegFile.outbits (r : RegFile) : List Bool := (List.range r.nout).map (wbit r.w)

/-- The preconditions under which the spec has a shifter rule: those R176 names, and both data phases enabled (U5). -/
def RegFile.shiftable (r : RegFile) : Bool :=
  !r.slaveMode && !r.wrBitOrder && !r.rdBitOrder && r.usrMosi && r.usrMiso && r.nout ≤ 512 && r.nin ≤ 512

/-- The clock periods of a transaction (R177); nothing in the model depends on it. -/
def clockPeriods (cfg : XferCfg) (nout nin : Nat) : Nat := if cfg.fullDuplex then max nout nin else nout + nin

/-- What the line answers first: the next entry of the script, else the bits sent when it is a loopback, else nothing
(R267). DESIGN CHOICE (log entry 6): it does so also while no chip-select is low or no pin feeds data-in, where R267 and U10
leave the bits unspecified; no pin level and no route is looked at. -/
def Line.answer (l : Line) (outbits : List Bool) : List Bool :=
  match l.script with
  | bits :: _ => bits
  | [] => if l.loopback then outbits else []

/-- `nin` received bits: what the line answers, and a free bit for each it does not give (R267, U10; log entry 6). -/
def State.lineBits (s : State) (outbits : List Bool) (nin : Nat) : List Bool :=
  (List.range nin).map fun k => (s.line.answer outbits).getD k (Config.lineBit (s.draws + k))

/-- The line after a transaction of `nin` received bits: one answer of the script used, `nin` draws made. -/
def State.lineNext (s : State) (nin : Nat) : State :=
  { s with line := { s.line with script := s.line.script.tail }, draws := s.draws + nin }

/-- The end of the transaction `r` of peripheral `p`, `r` the registers as they stood at its start (R72, R176): the received
bits overwrite `W` without a `RegWrite`, the `Xfer` event is emitted, `CMD.USR` is cleared. -/
def State.transact (s : State) (p : Fin 4) (r : RegFile) : State :=
  let inbits := s.lineBits r.outbits r.nin
  (((s.lineNext r.nin).setPeriph p
    { s.periph p with w := storeReceived inbits r.nin (s.periph p).w, flight := none }).emit
    (.xfer p r.cfg r.nout r.outbits r.nin inbits))

/-- The shifter's step: the end of the transaction in flight, or no meaning (R176, U4, U5); nothing when there is none. -/
def shifter (p : Fin 4) (s : State) : Flow :=
  match (s.periph p).flight with
  | none => .run s
  | some r => if r.shiftable then .run (s.transact p r) else .refuse (.shifterUnspecified p)

/-- `spin until P[p].CMD.USR = 0` (R71, R153): it ends at once when the peripheral is idle, after the transaction in
flight when there is one, and never when the peripheral is stuck. -/
def waitIdle (p : Fin 4) (s : State) : Flow :=
  if s.busy p then
    if s.params.isStuck p then .hung { s with task := { s.task with spin := some p } } else shifter p s
  else .run s

end Sys2Proof.Machine
end

