-- ==== Sys2Proof/Machine/Micro.lean ====
section
/-! DEFINITION. Operations as sequences of micro-steps (spec 00_scope.md R14): "an operation is a sequence of micro-steps (a
register access, a collaborator call, one iteration of a spin) ... micro-steps of operations issued by different tasks may
interleave wherever no bracket of rule R15 forbids it". An operation that acts outside a bracket is written as a list of
micro-steps, each one access to what the tasks share: a register, a field of a record, the marker, a collaborator. A span
that holds a bracket (a transfer, a frame) is one micro-step, and so is a busy-wait. What a micro-step has read stands in
the task's `Locals`. -/

namespace Sys2Proof.Machine

/-- What a micro-step comes to. -/
inductive Run where
  /-- the operation goes on -/
  | go (l : Locals) (s : State)
  /-- the operation has returned or failed -/
  | ended (s : State)
  /-- the task spins for ever -/
  | hung (s : State)
  /-- the spec gives it no meaning -/
  | refuse (r : Refusal)

/-- One micro-step. -/
abbrev Micro := Locals → State → Run

/-- Carry out one micro-step, or pass over it when a failed test says so. -/
def Micro.run (m : Micro) (l : Locals) (s : State) : Run :=
  if l.skip = 0 then m l s else .go { l with skip := l.skip - 1 } s

/-- Carry out micro-steps one after the other. -/
def runMicros : List Micro → Locals → State → Run
  | [], l, s => .go l s
  | m :: ms, l, s =>
    match m.run l s with
    | .go l s => runMicros ms l s
    | .ended s => .ended s
    | .hung s => .hung s
    | .refuse r => .refuse r

/-- What is left where a run stands. -/
def Run.flow : Run → Flow
  | .go _ s => .run s
  | .ended s => .run s
  | .hung s => .hung s
  | .refuse r => .refuse r

/-- A whole operation, undisturbed by other tasks. -/
def carryOut (ms : List Micro) (s : State) : Host.Outcome State Fault Refusal := (runMicros ms .start s).flow.outcome id

/-! ## The micro-steps -/

/-- A write or a call. -/
def act (f : Locals → State → State) : Micro := fun l s => .go l (f l s)

/-- A read. -/
def note (f : Locals → State → Locals) : Micro := fun l s => .go (f l s) s

/-- The end of the operation. -/
def finish (f : State → State) : Micro := fun _ s => .ended (f s)

/-- A span that holds a bracket, or a busy-wait. -/
def span (f : State → Flow) : Micro := fun l s =>
  match f s with
  | .run t => .go l t
  | .hung t => .hung t
  | .refuse r => .refuse r

/-- `if c: body`: a test, which passes over the body when it fails. -/
def branch (c : Locals → State → Bool) (body : List Micro) : List Micro :=
  note (fun l s => if c l s then l else { l with skip := body.length }) :: body

/-! ## Records and pins -/

/-- Read the four pins of a record, one by one, before the calls that name them. DESIGN CHOICE (log entry 12): the spec does
not say when a pin of a record is read. -/
def loadPins (u : Locals → Nat) : List Micro :=
  [note fun l s => { l with pins := { l.pins with sdi := (s.unit (u l)).sdi } },
    note fun l s => { l with pins := { l.pins with sdo := (s.unit (u l)).sdo } },
    note fun l s => { l with pins := { l.pins with sck := (s.unit (u l)).sck } },
    note fun l s => { l with pins := { l.pins with cs := (s.unit (u l)).cs } }]

/-- `U[u].f <- v`: write one field of a record. -/
def store (u : Nat) (f : State → UnitRec → UnitRec) : Micro := act fun _ s => s.setUnit u (f s (s.unit u))

/-- Do a call on pin `g`, or nothing when its number is 0 (R145, R148). -/
def State.onPin (s : State) (g : Nat) (f : State → Nat → State) : State := if g = 0 then s else f s g

/-- A call on a pin that has been read; a pin whose number is 0 is skipped. -/
def onPinRead (g : PinSet → Nat) (f : Locals → State → Nat → State) : Micro :=
  act fun l s => s.onPin (g l.pins) (f l)

/-- `P[p].REG.FIELD <- v` outside a bracket: the value is worked out (from a field of the record, if it is no constant), the
register is read, the register is written back with the field changed (R65). DESIGN CHOICE (log entry 12): R65 and R146 do not
say whether the record is read before or after the register; here it is read before. -/
def writeField (u : Nat) (f : RegField) (v : UnitRec → Word) : List Micro :=
  [note fun l s => { l with word := v (s.unit u) },
    note fun l s => { l with reg := (s.periph (s.params.periphOf u)).toRegFile },
    act fun l s =>
      let p := s.params.periphOf u
      (s.setPeriph p ((s.periph p).writeBack l.reg f l.word)).emit (.regWrite p f l.word)]

end Sys2Proof.Machine
end

