-- ==== Sys2Proof/Machine/DeviceConfig.lean ====
section
/-! DEFINITION. The device configuration operations (spec 41_device_config.md R120 to R132): CFGPINS, SETMODE, SETSPEED, SETCS,
SETDUPLEX, INIT. They change a unit's record and mark it dirty; none touches a hardware register, a pin, or `last`. Each is
its checks on the operands, which look at no state, and then a list of micro-steps. -/

namespace Sys2Proof.Machine

/-- `U[u].dirty <- d` (R25). -/
def markDirty (u : Nat) (d : Bool) : Micro := store u fun _ r => { r with dirty := d }

/-- `return`, with no value. -/
def returnOk : Micro := finish fun s => s.ret .none

/-! ## The setters (R120) -/

/-- `configurePins` after its checks (R121). -/
def cfgpinsSteps (u sdi sdo sck cs : Nat) : List Micro :=
  [store u fun _ r => { r with sdi := sdi }, store u fun _ r => { r with sdo := sdo },
    store u fun _ r => { r with sck := sck }, store u fun _ r => { r with cs := cs }, markDirty u true, returnOk]

/-- `setMode` after its checks (R122). -/
def setmodeSteps (u m : Nat) : List Micro :=
  [store u fun _ r => { r with mode := BitVec.ofNat 2 m }, markDirty u true, returnOk]

/-- `setSpeed` after its check (R123): `kHz * 1000` is a natural number, not reduced. -/
def setspeedSteps (u : Nat) (k : Word) : List Micro :=
  [store u fun _ r => { r with speedKhz := k },
    store u fun s r => { r with divisor := frequencyToDivisor s.params.sysclkHz (k.toNat * 1000) }, markDirty u true,
    returnOk]

/-- `setChipSelectPin` after its checks (R124). -/
def setcsSteps (u g : Nat) : List Micro := [store u fun _ r => { r with cs := g }, markDirty u true, returnOk]

/-- `setDuplex` after its check (R125). -/
def setduplexSteps (u : Nat) (d : Bool) : List Micro :=
  [store u fun _ r => { r with duplex := d }, markDirty u true, returnOk]

/-- CFGPINS (R121). -/
def execCfgpins (u sdi sdo sck cs : Nat) (s : State) : Host.Outcome State Fault Refusal :=
  if s.params.pinsOk ⟨sdi, sdo, sck, cs⟩ then
    if s.params.inRange u then carryOut (cfgpinsSteps u sdi sdo sck cs) s else .next (s.failWith .invalidUnit .none)
  else .refused .pinOutOfRange

/-- SETMODE (R122): the unit check comes before the mode check. -/
def execSetmode (u m : Nat) (s : State) : Host.Outcome State Fault Refusal :=
  if s.params.inRange u then
    if m ≤ 3 then carryOut (setmodeSteps u m) s else .next (s.failWith .invalidMode .none)
  else .next (s.failWith .invalidUnit .none)

/-- SETSPEED (R123). -/
def execSetspeed (u : Nat) (k : Word) (s : State) : Host.Outcome State Fault Refusal :=
  if s.params.inRange u then carryOut (setspeedSteps u k) s else .next (s.failWith .invalidUnit .none)

/-- SETCS (R124). -/
def execSetcs (u g : Nat) (s : State) : Host.Outcome State Fault Refusal :=
  if g < s.params.npins then
    if s.params.inRange u then carryOut (setcsSteps u g) s else .next (s.failWith .invalidUnit .none)
  else .refused .pinOutOfRange

/-- SETDUPLEX (R125). -/
def execSetduplex (u : Nat) (d : Bool) (s : State) : Host.Outcome State Fault Refusal :=
  if s.params.inRange u then carryOut (setduplexSteps u d) s else .next (s.failWith .invalidUnit .none)

/-! ## init -/

/-- `r <- Lock.acquire(OWNER_SPI, u, g)` for one of the pins that have been read, 0 skipped; a conflict ends the operation
(R130, R132). -/
def acquire (g : PinSet → Nat) : Micro := fun l s =>
  if g l.pins = 0 then .go l s
  else
    match s.lockAnswer (g l.pins) with
    | .ok => .go l (s.lockAcquire (g l.pins))
    | .conflict o => .ended ((s.lockAcquire (g l.pins)).failWith (.pinLockConflict o (g l.pins)) .none)

/-- `init` after its checks (R130): default pins for an unconfigured unit (R131), the locks in order (R132), then mode 0,
full duplex, dirty. -/
def initSteps (u : Nat) : List Micro :=
  loadPins (fun _ => u)
    ++ branch (fun l _ => l.pins == ⟨0, 0, 0, 0⟩)
      [store u fun s r => { r with sdi := (s.params.defPinsOf u).sdi },
        store u fun s r => { r with sdo := (s.params.defPinsOf u).sdo },
        store u fun s r => { r with sck := (s.params.defPinsOf u).sck },
        store u fun s r => { r with cs := (s.params.defPinsOf u).cs }]
    ++ loadPins (fun _ => u)
    ++ [acquire (·.sdi), acquire (·.sdo), acquire (·.sck), acquire (·.cs),
      store u fun _ r => { r with mode := 0 }, store u fun _ r => { r with duplex := true }, markDirty u true, returnOk]

/-- INIT (R130): unit check, master check, then the steps. -/
def execInit (u : Nat) (master : Bool) (s : State) : Host.Outcome State Fault Refusal :=
  if s.params.inRange u then
    if master then carryOut (initSteps u) s else .next (s.failWith .slaveNotAllowed .none)
  else .next (s.failWith .invalidUnit .none)

end Sys2Proof.Machine
end

