-- ==== Sys2Proof/Machine/PinMux.lean ====
section
/-! DEFINITION. Select, deselect and the pin multiplexer (spec 42_select_pinmux.md R140 to R155): host operations PINMUX,
SELECT, DESELECT, each a list of micro-steps in the order of its pseudocode. A pin whose number is 0 is skipped; the calls
that name no pin are not (log entry 10). -/

namespace Sys2Proof.Machine

/-! ## The hand-off -/

/-- `soft(u)` of R26, from the pins that have been read: one of the four differs from the dedicated pin of the unit's
peripheral. -/
def softRead (u : Locals → Nat) (l : Locals) (s : State) : Bool := l.pins != s.params.dedOf (s.params.periphOf (u l))

/-- `prev` of R143. -/
def Locals.holder (l : Locals) : Nat := l.prev.getD 0

/-- `detach(prev)` (R145). -/
def detachSteps : List Micro :=
  loadPins Locals.holder
    ++ [act fun l s => s.matrixRouteInput none (s.params.periphOf l.holder),
      onPinRead (·.sdo) fun _ s g => s.matrixRouteOutput g .gpioDriven,
      onPinRead (·.sck) fun _ s g => s.matrixRouteOutput g .gpioDriven,
      onPinRead (·.cs) fun _ s g => s.matrixRouteOutput g .gpioDriven,
      onPinRead (·.sdi) fun _ s g => s.matrixSelectPinFunction g .gpio,
      onPinRead (·.sdo) fun _ s g => s.matrixSelectPinFunction g .gpio,
      onPinRead (·.sck) fun _ s g => s.matrixSelectPinFunction g .gpio,
      onPinRead (·.cs) fun _ s g => s.matrixSelectPinFunction g .gpio,
      onPinRead (·.cs) fun _ s g => s.gpioSetLevel g true]

/-- "GPIO if s else DEDICATED" (R148). -/
def fnRead (u : Nat) (l : Locals) (s : State) : PinFn := if softRead (fun _ => u) l s then .gpio else .dedicated

/-- `attach(u)` (R148). -/
def attachSteps (u : Nat) : List Micro :=
  loadPins (fun _ => u)
    ++ [onPinRead (·.sdi) fun l s g => s.matrixSelectPinFunction g (fnRead u l s),
      onPinRead (·.sdo) fun l s g => s.matrixSelectPinFunction g (fnRead u l s),
      onPinRead (·.sck) fun l s g => s.matrixSelectPinFunction g (fnRead u l s),
      onPinRead (·.sdi) fun _ s g => s.gpioSetDirection g .input,
      onPinRead (·.sdi) fun _ s g => s.gpioSetPullMode g .pullup,
      onPinRead (·.sdo) fun _ s g => s.gpioSetDirection g .output,
      onPinRead (·.sck) fun _ s g => s.gpioSetDirection g .output]
    ++ branch (softRead fun _ => u)
      [onPinRead (·.sdi) fun _ s g => s.matrixRouteInput (some g) (s.params.periphOf u),
        onPinRead (·.sdo) fun _ s g => s.matrixRouteOutput g (.dout (s.params.periphOf u)),
        onPinRead (·.sck) fun _ s g => s.matrixRouteOutput g (.clk (s.params.periphOf u))]
    ++ branch (fun l s => !softRead (fun _ => u) l s)
      [act fun _ s => s.matrixRouteInput none (s.params.periphOf u)]
    ++ [onPinRead (·.cs) fun _ s g => s.gpioSetOutput g]

/-- `selectUnit(u)`, the hand-off (R143): a software-routed previous unit is detached, a dedicated one left as it is. -/
def selectUnitSteps (u : Nat) : List Micro :=
  [note fun l s => { l with prev := s.last }]
    ++ branch (fun l _ => l.prev != some u)
      (branch (fun l _ => l.prev.isSome)
          (loadPins Locals.holder ++ branch (softRead Locals.holder) detachSteps)
        ++ attachSteps u)

/-- `selectUnit` as an operation. -/
def pinmuxSteps (u : Nat) : List Micro := selectUnitSteps u ++ [returnOk]

/-- PINMUX (R143): it writes neither `last` nor `dirty`; an out-of-range unit is refused (R295). -/
def execPinmux (u : Nat) (s : State) : Host.Outcome State Fault Refusal :=
  if s.params.inRange u then carryOut (pinmuxSteps u) s else .refused .unitOutOfRange

/-! ## Select and deselect -/

/-- `reprogram(u)`: bus-idle wait, pin-mux setup, the eleven writes, `dirty <- 0` (R146). -/
def reprogramSteps (u : Nat) : List Micro :=
  [span fun s => waitIdle (s.params.periphOf u) s]
    ++ attachSteps u
    ++ writeField u .pinCkIdle (fun r => bitWord (modeIdle r.mode))
    ++ writeField u .userCkPhase (fun r => bitWord (modePhase r.mode))
    ++ writeField u .ctrlWrBitOrder (fun _ => 0)
    ++ writeField u .ctrlRdBitOrder (fun _ => 0)
    ++ writeField u .userDoutdin (fun r => bitWord r.duplex)
    ++ writeField u .slaveMode (fun _ => 0)
    ++ writeField u .clock (fun r => r.divisor)
    ++ writeField u .userUsrMosi (fun _ => 1)
    ++ writeField u .userUsrMiso (fun _ => 1)
    ++ writeField u .userCsSetup (fun _ => 1)
    ++ writeField u .userCsHold (fun _ => 1)
    ++ [markDirty u false]

/-- `U[last].dirty <- 1` (R144). -/
def dirtyLast : List Micro :=
  [note fun l s => { l with prev := s.last },
    act fun l s =>
      match l.prev with
      | some v => s.setDirty v true
      | none => s]

/-- `U[u].cs != 0`: a chip-select is configured (R27). -/
def hasCs (u : Nat) (_ : Locals) (s : State) : Bool := (s.unit u).cs != 0

/-- `Gpio.setLevel(U[u].cs, v)` (R151, R152). -/
def driveCsSteps (u : Nat) (v : Bool) : List Micro :=
  [note fun l s => { l with pins := { l.pins with cs := (s.unit u).cs } },
    onPinRead (·.cs) fun _ s g => s.gpioSetLevel g v]

/-- `select(u)` after its unit check, up to its return (R141): the hand-off and its dirty marks (R144) when `u` is not
`last`, the reprogram when it is dirty, chip-select low. -/
def selectBody (u : Nat) : List Micro :=
  branch (fun _ s => s.last != some u)
      (selectUnitSteps u
        ++ branch (fun _ s => s.last.isSome) dirtyLast
        ++ [markDirty u true, act fun _ s => { s with last := some u }])
    ++ branch (fun _ s => (s.unit u).dirty) (reprogramSteps u)
    ++ branch (hasCs u) (driveCsSteps u false)

/-- `deselect(u)` after its unit check, up to its return (R152): a no-op when the unit is dirty or has no chip-select. -/
def deselectBody (u : Nat) : List Micro :=
  branch (fun _ s => !(s.unit u).dirty)
    (branch (hasCs u)
      ([span fun s => waitIdle (s.params.periphOf u) s] ++ driveCsSteps u true))

/-- `select` inside a frame, which holds the suspend bracket (R200). -/
def selectFlow (u : Nat) (s : State) : Flow := (runMicros (selectBody u) .start s).flow

/-- `deselect` inside a frame. -/
def deselectFlow (u : Nat) (s : State) : Flow := (runMicros (deselectBody u) .start s).flow

/-- `select` as an operation. -/
def selectSteps (u : Nat) : List Micro := selectBody u ++ [returnOk]

/-- `deselect` as an operation. -/
def deselectSteps (u : Nat) : List Micro := deselectBody u ++ [returnOk]

/-- SELECT (R141, R142). -/
def execSelect (u : Nat) (s : State) : Host.Outcome State Fault Refusal :=
  if s.params.inRange u then carryOut (selectSteps u) s else .next (s.failWith .invalidUnit .none)

/-- DESELECT (R152, R142). -/
def execDeselect (u : Nat) (s : State) : Host.Outcome State Fault Refusal :=
  if s.params.inRange u then carryOut (deselectSteps u) s else .next (s.failWith .invalidUnit .none)

end Sys2Proof.Machine
end

