-- ==== Sys2Proof/Machine/Transfer.lean ====
section
/-! DEFINITION. The transfer engine (spec 43_transfer_engine.md R170 to R182): host operation TRANSFER, and the primitive
every display operation reduces to (R180). -/

namespace Sys2Proof.Machine

/-- Word `i` of a chunk of `n` bytes that starts at byte `off` of the output buffer; bytes beyond the chunk are 0
(R173). -/
def State.packWord (s : State) (src : OutSrc) (off n i : Nat) : Word :=
  let byte (b : Nat) : Byte := if 4 * i + b < n then s.outByte src (off + (4 * i + b)) else 0
  wordOfBytes (byte 0) (byte 1) (byte 2) (byte 3)

/-- `pack` from word `i` on, `k` words (R173). -/
def packFrom (p : Fin 4) (src : OutSrc) (off n : Nat) : Nat → Nat → State → State
  | 0, _, s => s
  | k + 1, i, s => packFrom p src off n k (i + 1) (s.writeReg p (.w (Fin.ofNat 16 i)) (s.packWord src off n i))

/-- `pack(p, out, off, n)`: the first `ceil(n/4)` word registers (R173). -/
def pack (p : Fin 4) (src : OutSrc) (off n : Nat) (s : State) : State := packFrom p src off n ((n + 3) / 4) 0 s

/-- Both length registers, then the trigger (R174). -/
def State.trigger (s : State) (p : Fin 4) (n : Nat) : State :=
  ((s.writeReg p .mosiDlen (BitVec.ofNat 32 (8 * n - 1))).writeReg p .misoDlen (BitVec.ofNat 32 (8 * n - 1))).writeReg p
    .cmdUsr 1

/-- The first `n` bytes of the word registers (R175). -/
def State.chunkBytes (s : State) (p : Fin 4) (n : Nat) : List Byte := (List.range n).map (bufByte (s.periph p).w)

/-- After a transaction: unpack when the caller wants the data, move the cursor (R172, R175). -/
def State.chunkEnd (s : State) (p : Fin 4) (dst : InDst) (n : Nat) : State :=
  { s.storeIn dst s.off (s.chunkBytes p n) with off := s.off + n }

/-- `n <- min(64, L - off)` (R172). -/
def State.chunkLen (s : State) (len : Nat) : Nat := min 64 (len - s.off)

/-- One chunk of a transfer of `len` bytes (R172): wait, pack, lengths and trigger, wait, unpack. -/
def chunk (p : Fin 4) (len : Nat) (src : OutSrc) (dst : InDst) (s : State) : Flow :=
  (waitIdle p s).andThen fun s1 =>
    (waitIdle p ((pack p src s1.off (s1.chunkLen len) s1).trigger p (s1.chunkLen len))).andDo fun s2 =>
      s2.chunkEnd p dst (s1.chunkLen len)

/-- `while off < L` (R172), for the `k` chunks that are left. -/
def chunks (p : Fin 4) (len : Nat) (src : OutSrc) (dst : InDst) : Nat → State → Flow
  | 0, s => .run s
  | k + 1, s => (chunk p len src dst s).andThen (chunks p len src dst k)

/-- The number of transactions of a transfer of `len` bytes, `ceil(len / 64)` (R178). -/
def chunkCount (len : Nat) : Nat := (len + 63) / 64

/-- `transfer` on peripheral `p` (R172): the interrupt bracket around all chunks, also when there is none. -/
def transferOn (p : Fin 4) (len : Nat) (src : OutSrc) (dst : InDst) (s : State) : Flow :=
  (chunks p len src dst (chunkCount len) { s.disableInterrupts with off := 0 }).andDo State.enableInterrupts

/-- TRANSFER (R172), for operands R171 and R68 admit. -/
def execTransfer (u : Nat) (ws : WordSize) (wc : Nat) (out inb : Option Buf) (s : State) :
    Host.Outcome State Fault Refusal :=
  if s.params.inRange u then
    if bufHolds (ws.bytes * wc) out && bufHolds (ws.bytes * wc) inb then
      if bufsApart (ws.bytes * wc) out inb then
        (transferOn (s.params.periphOf u) (ws.bytes * wc) (.ofBuf out) (.ofBuf inb) s).outcome fun t => t.ret .none
      else .refused .buffersOverlap
    else .refused .bufferTooShort
  else .refused .unitOutOfRange

end Sys2Proof.Machine
end

