-- ==== Sys2Proof/Machine/Display.lean ====
section
/-! DEFINITION. The display protocol layer (spec 44_display_protocol.md R200 to R217): SENDCMD, SENDDATA, SETWIN, PUSHPX,
PUSHREP, PUSHBUF, READPX, READPXS, READTOUCH. -/

namespace Sys2Proof.Machine

/-- `framed(u, body)` (R200): suspend, select, body, deselect, resume. The configuration keeps `u` in range; a frame on
a number that is no unit has no meaning. -/
def framed (u : Nat) (body : State → Flow) (s : State) : Flow :=
  if s.params.inRange u then
    (((selectFlow u s.suspendAllTasks).andThen body).andThen (deselectFlow u)).andDo State.resumeAllTasks
  else .refuse .unitOutOfRange

/-- The display's peripheral. -/
def State.dispPeriph (s : State) : Fin 4 := s.params.periphOf s.params.dispUnit

/-- `Gpio.setLevel(DC_PIN, DC_CMD_LEVEL)` (R205). -/
def State.cmdLevel (s : State) : State := s.gpioSetLevel s.params.dcPin s.params.dcCmdLevel

/-- `Gpio.setLevel(DC_PIN, DC_DATA_LEVEL)` (R205). -/
def State.dataLevel (s : State) : State := s.gpioSetLevel s.params.dcPin s.params.dcDataLevel

/-- `cmdPhase(c)` (R205). -/
def cmdPhase (c : Byte) (s : State) : Flow := transferOn s.dispPeriph 1 (.bytes [c]) .drop s.cmdLevel

/-- `dataPhase(ws, bytes)` (R205); the word size only fixes the total length (R64). -/
def dataPhase (bs : List Byte) (s : State) : Flow := transferOn s.dispPeriph bs.length (.bytes bs) .drop s.dataLevel

/-- `sendCommand(c)` (R201). -/
def sendCommand (c : Byte) (s : State) : Flow := framed s.params.dispUnit (cmdPhase c) s

/-- `sendData(bs)`: nothing at all for no bytes (R202). -/
def sendData (bs : List Byte) (s : State) : Flow :=
  if bs.isEmpty then .run s else framed s.params.dispUnit (dataPhase bs) s

/-- The column-address command with its payload (R90, R204). -/
def casetBody (x1 x2 : Half) (s : State) : Flow := (cmdPhase s.params.cmdCaset s).andThen (dataPhase (win x1 x2))

/-- The row-address command with its payload (R90, R204). -/
def pasetBody (y1 y2 : Half) (s : State) : Flow := (cmdPhase s.params.cmdPaset s).andThen (dataPhase (win y1 y2))

/-- `windowBody(x1, y1, x2, y2)` (R204). -/
def windowBody (x1 y1 x2 y2 : Half) (s : State) : Flow := (casetBody x1 x2 s).andThen (pasetBody y1 y2)

/-- The memory-write command and its pixel bytes (R91, R207 to R209). -/
def ramwrBody (bs : List Byte) (s : State) : Flow := (cmdPhase s.params.cmdRamwr s).andThen (dataPhase bs)

/-- The memory-read command, then `n` bytes received into the staging buffer at data level (R210, R211). -/
def ramrdBody (n : Nat) (s : State) : Flow :=
  (cmdPhase s.params.cmdRamrd s).andThen fun t => transferOn t.dispPeriph n .filler .staging t.dataLevel

/-- The pixels of a readback: one dummy byte, then three bytes for each (R211, R213). -/
def State.readback (s : State) (n : Nat) : List Half :=
  (List.range n).map fun i => rgb565 (s.rawByte (1 + 3 * i)) (s.rawByte (2 + 3 * i)) (s.rawByte (3 + 3 * i))

/-- SENDCMD (R201). -/
def execSendcmd (c : Byte) (s : State) : Host.Outcome State Fault Refusal :=
  (sendCommand c s).outcome fun t => t.ret .none

/-- SENDDATA (R202): the bytes of the caller's buffer; `null` has no meaning (log entry 21). -/
def execSenddata (buf : Option Buf) (s : State) : Host.Outcome State Fault Refusal :=
  match buf with
  | some b => (sendData (s.mem.readBytes b.base b.len) s).outcome fun t => t.ret .none
  | none => .refused .nullBuffer

/-- SETWIN (R204). -/
def execSetwin (x1 y1 x2 y2 : Half) (s : State) : Host.Outcome State Fault Refusal :=
  (framed s.params.dispUnit (windowBody x1 y1 x2 y2) s).outcome fun t => t.ret .none

/-- PUSHPX (R207). -/
def execPushpx (c : Half) (s : State) : Host.Outcome State Fault Refusal :=
  (framed s.params.dispUnit (ramwrBody (px c)) s).outcome fun t => t.ret .none

/-- PUSHREP (R208): `rep(px(c), n)`. -/
def execPushrep (c : Half) (n : Nat) (s : State) : Host.Outcome State Fault Refusal :=
  (framed s.params.dispUnit (ramwrBody (pxs (List.replicate n c))) s).outcome fun t => t.ret .none

/-- PUSHBUF (R209): the first `n` colours of the buffer; `null` "is not a legal operand" (log entry 21). -/
def execPushbuf (buf : Option (List Half)) (n : Nat) (s : State) : Host.Outcome State Fault Refusal :=
  match buf with
  | some cs =>
    if n ≤ cs.length then
      (framed s.params.dispUnit (ramwrBody (pxs (cs.take n))) s).outcome fun t => t.ret .none
    else .refused .bufferTooShort
  | none => .refused .nullBuffer

/-- READPX (R210, R212). -/
def execReadpx (x y : Half) (draw : AllocDraw) (s : State) : Host.Outcome State Fault Refusal :=
  match draw with
  | .fail => .next (s.failWith .outOfMemory (.color 0))
  | .ok =>
    (framed s.params.dispUnit (fun t => (windowBody x y x y t).andThen (ramrdBody 4)) (s.heapAlloc 4)).outcome fun t =>
      t.heapFree.ret (.color (rgb565 (t.rawByte 1) (t.rawByte 2) (t.rawByte 3)))

/-- READPXS (R211, R212). DESIGN CHOICE (log entry 9): R60 lists `readPixels` as a writer of a caller input buffer, but R211
gives it no buffer operand; the colours are the result of the operation, and no byte of the caller's memory is written. -/
def execReadpxs (x1 y1 x2 y2 : Half) (n : Nat) (draw : AllocDraw) (s : State) : Host.Outcome State Fault Refusal :=
  match draw with
  | .fail => .next (s.failWith .outOfMemory (.colors (List.replicate n 0)))
  | .ok =>
    (framed s.params.dispUnit (fun t => (windowBody x1 y1 x2 y2 t).andThen (ramrdBody (1 + 3 * n)))
      (s.heapAlloc (1 + 3 * n))).outcome fun t => t.heapFree.ret (.colors (t.readback n))

/-- The body of a touch sample: the channel command, then two bytes received (R214). -/
def touchBody (c : Byte) (s : State) : Flow :=
  (transferOn (s.params.periphOf s.params.touchUnit) 1 (.bytes [c]) .drop s).andThen fun t =>
    transferOn (t.params.periphOf t.params.touchUnit) 2 .filler .staging t

/-- READTOUCH (R214, R212). -/
def execReadtouch (c : Byte) (draw : AllocDraw) (s : State) : Host.Outcome State Fault Refusal :=
  match draw with
  | .fail => .next (s.failWith .outOfMemory (.sample 0))
  | .ok =>
    (framed s.params.touchUnit (touchBody c) (s.heapAlloc 2)).outcome fun t =>
      t.heapFree.ret (.sample (touchValue (t.rawByte 0) (t.rawByte 1)))

end Sys2Proof.Machine
end

