-- ==== Sys2Proof/Machine/Sequencer.lean ====
section
/-! DEFINITION. The controller init sequencer (spec 45_init_sequencer.md R230 to R239): host operation RUNINIT, and the items
of an init table, INITHDR, INITREC, INITREC.D, INITEND. RUNINIT starts the sequencer of the running task; after it that
task fetches one item at `tp` and carries it out, then the next. Other tasks may run between two items, between the two
frames of a record and before its delay (R235). The operation's result is recorded when the table ends. -/

namespace Sys2Proof.Machine

/-! ## Well-formed tables -/

/-- The length of the record at the head of the bytes, when all of it is there: `2 + n + D` (R87). -/
def recordLength : List Byte → Option Nat
  | _ :: argc :: r =>
    if argcCount argc + (argcDelay argc).toNat ≤ r.length then some (2 + argcCount argc + (argcDelay argc).toNat)
    else none
  | _ => none

/-- `k` records lie inside the bytes (R237). -/
def countedRecords : Nat → List Byte → Bool
  | 0, _ => true
  | k + 1, bs =>
    match recordLength bs with
    | some n => countedRecords k (bs.drop n)
    | none => false

/-- A record position whose first byte is the sentinel is reached, every record before it inside the bytes (R237). The
first argument bounds the number of records; a record has a byte, so the length of the table is enough. -/
def sentinelRecords (sentinel : Byte) : Nat → List Byte → Bool
  | 0, _ => false
  | k + 1, bs =>
    match bs with
    | [] => false
    | b :: _ =>
      b == sentinel ||
        match recordLength bs with
        | some n => sentinelRecords sentinel k (bs.drop n)
        | none => false

/-- `wellFormed(table, form)` (R237). -/
def tableWf (p : Params) (form : TableForm) (bs : List Byte) : Bool :=
  match form with
  | .counted =>
    match bs with
    | [] => false
    | k :: r => countedRecords k.toNat r
  | .sentinel => sentinelRecords p.initSentinel bs.length bs

/-! ## The cursor -/

/-- Store the sequencer of the running task. -/
def State.setSeq (s : State) (q : Seq) : State := { s with task := { s.task with seq := q } }

/-- `n` fetches: `tp` moves past `n` bytes (R232). -/
def State.advance (s : State) (n : Nat) : State := s.setSeq { s.task.seq with tp := s.task.seq.tp + n }

/-- The run ends: the sequencer stops where it stands, and `runInitTable` returns (R231). -/
def State.finishTable (s : State) : State := (s.setSeq { s.task.seq with phase := .idle }).ret .none

/-- "if form = COUNTED and remaining = 0: return" (R231). -/
def State.settle (s : State) : State :=
  if s.task.seq.form = .counted ∧ s.task.seq.remaining = 0 then s.finishTable else s

/-- The end of a record: in counted form one fewer is left (R231). -/
def State.recordDone (s : State) : State :=
  (if s.task.seq.form = .counted then s.setSeq { s.task.seq with remaining := s.task.seq.remaining - 1 } else s).settle

/-! ## The operations -/

/-- Where a run starts: the header in counted form, a record position in sentinel form (R231). -/
def Seq.start (table : List Byte) (form : TableForm) : Seq :=
  ⟨match form with
    | .counted => .header
    | .sentinel => .record, form, table, 0, 0⟩

/-- RUNINIT (R231): a well-formed table is started from its first byte; any other is refused (R237). -/
def execRuninit (table : List Byte) (form : TableForm) (s : State) : Host.Outcome State Fault Refusal :=
  if tableWf s.params form table then .next ((s.setSeq (.start table form)).setResult none)
  else .refused .malformedTable

/-- INITHDR (R83, R231): `remaining <- fetch()`, and the end of the run when it is 0. -/
def execInithdr (count : Byte) (s : State) : Host.Outcome State Fault Refusal :=
  let t := s.advance 1
  .next (t.setSeq { t.task.seq with phase := .record, remaining := count.toNat }).settle

/-- The COMMAND and ARGS states of a record (R231): `cmd` and `argc` are fetched, the command is sent, the arguments are
fetched, then sent. Each frame holds its own bracket; "between two frames ... any other task may run" (R235). -/
def recordSteps (cmd : Byte) (args : List Byte) : List Micro :=
  [act fun _ s => s.advance 2, span (sendCommand cmd), act fun _ s => s.advance args.length, span (sendData args)]

/-- A record without delay (R84, R231). -/
def initrecSteps (cmd : Byte) (args : List Byte) : List Micro := recordSteps cmd args ++ [finish State.recordDone]

/-- A record with delay (R84, R86, R231): the delay code is fetched, the delay asked for outside every bracket of the block
(R233). A delay while the caller holds a bracket of its own is outside the spec (R265); DESIGN CHOICE (log entry 19): it
appends its event and goes on, the other tasks held as before. -/
def initrecDSteps (cmd : Byte) (args : List Byte) (code : Byte) : List Micro :=
  recordSteps cmd args
    ++ [act fun _ s => s.advance 1, act fun _ s => s.schedDelay (delayMs code), finish State.recordDone]

/-- INITREC (R84, R231). -/
def execInitrec (cmd : Byte) (args : List Byte) (s : State) : Host.Outcome State Fault Refusal :=
  carryOut (initrecSteps cmd args) s

/-- INITREC.D (R84, R86, R231): as INITREC, then the delay. -/
def execInitrecD (cmd : Byte) (args : List Byte) (code : Byte) (s : State) : Host.Outcome State Fault Refusal :=
  carryOut (initrecDSteps cmd args code) s

/-- INITEND (R88, R231): the sentinel is consumed, nothing is sent, the run ends. -/
def execInitend (s : State) : Host.Outcome State Fault Refusal := .next (s.advance 1).finishTable

end Sys2Proof.Machine
end

