-- ==== Sys2Proof/Machine/WireCommands.lean ====
section
/-! DEFINITION. The four controller commands the block puts on the wire (spec 30_encoding.md R89 to R92): CASET, PASET, RAMWR,
RAMRD. "The block emits these, it does not execute them" (R3): the meaning of each is its emission inside the frame that
is open, the command byte at command level and the payload at data level, and nothing else (R205; log entry 11). The
display operations are frames around these same bodies. -/

namespace Sys2Proof.Machine

/-- CASET (R90). -/
def execCaset (x1 x2 : Half) (s : State) : Host.Outcome State Fault Refusal :=
  (casetBody x1 x2 s).outcome fun t => t.ret .none

/-- PASET (R90). -/
def execPaset (y1 y2 : Half) (s : State) : Host.Outcome State Fault Refusal :=
  (pasetBody y1 y2 s).outcome fun t => t.ret .none

/-- RAMWR (R91). -/
def execRamwr (cs : List Half) (s : State) : Host.Outcome State Fault Refusal :=
  (ramwrBody (pxs cs) s).outcome fun t => t.ret .none

/-- RAMRD (R92): the command, then `1 + 3*n` bytes received and decoded. The spec gives a staging buffer and an allocation
draw to the three readbacks only (R51, R212). DESIGN CHOICE (log entry 11): issued by itself, RAMRD receives into a staging
buffer of its own that is always there; it takes no draw and does not fail. -/
def execRamrd (n : Nat) (s : State) : Host.Outcome State Fault Refusal :=
  (ramrdBody (1 + 3 * n) (s.heapAlloc (1 + 3 * n))).outcome fun t => t.heapFree.ret (.colors (t.readback n))

end Sys2Proof.Machine
end

