-- ==== Sys2Proof/Machine/Dispatch.lean ====
section
/-! DEFINITION. What each instruction does: one arm per constructor, each a call of its meaning. -/

namespace Sys2Proof.Machine

def exec (i : Instr) (s : State) : Host.Outcome State Fault Refusal :=
  match i with
  | .freq2div t => Sys2Proof.Machine.execFreq2div t s
  | .div2freq v => Sys2Proof.Machine.execDiv2freq v s
  | .pinmux u => Sys2Proof.Machine.execPinmux u s
  | .transfer u ws wc o i2 => Sys2Proof.Machine.execTransfer u ws wc o i2 s
  | .cfgpins u a b c d => Sys2Proof.Machine.execCfgpins u a b c d s
  | .setmode u m => Sys2Proof.Machine.execSetmode u m s
  | .setspeed u k => Sys2Proof.Machine.execSetspeed u k s
  | .setcs u g => Sys2Proof.Machine.execSetcs u g s
  | .setduplex u d => Sys2Proof.Machine.execSetduplex u d s
  | .select u => Sys2Proof.Machine.execSelect u s
  | .deselect u => Sys2Proof.Machine.execDeselect u s
  | .init u m => Sys2Proof.Machine.execInit u m s
  | .sendcmd c => Sys2Proof.Machine.execSendcmd c s
  | .senddata b => Sys2Proof.Machine.execSenddata b s
  | .setwin x1 y1 x2 y2 => Sys2Proof.Machine.execSetwin x1 y1 x2 y2 s
  | .pushpx c => Sys2Proof.Machine.execPushpx c s
  | .pushrep c n => Sys2Proof.Machine.execPushrep c n s
  | .pushbuf b n => Sys2Proof.Machine.execPushbuf b n s
  | .readpx x y d => Sys2Proof.Machine.execReadpx x y d s
  | .readpxs x1 y1 x2 y2 n d => Sys2Proof.Machine.execReadpxs x1 y1 x2 y2 n d s
  | .readtouch c d => Sys2Proof.Machine.execReadtouch c d s
  | .runinit t f => Sys2Proof.Machine.execRuninit t f s
  | .inithdr k => Sys2Proof.Machine.execInithdr k s
  | .initrec c a => Sys2Proof.Machine.execInitrec c a s
  | .initrecD c a d => Sys2Proof.Machine.execInitrecD c a d s
  | .initend => Sys2Proof.Machine.execInitend s
  | .caset x1 x2 => Sys2Proof.Machine.execCaset x1 x2 s
  | .paset y1 y2 => Sys2Proof.Machine.execPaset y1 y2 s
  | .ramwr cs => Sys2Proof.Machine.execRamwr cs s
  | .ramrd n => Sys2Proof.Machine.execRamrd n s

end Sys2Proof.Machine
end

