-- ==== Sys2Proof/Machine/Fetch.lean ====
section
/-! DEFINITION. Which task takes the next step, and which instruction it runs (spec 00_scope.md R14, R15;
45_init_sequencer.md R232): the item at the sequencer's cursor when the task is inside `runInitTable`, else the first
operation the task has issued. -/

namespace Sys2Proof.Machine

/-- No bracket is held: "while either depth is nonzero no other host task takes a step" (R265, R15). -/
def State.unbracketed (s : State) : Bool := s.irqDepth == 0 && s.suspendDepth == 0

/-- The `k`-th other task changes places with the running one. -/
def State.swapTask (s : State) (k : Nat) : State :=
  match s.others[k]? with
  | some t => { s with task := t, others := s.others.set k s.task }
  | none => s

/-- The state in which the next step's task has the processor: one turn of the schedule is used, and the switch it asks for
happens only while no bracket is held (R15). -/
def switchTask (s : State) : State :=
  match s.sched with
  | [] => s
  | turn :: rest =>
    let s : State := { s with sched := rest }
    if s.unbracketed then s.swapTask turn.task else s

/-- How many micro-steps the next step takes; `none` is to the end of the operation. -/
def State.budget (s : State) : Option Nat :=
  match s.sched with
  | [] => none
  | turn :: _ => turn.micros

/-- What the machine does next. -/
inductive Fetched where
  /-- the running task spins for ever (R299) -/
  | spinning
  /-- the running task has nothing to do (R280: the block does nothing until a host issues an operation) -/
  | idle
  /-- the record at `tp` runs out of the table -/
  | overrun
  /-- the descriptor is no instruction -/
  | bad (e : DecodeError)
  /-- the operation the running task is in the middle of -/
  | resume (o : Op)
  /-- an instruction, and the state it runs in -/
  | instr (i : Instr) (s : State)
  deriving DecidableEq, Repr

/-- The bytes of the running table from `tp` to its end. -/
def State.tableRest (s : State) : List Byte := s.task.seq.table.drop s.task.seq.tp

/-- The item of the running table at `tp`, read in a format. -/
def fetchItem (f : Format) (s : State) : Fetched :=
  match decode s.params f s.tableRest with
  | .ok (i, _) => .instr i s
  | .error _ => .overrun

/-- The first operation the task has issued; it leaves the queue. DESIGN CHOICE (log entry 2): bytes of the descriptor after
its last operand are ignored. DESIGN CHOICE (log entry 3): the spec lets hosts issue the 22 operations only (R3, R80), but a
descriptor here may be of any format; a wire command, or an item of an init table, that stands in the queue is carried out,
the item outside every table, on the cursor and the count of the task's sequencer as they stand. -/
def fetchIssued (s : State) : Fetched :=
  match s.task.issue with
  | [] => .idle
  | d :: rest =>
    match decode s.params d.format d.bytes with
    | .ok (i, _) => .instr i { s with task := { s.task with issue := rest } }
    | .error e => .bad e

/-- What the running task does next. -/
def fetch (s : State) : Fetched :=
  if s.task.spin.isSome then .spinning
  else
    match s.task.op with
    | some o => .resume o
    | none =>
      match s.task.seq.phase with
      | .idle => fetchIssued s
      | .header => fetchItem .inithdr s
      | .record => fetchItem (.initrec s.task.seq.form) s

/-- The first peripheral with a transaction to carry out, that is not stuck. -/
def State.pendingShift (s : State) : Option (Fin 4) :=
  [0, 1, 2, 3].find? fun p => s.busy p && !s.params.isStuck p

/-- A step in which no host task moves: a shifter with a transaction pending takes its step (R176: "under weak fairness
it takes it"); otherwise nothing changes. -/
def hardwareStep (s : State) : Flow :=
  match s.pendingShift with
  | some p => shifter p s
  | none => .run s

/-! ## Placing an instruction where the machine fetches -/

/-- `s` about to carry out the first item of `bs`, the table its running task is in, at the header or at a record. -/
def State.withTable (s : State) (form : TableForm) (phase : SeqPhase) (bs : List Byte) : State :=
  { s with
    task := { s.task with op := none, seq := ⟨phase, form, bs, 0, 1⟩, spin := none }
    sched := [] }

/-- `s` with a descriptor at the head of the running task's queue, and nothing before it. -/
def State.withIssued (s : State) (d : Descriptor) : State :=
  { s with
    task := { s.task with
      issue := d :: s.task.issue, op := none, seq := { s.task.seq with phase := .idle }, spin := none }
    sched := [] }

/-- `s` with the bytes of an instruction of a format where the next step fetches it (log entry 3). -/
def State.withInstrBytes (s : State) (f : Format) (bs : List Byte) : State :=
  match f with
  | .hostop => s.withIssued ⟨.hostop, bs⟩
  | .wirecmd => s.withIssued ⟨.wirecmd, bs⟩
  | .inithdr => s.withTable .counted .header bs
  | .initrec form => s.withTable form .record bs

end Sys2Proof.Machine
end

