-- ==== Sys2Proof/Machine/Program.lean ====
section
/-! DEFINITION. Which instructions are sequences of micro-steps that other tasks may come between (spec 00_scope.md R14, R15,
70_reset_and_hazards.md R290), and how a part of one is carried out. -/

namespace Sys2Proof.Machine

/-- The micro-steps of an instruction. None where there is nothing for another task to come between: an operation that holds
a bracket from its first access to its last (a transfer, a frame), one that accesses nothing the tasks share, one turned
away by its checks, a wire command, which stands inside an open frame (log entry 12). -/
def microsOf (p : Params) : Instr → Option (List Micro)
  | .cfgpins u a b c d => if p.inRange u && p.pinsOk ⟨a, b, c, d⟩ then some (cfgpinsSteps u a b c d) else none
  | .setmode u m => if p.inRange u && m ≤ 3 then some (setmodeSteps u m) else none
  | .setspeed u k => if p.inRange u then some (setspeedSteps u k) else none
  | .setcs u g => if p.inRange u && g < p.npins then some (setcsSteps u g) else none
  | .setduplex u d => if p.inRange u then some (setduplexSteps u d) else none
  | .init u m => if p.inRange u && m then some (initSteps u) else none
  | .pinmux u => if p.inRange u then some (pinmuxSteps u) else none
  | .select u => if p.inRange u then some (selectSteps u) else none
  | .deselect u => if p.inRange u then some (deselectSteps u) else none
  | .initrec c a => some (initrecSteps c a)
  | .initrecD c a d => some (initrecDSteps c a d)
  | .freq2div _ | .div2freq _ | .transfer _ _ _ _ _ | .sendcmd _ | .senddata _ | .setwin _ _ _ _ | .pushpx _
  | .pushrep _ _ | .pushbuf _ _ | .readpx _ _ _ | .readpxs _ _ _ _ _ _ | .readtouch _ _ | .runinit _ _ | .inithdr _
  | .initend | .caset _ _ | .paset _ _ | .ramwr _ | .ramrd _ => none

/-- Store the operation the running task is in the middle of. -/
def State.setOp (s : State) (o : Option Op) : State := { s with task := { s.task with op := o } }

/-- Where the running task stands after `n` micro-steps of an operation, whose micro-steps from `o.pos` on are `ms`: in the
middle of it, or past its end. -/
def someMicros (n : Nat) (o : Op) (ms : List Micro) (s : State) : Host.Outcome State Fault Refusal :=
  match runMicros (ms.take n) o.locals (s.setOp none) with
  | .go l t => .next (if n < ms.length then t.setOp (some { o with pos := o.pos + n, locals := l }) else t)
  | .ended t => .next t
  | .hung t => .next t
  | .refuse r => .refused r

/-- Begin an instruction: all of it, or `n` of its micro-steps. -/
def beginInstr (budget : Option Nat) (i : Instr) (s : State) : Host.Outcome State Fault Refusal :=
  match budget, microsOf s.params i with
  | some n, some ms => someMicros n ⟨i, 0, .start⟩ ms s
  | _, _ => exec i s

/-- Go on with the operation the running task is in the middle of: to its end, or for `n` micro-steps. -/
def resumeOp (budget : Option Nat) (o : Op) (s : State) : Host.Outcome State Fault Refusal :=
  match budget, microsOf s.params o.instr with
  | some n, some ms => someMicros n o (ms.drop o.pos) s
  | none, some ms => (runMicros (ms.drop o.pos) o.locals (s.setOp none)).flow.outcome id
  | _, none => exec o.instr (s.setOp none)

end Sys2Proof.Machine
end

