-- ==== Sys2Proof/Machine/Step.lean ====
section
/-! DEFINITION. One step of the machine (spec 00_scope.md R14, R15): the task switch, then the running task goes on with the
operation it is in the middle of, or fetches an instruction and begins it. A step is a whole operation, or as many of its
micro-steps as the schedule's turn says. -/

namespace Sys2Proof.Machine

/-- Carry out what was fetched in `s`. -/
def stepFetched (budget : Option Nat) (s : State) : Fetched → Host.Outcome State Fault Refusal
  | .spinning => (hardwareStep s).outcome id
  | .idle => (hardwareStep s).outcome id
  | .overrun => .fault .tableOverrun
  | .bad e => .refused (.badEncoding e)
  | .resume o => resumeOp budget o s
  | .instr i t => beginInstr budget i t

/-- One step. -/
def step (s : State) : Host.Outcome State Fault Refusal :=
  stepFetched s.budget (switchTask s) (fetch (switchTask s))

/-- `s` with a word of the opcode table where the next step fetches its instruction. -/
def State.withFetchWord (s : State) (nbits w : Nat) : State :=
  s.withInstrBytes (tableFormat s.params nbits w) (Sys2Proof.tableBytes s.params nbits w)

end Sys2Proof.Machine
end

