-- ==== Sys2Proof/Safety.lean ====
section
/-! DEFINITION. What counts as a safe run and as the end of a run (spec 70_reset_and_hazards.md R302; 20_memory.md R77), and the
words the statements use: what an operation added to the trace, what went over the wire, when a peripheral can carry a
transaction, the invariants of 10_state.md R59. -/

namespace Sys2Proof.Safety

open Sys2Proof.Machine

/-! ## Runs -/

/-- The outcome is a next state. -/
def completes : Host.Outcome State Fault Refusal → Bool
  | .next _ => true
  | .fault _ => false
  | .refused _ => false

/-- A task has returned from its last operation (R302). -/
def taskDone (t : Task) : Bool := t.issue.isEmpty && t.op.isNone && t.seq.phase == .idle && t.spin.isNone

/-- A run is over: every task has returned from its last operation, no `CMD.USR` is 1, both depths are 0 (R302). -/
def runOver (s : State) : Bool :=
  taskDone s.task && s.others.all taskDone && !s.busy 0 && !s.busy 1 && !s.busy 2 && !s.busy 3 && s.unbracketed

/-- No task is in the middle of an operation, and the schedule breaks none off: every operation runs undisturbed by the
other tasks. -/
structure undisturbed (s : State) : Prop where
  running : s.task.op = none
  others : ∀ t ∈ s.others, t.op = none
  sched : ∀ turn ∈ s.sched, turn.micros = none

/-! ## The trace -/

/-- The events the outside world sees (R77). -/
def onWire : Event → Bool
  | .pinLevel _ _ | .pinDir _ _ | .pinPull _ _ | .pinFunc _ _ | .routeIn _ _ | .routeOut _ _ | .xfer _ _ _ _ _ _ => true
  | .regWrite _ _ _ | .delay _ | .irqOff | .irqOn | .suspendAll | .resumeAll | .lockAcquire _ _ => false

/-- What the outside world sees of a run, in order (R77). -/
def wireTrace (s : State) : List Event := s.trace.filter onWire

/-- The events `t` has beyond those of `s`. -/
def newEvents (s t : State) : List Event := t.trace.drop s.trace.length

/-- The register writes among some events, in order. -/
def regWrites (es : List Event) : List Event :=
  es.filter fun
    | .regWrite _ _ _ => true
    | _ => false

/-- The sixteen `W` registers and `CMD.USR` aside: the writes of configuration fields among some events. -/
def configWrites (es : List Event) : List Event :=
  es.filter fun
    | .regWrite _ (.w _) _ => false
    | .regWrite _ .cmdUsr _ => false
    | .regWrite _ .mosiDlen _ => false
    | .regWrite _ .misoDlen _ => false
    | .regWrite _ _ _ => true
    | _ => false

/-- One transaction as the outside world sees it: the level of the mode signal while it runs (R77), the bits sent, the
bits received. -/
structure WireXfer where
  level : Bool
  sent : List Bool
  received : List Bool
  deriving DecidableEq, Repr

/-- The transactions among some events, each with the level of pin `dc` at that moment, which is `level` at the
start. -/
def wireLog (dc : Nat) : Bool → List Event → List WireXfer
  | _, [] => []
  | level, .pinLevel g v :: es => wireLog dc (if g = dc then v else level) es
  | level, .xfer _ _ _ outbits _ inbits :: es => ⟨level, outbits, inbits⟩ :: wireLog dc level es
  | level, .regWrite _ _ _ :: es | level, .pinDir _ _ :: es | level, .pinPull _ _ :: es | level, .pinFunc _ _ :: es
  | level, .routeIn _ _ :: es | level, .routeOut _ _ :: es | level, .delay _ :: es | level, .irqOff :: es
  | level, .irqOn :: es | level, .suspendAll :: es | level, .resumeAll :: es | level, .lockAcquire _ _ :: es =>
    wireLog dc level es

/-- The transactions an operation made, with the level of the mode signal `DC_PIN` (R89). -/
def wire (s t : State) : List WireXfer :=
  wireLog s.params.dcPin (s.pin s.params.dcPin).level (newEvents s t)

/-- Bytes on the wire: byte 0 first, in each byte the most significant bit first (R62). -/
def bitsOf (bs : List Byte) : List Bool := bs.flatMap fun b => (List.range 8).map fun k => b.getLsbD (7 - k)

/-- Byte `k` of a stream of bits, most significant bit first (R62). -/
def byteAt (bits : List Bool) (k : Nat) : Byte :=
  BitVec.ofNat 8 (natOfBits (fun b => bits.getD (8 * k + (7 - b)) false) 8)

/-- The bytes of a stream of bits. -/
def bytesOf (bits : List Bool) : List Byte := (List.range (bits.length / 8)).map (byteAt bits)

/-- All bits sent, in order. -/
def sentBits (w : List WireXfer) : List Bool := w.flatMap (·.sent)

/-- All bits received, in order. -/
def receivedBits (w : List WireXfer) : List Bool := w.flatMap (·.received)

/-- Word `j` of a chunk of bytes: four bytes, the first in the low bits, 0 where the chunk has ended (R61, R173). -/
def chunkWord (bs : List Byte) (j : Nat) : Word :=
  ((bs.getD (4 * j + 3) 0 ++ bs.getD (4 * j + 2) 0 : BitVec 16) ++ (bs.getD (4 * j + 1) 0 ++ bs.getD (4 * j) 0 : BitVec 16)
    : BitVec 32)

/-- The events of one chunk of bytes: its word registers in order, both lengths, the trigger, the transaction (R172 to
R174, R176). -/
def chunkEvents (p : Fin 4) (cfg : XferCfg) (bs : List Byte) (x : WireXfer) : List Event :=
  (List.range ((bs.length + 3) / 4)).map (fun j => .regWrite p (.w (Fin.ofNat 16 j)) (chunkWord bs j))
    ++ [.regWrite p .mosiDlen (BitVec.ofNat 32 (8 * bs.length - 1)),
      .regWrite p .misoDlen (BitVec.ofNat 32 (8 * bs.length - 1)), .regWrite p .cmdUsr 1,
      .xfer p cfg (8 * bs.length) x.sent (8 * bs.length) x.received]

/-- The bytes of chunk `i`: at most 64 (R172). -/
def chunkOf (bs : List Byte) (i : Nat) : List Byte := (bs.drop (64 * i)).take 64

/-- The events of a transfer of `bs` on peripheral `p`: the interrupt bracket around its chunks, `w` its transactions
(R172). -/
def transferEvents (p : Fin 4) (cfg : XferCfg) (bs : List Byte) (w : List WireXfer) : List Event :=
  .irqOff :: ((List.range w.length).flatMap (fun i => chunkEvents p cfg (chunkOf bs i) (w.getD i ⟨false, [], []⟩))
    ++ [.irqOn])

/-- Byte `k` of the buffer `W` (R61). -/
def wordByte (r : PeriphRegs) (k : Nat) : Byte := (r.w.getD (k / 4) 0).extractLsb' (8 * (k % 4)) 8

/-! ## When a transfer runs to its end -/

/-- Both data phases are enabled, as every reprogram leaves them (R34, R146). -/
def bothPhases (r : PeriphRegs) : Prop := r.usrMosi = true ∧ r.usrMiso = true

/-- A peripheral configuration for which the spec has a shifter rule: master, most significant bit first, both data phases
enabled (R176, U5; log entry 16). -/
def shiftRule (r : PeriphRegs) : Prop :=
  r.slaveMode = false ∧ r.wrBitOrder = false ∧ r.rdBitOrder = false ∧ bothPhases r

/-- The peripheral is idle and not stuck. -/
def idle (s : State) (p : Fin 4) : Prop := s.busy p = false ∧ s.params.isStuck p = false

/-- The peripheral is idle, not stuck, and configured so that the shifter has a rule. -/
def periphReady (s : State) (p : Fin 4) : Prop := idle s p ∧ shiftRule (s.periph p)

/-- The tables have one entry for each unit and each pin. -/
def sized (s : State) : Prop :=
  s.units.length = s.params.unitCount ∧ s.pins.length = s.params.npins ∧ s.locks.length = s.params.npins

/-- Unit `u` holds the bus and the hardware reflects its record: a `select` of it is the cheap case (R140). -/
abbrev held (s : State) (u : Nat) : Prop := s.last = some u ∧ (s.unit u).dirty = false

/-- A frame on unit `u` runs to its end: the unit is one, its peripheral is idle and not stuck, and when no reprogram is
due the configuration is already one the shifter has a rule for. -/
def frameReady (s : State) (u : Nat) : Prop :=
  s.params.inRange u = true ∧ s.units.length = s.params.unitCount ∧ idle s (s.params.periphOf u)
    ∧ (held s u → shiftRule (s.periph (s.params.periphOf u)))

/-- The registers of R31 to R37 of a peripheral hold what a reprogram writes from a record (R146). -/
def reflects (r : PeriphRegs) (rec : UnitRec) : Prop :=
  r.ckIdle = modeIdle rec.mode ∧ r.ckPhase = modePhase rec.mode ∧ r.wrBitOrder = false ∧ r.rdBitOrder = false
    ∧ r.doutdin = rec.duplex ∧ r.slaveMode = false ∧ r.clock = rec.divisor ∧ r.usrMosi = true ∧ r.usrMiso = true
    ∧ r.csSetup = true ∧ r.csHold = true

/-- Nothing but unit records and the recorded result, `Ok`, differs. -/
def recordsOnly (s t : State) : Prop :=
  t = { s with units := t.units, task := { s.task with result := some (.ok .none) } }

/-- A frame on the display unit runs to its end. -/
abbrev displayReady (s : State) : Prop := frameReady s s.params.dispUnit

/-- The pins of a record that are configured. -/
def nonzeroPins (r : UnitRec) : List Nat := [r.sdi, r.sdo, r.sck, r.cs].filter (· ≠ 0)

/-- The pins a `select(u)` may write: those of `u` and those of the unit that held the bus. -/
def handoffPins (s : State) (u : Nat) : List Nat :=
  nonzeroPins (s.unit u) ++ (match s.last with
    | some prev => nonzeroPins (s.unit prev)
    | none => [])

/-- What a frame on unit `u` leaves besides its traffic: the unit holds the bus, clean, its hardware just reprogrammed
when it did not hold the bus clean before; the unit that lost the bus is dirty; every other record, every other
peripheral, every pin but those of the two units and the mode signal, the caller's memory, the locks, the brackets and
the tasks' queues are as they were; the chip-select is high (R200, R141, R152). -/
structure frameLeaves (s t : State) (u : Nat) : Prop where
  last : t.last = some u
  unit : t.unit u = { s.unit u with dirty := false }
  loser : ∀ v, v ≠ u → s.last = some v → s.params.inRange v = true → t.unit v = { s.unit v with dirty := true }
  rest : ∀ v, v ≠ u → s.last ≠ some v → t.unit v = s.unit v
  others : ∀ q, q ≠ s.params.periphOf u → t.periph q = s.periph q
  idle : t.busy (s.params.periphOf u) = false
  fresh : ¬held s u → reflects (t.periph (s.params.periphOf u)) (s.unit u)
  pins : ∀ g, g ∉ handoffPins s u → g ≠ s.params.dcPin → t.pin g = s.pin g
  cs : (s.unit u).cs ≠ 0 → (s.unit u).cs < s.pins.length → (t.pin (s.unit u).cs).level = true
  memory : ∀ a, t.mem.read a = s.mem.read a
  locks : t.locks = s.locks
  irqDepth : t.irqDepth = s.irqDepth
  suspendDepth : t.suspendDepth = s.suspendDepth
  params : t.params = s.params
  tasks : t.others = s.others ∧ t.sched = s.sched ∧ t.task.issue = s.task.issue ∧ t.task.op = s.task.op
    ∧ t.task.spin = s.task.spin

/-! ## One frame -/

/-- What may happen in a frame before its chip-select falls: calls on pins, none of which lowers a level, and register
writes; no transaction, no bracket, no delay. -/
def setupEvent : Event → Bool
  | .pinLevel _ v => v
  | .pinDir _ _ | .pinPull _ _ | .pinFunc _ _ | .routeIn _ _ | .routeOut _ _ | .regWrite _ _ _ => true
  | .xfer _ _ _ _ _ _ | .delay _ | .irqOff | .irqOn | .suspendAll | .resumeAll | .lockAcquire _ _ => false

/-- What may happen in a frame while its chip-select is low: transfers, and levels of the mode signal `dc`; no other pin is
touched, no scheduler bracket, no delay. -/
def bodyEvent (dc : Nat) : Event → Bool
  | .pinLevel g _ => g == dc
  | .xfer _ _ _ _ _ _ | .regWrite _ _ _ | .irqOff | .irqOn => true
  | .pinDir _ _ | .pinPull _ _ | .pinFunc _ _ | .routeIn _ _ | .routeOut _ _ | .delay _ | .suspendAll | .resumeAll
  | .lockAcquire _ _ => false

/-- The chip-select of a record set to a level; no event when none is configured (R151). -/
def csEvents (r : UnitRec) (v : Bool) : List Event := if r.cs = 0 then [] else [.pinLevel r.cs v]

/-- The events are those of one frame on unit `u` (R200): one scheduler bracket from the first to the last; the chip-select
falls once, before the first transaction, and rises once, after the last; between the two no pin but the mode signal is
touched. -/
def oneFrame (s : State) (u : Nat) (es : List Event) : Prop :=
  ∃ pre body,
    es = .suspendAll ::
        (pre ++ csEvents (s.unit u) false ++ body ++ csEvents (s.unit u) true ++ [.resumeAll])
      ∧ (∀ e ∈ pre, setupEvent e = true) ∧ ∀ e ∈ body, bodyEvent s.params.dcPin e = true

/-- The wire carries a command byte at command level, then a payload at data level, in as few transactions as chunks of
64 bytes allow (R89, R205, R178). -/
def commandWithPayload (s : State) (w : List WireXfer) (c : Byte) (bs : List Byte) : Prop :=
  ∃ r D, w = ⟨s.params.dcCmdLevel, bitsOf [c], r⟩ :: D ∧ (∀ x ∈ D, x.level = s.params.dcDataLevel)
    ∧ sentBits D = bitsOf bs ∧ D.length = (bs.length + 63) / 64

/-- The events of a command or data phase on the display (R205): the mode signal, then the transfer of `bs`, `w` its
transactions. -/
def phaseEvents (s : State) (level : Bool) (bs : List Byte) (w : List WireXfer) : List Event :=
  .pinLevel s.params.dcPin level :: transferEvents s.dispPeriph (s.periph s.dispPeriph).cfg bs w

/-- A wire command `c` with payload `bs` ends with value `v` and leaves nothing but its two phases: the events are theirs and
no other, the mode signal ends at data level, the display's peripheral keeps all but its data registers, the cursor and the
line move as a transfer moves them, the staging buffer is `staging` (R89, R205). -/
structure emitsOnly (s t : State) (c : Byte) (bs : List Byte) (staging : Option (List Byte)) (v : Value) : Prop where
  events : ∃ x w, wire s t = x :: w
    ∧ newEvents s t = phaseEvents s s.params.dcCmdLevel [c] [x] ++ phaseEvents s s.params.dcDataLevel bs w
  others : ∀ q, q ≠ s.dispPeriph → t.periph q = s.periph q
  own : t.periph s.dispPeriph = { s.periph s.dispPeriph with
    w := (t.periph s.dispPeriph).w
    mosiDlen := (t.periph s.dispPeriph).mosiDlen, misoDlen := (t.periph s.dispPeriph).misoDlen }
  frame : t = { s with
    periphs := t.periphs
    pins := s.pins.set s.params.dcPin { s.pin s.params.dcPin with level := s.params.dcDataLevel }
    off := bs.length, staging := staging, line := t.line, draws := t.draws, trace := t.trace
    task := { s.task with result := some (.ok v) } }

/-- The wire carries the window of R204: four transactions. -/
def carriesWindow (s : State) (w : List WireXfer) (x1 y1 x2 y2 : Half) : Prop :=
  w.map (fun x => (x.level, x.sent)) =
    [(s.params.dcCmdLevel, bitsOf [s.params.cmdCaset]), (s.params.dcDataLevel, bitsOf (win x1 x2)),
      (s.params.dcCmdLevel, bitsOf [s.params.cmdPaset]), (s.params.dcDataLevel, bitsOf (win y1 y2))]

/-- The wire carries the memory-read command, then `n` bytes of filler at data level while as many are received, of which
`bs` are the bytes (R210, R211). -/
def readsBytes (s : State) (w : List WireXfer) (n : Nat) (bs : List Byte) : Prop :=
  ∃ r D, w = ⟨s.params.dcCmdLevel, bitsOf [s.params.cmdRamrd], r⟩ :: D ∧ (∀ x ∈ D, x.level = s.params.dcDataLevel)
    ∧ sentBits D = bitsOf (List.replicate n 0xFF) ∧ D.length = (n + 63) / 64
    ∧ bs = bytesOf (receivedBits D) ∧ bs.length = n

/-- The colours of a readback: one dummy byte, then three bytes for each pixel (R211, R213). -/
def colorsOfReadback (bs : List Byte) (n : Nat) : List Half :=
  (List.range n).map fun i => rgb565 (bs.getD (1 + 3 * i) 0) (bs.getD (2 + 3 * i) 0) (bs.getD (3 + 3 * i) 0)

/-! ## Pins -/

/-- The pins of a record are pins, and no pin is named twice. -/
def plainPins (s : State) (r : UnitRec) : Prop := (nonzeroPins r).Nodup ∧ ∀ g ∈ nonzeroPins r, g < s.pins.length

/-- The output route of a pin as `attach` finds it: its own level where the hand-off has detached unit `lost` and the pin
is one of its outputs (R145). -/
def outBefore (s : State) (lost : Option Nat) (g : Nat) : OutRoute :=
  match lost with
  | some v => if g = (s.unit v).sdo ∨ g = (s.unit v).sck ∨ g = (s.unit v).cs then .gpioDriven else (s.pin g).out
  | none => (s.pin g).out

/-- The level of a pin as `attach` finds it: high for the chip-select of a detached unit (R145). -/
def levelBefore (s : State) (lost : Option Nat) (g : Nat) : Bool :=
  match lost with
  | some v => if g = (s.unit v).cs then true else (s.pin g).level
  | none => (s.pin g).level

/-- The input of a peripheral as `attach` finds it: detached for the peripheral of a detached unit (R145). -/
def routeBefore (s : State) (lost : Option Nat) (q : Fin 4) : Option Nat :=
  match lost with
  | some v => if s.params.periphOf v = q then none else s.inRoute.get q
  | none => s.inRoute.get q

/-- The pin state R149 gives after unit `u` is attached, for the pins of it that are configured, but for the level of its
chip-select; `s` is the state before the hand-off, which detached unit `lost`. -/
structure attached (s t : State) (lost : Option Nat) (u : Nat) (soft : Bool) : Prop where
  sdi : (s.unit u).sdi ≠ 0 → (t.pin (s.unit u).sdi).dir = .input ∧ (t.pin (s.unit u).sdi).pull = .pullup
    ∧ (t.pin (s.unit u).sdi).fn = (if soft then .gpio else .dedicated)
  sdo : (s.unit u).sdo ≠ 0 → (t.pin (s.unit u).sdo).dir = .output
    ∧ (t.pin (s.unit u).sdo).fn = (if soft then .gpio else .dedicated)
    ∧ (t.pin (s.unit u).sdo).out =
      (if soft then .dout (s.params.periphOf u) else outBefore s lost (s.unit u).sdo)
  sck : (s.unit u).sck ≠ 0 → (t.pin (s.unit u).sck).dir = .output
    ∧ (t.pin (s.unit u).sck).fn = (if soft then .gpio else .dedicated)
    ∧ (t.pin (s.unit u).sck).out =
      (if soft then .clk (s.params.periphOf u) else outBefore s lost (s.unit u).sck)
  cs : (s.unit u).cs ≠ 0 → (t.pin (s.unit u).cs).dir = .output ∧ (t.pin (s.unit u).cs).fn = .gpio
    ∧ (t.pin (s.unit u).cs).out = .gpioDriven
  route : t.inRoute.get (s.params.periphOf u) =
    if soft then
      if (s.unit u).sdi = 0 then routeBefore s lost (s.params.periphOf u) else some (s.unit u).sdi
    else none

/-- What R145 leaves of the pins of unit `lost` that unit `u` does not use: GPIO function, outputs driven by their own
level, chip-select high, directions and pulls as they were. -/
def detachedPins (s t : State) (lost u : Nat) : Prop :=
  ∀ g, g ∈ nonzeroPins (s.unit lost) → g ∉ nonzeroPins (s.unit u) →
    (t.pin g).fn = .gpio ∧ (g ≠ (s.unit lost).sdi → (t.pin g).out = .gpioDriven)
      ∧ (t.pin g).level = (if g = (s.unit lost).cs then true else (s.pin g).level)
      ∧ (t.pin g).dir = (s.pin g).dir ∧ (t.pin g).pull = (s.pin g).pull

/-! ## Init tables -/

/-- The bytes of one init record: a command, `argc`, `argc[6:0]` arguments and, when `argc[7]` is 1, a delay code (R84,
R85). -/
def isRecord (r : List Byte) : Prop :=
  ∃ cmd argc rest, r = cmd :: argc :: rest ∧ rest.length = (argc &&& 0x7F).toNat + (argc.getLsbD 7).toNat

/-- Where the cursor of the running task stands after `n` more bytes of a table, and `remaining` records
left (R231, R232): the run ends, and the result is recorded, when a counted table has no record left. -/
def afterItem (q : Seq) (n remaining : Nat) : Seq :=
  { q with
    tp := q.tp + n
    remaining := remaining
    phase := if q.form = .counted ∧ remaining = 0 then .idle else .record }

/-- The records left after one more, in counted form (R231). -/
def oneFewer (q : Seq) : Nat := if q.form = .counted then q.remaining - 1 else q.remaining

/-! ## Invariants -/

/-- A record that no successful configuration and no selection has touched: mode, duplex, speed and divisor 0, the pins
all 0 or the defaults a failed `init` left (R59 item 4). -/
def untouched (rec : UnitRec) (defaults : PinSet) : Prop :=
  rec.mode = 0 ∧ rec.duplex = false ∧ rec.speedKhz = 0 ∧ rec.divisor = 0
    ∧ (rec.pinSet = ⟨0, 0, 0, 0⟩ ∨ rec.pinSet = defaults)

/-- The invariants of R59 that speak of one state; item 1 is the width of the field. -/
structure Consistent (s : State) : Prop where
  /-- item 2 -/
  divisor : ∀ u, s.params.inRange u = true →
    (s.unit u).divisor = 0 ∨ ∃ t, (s.unit u).divisor = frequencyToDivisor s.params.sysclkHz t
  /-- item 3 -/
  holder : ∀ u, s.params.inRange u = true → held s u → reflects (s.periph (s.params.periphOf u)) (s.unit u)
  /-- item 4 -/
  clean : ∀ u, s.params.inRange u = true → s.last ≠ some u → (s.unit u).dirty = false →
    untouched (s.unit u) (s.params.defPinsOf u)
  /-- item 5 -/
  idle : ∀ p, s.params.isStuck p = false → s.busy p = false

/-- The shape of every state: the parameters meet R9's conditions, the tables have their sizes, the marker names a unit,
the records name pins, the caller's memory has its canonical form. -/
structure Shape (s : State) : Prop where
  params : s.params.wf = true
  sized : sized s
  last : ∀ u, s.last = some u → s.params.inRange u = true
  pins : ∀ u, s.params.pinsOk (s.unit u).pinSet = true
  mem : s.mem.wf = true

end Sys2Proof.Safety
end

