-- ==== Sys2Proof/Certificates/Slice0/Obligations.lean ====
section
/-! DEFINITION. The statements for the provers, one for each entry of OBLIGATIONS.json. Each says what an instruction or the
machine does, over every state unless its hypotheses say otherwise; the words it uses (the wire, frames, invariants) are
Sys2Proof/Safety.lean's. -/

section

open Sys2Proof Sys2Proof.Machine Sys2Proof.Safety

/-! ## The machine and its encodings -/

/-- A step runs the decoded instruction: after the task switch, what the running task fetches is decoded and carried
out, whole when the schedule's turn does not break it off or there is nothing in it for another task to come between.
With an empty schedule there is no switch. What a step does with an operation that is broken off is
`PreemptedOperationResumes`.
One operation or one item of a table for such a step is the model's choice (log entries 12, 14). So are two things the clause
of the queue says: bytes after a descriptor's last operand are ignored (log entry 2), and a descriptor may be a wire command or
an item of a table, not only one of the 22 operations (log entry 3). -/
def Obligations.StepRunsDecodedInstruction : Prop :=
  ∀ s t : State, t = switchTask s → t.task.spin = none → t.task.op = none →
    (s.sched = [] → t = s)
    ∧ (∀ d rest i r, t.task.seq.phase = .idle → t.task.issue = d :: rest →
        decode t.params d.format d.bytes = .ok (i, r) →
        (∀ turn turns, s.sched = turn :: turns → turn.micros = none ∨ microsOf t.params i = none) →
        step s = exec i { t with task := { t.task with issue := rest } })
    ∧ (∀ i r, t.task.seq.phase = .header → decode t.params .inithdr t.tableRest = .ok (i, r) → step s = exec i t)
    ∧ (∀ i r, t.task.seq.phase = .record → decode t.params (.initrec t.task.seq.form) t.tableRest = .ok (i, r) →
        (∀ turn turns, s.sched = turn :: turns → turn.micros = none ∨ microsOf t.params i = none) →
        step s = exec i t)

/-- Decoding the encoding of a well-formed instruction gives it back, with the bytes that follow it. A memory write takes
all that is left of its frame, so nothing follows it.
The operand bytes of a descriptor are the model's choice (log entry 2). -/
def Obligations.DecodeEncodeRoundTrip : Prop :=
  ∀ (p : Params) (i : Instr) (rest : List Byte), p.wireDistinct = true → i.wf p = true →
    (∀ cs, i = .ramwr cs → rest = []) → decode p (formatOf i) (encode p i ++ rest) = .ok (i, rest)

/-- R84, R85, R87: the layout of an init record, its two readings of `argc`, its length, and where the next begins.
The spec marks R85 and R87 as its own inference from R84. -/
def Obligations.InitRecordLayout : Prop :=
  ∀ (p : Params) (cmd argc : Byte) (args : List Byte) (d : Byte) (rest : List Byte),
    args.length = (argc &&& 0x7F).toNat →
    decode p (.initrec .counted) (cmd :: argc :: (args ++ (if argc.getLsbD 7 then [d] else []) ++ rest)) =
        .ok (if argc.getLsbD 7 then .initrecD cmd args d else .initrec cmd args, rest)
      ∧ recordLength (cmd :: argc :: (args ++ (if argc.getLsbD 7 then [d] else []) ++ rest)) =
        some (2 + args.length + (argc.getLsbD 7).toNat)
      ∧ 2 + args.length + (argc.getLsbD 7).toNat ≤ 130

/-- In sentinel form the sentinel byte at a record position ends the table and no `argc` is read after it; in counted
form no byte is a sentinel; any other command byte is read alike in both forms. -/
def Obligations.SentinelOnlyInSentinelForm : Prop :=
  ∀ (p : Params) (bs rest : List Byte),
    decode p (.initrec .sentinel) (p.initSentinel :: rest) = .ok (.initend, rest)
      ∧ (∀ cmd, cmd ≠ p.initSentinel →
        decode p (.initrec .sentinel) (cmd :: rest) = decode p (.initrec .counted) (cmd :: rest))
      ∧ decode p (.initrec .counted) bs ≠ .ok (.initend, rest)

/-- Words written out from the tables of R81, R83, R84 and R89, under R9's defaults, are the instructions they stand
for.
The operand bytes of a descriptor are the model's choice (log entry 2). -/
def Obligations.DecodeSpecWords : Prop :=
  decode .default .hostop [0x01, 0x80, 0x96, 0x98, 0x00] = .ok (.freq2div 10000000, [])
    ∧ decode .default .hostop [0x06, 0x02, 0x03] = .ok (.setmode 2 3, [])
    ∧ decode .default .hostop [0x0D, 0x11] = .ok (.sendcmd 0x11, [])
    ∧ decode .default .hostop [0x10, 0x00, 0xF8] = .ok (.pushpx 0xF800, [])
    ∧ decode .default .inithdr [0x02] = .ok (.inithdr 2, [])
    ∧ decode .default (.initrec .counted) [0x3A, 0x81, 0x05, 0x0A] = .ok (.initrecD 0x3A [0x05] 10, [])
    ∧ decode .default .wirecmd [0x2A, 0x01, 0x02, 0x01, 0x3F] = .ok (.caset 0x0102 0x013F, [])

/-- An `OP` byte outside `0x01..0x16` is no operation, and the step that fetches it is refused by name; a step of a run of
an init table whose next record does not lie inside the table is a fault (R95, R53).
That the machine stops there is the model's choice (log entries 3, 21). -/
def Obligations.UndecodableBytesStop : Prop :=
  ∀ s : State, s.sched = [] → s.task.spin = none → s.task.op = none →
    (∀ (op : Byte) (bs : List Byte) (rest : List Descriptor), op = 0 ∨ 0x16 < op.toNat → s.task.seq.phase = .idle →
      s.task.issue = ⟨.hostop, op :: bs⟩ :: rest → step s = .refused (.badEncoding (.unknownOp op)))
    ∧ (s.task.seq.phase = .record → s.task.seq.form = .counted → recordLength s.tableRest = none →
      step s = .fault .tableOverrun)

/-! ## Reset -/

/-- R57: the values the spec gives at process start, under every configuration. -/
def Obligations.ResetState : Prop :=
  ∀ (p : Params) (s : State), s = State.initial p →
    (∀ u, s.unit u = ⟨0, 0, 0, 0, 0, false, 0, 0, false⟩) ∧ s.last = none ∧ (∀ q, s.busy q = false)
      ∧ (∀ g, s.lockOwner g = none) ∧ s.irqDepth = 0 ∧ s.suspendDepth = 0 ∧ s.trace = [] ∧ s.staging = none
      ∧ s.task.seq.phase = .idle

/-- The state at process start meets both invariants, under every configuration that meets R9's conditions, and the block
does nothing until a host issues an operation (R280).
That there is one task, which has issued nothing and is in the middle of nothing, and an empty schedule is the model's choice
(log entry 23); so is the canonical form of memory, a clause of `Shape` (log entry 9). -/
def Obligations.ResetMeetsInvariants : Prop :=
  ∀ p : Params, p.wf = true →
    Shape (State.initial p) ∧ Consistent (State.initial p) ∧ undisturbed (State.initial p)
      ∧ step (State.initial p) = .next (State.initial p)

/-! ## The clock divisor calculator -/

/-- R104, R105: FREQ2DIV changes nothing but its result; the system clock's encoding at or above it, the lowest below the
floor, and between them the candidate with the highest frequency not above the target, ties to the smallest `N`, then to
the smallest `PRE`, with `L = (N + 1) div 2`; half the clock is the best between half and full. `OP` is `0x01`. -/
def Obligations.FrequencyToDivisorIsBest : Prop :=
  ∀ (s : State) (t : Word), ∃ v : Word, exec (.freq2div t) s = .next (s.ret (.encoding v))
    ∧ (s.params.sysclkHz ≤ t.toNat → v = 0x80000000)
    ∧ (t.toNat < s.params.sysclkHz / 524288 → v = 0x7FFFF020)
    ∧ (s.params.sysclkHz / 524288 ≤ t.toNat → t.toNat < s.params.sysclkHz →
        ∃ n pre, 1 ≤ n ∧ n ≤ 63 ∧ pre ≤ 8191
          ∧ v = BitVec.ofNat 32 (pre * 2 ^ 18 + n * 2 ^ 12 + (n + 1) / 2)
          ∧ s.params.sysclkHz / ((pre + 1) * (n + 1)) ≤ t.toNat
          ∧ ∀ m q, 1 ≤ m → m ≤ 63 → q ≤ 8191 → s.params.sysclkHz / ((q + 1) * (m + 1)) ≤ t.toNat →
              s.params.sysclkHz / ((q + 1) * (m + 1)) < s.params.sysclkHz / ((pre + 1) * (n + 1))
              ∨ (s.params.sysclkHz / ((q + 1) * (m + 1)) = s.params.sysclkHz / ((pre + 1) * (n + 1))
                ∧ (n < m ∨ (n = m ∧ pre ≤ q))))
    ∧ (s.params.sysclkHz / 2 ≤ t.toNat → t.toNat < s.params.sysclkHz → v = 0x00001001)
    ∧ (encode s.params (.freq2div t)).head? = some 0x01

/-- R102, R106: DIV2FREQ changes nothing but its result, the frequency of the encoding; `H` and `L` do not enter; the
divisor is between 1 and 524288, and the frequency at most the system clock's. `OP` is `0x02`.
The spec marks the formula of R102 as general knowledge (D7). -/
def Obligations.DivisorToFrequencyFormula : Prop :=
  ∀ (s : State) (v : Word), ∃ d f : Nat, exec (.div2freq v) s = .next (s.ret (.hertz f))
    ∧ d = (v.toNat / 2 ^ 18 % 8192 + 1) * (v.toNat / 2 ^ 12 % 64 + 1)
    ∧ f = (if v.getLsbD 31 then s.params.sysclkHz else s.params.sysclkHz / d)
    ∧ 1 ≤ d ∧ d ≤ 524288 ∧ f ≤ s.params.sysclkHz ∧ (encode s.params (.div2freq v)).head? = some 0x02

/-- R108: upper bound, closeness and saturation of the two functions behind FREQ2DIV, SETSPEED and DIV2FREQ. -/
def Obligations.DivisorLaws : Prop :=
  ∀ (sys t : Nat),
    (sys / 524288 ≤ t → t < sys → divisorToFrequency sys (frequencyToDivisor sys t) ≤ t
      ∧ ∀ n pre, 1 ≤ n → n ≤ 63 → pre ≤ 8191 → sys / ((pre + 1) * (n + 1)) ≤ t →
          sys / ((pre + 1) * (n + 1)) ≤ divisorToFrequency sys (frequencyToDivisor sys t))
    ∧ (sys ≤ t → divisorToFrequency sys (frequencyToDivisor sys t) = sys)
    ∧ (t < sys / 524288 → divisorToFrequency sys (frequencyToDivisor sys t) = sys / 524288)

/-- R109: monotonic, idempotent, the shape of every returned encoding, and the true frequency less than one hertz above
the target.
The spec marks R109 as its own inference from R104 and R105. -/
def Obligations.DivisorMonotoneIdempotent : Prop :=
  ∀ (sys t : Nat),
    (∀ t', t ≤ t' →
      divisorToFrequency sys (frequencyToDivisor sys t) ≤ divisorToFrequency sys (frequencyToDivisor sys t'))
    ∧ (sys / 524288 ≤ t → t < sys →
        frequencyToDivisor sys (divisorToFrequency sys (frequencyToDivisor sys t)) = frequencyToDivisor sys t
        ∧ sys < (t + 1) * ((clockPre (frequencyToDivisor sys t) + 1) * (clockN (frequencyToDivisor sys t) + 1)))
    ∧ (t < sys / 524288 →
        divisorToFrequency sys (frequencyToDivisor sys (divisorToFrequency sys (frequencyToDivisor sys t))) =
          divisorToFrequency sys (frequencyToDivisor sys t))
    ∧ (frequencyToDivisor sys t = 0x80000000
      ∨ (clockEqu (frequencyToDivisor sys t) = false ∧ clockH (frequencyToDivisor sys t) = 0
        ∧ 1 ≤ clockN (frequencyToDivisor sys t) ∧ clockN (frequencyToDivisor sys t) ≤ 63
        ∧ clockL (frequencyToDivisor sys t) = (clockN (frequencyToDivisor sys t) + 1) / 2))

/-! ## Device configuration -/

/-- R121: CFGPINS. -/
def Obligations.ConfigurePinsSetsPins : Prop :=
  ∀ (s : State) (u a b c d : Nat), s.params.pinsOk ⟨a, b, c, d⟩ = true → s.units.length = s.params.unitCount →
    (s.params.inRange u = true → ∃ t, exec (.cfgpins u a b c d) s = .next t
      ∧ t.unit u = { s.unit u with sdi := a, sdo := b, sck := c, cs := d, dirty := true }
      ∧ (∀ v, v ≠ u → t.unit v = s.unit v) ∧ recordsOnly s t)
    ∧ (s.params.inRange u = false → exec (.cfgpins u a b c d) s = .next (s.failWith .invalidUnit .none))
    ∧ (encode s.params (.cfgpins u a b c d)).head? = some 0x05

/-- R122, R252: SETMODE, the unit check before the mode check; `InvalidMode`, code 2, comes from nothing else. -/
def Obligations.SetModeStoresMode : Prop :=
  ∀ (s : State) (u m : Nat), s.units.length = s.params.unitCount →
    (s.params.inRange u = true → m ≤ 3 → ∃ t, exec (.setmode u m) s = .next t
      ∧ (t.unit u).mode.toNat = m
      ∧ t.unit u = { s.unit u with mode := (t.unit u).mode, dirty := true }
      ∧ (∀ v, v ≠ u → t.unit v = s.unit v) ∧ recordsOnly s t)
    ∧ (s.params.inRange u = true → 3 < m → exec (.setmode u m) s = .next (s.failWith .invalidMode .none))
    ∧ (s.params.inRange u = false → exec (.setmode u m) s = .next (s.failWith .invalidUnit .none))
    ∧ (encode s.params (.setmode u m)).head? = some 0x06 ∧ ErrorKind.invalidMode.code = 2
    ∧ ∀ i t v, exec i s = .next t → t.task.result ≠ s.task.result → t.task.result = some (.err .invalidMode v) →
        v = .none ∧ ∃ w n, i = .setmode w n

/-- R123: SETSPEED stores the speed asked for and the divisor of `kHz * 1000` hertz, a natural number. -/
def Obligations.SetSpeedStoresDivisor : Prop :=
  ∀ (s : State) (u : Nat) (k : Word), s.units.length = s.params.unitCount →
    (s.params.inRange u = true → ∃ t, exec (.setspeed u k) s = .next t
      ∧ t.unit u = { s.unit u with
          speedKhz := k, divisor := frequencyToDivisor s.params.sysclkHz (k.toNat * 1000), dirty := true }
      ∧ (∀ v, v ≠ u → t.unit v = s.unit v) ∧ recordsOnly s t)
    ∧ (s.params.inRange u = false → exec (.setspeed u k) s = .next (s.failWith .invalidUnit .none))
    ∧ (encode s.params (.setspeed u k)).head? = some 0x07

/-- R124: SETCS. -/
def Obligations.SetChipSelectStoresPin : Prop :=
  ∀ (s : State) (u g : Nat), g < s.params.npins → s.units.length = s.params.unitCount →
    (s.params.inRange u = true → ∃ t, exec (.setcs u g) s = .next t
      ∧ t.unit u = { s.unit u with cs := g, dirty := true }
      ∧ (∀ v, v ≠ u → t.unit v = s.unit v) ∧ recordsOnly s t)
    ∧ (s.params.inRange u = false → exec (.setcs u g) s = .next (s.failWith .invalidUnit .none))
    ∧ (encode s.params (.setcs u g)).head? = some 0x08

/-- R125: SETDUPLEX. -/
def Obligations.SetDuplexStoresFlag : Prop :=
  ∀ (s : State) (u : Nat) (d : Bool), s.units.length = s.params.unitCount →
    (s.params.inRange u = true → ∃ t, exec (.setduplex u d) s = .next t
      ∧ t.unit u = { s.unit u with duplex := d, dirty := true }
      ∧ (∀ v, v ≠ u → t.unit v = s.unit v) ∧ recordsOnly s t)
    ∧ (s.params.inRange u = false → exec (.setduplex u d) s = .next (s.failWith .invalidUnit .none))
    ∧ (encode s.params (.setduplex u d)).head? = some 0x09

/-- R251: the eight validated operations answer `InvalidUnit` for a unit out of range, with nothing written and no event
emitted; `setMode` and `init` before any other check; no other operation answers it; its code is 1. -/
def Obligations.InvalidUnitWritesNothing : Prop :=
  ∀ (s : State) (u : Nat), s.params.inRange u = false →
    (∀ a b c d, s.params.pinsOk ⟨a, b, c, d⟩ = true →
      exec (.cfgpins u a b c d) s = .next (s.failWith .invalidUnit .none))
    ∧ (∀ m, exec (.setmode u m) s = .next (s.failWith .invalidUnit .none))
    ∧ (∀ k, exec (.setspeed u k) s = .next (s.failWith .invalidUnit .none))
    ∧ (∀ g, g < s.params.npins → exec (.setcs u g) s = .next (s.failWith .invalidUnit .none))
    ∧ (∀ d, exec (.setduplex u d) s = .next (s.failWith .invalidUnit .none))
    ∧ exec (.select u) s = .next (s.failWith .invalidUnit .none)
    ∧ exec (.deselect u) s = .next (s.failWith .invalidUnit .none)
    ∧ (∀ m, exec (.init u m) s = .next (s.failWith .invalidUnit .none))
    ∧ ErrorKind.invalidUnit.code = 1
    ∧ ∀ i t v, exec i s = .next t → t.task.result ≠ s.task.result → t.task.result = some (.err .invalidUnit v) → v = .none ∧
        match i with
        | .cfgpins w _ _ _ _ | .setmode w _ | .setspeed w _ | .setcs w _ | .setduplex w _ | .select w | .deselect w
        | .init w _ => s.params.inRange w = false
        | .freq2div _ | .div2freq _ | .pinmux _ | .transfer _ _ _ _ _ | .sendcmd _ | .senddata _ | .setwin _ _ _ _
        | .pushpx _ | .pushrep _ _ | .pushbuf _ _ | .readpx _ _ _ | .readpxs _ _ _ _ _ _ | .readtouch _ _
        | .runinit _ _ | .inithdr _ | .initrec _ _ | .initrecD _ _ _ | .initend | .caset _ _ | .paset _ _ | .ramwr _
        | .ramrd _ => False

/-- `init` of a unit whose pins are free or the SPI owner's: default pins for an unconfigured unit, each nonzero pin
acquired in order, mode 0, full duplex, dirty; nothing else changes (R130 to R132, R264). -/
def Obligations.InitAcquiresPins : Prop :=
  ∀ (s : State) (u : Nat) (r : UnitRec), s.units.length = s.params.unitCount → s.params.inRange u = true →
    r = (if (s.unit u).pinSet = ⟨0, 0, 0, 0⟩ then
        { s.unit u with
          sdi := (s.params.defPinsOf u).sdi, sdo := (s.params.defPinsOf u).sdo
          sck := (s.params.defPinsOf u).sck, cs := (s.params.defPinsOf u).cs }
      else s.unit u) →
    (∀ g ∈ nonzeroPins r, g < s.locks.length ∧ (s.lockOwner g = none ∨ s.lockOwner g = some s.params.ownerSpi)) →
    ∃ t, exec (.init u true) s = .next t
      ∧ t.unit u = { r with mode := 0, duplex := true, dirty := true } ∧ (∀ v, v ≠ u → t.unit v = s.unit v)
      ∧ (∀ g, t.lockOwner g = if g ∈ nonzeroPins r then some s.params.ownerSpi else s.lockOwner g)
      ∧ t.trace = s.trace ++ (nonzeroPins r).map (fun g => .lockAcquire g .ok)
      ∧ t = { s with
          units := t.units, locks := t.locks, trace := t.trace
          task := { s.task with result := some (.ok .none) } }

/-- `init` stopped by a pin another owner holds: the first such pin in order is named with its owner; the pins before it
stay acquired, the default pins stay assigned, mode, duplex and dirty are as they were (R130, R132, R255, R259). -/
def Obligations.InitStopsAtFirstConflict : Prop :=
  ∀ (s : State) (u : Nat) (r : UnitRec) (before after : List Nat) (g o : Nat),
    s.units.length = s.params.unitCount → s.params.inRange u = true →
    r = (if (s.unit u).pinSet = ⟨0, 0, 0, 0⟩ then
        { s.unit u with
          sdi := (s.params.defPinsOf u).sdi, sdo := (s.params.defPinsOf u).sdo
          sck := (s.params.defPinsOf u).sck, cs := (s.params.defPinsOf u).cs }
      else s.unit u) →
    nonzeroPins r = before ++ g :: after →
    (∀ h ∈ before, h < s.locks.length ∧ (s.lockOwner h = none ∨ s.lockOwner h = some s.params.ownerSpi)) →
    s.lockOwner g = some o → o ≠ s.params.ownerSpi →
    ∃ t, exec (.init u true) s = .next t
      ∧ t.task.result = some (.err (.pinLockConflict o g) .none)
      ∧ t.unit u = r ∧ (∀ v, v ≠ u → t.unit v = s.unit v)
      ∧ (∀ h, t.lockOwner h = if h ∈ before then some s.params.ownerSpi else s.lockOwner h)
      ∧ t.trace = s.trace ++ (before.map (fun h => .lockAcquire h .ok) ++ [.lockAcquire g (.conflict o)])
      ∧ t = { s with
          units := t.units, locks := t.locks, trace := t.trace
          task := { s.task with result := t.task.result } }

/-- R253: a non-master `init` is `SlaveNotAllowed`, code 3, after the unit check, with the state unchanged and no lock
acquired, whatever the pins and their owners; nothing else ends with that error. -/
def Obligations.InitRefusesSlave : Prop :=
  ∀ (s : State) (u : Nat),
    (s.params.inRange u = true → exec (.init u false) s = .next (s.failWith .slaveNotAllowed .none))
    ∧ (s.params.inRange u = false → exec (.init u false) s = .next (s.failWith .invalidUnit .none))
    ∧ ErrorKind.slaveNotAllowed.code = 3
    ∧ ∀ i t v, exec i s = .next t → t.task.result ≠ s.task.result → t.task.result = some (.err .slaveNotAllowed v) →
        v = .none ∧ ∃ w, i = .init w false

/-! ## Select, deselect, the pin multiplexer -/

/-- The hand-off: nothing when the unit holds the bus; otherwise the holder is detached if it is software-routed (R26), and
the unit's pins are attached as R149 says; no other peripheral's input changes but that of a detached holder; neither
`last` nor a record nor a register is touched; no meaning for a unit out of range (R143, R148, R149, R295).
That a dedicated unit whose `sdi` is 0 still gets its input detached, and a detached holder whose `sdi` is 0 too, is read
from the spec by inference (log entry 10). -/
def Obligations.PinmuxAttachesUnit : Prop :=
  ∀ (s : State) (u : Nat) (soft : Nat → Bool) (lost : Option Nat),
    (∀ v, soft v = true ↔
      (s.unit v).sdi ≠ (s.params.dedOf (s.params.periphOf v)).sdi
        ∨ (s.unit v).sdo ≠ (s.params.dedOf (s.params.periphOf v)).sdo
        ∨ (s.unit v).sck ≠ (s.params.dedOf (s.params.periphOf v)).sck
        ∨ (s.unit v).cs ≠ (s.params.dedOf (s.params.periphOf v)).cs) →
    lost = s.last.filter soft →
    (s.params.inRange u = true → s.last = some u → exec (.pinmux u) s = .next (s.ret .none))
    ∧ (s.params.inRange u = true → s.last ≠ some u → ∃ t, exec (.pinmux u) s = .next t
      ∧ (plainPins s (s.unit u) → attached s t lost u (soft u)
        ∧ ((s.unit u).cs ≠ 0 → (t.pin (s.unit u).cs).level = levelBefore s lost (s.unit u).cs))
      ∧ (∀ q, q ≠ s.params.periphOf u → t.inRoute.get q = routeBefore s lost q)
      ∧ (∀ g, g ∉ handoffPins s u → t.pin g = s.pin g)
      ∧ t = { s with
          pins := t.pins, inRoute := t.inRoute, trace := t.trace
          task := { s.task with result := some (.ok .none) } })
    ∧ (s.params.inRange u = false → exec (.pinmux u) s = .refused .unitOutOfRange)

/-- R145: the holder's pins after the hand-off, those the new unit does not use: in GPIO function, driven by their own
level, chip-select high, directions and pulls as they were, and its peripheral's input detached, when the holder was
software-routed (R26); as they were, with that input, when it was not.
That the input is detached also when the holder's `sdi` is 0 is read from the spec by inference (log entry 10). -/
def Obligations.PinmuxDetachesHolder : Prop :=
  ∀ (s : State) (u prev : Nat) (soft : Nat → Bool),
    (∀ v, soft v = true ↔
      (s.unit v).sdi ≠ (s.params.dedOf (s.params.periphOf v)).sdi
        ∨ (s.unit v).sdo ≠ (s.params.dedOf (s.params.periphOf v)).sdo
        ∨ (s.unit v).sck ≠ (s.params.dedOf (s.params.periphOf v)).sck
        ∨ (s.unit v).cs ≠ (s.params.dedOf (s.params.periphOf v)).cs) →
    s.params.inRange u = true → s.last = some prev → prev ≠ u → plainPins s (s.unit prev) →
    ∃ t, exec (.pinmux u) s = .next t
      ∧ (soft prev = true → detachedPins s t prev u
        ∧ (s.params.periphOf prev ≠ s.params.periphOf u → t.inRoute.get (s.params.periphOf prev) = none))
      ∧ (soft prev = false → (∀ g, g ∈ nonzeroPins (s.unit prev) → g ∉ nonzeroPins (s.unit u) → t.pin g = s.pin g)
        ∧ (s.params.periphOf prev ≠ s.params.periphOf u →
          t.inRoute.get (s.params.periphOf prev) = s.inRoute.get (s.params.periphOf prev)))

/-- A unit that holds the bus, clean: `select` drives its chip-select low and does nothing else, not even that when none
is configured (R140, R151). -/
def Obligations.SelectOfHolderIsCheap : Prop :=
  ∀ (s : State) (u : Nat), s.params.inRange u = true → held s u →
    ∃ t, exec (.select u) s = .next t
      ∧ newEvents s t = (if (s.unit u).cs = 0 then [] else [.pinLevel (s.unit u).cs false])
      ∧ (∀ g, t.pin g = if g = (s.unit u).cs ∧ g ≠ 0 ∧ g < s.pins.length then { s.pin g with level := false } else s.pin g)
      ∧ t = { s with pins := t.pins, trace := t.trace, task := { s.task with result := some (.ok .none) } }

/-- Any other unit, or a dirty one: the hand-off (a software-routed holder's pins detached, R145; the unit's pins attached,
R148, R149, which a reprogram of a dirty holder does too), dirty marks, marker, the eleven writes of R146 in order, with
the mode's polarity and phase (R147), and chip-select low; the word and length registers, every other peripheral, its input
and every other record stay (R141, R144, R146).
That an input is detached also when its unit's `sdi` is 0 is read from the spec by inference (log entry 10). -/
def Obligations.SelectReprogramsHardware : Prop :=
  ∀ (s : State) (u : Nat) (p : Fin 4) (soft : Nat → Bool) (lost : Option Nat),
    (∀ v, soft v = true ↔
      (s.unit v).sdi ≠ (s.params.dedOf (s.params.periphOf v)).sdi
        ∨ (s.unit v).sdo ≠ (s.params.dedOf (s.params.periphOf v)).sdo
        ∨ (s.unit v).sck ≠ (s.params.dedOf (s.params.periphOf v)).sck
        ∨ (s.unit v).cs ≠ (s.params.dedOf (s.params.periphOf v)).cs) →
    lost = (if s.last = some u then none else s.last.filter soft) →
    s.params.inRange u = true → s.units.length = s.params.unitCount →
    p = s.params.periphOf u → ¬held s u → s.busy p = false →
    ∃ t, exec (.select u) s = .next t ∧ t.last = some u ∧ t.unit u = { s.unit u with dirty := false }
      ∧ (∀ v, v ≠ u → s.last = some v → s.params.inRange v = true → t.unit v = { s.unit v with dirty := true })
      ∧ (∀ v, v ≠ u → s.last ≠ some v → t.unit v = s.unit v)
      ∧ (plainPins s (s.unit u) → attached s t lost u (soft u))
      ∧ (∀ v, lost = some v → plainPins s (s.unit v) → detachedPins s t v u)
      ∧ (∀ q, q ≠ p → t.inRoute.get q = routeBefore s lost q)
      ∧ regWrites (newEvents s t) =
        [.regWrite p .pinCkIdle (bitWord ((s.unit u).mode.getLsbD 1)),
          .regWrite p .userCkPhase (bitWord ((s.unit u).mode.getLsbD 0)),
          .regWrite p .ctrlWrBitOrder 0, .regWrite p .ctrlRdBitOrder 0,
          .regWrite p .userDoutdin (bitWord (s.unit u).duplex), .regWrite p .slaveMode 0,
          .regWrite p .clock (s.unit u).divisor, .regWrite p .userUsrMosi 1, .regWrite p .userUsrMiso 1,
          .regWrite p .userCsSetup 1, .regWrite p .userCsHold 1]
      ∧ reflects (t.periph p) (s.unit u) ∧ (t.periph p).w = (s.periph p).w ∧ (t.periph p).flight = (s.periph p).flight
      ∧ (t.periph p).mosiDlen = (s.periph p).mosiDlen ∧ (t.periph p).misoDlen = (s.periph p).misoDlen
      ∧ (∀ q, q ≠ p → t.periph q = s.periph q)
      ∧ ((s.unit u).cs ≠ 0 → (s.unit u).cs < s.pins.length → (t.pin (s.unit u).cs).level = false)
      ∧ (∀ g, g ∉ handoffPins s u → t.pin g = s.pin g)
      ∧ t = { s with
          periphs := t.periphs, units := t.units, last := t.last, pins := t.pins, inRoute := t.inRoute, trace := t.trace
          task := { s.task with result := some (.ok .none) } }

/-- R154's law: select A, B, A reprograms at each of the three; a fourth select of A writes no register.
The spec marks R154 as its own inference from R141 and R144. -/
def Obligations.SelectAlternationReprograms : Prop :=
  ∀ (s : State) (a b : Nat), a ≠ b → s.params.inRange a = true → s.params.inRange b = true →
    s.units.length = s.params.unitCount → s.last ≠ some a → s.busy (s.params.periphOf a) = false →
    s.busy (s.params.periphOf b) = false →
    ∃ t1 t2 t3 t4, exec (.select a) s = .next t1 ∧ exec (.select b) t1 = .next t2 ∧ exec (.select a) t2 = .next t3
      ∧ exec (.select a) t3 = .next t4
      ∧ (regWrites (newEvents s t1)).length = 11 ∧ (regWrites (newEvents t1 t2)).length = 11
      ∧ (regWrites (newEvents t2 t3)).length = 11 ∧ regWrites (newEvents t3 t4) = []

/-- DESELECT: a no-op for a dirty unit and for one without chip-select; otherwise, with the bus idle, chip-select high and
nothing else; `InvalidUnit` out of range (R152). -/
def Obligations.DeselectRaisesChipSelect : Prop :=
  ∀ (s : State) (u : Nat),
    (s.params.inRange u = true → (s.unit u).dirty = true ∨ (s.unit u).cs = 0 →
      exec (.deselect u) s = .next (s.ret .none))
    ∧ (s.params.inRange u = true → (s.unit u).dirty = false → (s.unit u).cs ≠ 0 →
      s.busy (s.params.periphOf u) = false → ∃ t, exec (.deselect u) s = .next t
        ∧ newEvents s t = [.pinLevel (s.unit u).cs true]
        ∧ (∀ g, t.pin g = if g = (s.unit u).cs ∧ g < s.pins.length then { s.pin g with level := true } else s.pin g)
        ∧ t = { s with pins := t.pins, trace := t.trace, task := { s.task with result := some (.ok .none) } })
    ∧ (s.params.inRange u = false → exec (.deselect u) s = .next (s.failWith .invalidUnit .none))

/-! ## The transfer engine -/

/-- TRANSFER on a ready peripheral: it ends; `ceil(L / 64)` transactions, all full but the last; the buffer's bytes go
out in order, most significant bit first (all ones for no buffer); as many come in and stand in the input buffer, every
other byte of memory as it was; the trace is the interrupt bracket around the chunks, each its word registers, both
lengths, the trigger and the transaction; the last chunk's bytes stand in `W`, its padding 0, the words above it as the
chunk before left them; nothing else changes but the data registers, the cursor and the line (R172 to R178, R22, R61, R62).
That the cursor keeps its last value is the model's choice (log entry 17), and so is the test of overlap in `wf`
(log entry 18). -/
def Obligations.TransferMovesBytes : Prop :=
  ∀ (s : State) (u : Nat) (ws : WordSize) (wc L : Nat) (out inb : Option Buf) (p : Fin 4) (sent : List Byte),
    (Instr.transfer u ws wc out inb).wf s.params = true → L = ws.bytes * wc → p = s.params.periphOf u →
    periphReady s p → s.mem.wf = true →
    sent = (match out with
      | none => List.replicate L 0xFF
      | some b => s.mem.readBytes b.base L) →
    ∃ t, exec (.transfer u ws wc out inb) s = .next t
      ∧ (wire s t).length = (L + 63) / 64
      ∧ (∀ i, (h : i < (wire s t).length) → (wire s t)[i].sent.length = 8 * min 64 (L - 64 * i)
          ∧ (wire s t)[i].received.length = 8 * min 64 (L - 64 * i))
      ∧ sentBits (wire s t) = bitsOf sent
      ∧ (∀ b, inb = some b → ∀ k, k < L → t.mem.read (b.base + k) = byteAt (receivedBits (wire s t)) k)
      ∧ (∀ a, (∀ b, inb = some b → a < b.base ∨ b.base + L ≤ a) → t.mem.read a = s.mem.read a)
      ∧ newEvents s t = transferEvents p (s.periph p).cfg sent (wire s t)
      ∧ (∀ n, 0 < L → n = L - 64 * ((L - 1) / 64) → ∀ k, k < 64 →
          wordByte (t.periph p) k =
            if k < n then byteAt (receivedBits (wire s t)) (L - n + k)
            else if k < 4 * ((n + 3) / 4) then 0
            else if n < L then byteAt (receivedBits (wire s t)) (L - n - 64 + k)
            else wordByte (s.periph p) k)
      ∧ (L = 0 → newEvents s t = [.irqOff, .irqOn])
      ∧ configWrites (newEvents s t) = [] ∧ t.busy p = false ∧ (∀ q, q ≠ p → t.periph q = s.periph q)
      ∧ t.periph p = { s.periph p with
          w := (t.periph p).w, flight := (t.periph p).flight
          mosiDlen := (t.periph p).mosiDlen, misoDlen := (t.periph p).misoDlen }
      ∧ t = { s with
          periphs := t.periphs, off := L, mem := t.mem, line := t.line, draws := t.draws, trace := t.trace
          task := { s.task with result := some (.ok .none) } }

/-- R179: through a line that returns every bit, a transfer with both buffers ends with the input buffer holding what the
output buffer held.
The spec marks R179 as its own inference from R173, R175 and R176. R179 speaks of a full-duplex unit; that the line answers
the same whatever the duplex flag of the configuration, and returns the bits sent also while no chip-select is low or no pin
feeds data-in, is the model's choice (log entry 6). -/
def Obligations.TransferThroughLoopback : Prop :=
  ∀ (s : State) (u : Nat) (ws : WordSize) (wc : Nat) (a b : Buf),
    (Instr.transfer u ws wc (some a) (some b)).wf s.params = true → periphReady s (s.params.periphOf u) →
    s.mem.wf = true → s.line = ⟨[], true⟩ →
    ∃ t, exec (.transfer u ws wc (some a) (some b)) s = .next t
      ∧ ∀ k, k < ws.bytes * wc → t.mem.read (b.base + k) = s.mem.read (a.base + k)

/-- What TRANSFER leaves alone wherever it ends, in whatever state it begins: every byte outside the input buffer, every
record, the marker, the pins and routes, the locks, the suspend depth, the other peripherals, the configuration fields of
its own (R60, R172). -/
def Obligations.TransferFrame : Prop :=
  ∀ (s t : State) (u : Nat) (ws : WordSize) (wc : Nat) (out inb : Option Buf),
    exec (.transfer u ws wc out inb) s = .next t →
    (∀ a, (∀ b, inb = some b → a < b.base ∨ b.base + ws.bytes * wc ≤ a) → t.mem.read a = s.mem.read a)
    ∧ t.units = s.units ∧ t.last = s.last ∧ t.pins = s.pins ∧ t.inRoute = s.inRoute ∧ t.locks = s.locks
    ∧ t.suspendDepth = s.suspendDepth ∧ t.staging = s.staging ∧ t.params = s.params
    ∧ t.others = s.others ∧ t.sched = s.sched ∧ t.task.issue = s.task.issue ∧ t.task.seq = s.task.seq
    ∧ (∀ q, q ≠ s.params.periphOf u → t.periph q = s.periph q)
    ∧ t.periph (s.params.periphOf u) = { s.periph (s.params.periphOf u) with
        w := (t.periph (s.params.periphOf u)).w, flight := (t.periph (s.params.periphOf u)).flight
        mosiDlen := (t.periph (s.params.periphOf u)).mosiDlen, misoDlen := (t.periph (s.params.periphOf u)).misoDlen }

/-- What the spec gives no meaning: a pin that is no pin, a transfer on a unit out of range, with a buffer too short, with
partially overlapping buffers, a colour buffer too short, `null` for the bytes of `sendData` or the buffer of
`pushPixelsBuffer`, a frame on a number that is no unit, a transaction with a bit order, a slave mode or a data phase switched
off for which the shifter has no rule (R68, R82, R171, R176, U5).
That each is a refusal is the model's choice (log entry 21). -/
def Obligations.IllegalOperandsRefused : Prop :=
  ∀ (s : State) (u wc : Nat) (ws : WordSize) (out inb : Option Buf),
    (s.params.inRange u = false → exec (.transfer u ws wc out inb) s = .refused .unitOutOfRange)
    ∧ (s.params.inRange u = true → (bufHolds (ws.bytes * wc) out && bufHolds (ws.bytes * wc) inb) = false →
      exec (.transfer u ws wc out inb) s = .refused .bufferTooShort)
    ∧ (s.params.inRange u = true → (bufHolds (ws.bytes * wc) out && bufHolds (ws.bytes * wc) inb) = true →
      bufsApart (ws.bytes * wc) out inb = false → exec (.transfer u ws wc out inb) s = .refused .buffersOverlap)
    ∧ ((Instr.transfer u ws wc out inb).wf s.params = true → 0 < ws.bytes * wc → idle s (s.params.periphOf u) →
      ¬shiftRule (s.periph (s.params.periphOf u)) →
      exec (.transfer u ws wc out inb) s = .refused (.shifterUnspecified (s.params.periphOf u)))
    ∧ (∀ a b c d, s.params.pinsOk ⟨a, b, c, d⟩ = false → exec (.cfgpins u a b c d) s = .refused .pinOutOfRange)
    ∧ (∀ g, s.params.npins ≤ g → exec (.setcs u g) s = .refused .pinOutOfRange)
    ∧ (∀ cs n, cs.length < n → exec (.pushbuf (some cs) n) s = .refused .bufferTooShort)
    ∧ exec (.senddata none) s = .refused .nullBuffer ∧ (∀ n, exec (.pushbuf none n) s = .refused .nullBuffer)
    ∧ (s.params.inRange s.params.dispUnit = false → ∀ c, exec (.sendcmd c) s = .refused .unitOutOfRange)
    ∧ (s.params.inRange s.params.touchUnit = false → ∀ c, exec (.readtouch c .ok) s = .refused .unitOutOfRange)

/-- A peripheral that never completes hangs the task: in a transfer of at least one byte, with interrupts off; in a
`select` that must reprogram a busy one, with the hand-off and the dirty marks done; in a `deselect` of a clean unit with a
chip-select, with nothing done; in a frame that sends anything, with both depths held, or with the suspend depth alone
when its reprogram already waits for a busy one. No result is recorded (R71, R141, R153,
R200, R299).
A hang as a next state is the model's choice (log entry 13). -/
def Obligations.StuckPeripheralHangs : Prop :=
  ∀ (s : State) (u : Nat), s.params.inRange u = true → s.params.isStuck (s.params.periphOf u) = true →
    (∀ ws wc out inb, (Instr.transfer u ws wc out inb).wf s.params = true → 0 < ws.bytes * wc →
      ∃ t, exec (.transfer u ws wc out inb) s = .next t ∧ t.task.spin = some (s.params.periphOf u)
        ∧ t.irqDepth = s.irqDepth + 1 ∧ t.suspendDepth = s.suspendDepth ∧ t.busy (s.params.periphOf u) = true
        ∧ t.task.result = s.task.result ∧ t.mem = s.mem)
    ∧ (s.units.length = s.params.unitCount → ¬held s u → s.busy (s.params.periphOf u) = true →
      ∃ t, exec (.select u) s = .next t ∧ t.task.spin = some (s.params.periphOf u)
        ∧ t.last = some u ∧ (t.unit u).dirty = true
        ∧ (∀ v, s.last = some v → s.params.inRange v = true → (t.unit v).dirty = true)
        ∧ t.periphs = s.periphs ∧ t.task.result = s.task.result)
    ∧ ((s.unit u).dirty = false → (s.unit u).cs ≠ 0 → s.busy (s.params.periphOf u) = true →
      exec (.deselect u) s = .next { s with task := { s.task with spin := some (s.params.periphOf u) } })
    ∧ (∀ i : Instr, s.units.length = s.params.unitCount →
      (match i with
        | .sendcmd _ | .setwin _ _ _ _ | .pushpx _ | .pushrep _ _ | .readpx _ _ .ok | .readpxs _ _ _ _ _ .ok =>
          u = s.params.dispUnit
        | .senddata (some b) => 0 < b.len ∧ u = s.params.dispUnit
        | .pushbuf (some cs) n => n ≤ cs.length ∧ u = s.params.dispUnit
        | .readtouch _ .ok => u = s.params.touchUnit
        | _ => False) →
      ∃ t, exec i s = .next t ∧ t.task.spin = some (s.params.periphOf u) ∧ t.last = some u
        ∧ t.suspendDepth = s.suspendDepth + 1
        ∧ (held s u ∨ s.busy (s.params.periphOf u) = false → t.irqDepth = s.irqDepth + 1)
        ∧ (¬held s u → s.busy (s.params.periphOf u) = true → t.irqDepth = s.irqDepth)
        ∧ t.busy (s.params.periphOf u) = true ∧ t.task.result = s.task.result ∧ t.mem = s.mem)

/-- A hang holds the brackets, and with them every other task: a step of a hung task that holds a bracket changes no task
(R15, R299).
A hang as a next state is the model's choice (log entry 13). -/
def Obligations.HangHoldsTheProcessor : Prop :=
  ∀ (s t : State) (p : Fin 4), s.task.spin = some p → s.unbracketed = false → step s = .next t →
    t.task = s.task ∧ t.others = s.others ∧ t.irqDepth = s.irqDepth ∧ t.suspendDepth = s.suspendDepth
      ∧ (s.params.isStuck p = true → t.periph p = s.periph p)

/-- R173: the first `ceil(n / 4)` word registers are written in order, each with its four bytes least significant first,
bytes beyond the chunk 0, all ones for no buffer; the other registers, and everything else, keep what they held. -/
def Obligations.PackFillsWordRegisters : Prop :=
  ∀ (s t : State) (p : Fin 4) (src : OutSrc) (off n : Nat), n ≤ 64 → t = pack p src off n s →
    (∀ i b, i < (n + 3) / 4 → b < 4 → ((t.periph p).w.getD i 0).extractLsb' (8 * b) 8 =
        (if 4 * i + b < n then
          match src with
          | .filler => 0xFF
          | .bytes bs => bs.getD (off + (4 * i + b)) 0
          | .mem base => s.mem.read (base + (off + (4 * i + b)))
        else 0))
    ∧ (∀ i, (n + 3) / 4 ≤ i → i < 16 → (t.periph p).w.getD i 0 = (s.periph p).w.getD i 0)
    ∧ newEvents s t = (List.range ((n + 3) / 4)).map
        (fun i => .regWrite p (.w (Fin.ofNat 16 i)) ((t.periph p).w.getD i 0))
    ∧ (∀ q, q ≠ p → t.periph q = s.periph q) ∧ t.periph p = { s.periph p with w := (t.periph p).w }
    ∧ t = { s with periphs := t.periphs, trace := t.trace }

/-- R175: reading the word registers after a pack, with no transaction between, gives the packed bytes. -/
def Obligations.UnpackInvertsPack : Prop :=
  ∀ (s : State) (p : Fin 4) (bs : List Byte), bs.length ≤ 64 →
    (pack p (.bytes bs) 0 bs.length s).chunkBytes p bs.length = bs

/-! ## The display protocol layer -/

/-- SENDCMD: one frame, one byte at command level; and the whole trace of it on a unit that holds the bus (R201). -/
def Obligations.SendCommandFramesOneByte : Prop :=
  ∀ (s : State) (c : Byte), displayReady s →
    ∃ t, exec (.sendcmd c) s = .next t ∧ t.task.result = some (.ok .none) ∧ frameLeaves s t s.params.dispUnit
      ∧ oneFrame s s.params.dispUnit (newEvents s t)
      ∧ (wire s t).map (fun x => (x.level, x.sent)) = [(s.params.dcCmdLevel, bitsOf [c])]
      ∧ (held s s.params.dispUnit → (s.unit s.params.dispUnit).cs ≠ 0 → ∃ r, r.length = 8 ∧ newEvents s t =
        [.suspendAll, .pinLevel (s.unit s.params.dispUnit).cs false, .pinLevel s.params.dcPin s.params.dcCmdLevel,
          .irqOff, .regWrite s.dispPeriph (.w 0) (c.setWidth 32), .regWrite s.dispPeriph .mosiDlen 7,
          .regWrite s.dispPeriph .misoDlen 7, .regWrite s.dispPeriph .cmdUsr 1,
          .xfer s.dispPeriph (s.periph s.dispPeriph).cfg 8 (bitsOf [c]) 8 r, .irqOn,
          .pinLevel (s.unit s.params.dispUnit).cs true, .resumeAll])

/-- SENDDATA: nothing at all for no bytes; else one frame with the buffer's bytes at data level (R202). -/
def Obligations.SendDataFramesBuffer : Prop :=
  ∀ (s : State) (b : Buf),
    (b.len = 0 → exec (.senddata (some b)) s = .next (s.ret .none))
    ∧ (0 < b.len → displayReady s → ∃ t, exec (.senddata (some b)) s = .next t ∧ t.task.result = some (.ok .none)
      ∧ frameLeaves s t s.params.dispUnit ∧ oneFrame s s.params.dispUnit (newEvents s t)
      ∧ (∀ x ∈ wire s t, x.level = s.params.dcDataLevel)
      ∧ sentBits (wire s t) = bitsOf (s.mem.readBytes b.base b.len) ∧ (wire s t).length = (b.len + 63) / 64)

/-- SETWIN: one frame with the two commands and their payloads; no check of the coordinates (R204). -/
def Obligations.SetWindowSendsCoordinates : Prop :=
  ∀ (s : State) (x1 y1 x2 y2 : Half), displayReady s →
    ∃ t, exec (.setwin x1 y1 x2 y2) s = .next t ∧ t.task.result = some (.ok .none)
      ∧ frameLeaves s t s.params.dispUnit ∧ oneFrame s s.params.dispUnit (newEvents s t)
      ∧ carriesWindow s (wire s t) x1 y1 x2 y2

/-- PUSHPX, PUSHREP, PUSHBUF: one frame with the memory-write command and the colours, each high byte first; the command
alone for a count of 0 (R206 to R209). -/
def Obligations.PushOperationsSendColours : Prop :=
  ∀ (s : State), displayReady s →
    (∀ c, ∃ t, exec (.pushpx c) s = .next t ∧ t.task.result = some (.ok .none) ∧ frameLeaves s t s.params.dispUnit
      ∧ oneFrame s s.params.dispUnit (newEvents s t)
      ∧ commandWithPayload s (wire s t) s.params.cmdRamwr [c.extractLsb' 8 8, c.extractLsb' 0 8])
    ∧ (∀ c n, ∃ t, exec (.pushrep c n) s = .next t ∧ t.task.result = some (.ok .none)
      ∧ frameLeaves s t s.params.dispUnit ∧ oneFrame s s.params.dispUnit (newEvents s t)
      ∧ commandWithPayload s (wire s t) s.params.cmdRamwr
          ((List.replicate n [c.extractLsb' 8 8, c.extractLsb' 0 8]).flatten))
    ∧ (∀ cs n, n ≤ cs.length → ∃ t, exec (.pushbuf (some cs) n) s = .next t ∧ t.task.result = some (.ok .none)
      ∧ frameLeaves s t s.params.dispUnit ∧ oneFrame s s.params.dispUnit (newEvents s t)
      ∧ commandWithPayload s (wire s t) s.params.cmdRamwr
          ((cs.take n).flatMap fun c => [c.extractLsb' 8 8, c.extractLsb' 0 8]))

/-- READPX: in one frame, the window of one pixel, the read command, four bytes received; the colour of the last three (R210, R213). -/
def Obligations.ReadPixelDecodesColour : Prop :=
  ∀ (s : State) (x y : Half), displayReady s →
    ∃ t W0 W1 bs, exec (.readpx x y .ok) s = .next t ∧ wire s t = W0 ++ W1 ∧ carriesWindow s W0 x y x y
      ∧ readsBytes s W1 4 bs
      ∧ t.task.result = some (.ok (.color (rgb565 (bs.getD 1 0) (bs.getD 2 0) (bs.getD 3 0))))
      ∧ t.staging = none ∧ frameLeaves s t s.params.dispUnit ∧ oneFrame s s.params.dispUnit (newEvents s t)

/-- READPXS: in one frame, the window, the read command, `1 + 3 * n` bytes received, one dummy, `n` colours (R211).
That the colours are the result and no byte of the caller's memory is written is the model's choice (log entry 9). -/
def Obligations.ReadPixelsDecodesColours : Prop :=
  ∀ (s : State) (x1 y1 x2 y2 : Half) (n : Nat), displayReady s →
    ∃ t W0 W1 bs, exec (.readpxs x1 y1 x2 y2 n .ok) s = .next t ∧ wire s t = W0 ++ W1
      ∧ carriesWindow s W0 x1 y1 x2 y2 ∧ readsBytes s W1 (1 + 3 * n) bs
      ∧ t.task.result = some (.ok (.colors (colorsOfReadback bs n)))
      ∧ t.staging = none ∧ frameLeaves s t s.params.dispUnit ∧ oneFrame s s.params.dispUnit (newEvents s t)

/-- READTOUCH: one frame on the touch unit, the channel command, two filler bytes; the sample is the upper 12 of the 16
bits received; the mode signal is not touched (R214). -/
def Obligations.ReadTouchReturnsSample : Prop :=
  ∀ (s : State) (c : Byte), frameReady s s.params.touchUnit →
    ∃ t r q, exec (.readtouch c .ok) s = .next t
      ∧ (wire s t).map (fun x => (x.sent, x.received)) = [(bitsOf [c], r), (bitsOf [0xFF, 0xFF], q)] ∧ q.length = 16
      ∧ t.task.result = some (.ok (.sample (BitVec.ofNat 12 (((byteAt q 0).toNat * 256 + (byteAt q 1).toNat) / 16))))
      ∧ t.staging = none ∧ frameLeaves s t s.params.touchUnit ∧ oneFrame s s.params.touchUnit (newEvents s t)
      ∧ (s.params.dcPin ∉ handoffPins s s.params.touchUnit → t.pin s.params.dcPin = s.pin s.params.dcPin)

/-- R257: a failed allocation returns the zero value with `OutOfMemory`, code 6; the state is unchanged and no event
emitted. -/
def Obligations.OutOfMemoryLeavesState : Prop :=
  ∀ (s : State) (x y x2 y2 : Half) (n : Nat) (c : Byte),
    exec (.readpx x y .fail) s = .next (s.failWith .outOfMemory (.color 0))
    ∧ exec (.readpxs x y x2 y2 n .fail) s = .next (s.failWith .outOfMemory (.colors (List.replicate n 0)))
    ∧ exec (.readtouch c .fail) s = .next (s.failWith .outOfMemory (.sample 0))
    ∧ ErrorKind.outOfMemory.code = 6

/-- What the display operations, the wire commands and the init records leave alone wherever they end: every byte of the
caller's memory, the locks, the other tasks, and every record but for its dirty flag.
That READPXS writes no byte of the caller's memory is the model's choice (log entry 9). -/
def Obligations.DisplayOperationsFrame : Prop :=
  ∀ (s t : State) (i : Instr),
    (match i with
      | .sendcmd _ | .senddata _ | .setwin _ _ _ _ | .pushpx _ | .pushrep _ _ | .pushbuf _ _ | .readpx _ _ _
      | .readpxs _ _ _ _ _ _ | .readtouch _ _ | .caset _ _ | .paset _ _ | .ramwr _ | .ramrd _ | .initrec _ _
      | .initrecD _ _ _ | .select _ | .deselect _ | .pinmux _ => True
      | .freq2div _ | .div2freq _ | .transfer _ _ _ _ _ | .cfgpins _ _ _ _ _ | .setmode _ _ | .setspeed _ _
      | .setcs _ _ | .setduplex _ _ | .init _ _ | .runinit _ _ | .inithdr _ | .initend => False) →
    exec i s = .next t →
    (∀ a, t.mem.read a = s.mem.read a) ∧ t.locks = s.locks ∧ t.params = s.params ∧ t.others = s.others
      ∧ t.sched = s.sched ∧ t.task.issue = s.task.issue
      ∧ ∀ v, { t.unit v with dirty := (s.unit v).dirty } = s.unit v

/-- CASET, PASET, RAMWR, RAMRD inside an open frame: the command byte at command level, the payload at data level, and
nothing else: no select, no scheduler bracket, no delay among the events; no record, no pin but the mode signal, no route, no
lock, no other task, no other peripheral and no configuration field changes (R89 to R92, R205).
Emission inside a frame that is open, as an instruction of its own, is the model's choice, and so is the staging buffer of
RAMRD, which is always there (log entry 11), and that the cursor keeps its last value (log entry 17). -/
def Obligations.WireCommandsEmit : Prop :=
  ∀ (s : State), periphReady s s.dispPeriph →
    (∀ x1 x2, ∃ t bs, exec (.caset x1 x2) s = .next t
      ∧ bs = [x1.extractLsb' 8 8, x1.extractLsb' 0 8, x2.extractLsb' 8 8, x2.extractLsb' 0 8]
      ∧ commandWithPayload s (wire s t) s.params.cmdCaset bs ∧ emitsOnly s t s.params.cmdCaset bs s.staging .none)
    ∧ (∀ y1 y2, ∃ t bs, exec (.paset y1 y2) s = .next t
      ∧ bs = [y1.extractLsb' 8 8, y1.extractLsb' 0 8, y2.extractLsb' 8 8, y2.extractLsb' 0 8]
      ∧ commandWithPayload s (wire s t) s.params.cmdPaset bs ∧ emitsOnly s t s.params.cmdPaset bs s.staging .none)
    ∧ (∀ cs, ∃ t bs, exec (.ramwr cs) s = .next t
      ∧ bs = cs.flatMap (fun c => [c.extractLsb' 8 8, c.extractLsb' 0 8])
      ∧ commandWithPayload s (wire s t) s.params.cmdRamwr bs ∧ emitsOnly s t s.params.cmdRamwr bs s.staging .none)
    ∧ (∀ n, ∃ t bs, exec (.ramrd n) s = .next t ∧ readsBytes s (wire s t) (1 + 3 * n) bs
      ∧ emitsOnly s t s.params.cmdRamrd (List.replicate (1 + 3 * n) 0xFF) none (.colors (colorsOfReadback bs n)))

/-- R203, R206: the word a window payload packs into, and the two colours of each word of a run of pixels. -/
def Obligations.PayloadWordsAreSwapped : Prop :=
  ∀ (s : State) (a b : Half) (cs : List Half) (i : Nat), 2 * cs.length ≤ 64 → 2 * i < cs.length →
    s.packWord (.bytes (win a b)) 0 4 0 = (bswap16 a).setWidth 32 ||| ((bswap16 b).setWidth 32 <<< 16)
    ∧ s.packWord (.bytes (pxs cs)) 0 (2 * cs.length) i =
        (bswap16 (cs.getD (2 * i) 0)).setWidth 32
          ||| ((if 2 * i + 1 < cs.length then bswap16 (cs.getD (2 * i + 1) 0) else 0).setWidth 32 <<< 16)

/-- R213: the three fields of a decoded colour are the upper bits of the three bytes. -/
def Obligations.RgbFieldsAreUpperBits : Prop :=
  ∀ r g b : Byte, (rgb565 r g b).toNat = r.toNat / 8 * 2048 + g.toNat / 4 * 32 + b.toNat / 8

/-! ## The init sequencer -/

/-- RUNINIT: a well-formed table is started from its first byte, at the header in counted form and at a record in sentinel
form, and nothing else happens yet; any other table is refused (R231). A counted table is well formed when as many records
as its first byte says follow it; a sentinel-form table when the sentinel stands at a record position after some records,
none of which begins with it; what follows is ignored (R237).
The start as a step of its own is the model's choice (log entry 14), and so is the refusal (log entry 21). -/
def Obligations.RunInitStartsOrRefuses : Prop :=
  ∀ (s : State) (table : List Byte) (form : TableForm) (wellFormed : Prop),
    (wellFormed ↔ ∃ records : List (List Byte), (∀ r ∈ records, isRecord r) ∧
      match form with
      | .counted => ∃ k tail, table = k :: (records.flatten ++ tail) ∧ records.length = k.toNat
      | .sentinel => (∀ r ∈ records, r.head? ≠ some s.params.initSentinel)
          ∧ ∃ tail, table = records.flatten ++ s.params.initSentinel :: tail) →
    (wellFormed → exec (.runinit table form) s = .next { s with task := { s.task with
        seq := ⟨if form = .counted then .header else .record, form, table, 0, 0⟩, result := none } })
    ∧ (¬wellFormed → exec (.runinit table form) s = .refused .malformedTable)

/-- INITHDR sets the count and ends a table of no records; INITEND consumes the sentinel and ends the run; neither does
anything else (R83, R88, R231).
One step for each item is the model's choice (log entry 14). -/
def Obligations.HeaderAndSentinelMoveCursor : Prop :=
  ∀ (s : State) (k : Byte),
    exec (.inithdr k) s = .next { s with task := { s.task with
      seq := afterItem s.task.seq 1 k.toNat
      result := if s.task.seq.form = .counted ∧ k = 0 then some (.ok .none) else s.task.result } }
    ∧ exec .initend s = .next { s with task := { s.task with
        seq := { s.task.seq with tp := s.task.seq.tp + 1, phase := .idle }, result := some (.ok .none) } }

/-- INITREC and INITREC.D on a ready display: the command in one frame, the arguments in a second one when there are any
(chip-select rises between them), then the delay outside both, 500 ms for code 255; the cursor past the record, one record
fewer to run, the run ended and its result recorded when none is left (R86, R231 to R234).
One step for each record that is not broken off is the model's choice (log entry 14), and so is a delay inside a bracket of the
caller (log entry 19). -/
def Obligations.InitRecordsSendAndDelay : Prop :=
  ∀ (s : State) (c d : Byte) (args : List Byte) (level : Bool), displayReady s → s.task.seq.phase = .record →
    level = (s.pin s.params.dcPin).level →
    (∃ t f1 f2 r, exec (.initrec c args) s = .next t ∧ newEvents s t = f1 ++ f2
      ∧ oneFrame s s.params.dispUnit f1 ∧ wireLog s.params.dcPin level f1 = [⟨s.params.dcCmdLevel, bitsOf [c], r⟩]
      ∧ (if args = [] then f2 = [] else oneFrame s s.params.dispUnit f2)
      ∧ commandWithPayload s (wire s t) c args ∧ frameLeaves s t s.params.dispUnit
      ∧ t.task.seq = afterItem s.task.seq (2 + args.length) (oneFewer s.task.seq)
      ∧ t.task.result = (if s.task.seq.form = .counted ∧ oneFewer s.task.seq = 0 then some (.ok .none) else s.task.result))
    ∧ (∃ t f1 f2 r, exec (.initrecD c args d) s = .next t
      ∧ newEvents s t = f1 ++ f2 ++ [.delay (if d = 255 then 500 else d.toNat)]
      ∧ oneFrame s s.params.dispUnit f1 ∧ wireLog s.params.dcPin level f1 = [⟨s.params.dcCmdLevel, bitsOf [c], r⟩]
      ∧ (if args = [] then f2 = [] else oneFrame s s.params.dispUnit f2)
      ∧ commandWithPayload s (wire s t) c args ∧ frameLeaves s t s.params.dispUnit
      ∧ t.task.seq = afterItem s.task.seq (3 + args.length) (oneFewer s.task.seq)
      ∧ t.task.result = (if s.task.seq.form = .counted ∧ oneFewer s.task.seq = 0 then some (.ok .none) else s.task.result))

/-- A well-formed table runs to its end, undisturbed by other tasks: in counted form after one step for the header and one
for each record, in sentinel form after one step for each record and one for the sentinel, the run is over with result
`Ok`, the cursor at the consumed length, the caller's memory and the depths as they were (R231, R232, R235).
One step for each item is the model's choice (log entry 14), and so is a delay inside a bracket of the caller (log entry 19). -/
def Obligations.CountedTableRunsToItsEnd : Prop :=
  ∀ (s : State) (table tail : List Byte) (records : List (List Byte)),
    s.sched = [] → s.task.spin = none → s.task.op = none → displayReady s → (∀ r ∈ records, isRecord r) →
    (∀ k : Byte, table = k :: (records.flatten ++ tail) → records.length = k.toNat →
      s.task.seq = ⟨.header, .counted, table, 0, 0⟩ →
      ∃ t, Host.Core.run core (1 + records.length) s = .next t ∧ t.task.seq.phase = .idle
        ∧ t.task.result = some (.ok .none) ∧ t.task.seq.tp = 1 + records.flatten.length
        ∧ t.task.seq.remaining = 0 ∧ (∀ a, t.mem.read a = s.mem.read a) ∧ t.irqDepth = s.irqDepth
        ∧ t.suspendDepth = s.suspendDepth)
    ∧ (table = records.flatten ++ s.params.initSentinel :: tail →
      (∀ r ∈ records, r.head? ≠ some s.params.initSentinel) → s.task.seq = ⟨.record, .sentinel, table, 0, 0⟩ →
      ∃ t, Host.Core.run core (records.length + 1) s = .next t ∧ t.task.seq.phase = .idle
        ∧ t.task.result = some (.ok .none) ∧ t.task.seq.tp = records.flatten.length + 1
        ∧ (∀ a, t.mem.read a = s.mem.read a) ∧ t.irqDepth = s.irqDepth ∧ t.suspendDepth = s.suspendDepth)

/-! ## Invariants and whole-machine rules -/

/-- Every step keeps the shape of the state: parameters that meet R9's conditions, tables of their sizes, a marker that
names a unit, records that name pins, memory in canonical form.
The canonical form of memory is the model's choice (log entry 9). -/
def Obligations.StepKeepsShape : Prop :=
  ∀ s t : State, Shape s → step s = .next t → Shape t

/-- R59: every step keeps the invariants of the unit table and the hardware it is reflected in, as long as no operation is
broken off between its micro-steps: two reprograms that interleave can leave a clean unit whose hardware is a mixture
(R290). -/
def Obligations.StepKeepsUnitTableConsistent : Prop :=
  ∀ s t : State, Shape s → Consistent s → undisturbed s → step s = .next t → Consistent t ∧ undisturbed t

/-- R258: the brackets are balanced on every path; they stay open only where the task hangs on a stuck peripheral (R299).
A hang as a next state is the model's choice (log entry 13). -/
def Obligations.BracketsAreBalanced : Prop :=
  ∀ (s t : State) (i : Instr), s.task.spin = none → exec i s = .next t →
    (t.task.spin = none → t.irqDepth = s.irqDepth ∧ t.suspendDepth = s.suspendDepth)
    ∧ (∀ p, t.task.spin = some p → s.params.isStuck p = true ∧ t.busy p = true ∧ t.task.result = s.task.result)

/-- R251 to R257: which operation can end with which error, whatever result its task recorded before; `CannotSetup`, code 4,
none (R254), the hot path none (R256). -/
def Obligations.ErrorKindsByOperation : Prop :=
  ErrorKind.cannotSetup.code = 4 ∧ (∀ o g, (ErrorKind.pinLockConflict o g).code = 5) ∧ (∀ v, (OpResult.ok v).code = 0) ∧
  ∀ (s t : State) (i : Instr) (e : ErrorKind) (v : Value), exec i s = .next t → t.task.result ≠ s.task.result →
    t.task.result = some (.err e v) →
    match e with
    | .invalidUnit => (∃ u a b c d, i = .cfgpins u a b c d) ∨ (∃ u m, i = .setmode u m) ∨ (∃ u k, i = .setspeed u k)
        ∨ (∃ u g, i = .setcs u g) ∨ (∃ u d, i = .setduplex u d) ∨ (∃ u, i = .select u) ∨ (∃ u, i = .deselect u)
        ∨ ∃ u m, i = .init u m
    | .invalidMode => ∃ u m, i = .setmode u m ∧ 3 < m
    | .slaveNotAllowed => ∃ u, i = .init u false
    | .cannotSetup => False
    | .pinLockConflict o g => (∃ u, i = .init u true) ∧ s.lockOwner g = some o
    | .outOfMemory => (∃ x y, i = .readpx x y .fail) ∨ (∃ x1 y1 x2 y2 n, i = .readpxs x1 y1 x2 y2 n .fail)
        ∨ ∃ c, i = .readtouch c .fail

/-- R16, R58: no step changes a parameter, and every step only appends to the trace. -/
def Obligations.StepAppendsToTrace : Prop :=
  ∀ s t : State, step s = .next t → t.params = s.params ∧ ∃ es, t.trace = s.trace ++ es

/-- R15: while a bracket is held no other task takes a step: the step is the running task's, and the others are as they
were.
Where a step may end inside an operation is the model's choice (log entry 12). -/
def Obligations.HeldBracketKeepsOtherTasks : Prop :=
  ∀ s t : State, s.unbracketed = false → step s = .next t →
    t.others = s.others ∧ (s.task.spin = none → s.task.op = none → s.task.seq.phase = .idle →
      s.task.issue = [] → t.task = s.task)

/-- R262, R263, R265: what each call on the GPIO, matrix and scheduler collaborators changes, and the event it appends. -/
def Obligations.CollaboratorCalls : Prop :=
  ∀ (s : State) (g : Nat) (d : Dir) (m : Pull) (v : Bool) (f : PinFn) (r : OutRoute) (src : Option Nat) (p : Fin 4),
    s.gpioSetDirection g d =
        { s with pins := s.pins.set g { s.pin g with dir := d }, trace := s.trace ++ [.pinDir g d] }
    ∧ s.gpioSetPullMode g m =
        { s with pins := s.pins.set g { s.pin g with pull := m }, trace := s.trace ++ [.pinPull g m] }
    ∧ s.gpioSetLevel g v =
        { s with pins := s.pins.set g { s.pin g with level := v }, trace := s.trace ++ [.pinLevel g v] }
    ∧ (g < s.pins.length → s.gpioSetOutput g =
        { s with
          pins := s.pins.set g { s.pin g with fn := .gpio, dir := .output, out := .gpioDriven }
          trace := s.trace ++ [.pinFunc g .gpio, .pinDir g .output, .routeOut g .gpioDriven] })
    ∧ s.matrixSelectPinFunction g f =
        { s with pins := s.pins.set g { s.pin g with fn := f }, trace := s.trace ++ [.pinFunc g f] }
    ∧ s.matrixRouteOutput g r =
        { s with pins := s.pins.set g { s.pin g with out := r }, trace := s.trace ++ [.routeOut g r] }
    ∧ s.matrixRouteInput src p =
        { s with inRoute := s.inRoute.set p src p.isLt, trace := s.trace ++ [.routeIn p src] }
    ∧ s.disableInterrupts = { s with irqDepth := s.irqDepth + 1, trace := s.trace ++ [.irqOff] }
    ∧ s.enableInterrupts = { s with irqDepth := max (s.irqDepth - 1) 0, trace := s.trace ++ [.irqOn] }
    ∧ s.suspendAllTasks = { s with suspendDepth := s.suspendDepth + 1, trace := s.trace ++ [.suspendAll] }
    ∧ s.resumeAllTasks = { s with suspendDepth := max (s.suspendDepth - 1) 0, trace := s.trace ++ [.resumeAll] }
    ∧ ∀ ms, s.schedDelay ms = { s with trace := s.trace ++ [.delay ms] }

/-- The register map of R39, its rows written out: a 32-bit write stores each field of the register from its bits and no
other field, 1 in bit 18 of `CMD` starting a transaction; a read gives each field back at its bits, without side effect; an
aligned access is always a read, and a write unless it starts a transaction while one is in flight (R30); a misaligned one
is refused (R65, R66). The parts of `CLOCK` (R101) lie where its rows say.
Nothing is said of reserved bits, which are the model's choice (log entry 8). The spec marks the map as its own choice
(D5). -/
def Obligations.RegisterMapPlacesFields : Prop :=
  ∀ (r : PeriphRegs),
    (∀ f off low width,
      (f, off, low, width) ∈
        ([(.cmdUsr, 0x00, 18, 1), (.ctrlRdBitOrder, 0x08, 25, 1), (.ctrlWrBitOrder, 0x08, 26, 1), (.clock, 0x18, 0, 32),
          (.userDoutdin, 0x1C, 0, 1), (.userCsHold, 0x1C, 4, 1), (.userCsSetup, 0x1C, 5, 1), (.userCkPhase, 0x1C, 7, 1),
          (.userUsrMosi, 0x1C, 27, 1), (.userUsrMiso, 0x1C, 28, 1), (.mosiDlen, 0x28, 0, 24), (.misoDlen, 0x2C, 0, 24),
          (.pinCkIdle, 0x34, 29, 1), (.slaveMode, 0x38, 30, 1)] : List (RegField × Nat × Nat × Nat))
          ++ (List.range 16).map (fun i => (.w (Fin.ofNat 16 i), 0x80 + 4 * i, 0, 32)) →
      (∀ v r', f ≠ .cmdUsr → r.busWrite off v = some r' → (r'.get f).toNat = v.toNat / 2 ^ low % 2 ^ width)
      ∧ (∀ off' v r', off' ≠ off → r.busWrite off' v = some r' → r'.get f = r.get f)
      ∧ (∀ v, r.busRead off = some v → v.toNat / 2 ^ low % 2 ^ width = (r.get f).toNat))
    ∧ (∀ v r', r.busWrite 0x00 v = some r' → r'.usr = (r.usr || v.getLsbD 18))
    ∧ (∀ v : Word, clockL v = v.toNat % 64 ∧ clockH v = v.toNat / 2 ^ 6 % 64 ∧ clockN v = v.toNat / 2 ^ 12 % 64
      ∧ clockPre v = v.toNat / 2 ^ 18 % 8192 ∧ (clockEqu v = true ↔ v.toNat / 2 ^ 31 = 1))
    ∧ (∀ off, off % 4 = 0 → (r.busRead off).isSome = true
      ∧ ∀ v, (off ≠ 0 ∨ r.usr = false ∨ v.getLsbD 18 = false) → (r.busWrite off v).isSome = true)
    ∧ (∀ off, off % 4 ≠ 0 → (∀ v, r.busWrite off v = none) ∧ r.busRead off = none)

/-- R14, R15: an operation that the schedule breaks off after some of its micro-steps, and that goes on with no other task
between, comes to what it comes to as one step; and so does one that ends before it is broken off.
Which accesses are micro-steps is the model's choice (log entry 12). -/
def Obligations.PreemptedOperationResumes : Prop :=
  ∀ (s s' t : State) (i : Instr) (k n : Nat), s.sched = [⟨k, some n⟩] → s.others.length ≤ k →
    fetch (switchTask s) = .instr i s' → step s = .next t →
    (t.task.op = none → exec i s' = .next t)
    ∧ (t.task.op ≠ none → step t = exec i s')

end
end

