-- ==== Sys2Proof/Laws/Flow.lean ====
section
/-! SUPPORT. How sequences of micro-steps compose: one lemma per shape, and the rule by which a property of every end
state passes through a sequence. -/

namespace Sys2Proof.Machine.Laws

@[simp] theorem andThen_run (s : State) (k : State → Flow) : (Flow.run s).andThen k = k s := rfl
@[simp] theorem andThen_hung (s : State) (k : State → Flow) : (Flow.hung s).andThen k = .hung s := rfl
@[simp] theorem andThen_refuse (r : Refusal) (k : State → Flow) : (Flow.refuse r).andThen k = .refuse r := rfl
@[simp] theorem andDo_run (s : State) (g : State → State) : (Flow.run s).andDo g = .run (g s) := rfl
@[simp] theorem andDo_hung (s : State) (g : State → State) : (Flow.hung s).andDo g = .hung s := rfl
@[simp] theorem andDo_refuse (r : Refusal) (g : State → State) : (Flow.refuse r).andDo g = .refuse r := rfl
@[simp] theorem outcome_run (s : State) (g : State → State) : (Flow.run s).outcome g = .next (g s) := rfl
@[simp] theorem outcome_hung (s : State) (g : State → State) : (Flow.hung s).outcome g = .next s := rfl
@[simp] theorem outcome_refuse (r : Refusal) (g : State → State) : (Flow.refuse r).outcome g = .refused r := rfl

/-- Every state a flow can end in: `P` where it runs to its end, `Q` where it hangs. -/
def FlowAll (P Q : State → Prop) : Flow → Prop
  | .run s => P s
  | .hung s => Q s
  | .refuse _ => True

@[simp] theorem flowAll_run {P Q : State → Prop} (s : State) : FlowAll P Q (.run s) ↔ P s := Iff.rfl
@[simp] theorem flowAll_hung {P Q : State → Prop} (s : State) : FlowAll P Q (.hung s) ↔ Q s := Iff.rfl
@[simp] theorem flowAll_refuse {P Q : State → Prop} (r : Refusal) : FlowAll P Q (.refuse r) := trivial

theorem FlowAll.mono {P P' Q Q' : State → Prop} {f : Flow} (h : FlowAll P Q f) (hp : ∀ s, P s → P' s)
    (hq : ∀ s, Q s → Q' s) : FlowAll P' Q' f := by
  cases f with
  | run s => exact hp s h
  | hung s => exact hq s h
  | refuse r => trivial

/-- Sequencing: what holds after the first part and is carried through the second holds after both. -/
theorem FlowAll.andThen {P P' Q : State → Prop} {f : Flow} {k : State → Flow} (h : FlowAll P Q f)
    (hk : ∀ s, P s → FlowAll P' Q (k s)) : FlowAll P' Q (f.andThen k) := by
  cases f with
  | run s => exact hk s h
  | hung s => exact h
  | refuse r => trivial

theorem FlowAll.andDo {P P' Q : State → Prop} {f : Flow} {g : State → State} (h : FlowAll P Q f)
    (hg : ∀ s, P s → P' (g s)) : FlowAll P' Q (f.andDo g) := h.andThen hg

/-- What a flow's end states satisfy, the outcome's next state satisfies. -/
theorem FlowAll.of_outcome {P Q R : State → Prop} {f : Flow} {g : State → State} {t : State} (h : FlowAll P Q f)
    (ho : f.outcome g = .next t) (hg : ∀ s, P s → R (g s)) (hq : ∀ s, Q s → R s) : R t := by
  cases f with
  | run s => exact Host.Outcome.next.inj ho ▸ hg s h
  | hung s => exact Host.Outcome.next.inj ho ▸ hq s h
  | refuse r => cases ho

/-- The flow runs to its end, in a state with `P`. -/
def FlowEnds (P : State → Prop) (f : Flow) : Prop := ∃ s, f = .run s ∧ P s

theorem FlowEnds.andThen {P P' : State → Prop} {f : Flow} {k : State → Flow} (h : FlowEnds P f)
    (hk : ∀ s, P s → FlowEnds P' (k s)) : FlowEnds P' (f.andThen k) := by
  obtain ⟨s, rfl, hs⟩ := h
  exact hk s hs

theorem FlowEnds.andDo {P P' : State → Prop} {f : Flow} {g : State → State} (h : FlowEnds P f)
    (hg : ∀ s, P s → P' (g s)) : FlowEnds P' (f.andDo g) := by
  obtain ⟨s, rfl, hs⟩ := h
  exact ⟨g s, rfl, hg s hs⟩

theorem FlowEnds.outcome {P R : State → Prop} {f : Flow} {g : State → State} (h : FlowEnds P f)
    (hg : ∀ s, P s → R (g s)) : ∃ t, f.outcome g = .next t ∧ R t := by
  obtain ⟨s, rfl, hs⟩ := h
  exact ⟨g s, rfl, hg s hs⟩

end Sys2Proof.Machine.Laws
end

