-- ==== Sys2Proof/Laws/State.lean ====
section
/-! SUPPORT. One lemma per field per update of the state: what each named micro-operation leaves in each field. -/

namespace Sys2Proof.Machine.Laws

/-! ### `State.setResult` -/

@[simp] theorem setResult_params (s : State) (r : Option OpResult) : (s.setResult r).params = s.params := rfl
@[simp] theorem setResult_periphs (s : State) (r : Option OpResult) : (s.setResult r).periphs = s.periphs := rfl
@[simp] theorem setResult_units (s : State) (r : Option OpResult) : (s.setResult r).units = s.units := rfl
@[simp] theorem setResult_last (s : State) (r : Option OpResult) : (s.setResult r).last = s.last := rfl
@[simp] theorem setResult_pins (s : State) (r : Option OpResult) : (s.setResult r).pins = s.pins := rfl
@[simp] theorem setResult_inRoute (s : State) (r : Option OpResult) : (s.setResult r).inRoute = s.inRoute := rfl
@[simp] theorem setResult_locks (s : State) (r : Option OpResult) : (s.setResult r).locks = s.locks := rfl
@[simp] theorem setResult_irqDepth (s : State) (r : Option OpResult) : (s.setResult r).irqDepth = s.irqDepth := rfl
@[simp] theorem setResult_suspendDepth (s : State) (r : Option OpResult) : (s.setResult r).suspendDepth = s.suspendDepth := rfl
@[simp] theorem setResult_off (s : State) (r : Option OpResult) : (s.setResult r).off = s.off := rfl
@[simp] theorem setResult_staging (s : State) (r : Option OpResult) : (s.setResult r).staging = s.staging := rfl
@[simp] theorem setResult_mem (s : State) (r : Option OpResult) : (s.setResult r).mem = s.mem := rfl
@[simp] theorem setResult_line (s : State) (r : Option OpResult) : (s.setResult r).line = s.line := rfl
@[simp] theorem setResult_draws (s : State) (r : Option OpResult) : (s.setResult r).draws = s.draws := rfl
@[simp] theorem setResult_trace (s : State) (r : Option OpResult) : (s.setResult r).trace = s.trace := rfl
@[simp] theorem setResult_task (s : State) (r : Option OpResult) : (s.setResult r).task = { s.task with result := r } := rfl
@[simp] theorem setResult_others (s : State) (r : Option OpResult) : (s.setResult r).others = s.others := rfl
@[simp] theorem setResult_sched (s : State) (r : Option OpResult) : (s.setResult r).sched = s.sched := rfl

/-! ### `State.ret` -/

@[simp] theorem ret_params (s : State) (v : Value) : (s.ret v).params = s.params := rfl
@[simp] theorem ret_periphs (s : State) (v : Value) : (s.ret v).periphs = s.periphs := rfl
@[simp] theorem ret_units (s : State) (v : Value) : (s.ret v).units = s.units := rfl
@[simp] theorem ret_last (s : State) (v : Value) : (s.ret v).last = s.last := rfl
@[simp] theorem ret_pins (s : State) (v : Value) : (s.ret v).pins = s.pins := rfl
@[simp] theorem ret_inRoute (s : State) (v : Value) : (s.ret v).inRoute = s.inRoute := rfl
@[simp] theorem ret_locks (s : State) (v : Value) : (s.ret v).locks = s.locks := rfl
@[simp] theorem ret_irqDepth (s : State) (v : Value) : (s.ret v).irqDepth = s.irqDepth := rfl
@[simp] theorem ret_suspendDepth (s : State) (v : Value) : (s.ret v).suspendDepth = s.suspendDepth := rfl
@[simp] theorem ret_off (s : State) (v : Value) : (s.ret v).off = s.off := rfl
@[simp] theorem ret_staging (s : State) (v : Value) : (s.ret v).staging = s.staging := rfl
@[simp] theorem ret_mem (s : State) (v : Value) : (s.ret v).mem = s.mem := rfl
@[simp] theorem ret_line (s : State) (v : Value) : (s.ret v).line = s.line := rfl
@[simp] theorem ret_draws (s : State) (v : Value) : (s.ret v).draws = s.draws := rfl
@[simp] theorem ret_trace (s : State) (v : Value) : (s.ret v).trace = s.trace := rfl
@[simp] theorem ret_task (s : State) (v : Value) : (s.ret v).task = { s.task with result := some (.ok v) } := rfl
@[simp] theorem ret_others (s : State) (v : Value) : (s.ret v).others = s.others := rfl
@[simp] theorem ret_sched (s : State) (v : Value) : (s.ret v).sched = s.sched := rfl

/-! ### `State.failWith` -/

@[simp] theorem failWith_params (s : State) (e : ErrorKind) (v : Value) : (s.failWith e v).params = s.params := rfl
@[simp] theorem failWith_periphs (s : State) (e : ErrorKind) (v : Value) : (s.failWith e v).periphs = s.periphs := rfl
@[simp] theorem failWith_units (s : State) (e : ErrorKind) (v : Value) : (s.failWith e v).units = s.units := rfl
@[simp] theorem failWith_last (s : State) (e : ErrorKind) (v : Value) : (s.failWith e v).last = s.last := rfl
@[simp] theorem failWith_pins (s : State) (e : ErrorKind) (v : Value) : (s.failWith e v).pins = s.pins := rfl
@[simp] theorem failWith_inRoute (s : State) (e : ErrorKind) (v : Value) : (s.failWith e v).inRoute = s.inRoute := rfl
@[simp] theorem failWith_locks (s : State) (e : ErrorKind) (v : Value) : (s.failWith e v).locks = s.locks := rfl
@[simp] theorem failWith_irqDepth (s : State) (e : ErrorKind) (v : Value) : (s.failWith e v).irqDepth = s.irqDepth := rfl
@[simp] theorem failWith_suspendDepth (s : State) (e : ErrorKind) (v : Value) : (s.failWith e v).suspendDepth = s.suspendDepth := rfl
@[simp] theorem failWith_off (s : State) (e : ErrorKind) (v : Value) : (s.failWith e v).off = s.off := rfl
@[simp] theorem failWith_staging (s : State) (e : ErrorKind) (v : Value) : (s.failWith e v).staging = s.staging := rfl
@[simp] theorem failWith_mem (s : State) (e : ErrorKind) (v : Value) : (s.failWith e v).mem = s.mem := rfl
@[simp] theorem failWith_line (s : State) (e : ErrorKind) (v : Value) : (s.failWith e v).line = s.line := rfl
@[simp] theorem failWith_draws (s : State) (e : ErrorKind) (v : Value) : (s.failWith e v).draws = s.draws := rfl
@[simp] theorem failWith_trace (s : State) (e : ErrorKind) (v : Value) : (s.failWith e v).trace = s.trace := rfl
@[simp] theorem failWith_task (s : State) (e : ErrorKind) (v : Value) : (s.failWith e v).task = { s.task with result := some (.err e v) } := rfl
@[simp] theorem failWith_others (s : State) (e : ErrorKind) (v : Value) : (s.failWith e v).others = s.others := rfl
@[simp] theorem failWith_sched (s : State) (e : ErrorKind) (v : Value) : (s.failWith e v).sched = s.sched := rfl

/-! ### `State.emit` -/

@[simp] theorem emit_params (s : State) (e : Event) : (s.emit e).params = s.params := rfl
@[simp] theorem emit_periphs (s : State) (e : Event) : (s.emit e).periphs = s.periphs := rfl
@[simp] theorem emit_units (s : State) (e : Event) : (s.emit e).units = s.units := rfl
@[simp] theorem emit_last (s : State) (e : Event) : (s.emit e).last = s.last := rfl
@[simp] theorem emit_pins (s : State) (e : Event) : (s.emit e).pins = s.pins := rfl
@[simp] theorem emit_inRoute (s : State) (e : Event) : (s.emit e).inRoute = s.inRoute := rfl
@[simp] theorem emit_locks (s : State) (e : Event) : (s.emit e).locks = s.locks := rfl
@[simp] theorem emit_irqDepth (s : State) (e : Event) : (s.emit e).irqDepth = s.irqDepth := rfl
@[simp] theorem emit_suspendDepth (s : State) (e : Event) : (s.emit e).suspendDepth = s.suspendDepth := rfl
@[simp] theorem emit_off (s : State) (e : Event) : (s.emit e).off = s.off := rfl
@[simp] theorem emit_staging (s : State) (e : Event) : (s.emit e).staging = s.staging := rfl
@[simp] theorem emit_mem (s : State) (e : Event) : (s.emit e).mem = s.mem := rfl
@[simp] theorem emit_line (s : State) (e : Event) : (s.emit e).line = s.line := rfl
@[simp] theorem emit_draws (s : State) (e : Event) : (s.emit e).draws = s.draws := rfl
@[simp] theorem emit_trace (s : State) (e : Event) : (s.emit e).trace = s.trace ++ [e] := rfl
@[simp] theorem emit_task (s : State) (e : Event) : (s.emit e).task = s.task := rfl
@[simp] theorem emit_others (s : State) (e : Event) : (s.emit e).others = s.others := rfl
@[simp] theorem emit_sched (s : State) (e : Event) : (s.emit e).sched = s.sched := rfl

/-! ### `State.setPeriph` -/

@[simp] theorem setPeriph_params (s : State) (p : Fin 4) (r : PeriphRegs) : (s.setPeriph p r).params = s.params := rfl
@[simp] theorem setPeriph_periphs (s : State) (p : Fin 4) (r : PeriphRegs) : (s.setPeriph p r).periphs = s.periphs.set p r p.isLt := rfl
@[simp] theorem setPeriph_units (s : State) (p : Fin 4) (r : PeriphRegs) : (s.setPeriph p r).units = s.units := rfl
@[simp] theorem setPeriph_last (s : State) (p : Fin 4) (r : PeriphRegs) : (s.setPeriph p r).last = s.last := rfl
@[simp] theorem setPeriph_pins (s : State) (p : Fin 4) (r : PeriphRegs) : (s.setPeriph p r).pins = s.pins := rfl
@[simp] theorem setPeriph_inRoute (s : State) (p : Fin 4) (r : PeriphRegs) : (s.setPeriph p r).inRoute = s.inRoute := rfl
@[simp] theorem setPeriph_locks (s : State) (p : Fin 4) (r : PeriphRegs) : (s.setPeriph p r).locks = s.locks := rfl
@[simp] theorem setPeriph_irqDepth (s : State) (p : Fin 4) (r : PeriphRegs) : (s.setPeriph p r).irqDepth = s.irqDepth := rfl
@[simp] theorem setPeriph_suspendDepth (s : State) (p : Fin 4) (r : PeriphRegs) : (s.setPeriph p r).suspendDepth = s.suspendDepth := rfl
@[simp] theorem setPeriph_off (s : State) (p : Fin 4) (r : PeriphRegs) : (s.setPeriph p r).off = s.off := rfl
@[simp] theorem setPeriph_staging (s : State) (p : Fin 4) (r : PeriphRegs) : (s.setPeriph p r).staging = s.staging := rfl
@[simp] theorem setPeriph_mem (s : State) (p : Fin 4) (r : PeriphRegs) : (s.setPeriph p r).mem = s.mem := rfl
@[simp] theorem setPeriph_line (s : State) (p : Fin 4) (r : PeriphRegs) : (s.setPeriph p r).line = s.line := rfl
@[simp] theorem setPeriph_draws (s : State) (p : Fin 4) (r : PeriphRegs) : (s.setPeriph p r).draws = s.draws := rfl
@[simp] theorem setPeriph_trace (s : State) (p : Fin 4) (r : PeriphRegs) : (s.setPeriph p r).trace = s.trace := rfl
@[simp] theorem setPeriph_task (s : State) (p : Fin 4) (r : PeriphRegs) : (s.setPeriph p r).task = s.task := rfl
@[simp] theorem setPeriph_others (s : State) (p : Fin 4) (r : PeriphRegs) : (s.setPeriph p r).others = s.others := rfl
@[simp] theorem setPeriph_sched (s : State) (p : Fin 4) (r : PeriphRegs) : (s.setPeriph p r).sched = s.sched := rfl

/-! ### `State.setPin` -/

@[simp] theorem setPin_params (s : State) (g : Nat) (q : PinState) : (s.setPin g q).params = s.params := rfl
@[simp] theorem setPin_periphs (s : State) (g : Nat) (q : PinState) : (s.setPin g q).periphs = s.periphs := rfl
@[simp] theorem setPin_units (s : State) (g : Nat) (q : PinState) : (s.setPin g q).units = s.units := rfl
@[simp] theorem setPin_last (s : State) (g : Nat) (q : PinState) : (s.setPin g q).last = s.last := rfl
@[simp] theorem setPin_pins (s : State) (g : Nat) (q : PinState) : (s.setPin g q).pins = s.pins.set g q := rfl
@[simp] theorem setPin_inRoute (s : State) (g : Nat) (q : PinState) : (s.setPin g q).inRoute = s.inRoute := rfl
@[simp] theorem setPin_locks (s : State) (g : Nat) (q : PinState) : (s.setPin g q).locks = s.locks := rfl
@[simp] theorem setPin_irqDepth (s : State) (g : Nat) (q : PinState) : (s.setPin g q).irqDepth = s.irqDepth := rfl
@[simp] theorem setPin_suspendDepth (s : State) (g : Nat) (q : PinState) : (s.setPin g q).suspendDepth = s.suspendDepth := rfl
@[simp] theorem setPin_off (s : State) (g : Nat) (q : PinState) : (s.setPin g q).off = s.off := rfl
@[simp] theorem setPin_staging (s : State) (g : Nat) (q : PinState) : (s.setPin g q).staging = s.staging := rfl
@[simp] theorem setPin_mem (s : State) (g : Nat) (q : PinState) : (s.setPin g q).mem = s.mem := rfl
@[simp] theorem setPin_line (s : State) (g : Nat) (q : PinState) : (s.setPin g q).line = s.line := rfl
@[simp] theorem setPin_draws (s : State) (g : Nat) (q : PinState) : (s.setPin g q).draws = s.draws := rfl
@[simp] theorem setPin_trace (s : State) (g : Nat) (q : PinState) : (s.setPin g q).trace = s.trace := rfl
@[simp] theorem setPin_task (s : State) (g : Nat) (q : PinState) : (s.setPin g q).task = s.task := rfl
@[simp] theorem setPin_others (s : State) (g : Nat) (q : PinState) : (s.setPin g q).others = s.others := rfl
@[simp] theorem setPin_sched (s : State) (g : Nat) (q : PinState) : (s.setPin g q).sched = s.sched := rfl

/-! ### `State.writeReg` -/

@[simp] theorem writeReg_params (s : State) (p : Fin 4) (f : RegField) (v : Word) : (s.writeReg p f v).params = s.params := rfl
@[simp] theorem writeReg_periphs (s : State) (p : Fin 4) (f : RegField) (v : Word) : (s.writeReg p f v).periphs = s.periphs.set p ((s.periph p).put f v) p.isLt := rfl
@[simp] theorem writeReg_units (s : State) (p : Fin 4) (f : RegField) (v : Word) : (s.writeReg p f v).units = s.units := rfl
@[simp] theorem writeReg_last (s : State) (p : Fin 4) (f : RegField) (v : Word) : (s.writeReg p f v).last = s.last := rfl
@[simp] theorem writeReg_pins (s : State) (p : Fin 4) (f : RegField) (v : Word) : (s.writeReg p f v).pins = s.pins := rfl
@[simp] theorem writeReg_inRoute (s : State) (p : Fin 4) (f : RegField) (v : Word) : (s.writeReg p f v).inRoute = s.inRoute := rfl
@[simp] theorem writeReg_locks (s : State) (p : Fin 4) (f : RegField) (v : Word) : (s.writeReg p f v).locks = s.locks := rfl
@[simp] theorem writeReg_irqDepth (s : State) (p : Fin 4) (f : RegField) (v : Word) : (s.writeReg p f v).irqDepth = s.irqDepth := rfl
@[simp] theorem writeReg_suspendDepth (s : State) (p : Fin 4) (f : RegField) (v : Word) : (s.writeReg p f v).suspendDepth = s.suspendDepth := rfl
@[simp] theorem writeReg_off (s : State) (p : Fin 4) (f : RegField) (v : Word) : (s.writeReg p f v).off = s.off := rfl
@[simp] theorem writeReg_staging (s : State) (p : Fin 4) (f : RegField) (v : Word) : (s.writeReg p f v).staging = s.staging := rfl
@[simp] theorem writeReg_mem (s : State) (p : Fin 4) (f : RegField) (v : Word) : (s.writeReg p f v).mem = s.mem := rfl
@[simp] theorem writeReg_line (s : State) (p : Fin 4) (f : RegField) (v : Word) : (s.writeReg p f v).line = s.line := rfl
@[simp] theorem writeReg_draws (s : State) (p : Fin 4) (f : RegField) (v : Word) : (s.writeReg p f v).draws = s.draws := rfl
@[simp] theorem writeReg_trace (s : State) (p : Fin 4) (f : RegField) (v : Word) : (s.writeReg p f v).trace = s.trace ++ [.regWrite p f v] := rfl
@[simp] theorem writeReg_task (s : State) (p : Fin 4) (f : RegField) (v : Word) : (s.writeReg p f v).task = s.task := rfl
@[simp] theorem writeReg_others (s : State) (p : Fin 4) (f : RegField) (v : Word) : (s.writeReg p f v).others = s.others := rfl
@[simp] theorem writeReg_sched (s : State) (p : Fin 4) (f : RegField) (v : Word) : (s.writeReg p f v).sched = s.sched := rfl

/-! ### `State.gpioSetDirection` -/

@[simp] theorem gpioSetDirection_params (s : State) (g : Nat) (d : Dir) : (s.gpioSetDirection g d).params = s.params := rfl
@[simp] theorem gpioSetDirection_periphs (s : State) (g : Nat) (d : Dir) : (s.gpioSetDirection g d).periphs = s.periphs := rfl
@[simp] theorem gpioSetDirection_units (s : State) (g : Nat) (d : Dir) : (s.gpioSetDirection g d).units = s.units := rfl
@[simp] theorem gpioSetDirection_last (s : State) (g : Nat) (d : Dir) : (s.gpioSetDirection g d).last = s.last := rfl
@[simp] theorem gpioSetDirection_pins (s : State) (g : Nat) (d : Dir) : (s.gpioSetDirection g d).pins = s.pins.set g { s.pin g with dir := d } := rfl
@[simp] theorem gpioSetDirection_inRoute (s : State) (g : Nat) (d : Dir) : (s.gpioSetDirection g d).inRoute = s.inRoute := rfl
@[simp] theorem gpioSetDirection_locks (s : State) (g : Nat) (d : Dir) : (s.gpioSetDirection g d).locks = s.locks := rfl
@[simp] theorem gpioSetDirection_irqDepth (s : State) (g : Nat) (d : Dir) : (s.gpioSetDirection g d).irqDepth = s.irqDepth := rfl
@[simp] theorem gpioSetDirection_suspendDepth (s : State) (g : Nat) (d : Dir) : (s.gpioSetDirection g d).suspendDepth = s.suspendDepth := rfl
@[simp] theorem gpioSetDirection_off (s : State) (g : Nat) (d : Dir) : (s.gpioSetDirection g d).off = s.off := rfl
@[simp] theorem gpioSetDirection_staging (s : State) (g : Nat) (d : Dir) : (s.gpioSetDirection g d).staging = s.staging := rfl
@[simp] theorem gpioSetDirection_mem (s : State) (g : Nat) (d : Dir) : (s.gpioSetDirection g d).mem = s.mem := rfl
@[simp] theorem gpioSetDirection_line (s : State) (g : Nat) (d : Dir) : (s.gpioSetDirection g d).line = s.line := rfl
@[simp] theorem gpioSetDirection_draws (s : State) (g : Nat) (d : Dir) : (s.gpioSetDirection g d).draws = s.draws := rfl
@[simp] theorem gpioSetDirection_trace (s : State) (g : Nat) (d : Dir) : (s.gpioSetDirection g d).trace = s.trace ++ [.pinDir g d] := rfl
@[simp] theorem gpioSetDirection_task (s : State) (g : Nat) (d : Dir) : (s.gpioSetDirection g d).task = s.task := rfl
@[simp] theorem gpioSetDirection_others (s : State) (g : Nat) (d : Dir) : (s.gpioSetDirection g d).others = s.others := rfl
@[simp] theorem gpioSetDirection_sched (s : State) (g : Nat) (d : Dir) : (s.gpioSetDirection g d).sched = s.sched := rfl

/-! ### `State.gpioSetPullMode` -/

@[simp] theorem gpioSetPullMode_params (s : State) (g : Nat) (m : Pull) : (s.gpioSetPullMode g m).params = s.params := rfl
@[simp] theorem gpioSetPullMode_periphs (s : State) (g : Nat) (m : Pull) : (s.gpioSetPullMode g m).periphs = s.periphs := rfl
@[simp] theorem gpioSetPullMode_units (s : State) (g : Nat) (m : Pull) : (s.gpioSetPullMode g m).units = s.units := rfl
@[simp] theorem gpioSetPullMode_last (s : State) (g : Nat) (m : Pull) : (s.gpioSetPullMode g m).last = s.last := rfl
@[simp] theorem gpioSetPullMode_pins (s : State) (g : Nat) (m : Pull) : (s.gpioSetPullMode g m).pins = s.pins.set g { s.pin g with pull := m } := rfl
@[simp] theorem gpioSetPullMode_inRoute (s : State) (g : Nat) (m : Pull) : (s.gpioSetPullMode g m).inRoute = s.inRoute := rfl
@[simp] theorem gpioSetPullMode_locks (s : State) (g : Nat) (m : Pull) : (s.gpioSetPullMode g m).locks = s.locks := rfl
@[simp] theorem gpioSetPullMode_irqDepth (s : State) (g : Nat) (m : Pull) : (s.gpioSetPullMode g m).irqDepth = s.irqDepth := rfl
@[simp] theorem gpioSetPullMode_suspendDepth (s : State) (g : Nat) (m : Pull) : (s.gpioSetPullMode g m).suspendDepth = s.suspendDepth := rfl
@[simp] theorem gpioSetPullMode_off (s : State) (g : Nat) (m : Pull) : (s.gpioSetPullMode g m).off = s.off := rfl
@[simp] theorem gpioSetPullMode_staging (s : State) (g : Nat) (m : Pull) : (s.gpioSetPullMode g m).staging = s.staging := rfl
@[simp] theorem gpioSetPullMode_mem (s : State) (g : Nat) (m : Pull) : (s.gpioSetPullMode g m).mem = s.mem := rfl
@[simp] theorem gpioSetPullMode_line (s : State) (g : Nat) (m : Pull) : (s.gpioSetPullMode g m).line = s.line := rfl
@[simp] theorem gpioSetPullMode_draws (s : State) (g : Nat) (m : Pull) : (s.gpioSetPullMode g m).draws = s.draws := rfl
@[simp] theorem gpioSetPullMode_trace (s : State) (g : Nat) (m : Pull) : (s.gpioSetPullMode g m).trace = s.trace ++ [.pinPull g m] := rfl
@[simp] theorem gpioSetPullMode_task (s : State) (g : Nat) (m : Pull) : (s.gpioSetPullMode g m).task = s.task := rfl
@[simp] theorem gpioSetPullMode_others (s : State) (g : Nat) (m : Pull) : (s.gpioSetPullMode g m).others = s.others := rfl
@[simp] theorem gpioSetPullMode_sched (s : State) (g : Nat) (m : Pull) : (s.gpioSetPullMode g m).sched = s.sched := rfl

/-! ### `State.gpioSetLevel` -/

@[simp] theorem gpioSetLevel_params (s : State) (g : Nat) (v : Bool) : (s.gpioSetLevel g v).params = s.params := rfl
@[simp] theorem gpioSetLevel_periphs (s : State) (g : Nat) (v : Bool) : (s.gpioSetLevel g v).periphs = s.periphs := rfl
@[simp] theorem gpioSetLevel_units (s : State) (g : Nat) (v : Bool) : (s.gpioSetLevel g v).units = s.units := rfl
@[simp] theorem gpioSetLevel_last (s : State) (g : Nat) (v : Bool) : (s.gpioSetLevel g v).last = s.last := rfl
@[simp] theorem gpioSetLevel_pins (s : State) (g : Nat) (v : Bool) : (s.gpioSetLevel g v).pins = s.pins.set g { s.pin g with level := v } := rfl
@[simp] theorem gpioSetLevel_inRoute (s : State) (g : Nat) (v : Bool) : (s.gpioSetLevel g v).inRoute = s.inRoute := rfl
@[simp] theorem gpioSetLevel_locks (s : State) (g : Nat) (v : Bool) : (s.gpioSetLevel g v).locks = s.locks := rfl
@[simp] theorem gpioSetLevel_irqDepth (s : State) (g : Nat) (v : Bool) : (s.gpioSetLevel g v).irqDepth = s.irqDepth := rfl
@[simp] theorem gpioSetLevel_suspendDepth (s : State) (g : Nat) (v : Bool) : (s.gpioSetLevel g v).suspendDepth = s.suspendDepth := rfl
@[simp] theorem gpioSetLevel_off (s : State) (g : Nat) (v : Bool) : (s.gpioSetLevel g v).off = s.off := rfl
@[simp] theorem gpioSetLevel_staging (s : State) (g : Nat) (v : Bool) : (s.gpioSetLevel g v).staging = s.staging := rfl
@[simp] theorem gpioSetLevel_mem (s : State) (g : Nat) (v : Bool) : (s.gpioSetLevel g v).mem = s.mem := rfl
@[simp] theorem gpioSetLevel_line (s : State) (g : Nat) (v : Bool) : (s.gpioSetLevel g v).line = s.line := rfl
@[simp] theorem gpioSetLevel_draws (s : State) (g : Nat) (v : Bool) : (s.gpioSetLevel g v).draws = s.draws := rfl
@[simp] theorem gpioSetLevel_trace (s : State) (g : Nat) (v : Bool) : (s.gpioSetLevel g v).trace = s.trace ++ [.pinLevel g v] := rfl
@[simp] theorem gpioSetLevel_task (s : State) (g : Nat) (v : Bool) : (s.gpioSetLevel g v).task = s.task := rfl
@[simp] theorem gpioSetLevel_others (s : State) (g : Nat) (v : Bool) : (s.gpioSetLevel g v).others = s.others := rfl
@[simp] theorem gpioSetLevel_sched (s : State) (g : Nat) (v : Bool) : (s.gpioSetLevel g v).sched = s.sched := rfl

/-! ### `State.matrixSelectPinFunction` -/

@[simp] theorem matrixSelectPinFunction_params (s : State) (g : Nat) (f : PinFn) : (s.matrixSelectPinFunction g f).params = s.params := rfl
@[simp] theorem matrixSelectPinFunction_periphs (s : State) (g : Nat) (f : PinFn) : (s.matrixSelectPinFunction g f).periphs = s.periphs := rfl
@[simp] theorem matrixSelectPinFunction_units (s : State) (g : Nat) (f : PinFn) : (s.matrixSelectPinFunction g f).units = s.units := rfl
@[simp] theorem matrixSelectPinFunction_last (s : State) (g : Nat) (f : PinFn) : (s.matrixSelectPinFunction g f).last = s.last := rfl
@[simp] theorem matrixSelectPinFunction_pins (s : State) (g : Nat) (f : PinFn) : (s.matrixSelectPinFunction g f).pins = s.pins.set g { s.pin g with fn := f } := rfl
@[simp] theorem matrixSelectPinFunction_inRoute (s : State) (g : Nat) (f : PinFn) : (s.matrixSelectPinFunction g f).inRoute = s.inRoute := rfl
@[simp] theorem matrixSelectPinFunction_locks (s : State) (g : Nat) (f : PinFn) : (s.matrixSelectPinFunction g f).locks = s.locks := rfl
@[simp] theorem matrixSelectPinFunction_irqDepth (s : State) (g : Nat) (f : PinFn) : (s.matrixSelectPinFunction g f).irqDepth = s.irqDepth := rfl
@[simp] theorem matrixSelectPinFunction_suspendDepth (s : State) (g : Nat) (f : PinFn) : (s.matrixSelectPinFunction g f).suspendDepth = s.suspendDepth := rfl
@[simp] theorem matrixSelectPinFunction_off (s : State) (g : Nat) (f : PinFn) : (s.matrixSelectPinFunction g f).off = s.off := rfl
@[simp] theorem matrixSelectPinFunction_staging (s : State) (g : Nat) (f : PinFn) : (s.matrixSelectPinFunction g f).staging = s.staging := rfl
@[simp] theorem matrixSelectPinFunction_mem (s : State) (g : Nat) (f : PinFn) : (s.matrixSelectPinFunction g f).mem = s.mem := rfl
@[simp] theorem matrixSelectPinFunction_line (s : State) (g : Nat) (f : PinFn) : (s.matrixSelectPinFunction g f).line = s.line := rfl
@[simp] theorem matrixSelectPinFunction_draws (s : State) (g : Nat) (f : PinFn) : (s.matrixSelectPinFunction g f).draws = s.draws := rfl
@[simp] theorem matrixSelectPinFunction_trace (s : State) (g : Nat) (f : PinFn) : (s.matrixSelectPinFunction g f).trace = s.trace ++ [.pinFunc g f] := rfl
@[simp] theorem matrixSelectPinFunction_task (s : State) (g : Nat) (f : PinFn) : (s.matrixSelectPinFunction g f).task = s.task := rfl
@[simp] theorem matrixSelectPinFunction_others (s : State) (g : Nat) (f : PinFn) : (s.matrixSelectPinFunction g f).others = s.others := rfl
@[simp] theorem matrixSelectPinFunction_sched (s : State) (g : Nat) (f : PinFn) : (s.matrixSelectPinFunction g f).sched = s.sched := rfl

/-! ### `State.matrixRouteOutput` -/

@[simp] theorem matrixRouteOutput_params (s : State) (g : Nat) (r : OutRoute) : (s.matrixRouteOutput g r).params = s.params := rfl
@[simp] theorem matrixRouteOutput_periphs (s : State) (g : Nat) (r : OutRoute) : (s.matrixRouteOutput g r).periphs = s.periphs := rfl
@[simp] theorem matrixRouteOutput_units (s : State) (g : Nat) (r : OutRoute) : (s.matrixRouteOutput g r).units = s.units := rfl
@[simp] theorem matrixRouteOutput_last (s : State) (g : Nat) (r : OutRoute) : (s.matrixRouteOutput g r).last = s.last := rfl
@[simp] theorem matrixRouteOutput_pins (s : State) (g : Nat) (r : OutRoute) : (s.matrixRouteOutput g r).pins = s.pins.set g { s.pin g with out := r } := rfl
@[simp] theorem matrixRouteOutput_inRoute (s : State) (g : Nat) (r : OutRoute) : (s.matrixRouteOutput g r).inRoute = s.inRoute := rfl
@[simp] theorem matrixRouteOutput_locks (s : State) (g : Nat) (r : OutRoute) : (s.matrixRouteOutput g r).locks = s.locks := rfl
@[simp] theorem matrixRouteOutput_irqDepth (s : State) (g : Nat) (r : OutRoute) : (s.matrixRouteOutput g r).irqDepth = s.irqDepth := rfl
@[simp] theorem matrixRouteOutput_suspendDepth (s : State) (g : Nat) (r : OutRoute) : (s.matrixRouteOutput g r).suspendDepth = s.suspendDepth := rfl
@[simp] theorem matrixRouteOutput_off (s : State) (g : Nat) (r : OutRoute) : (s.matrixRouteOutput g r).off = s.off := rfl
@[simp] theorem matrixRouteOutput_staging (s : State) (g : Nat) (r : OutRoute) : (s.matrixRouteOutput g r).staging = s.staging := rfl
@[simp] theorem matrixRouteOutput_mem (s : State) (g : Nat) (r : OutRoute) : (s.matrixRouteOutput g r).mem = s.mem := rfl
@[simp] theorem matrixRouteOutput_line (s : State) (g : Nat) (r : OutRoute) : (s.matrixRouteOutput g r).line = s.line := rfl
@[simp] theorem matrixRouteOutput_draws (s : State) (g : Nat) (r : OutRoute) : (s.matrixRouteOutput g r).draws = s.draws := rfl
@[simp] theorem matrixRouteOutput_trace (s : State) (g : Nat) (r : OutRoute) : (s.matrixRouteOutput g r).trace = s.trace ++ [.routeOut g r] := rfl
@[simp] theorem matrixRouteOutput_task (s : State) (g : Nat) (r : OutRoute) : (s.matrixRouteOutput g r).task = s.task := rfl
@[simp] theorem matrixRouteOutput_others (s : State) (g : Nat) (r : OutRoute) : (s.matrixRouteOutput g r).others = s.others := rfl
@[simp] theorem matrixRouteOutput_sched (s : State) (g : Nat) (r : OutRoute) : (s.matrixRouteOutput g r).sched = s.sched := rfl

/-! ### `State.matrixRouteInput` -/

@[simp] theorem matrixRouteInput_params (s : State) (src : Option Nat) (p : Fin 4) : (s.matrixRouteInput src p).params = s.params := rfl
@[simp] theorem matrixRouteInput_periphs (s : State) (src : Option Nat) (p : Fin 4) : (s.matrixRouteInput src p).periphs = s.periphs := rfl
@[simp] theorem matrixRouteInput_units (s : State) (src : Option Nat) (p : Fin 4) : (s.matrixRouteInput src p).units = s.units := rfl
@[simp] theorem matrixRouteInput_last (s : State) (src : Option Nat) (p : Fin 4) : (s.matrixRouteInput src p).last = s.last := rfl
@[simp] theorem matrixRouteInput_pins (s : State) (src : Option Nat) (p : Fin 4) : (s.matrixRouteInput src p).pins = s.pins := rfl
@[simp] theorem matrixRouteInput_inRoute (s : State) (src : Option Nat) (p : Fin 4) : (s.matrixRouteInput src p).inRoute = s.inRoute.set p src p.isLt := rfl
@[simp] theorem matrixRouteInput_locks (s : State) (src : Option Nat) (p : Fin 4) : (s.matrixRouteInput src p).locks = s.locks := rfl
@[simp] theorem matrixRouteInput_irqDepth (s : State) (src : Option Nat) (p : Fin 4) : (s.matrixRouteInput src p).irqDepth = s.irqDepth := rfl
@[simp] theorem matrixRouteInput_suspendDepth (s : State) (src : Option Nat) (p : Fin 4) : (s.matrixRouteInput src p).suspendDepth = s.suspendDepth := rfl
@[simp] theorem matrixRouteInput_off (s : State) (src : Option Nat) (p : Fin 4) : (s.matrixRouteInput src p).off = s.off := rfl
@[simp] theorem matrixRouteInput_staging (s : State) (src : Option Nat) (p : Fin 4) : (s.matrixRouteInput src p).staging = s.staging := rfl
@[simp] theorem matrixRouteInput_mem (s : State) (src : Option Nat) (p : Fin 4) : (s.matrixRouteInput src p).mem = s.mem := rfl
@[simp] theorem matrixRouteInput_line (s : State) (src : Option Nat) (p : Fin 4) : (s.matrixRouteInput src p).line = s.line := rfl
@[simp] theorem matrixRouteInput_draws (s : State) (src : Option Nat) (p : Fin 4) : (s.matrixRouteInput src p).draws = s.draws := rfl
@[simp] theorem matrixRouteInput_trace (s : State) (src : Option Nat) (p : Fin 4) : (s.matrixRouteInput src p).trace = s.trace ++ [.routeIn p src] := rfl
@[simp] theorem matrixRouteInput_task (s : State) (src : Option Nat) (p : Fin 4) : (s.matrixRouteInput src p).task = s.task := rfl
@[simp] theorem matrixRouteInput_others (s : State) (src : Option Nat) (p : Fin 4) : (s.matrixRouteInput src p).others = s.others := rfl
@[simp] theorem matrixRouteInput_sched (s : State) (src : Option Nat) (p : Fin 4) : (s.matrixRouteInput src p).sched = s.sched := rfl

/-! ### `State.disableInterrupts` -/

@[simp] theorem disableInterrupts_params (s : State) : (s.disableInterrupts).params = s.params := rfl
@[simp] theorem disableInterrupts_periphs (s : State) : (s.disableInterrupts).periphs = s.periphs := rfl
@[simp] theorem disableInterrupts_units (s : State) : (s.disableInterrupts).units = s.units := rfl
@[simp] theorem disableInterrupts_last (s : State) : (s.disableInterrupts).last = s.last := rfl
@[simp] theorem disableInterrupts_pins (s : State) : (s.disableInterrupts).pins = s.pins := rfl
@[simp] theorem disableInterrupts_inRoute (s : State) : (s.disableInterrupts).inRoute = s.inRoute := rfl
@[simp] theorem disableInterrupts_locks (s : State) : (s.disableInterrupts).locks = s.locks := rfl
@[simp] theorem disableInterrupts_irqDepth (s : State) : (s.disableInterrupts).irqDepth = s.irqDepth + 1 := rfl
@[simp] theorem disableInterrupts_suspendDepth (s : State) : (s.disableInterrupts).suspendDepth = s.suspendDepth := rfl
@[simp] theorem disableInterrupts_off (s : State) : (s.disableInterrupts).off = s.off := rfl
@[simp] theorem disableInterrupts_staging (s : State) : (s.disableInterrupts).staging = s.staging := rfl
@[simp] theorem disableInterrupts_mem (s : State) : (s.disableInterrupts).mem = s.mem := rfl
@[simp] theorem disableInterrupts_line (s : State) : (s.disableInterrupts).line = s.line := rfl
@[simp] theorem disableInterrupts_draws (s : State) : (s.disableInterrupts).draws = s.draws := rfl
@[simp] theorem disableInterrupts_trace (s : State) : (s.disableInterrupts).trace = s.trace ++ [.irqOff] := rfl
@[simp] theorem disableInterrupts_task (s : State) : (s.disableInterrupts).task = s.task := rfl
@[simp] theorem disableInterrupts_others (s : State) : (s.disableInterrupts).others = s.others := rfl
@[simp] theorem disableInterrupts_sched (s : State) : (s.disableInterrupts).sched = s.sched := rfl

/-! ### `State.enableInterrupts` -/

@[simp] theorem enableInterrupts_params (s : State) : (s.enableInterrupts).params = s.params := rfl
@[simp] theorem enableInterrupts_periphs (s : State) : (s.enableInterrupts).periphs = s.periphs := rfl
@[simp] theorem enableInterrupts_units (s : State) : (s.enableInterrupts).units = s.units := rfl
@[simp] theorem enableInterrupts_last (s : State) : (s.enableInterrupts).last = s.last := rfl
@[simp] theorem enableInterrupts_pins (s : State) : (s.enableInterrupts).pins = s.pins := rfl
@[simp] theorem enableInterrupts_inRoute (s : State) : (s.enableInterrupts).inRoute = s.inRoute := rfl
@[simp] theorem enableInterrupts_locks (s : State) : (s.enableInterrupts).locks = s.locks := rfl
@[simp] theorem enableInterrupts_irqDepth (s : State) : (s.enableInterrupts).irqDepth = s.irqDepth - 1 := rfl
@[simp] theorem enableInterrupts_suspendDepth (s : State) : (s.enableInterrupts).suspendDepth = s.suspendDepth := rfl
@[simp] theorem enableInterrupts_off (s : State) : (s.enableInterrupts).off = s.off := rfl
@[simp] theorem enableInterrupts_staging (s : State) : (s.enableInterrupts).staging = s.staging := rfl
@[simp] theorem enableInterrupts_mem (s : State) : (s.enableInterrupts).mem = s.mem := rfl
@[simp] theorem enableInterrupts_line (s : State) : (s.enableInterrupts).line = s.line := rfl
@[simp] theorem enableInterrupts_draws (s : State) : (s.enableInterrupts).draws = s.draws := rfl
@[simp] theorem enableInterrupts_trace (s : State) : (s.enableInterrupts).trace = s.trace ++ [.irqOn] := rfl
@[simp] theorem enableInterrupts_task (s : State) : (s.enableInterrupts).task = s.task := rfl
@[simp] theorem enableInterrupts_others (s : State) : (s.enableInterrupts).others = s.others := rfl
@[simp] theorem enableInterrupts_sched (s : State) : (s.enableInterrupts).sched = s.sched := rfl

/-! ### `State.suspendAllTasks` -/

@[simp] theorem suspendAllTasks_params (s : State) : (s.suspendAllTasks).params = s.params := rfl
@[simp] theorem suspendAllTasks_periphs (s : State) : (s.suspendAllTasks).periphs = s.periphs := rfl
@[simp] theorem suspendAllTasks_units (s : State) : (s.suspendAllTasks).units = s.units := rfl
@[simp] theorem suspendAllTasks_last (s : State) : (s.suspendAllTasks).last = s.last := rfl
@[simp] theorem suspendAllTasks_pins (s : State) : (s.suspendAllTasks).pins = s.pins := rfl
@[simp] theorem suspendAllTasks_inRoute (s : State) : (s.suspendAllTasks).inRoute = s.inRoute := rfl
@[simp] theorem suspendAllTasks_locks (s : State) : (s.suspendAllTasks).locks = s.locks := rfl
@[simp] theorem suspendAllTasks_irqDepth (s : State) : (s.suspendAllTasks).irqDepth = s.irqDepth := rfl
@[simp] theorem suspendAllTasks_suspendDepth (s : State) : (s.suspendAllTasks).suspendDepth = s.suspendDepth + 1 := rfl
@[simp] theorem suspendAllTasks_off (s : State) : (s.suspendAllTasks).off = s.off := rfl
@[simp] theorem suspendAllTasks_staging (s : State) : (s.suspendAllTasks).staging = s.staging := rfl
@[simp] theorem suspendAllTasks_mem (s : State) : (s.suspendAllTasks).mem = s.mem := rfl
@[simp] theorem suspendAllTasks_line (s : State) : (s.suspendAllTasks).line = s.line := rfl
@[simp] theorem suspendAllTasks_draws (s : State) : (s.suspendAllTasks).draws = s.draws := rfl
@[simp] theorem suspendAllTasks_trace (s : State) : (s.suspendAllTasks).trace = s.trace ++ [.suspendAll] := rfl
@[simp] theorem suspendAllTasks_task (s : State) : (s.suspendAllTasks).task = s.task := rfl
@[simp] theorem suspendAllTasks_others (s : State) : (s.suspendAllTasks).others = s.others := rfl
@[simp] theorem suspendAllTasks_sched (s : State) : (s.suspendAllTasks).sched = s.sched := rfl

/-! ### `State.resumeAllTasks` -/

@[simp] theorem resumeAllTasks_params (s : State) : (s.resumeAllTasks).params = s.params := rfl
@[simp] theorem resumeAllTasks_periphs (s : State) : (s.resumeAllTasks).periphs = s.periphs := rfl
@[simp] theorem resumeAllTasks_units (s : State) : (s.resumeAllTasks).units = s.units := rfl
@[simp] theorem resumeAllTasks_last (s : State) : (s.resumeAllTasks).last = s.last := rfl
@[simp] theorem resumeAllTasks_pins (s : State) : (s.resumeAllTasks).pins = s.pins := rfl
@[simp] theorem resumeAllTasks_inRoute (s : State) : (s.resumeAllTasks).inRoute = s.inRoute := rfl
@[simp] theorem resumeAllTasks_locks (s : State) : (s.resumeAllTasks).locks = s.locks := rfl
@[simp] theorem resumeAllTasks_irqDepth (s : State) : (s.resumeAllTasks).irqDepth = s.irqDepth := rfl
@[simp] theorem resumeAllTasks_suspendDepth (s : State) : (s.resumeAllTasks).suspendDepth = s.suspendDepth - 1 := rfl
@[simp] theorem resumeAllTasks_off (s : State) : (s.resumeAllTasks).off = s.off := rfl
@[simp] theorem resumeAllTasks_staging (s : State) : (s.resumeAllTasks).staging = s.staging := rfl
@[simp] theorem resumeAllTasks_mem (s : State) : (s.resumeAllTasks).mem = s.mem := rfl
@[simp] theorem resumeAllTasks_line (s : State) : (s.resumeAllTasks).line = s.line := rfl
@[simp] theorem resumeAllTasks_draws (s : State) : (s.resumeAllTasks).draws = s.draws := rfl
@[simp] theorem resumeAllTasks_trace (s : State) : (s.resumeAllTasks).trace = s.trace ++ [.resumeAll] := rfl
@[simp] theorem resumeAllTasks_task (s : State) : (s.resumeAllTasks).task = s.task := rfl
@[simp] theorem resumeAllTasks_others (s : State) : (s.resumeAllTasks).others = s.others := rfl
@[simp] theorem resumeAllTasks_sched (s : State) : (s.resumeAllTasks).sched = s.sched := rfl

/-! ### `State.schedDelay` -/

@[simp] theorem schedDelay_params (s : State) (ms : Nat) : (s.schedDelay ms).params = s.params := rfl
@[simp] theorem schedDelay_periphs (s : State) (ms : Nat) : (s.schedDelay ms).periphs = s.periphs := rfl
@[simp] theorem schedDelay_units (s : State) (ms : Nat) : (s.schedDelay ms).units = s.units := rfl
@[simp] theorem schedDelay_last (s : State) (ms : Nat) : (s.schedDelay ms).last = s.last := rfl
@[simp] theorem schedDelay_pins (s : State) (ms : Nat) : (s.schedDelay ms).pins = s.pins := rfl
@[simp] theorem schedDelay_inRoute (s : State) (ms : Nat) : (s.schedDelay ms).inRoute = s.inRoute := rfl
@[simp] theorem schedDelay_locks (s : State) (ms : Nat) : (s.schedDelay ms).locks = s.locks := rfl
@[simp] theorem schedDelay_irqDepth (s : State) (ms : Nat) : (s.schedDelay ms).irqDepth = s.irqDepth := rfl
@[simp] theorem schedDelay_suspendDepth (s : State) (ms : Nat) : (s.schedDelay ms).suspendDepth = s.suspendDepth := rfl
@[simp] theorem schedDelay_off (s : State) (ms : Nat) : (s.schedDelay ms).off = s.off := rfl
@[simp] theorem schedDelay_staging (s : State) (ms : Nat) : (s.schedDelay ms).staging = s.staging := rfl
@[simp] theorem schedDelay_mem (s : State) (ms : Nat) : (s.schedDelay ms).mem = s.mem := rfl
@[simp] theorem schedDelay_line (s : State) (ms : Nat) : (s.schedDelay ms).line = s.line := rfl
@[simp] theorem schedDelay_draws (s : State) (ms : Nat) : (s.schedDelay ms).draws = s.draws := rfl
@[simp] theorem schedDelay_trace (s : State) (ms : Nat) : (s.schedDelay ms).trace = s.trace ++ [.delay ms] := rfl
@[simp] theorem schedDelay_task (s : State) (ms : Nat) : (s.schedDelay ms).task = s.task := rfl
@[simp] theorem schedDelay_others (s : State) (ms : Nat) : (s.schedDelay ms).others = s.others := rfl
@[simp] theorem schedDelay_sched (s : State) (ms : Nat) : (s.schedDelay ms).sched = s.sched := rfl

/-! ### `State.heapAlloc` -/

@[simp] theorem heapAlloc_params (s : State) (n : Nat) : (s.heapAlloc n).params = s.params := rfl
@[simp] theorem heapAlloc_periphs (s : State) (n : Nat) : (s.heapAlloc n).periphs = s.periphs := rfl
@[simp] theorem heapAlloc_units (s : State) (n : Nat) : (s.heapAlloc n).units = s.units := rfl
@[simp] theorem heapAlloc_last (s : State) (n : Nat) : (s.heapAlloc n).last = s.last := rfl
@[simp] theorem heapAlloc_pins (s : State) (n : Nat) : (s.heapAlloc n).pins = s.pins := rfl
@[simp] theorem heapAlloc_inRoute (s : State) (n : Nat) : (s.heapAlloc n).inRoute = s.inRoute := rfl
@[simp] theorem heapAlloc_locks (s : State) (n : Nat) : (s.heapAlloc n).locks = s.locks := rfl
@[simp] theorem heapAlloc_irqDepth (s : State) (n : Nat) : (s.heapAlloc n).irqDepth = s.irqDepth := rfl
@[simp] theorem heapAlloc_suspendDepth (s : State) (n : Nat) : (s.heapAlloc n).suspendDepth = s.suspendDepth := rfl
@[simp] theorem heapAlloc_off (s : State) (n : Nat) : (s.heapAlloc n).off = s.off := rfl
@[simp] theorem heapAlloc_staging (s : State) (n : Nat) : (s.heapAlloc n).staging = some ((List.range n).map fun k => Config.heapByte (s.draws + k)) := rfl
@[simp] theorem heapAlloc_mem (s : State) (n : Nat) : (s.heapAlloc n).mem = s.mem := rfl
@[simp] theorem heapAlloc_line (s : State) (n : Nat) : (s.heapAlloc n).line = s.line := rfl
@[simp] theorem heapAlloc_draws (s : State) (n : Nat) : (s.heapAlloc n).draws = s.draws + n := rfl
@[simp] theorem heapAlloc_trace (s : State) (n : Nat) : (s.heapAlloc n).trace = s.trace := rfl
@[simp] theorem heapAlloc_task (s : State) (n : Nat) : (s.heapAlloc n).task = s.task := rfl
@[simp] theorem heapAlloc_others (s : State) (n : Nat) : (s.heapAlloc n).others = s.others := rfl
@[simp] theorem heapAlloc_sched (s : State) (n : Nat) : (s.heapAlloc n).sched = s.sched := rfl

/-! ### `State.heapFree` -/

@[simp] theorem heapFree_params (s : State) : (s.heapFree).params = s.params := rfl
@[simp] theorem heapFree_periphs (s : State) : (s.heapFree).periphs = s.periphs := rfl
@[simp] theorem heapFree_units (s : State) : (s.heapFree).units = s.units := rfl
@[simp] theorem heapFree_last (s : State) : (s.heapFree).last = s.last := rfl
@[simp] theorem heapFree_pins (s : State) : (s.heapFree).pins = s.pins := rfl
@[simp] theorem heapFree_inRoute (s : State) : (s.heapFree).inRoute = s.inRoute := rfl
@[simp] theorem heapFree_locks (s : State) : (s.heapFree).locks = s.locks := rfl
@[simp] theorem heapFree_irqDepth (s : State) : (s.heapFree).irqDepth = s.irqDepth := rfl
@[simp] theorem heapFree_suspendDepth (s : State) : (s.heapFree).suspendDepth = s.suspendDepth := rfl
@[simp] theorem heapFree_off (s : State) : (s.heapFree).off = s.off := rfl
@[simp] theorem heapFree_staging (s : State) : (s.heapFree).staging = none := rfl
@[simp] theorem heapFree_mem (s : State) : (s.heapFree).mem = s.mem := rfl
@[simp] theorem heapFree_line (s : State) : (s.heapFree).line = s.line := rfl
@[simp] theorem heapFree_draws (s : State) : (s.heapFree).draws = s.draws := rfl
@[simp] theorem heapFree_trace (s : State) : (s.heapFree).trace = s.trace := rfl
@[simp] theorem heapFree_task (s : State) : (s.heapFree).task = s.task := rfl
@[simp] theorem heapFree_others (s : State) : (s.heapFree).others = s.others := rfl
@[simp] theorem heapFree_sched (s : State) : (s.heapFree).sched = s.sched := rfl

/-! ### `State.lineNext` -/

@[simp] theorem lineNext_params (s : State) (n : Nat) : (s.lineNext n).params = s.params := rfl
@[simp] theorem lineNext_periphs (s : State) (n : Nat) : (s.lineNext n).periphs = s.periphs := rfl
@[simp] theorem lineNext_units (s : State) (n : Nat) : (s.lineNext n).units = s.units := rfl
@[simp] theorem lineNext_last (s : State) (n : Nat) : (s.lineNext n).last = s.last := rfl
@[simp] theorem lineNext_pins (s : State) (n : Nat) : (s.lineNext n).pins = s.pins := rfl
@[simp] theorem lineNext_inRoute (s : State) (n : Nat) : (s.lineNext n).inRoute = s.inRoute := rfl
@[simp] theorem lineNext_locks (s : State) (n : Nat) : (s.lineNext n).locks = s.locks := rfl
@[simp] theorem lineNext_irqDepth (s : State) (n : Nat) : (s.lineNext n).irqDepth = s.irqDepth := rfl
@[simp] theorem lineNext_suspendDepth (s : State) (n : Nat) : (s.lineNext n).suspendDepth = s.suspendDepth := rfl
@[simp] theorem lineNext_off (s : State) (n : Nat) : (s.lineNext n).off = s.off := rfl
@[simp] theorem lineNext_staging (s : State) (n : Nat) : (s.lineNext n).staging = s.staging := rfl
@[simp] theorem lineNext_mem (s : State) (n : Nat) : (s.lineNext n).mem = s.mem := rfl
@[simp] theorem lineNext_line (s : State) (n : Nat) : (s.lineNext n).line = { s.line with script := s.line.script.tail } := rfl
@[simp] theorem lineNext_draws (s : State) (n : Nat) : (s.lineNext n).draws = s.draws + n := rfl
@[simp] theorem lineNext_trace (s : State) (n : Nat) : (s.lineNext n).trace = s.trace := rfl
@[simp] theorem lineNext_task (s : State) (n : Nat) : (s.lineNext n).task = s.task := rfl
@[simp] theorem lineNext_others (s : State) (n : Nat) : (s.lineNext n).others = s.others := rfl
@[simp] theorem lineNext_sched (s : State) (n : Nat) : (s.lineNext n).sched = s.sched := rfl

/-! ### `State.setSeq` -/

@[simp] theorem setSeq_params (s : State) (q : Seq) : (s.setSeq q).params = s.params := rfl
@[simp] theorem setSeq_periphs (s : State) (q : Seq) : (s.setSeq q).periphs = s.periphs := rfl
@[simp] theorem setSeq_units (s : State) (q : Seq) : (s.setSeq q).units = s.units := rfl
@[simp] theorem setSeq_last (s : State) (q : Seq) : (s.setSeq q).last = s.last := rfl
@[simp] theorem setSeq_pins (s : State) (q : Seq) : (s.setSeq q).pins = s.pins := rfl
@[simp] theorem setSeq_inRoute (s : State) (q : Seq) : (s.setSeq q).inRoute = s.inRoute := rfl
@[simp] theorem setSeq_locks (s : State) (q : Seq) : (s.setSeq q).locks = s.locks := rfl
@[simp] theorem setSeq_irqDepth (s : State) (q : Seq) : (s.setSeq q).irqDepth = s.irqDepth := rfl
@[simp] theorem setSeq_suspendDepth (s : State) (q : Seq) : (s.setSeq q).suspendDepth = s.suspendDepth := rfl
@[simp] theorem setSeq_off (s : State) (q : Seq) : (s.setSeq q).off = s.off := rfl
@[simp] theorem setSeq_staging (s : State) (q : Seq) : (s.setSeq q).staging = s.staging := rfl
@[simp] theorem setSeq_mem (s : State) (q : Seq) : (s.setSeq q).mem = s.mem := rfl
@[simp] theorem setSeq_line (s : State) (q : Seq) : (s.setSeq q).line = s.line := rfl
@[simp] theorem setSeq_draws (s : State) (q : Seq) : (s.setSeq q).draws = s.draws := rfl
@[simp] theorem setSeq_trace (s : State) (q : Seq) : (s.setSeq q).trace = s.trace := rfl
@[simp] theorem setSeq_task (s : State) (q : Seq) : (s.setSeq q).task = { s.task with seq := q } := rfl
@[simp] theorem setSeq_others (s : State) (q : Seq) : (s.setSeq q).others = s.others := rfl
@[simp] theorem setSeq_sched (s : State) (q : Seq) : (s.setSeq q).sched = s.sched := rfl

/-! ### `State.setOp` -/

@[simp] theorem setOp_params (s : State) (o : Option Op) : (s.setOp o).params = s.params := rfl
@[simp] theorem setOp_periphs (s : State) (o : Option Op) : (s.setOp o).periphs = s.periphs := rfl
@[simp] theorem setOp_units (s : State) (o : Option Op) : (s.setOp o).units = s.units := rfl
@[simp] theorem setOp_last (s : State) (o : Option Op) : (s.setOp o).last = s.last := rfl
@[simp] theorem setOp_pins (s : State) (o : Option Op) : (s.setOp o).pins = s.pins := rfl
@[simp] theorem setOp_inRoute (s : State) (o : Option Op) : (s.setOp o).inRoute = s.inRoute := rfl
@[simp] theorem setOp_locks (s : State) (o : Option Op) : (s.setOp o).locks = s.locks := rfl
@[simp] theorem setOp_irqDepth (s : State) (o : Option Op) : (s.setOp o).irqDepth = s.irqDepth := rfl
@[simp] theorem setOp_suspendDepth (s : State) (o : Option Op) : (s.setOp o).suspendDepth = s.suspendDepth := rfl
@[simp] theorem setOp_off (s : State) (o : Option Op) : (s.setOp o).off = s.off := rfl
@[simp] theorem setOp_staging (s : State) (o : Option Op) : (s.setOp o).staging = s.staging := rfl
@[simp] theorem setOp_mem (s : State) (o : Option Op) : (s.setOp o).mem = s.mem := rfl
@[simp] theorem setOp_line (s : State) (o : Option Op) : (s.setOp o).line = s.line := rfl
@[simp] theorem setOp_draws (s : State) (o : Option Op) : (s.setOp o).draws = s.draws := rfl
@[simp] theorem setOp_trace (s : State) (o : Option Op) : (s.setOp o).trace = s.trace := rfl
@[simp] theorem setOp_task (s : State) (o : Option Op) : (s.setOp o).task = { s.task with op := o } := rfl
@[simp] theorem setOp_others (s : State) (o : Option Op) : (s.setOp o).others = s.others := rfl
@[simp] theorem setOp_sched (s : State) (o : Option Op) : (s.setOp o).sched = s.sched := rfl

/-! ### `State.advance` -/

@[simp] theorem advance_params (s : State) (n : Nat) : (s.advance n).params = s.params := rfl
@[simp] theorem advance_periphs (s : State) (n : Nat) : (s.advance n).periphs = s.periphs := rfl
@[simp] theorem advance_units (s : State) (n : Nat) : (s.advance n).units = s.units := rfl
@[simp] theorem advance_last (s : State) (n : Nat) : (s.advance n).last = s.last := rfl
@[simp] theorem advance_pins (s : State) (n : Nat) : (s.advance n).pins = s.pins := rfl
@[simp] theorem advance_inRoute (s : State) (n : Nat) : (s.advance n).inRoute = s.inRoute := rfl
@[simp] theorem advance_locks (s : State) (n : Nat) : (s.advance n).locks = s.locks := rfl
@[simp] theorem advance_irqDepth (s : State) (n : Nat) : (s.advance n).irqDepth = s.irqDepth := rfl
@[simp] theorem advance_suspendDepth (s : State) (n : Nat) : (s.advance n).suspendDepth = s.suspendDepth := rfl
@[simp] theorem advance_off (s : State) (n : Nat) : (s.advance n).off = s.off := rfl
@[simp] theorem advance_staging (s : State) (n : Nat) : (s.advance n).staging = s.staging := rfl
@[simp] theorem advance_mem (s : State) (n : Nat) : (s.advance n).mem = s.mem := rfl
@[simp] theorem advance_line (s : State) (n : Nat) : (s.advance n).line = s.line := rfl
@[simp] theorem advance_draws (s : State) (n : Nat) : (s.advance n).draws = s.draws := rfl
@[simp] theorem advance_trace (s : State) (n : Nat) : (s.advance n).trace = s.trace := rfl
@[simp] theorem advance_task (s : State) (n : Nat) : (s.advance n).task = { s.task with seq := { s.task.seq with tp := s.task.seq.tp + n } } := rfl
@[simp] theorem advance_others (s : State) (n : Nat) : (s.advance n).others = s.others := rfl
@[simp] theorem advance_sched (s : State) (n : Nat) : (s.advance n).sched = s.sched := rfl

/-! ### `State.setUnit` -/

@[simp] theorem setUnit_params (s : State) (u : Nat) (r : UnitRec) : (s.setUnit u r).params = s.params := by unfold State.setUnit; split <;> rfl
@[simp] theorem setUnit_periphs (s : State) (u : Nat) (r : UnitRec) : (s.setUnit u r).periphs = s.periphs := by unfold State.setUnit; split <;> rfl
@[simp] theorem setUnit_last (s : State) (u : Nat) (r : UnitRec) : (s.setUnit u r).last = s.last := by unfold State.setUnit; split <;> rfl
@[simp] theorem setUnit_pins (s : State) (u : Nat) (r : UnitRec) : (s.setUnit u r).pins = s.pins := by unfold State.setUnit; split <;> rfl
@[simp] theorem setUnit_inRoute (s : State) (u : Nat) (r : UnitRec) : (s.setUnit u r).inRoute = s.inRoute := by unfold State.setUnit; split <;> rfl
@[simp] theorem setUnit_locks (s : State) (u : Nat) (r : UnitRec) : (s.setUnit u r).locks = s.locks := by unfold State.setUnit; split <;> rfl
@[simp] theorem setUnit_irqDepth (s : State) (u : Nat) (r : UnitRec) : (s.setUnit u r).irqDepth = s.irqDepth := by unfold State.setUnit; split <;> rfl
@[simp] theorem setUnit_suspendDepth (s : State) (u : Nat) (r : UnitRec) : (s.setUnit u r).suspendDepth = s.suspendDepth := by unfold State.setUnit; split <;> rfl
@[simp] theorem setUnit_off (s : State) (u : Nat) (r : UnitRec) : (s.setUnit u r).off = s.off := by unfold State.setUnit; split <;> rfl
@[simp] theorem setUnit_staging (s : State) (u : Nat) (r : UnitRec) : (s.setUnit u r).staging = s.staging := by unfold State.setUnit; split <;> rfl
@[simp] theorem setUnit_mem (s : State) (u : Nat) (r : UnitRec) : (s.setUnit u r).mem = s.mem := by unfold State.setUnit; split <;> rfl
@[simp] theorem setUnit_line (s : State) (u : Nat) (r : UnitRec) : (s.setUnit u r).line = s.line := by unfold State.setUnit; split <;> rfl
@[simp] theorem setUnit_draws (s : State) (u : Nat) (r : UnitRec) : (s.setUnit u r).draws = s.draws := by unfold State.setUnit; split <;> rfl
@[simp] theorem setUnit_trace (s : State) (u : Nat) (r : UnitRec) : (s.setUnit u r).trace = s.trace := by unfold State.setUnit; split <;> rfl
@[simp] theorem setUnit_task (s : State) (u : Nat) (r : UnitRec) : (s.setUnit u r).task = s.task := by unfold State.setUnit; split <;> rfl
@[simp] theorem setUnit_others (s : State) (u : Nat) (r : UnitRec) : (s.setUnit u r).others = s.others := by unfold State.setUnit; split <;> rfl
@[simp] theorem setUnit_sched (s : State) (u : Nat) (r : UnitRec) : (s.setUnit u r).sched = s.sched := by unfold State.setUnit; split <;> rfl

/-! ### `State.setDirty` -/

@[simp] theorem setDirty_params (s : State) (u : Nat) (d : Bool) : (s.setDirty u d).params = s.params := setUnit_params s u _
@[simp] theorem setDirty_periphs (s : State) (u : Nat) (d : Bool) : (s.setDirty u d).periphs = s.periphs := setUnit_periphs s u _
@[simp] theorem setDirty_last (s : State) (u : Nat) (d : Bool) : (s.setDirty u d).last = s.last := setUnit_last s u _
@[simp] theorem setDirty_pins (s : State) (u : Nat) (d : Bool) : (s.setDirty u d).pins = s.pins := setUnit_pins s u _
@[simp] theorem setDirty_inRoute (s : State) (u : Nat) (d : Bool) : (s.setDirty u d).inRoute = s.inRoute := setUnit_inRoute s u _
@[simp] theorem setDirty_locks (s : State) (u : Nat) (d : Bool) : (s.setDirty u d).locks = s.locks := setUnit_locks s u _
@[simp] theorem setDirty_irqDepth (s : State) (u : Nat) (d : Bool) : (s.setDirty u d).irqDepth = s.irqDepth := setUnit_irqDepth s u _
@[simp] theorem setDirty_suspendDepth (s : State) (u : Nat) (d : Bool) : (s.setDirty u d).suspendDepth = s.suspendDepth := setUnit_suspendDepth s u _
@[simp] theorem setDirty_off (s : State) (u : Nat) (d : Bool) : (s.setDirty u d).off = s.off := setUnit_off s u _
@[simp] theorem setDirty_staging (s : State) (u : Nat) (d : Bool) : (s.setDirty u d).staging = s.staging := setUnit_staging s u _
@[simp] theorem setDirty_mem (s : State) (u : Nat) (d : Bool) : (s.setDirty u d).mem = s.mem := setUnit_mem s u _
@[simp] theorem setDirty_line (s : State) (u : Nat) (d : Bool) : (s.setDirty u d).line = s.line := setUnit_line s u _
@[simp] theorem setDirty_draws (s : State) (u : Nat) (d : Bool) : (s.setDirty u d).draws = s.draws := setUnit_draws s u _
@[simp] theorem setDirty_trace (s : State) (u : Nat) (d : Bool) : (s.setDirty u d).trace = s.trace := setUnit_trace s u _
@[simp] theorem setDirty_task (s : State) (u : Nat) (d : Bool) : (s.setDirty u d).task = s.task := setUnit_task s u _
@[simp] theorem setDirty_others (s : State) (u : Nat) (d : Bool) : (s.setDirty u d).others = s.others := setUnit_others s u _
@[simp] theorem setDirty_sched (s : State) (u : Nat) (d : Bool) : (s.setDirty u d).sched = s.sched := setUnit_sched s u _

/-! ### `State.lockAcquire` -/

@[simp] theorem lockAcquire_params (s : State) (g : Nat) : (s.lockAcquire g).params = s.params := by unfold State.lockAcquire; cases s.lockAnswer g <;> rfl
@[simp] theorem lockAcquire_periphs (s : State) (g : Nat) : (s.lockAcquire g).periphs = s.periphs := by unfold State.lockAcquire; cases s.lockAnswer g <;> rfl
@[simp] theorem lockAcquire_units (s : State) (g : Nat) : (s.lockAcquire g).units = s.units := by unfold State.lockAcquire; cases s.lockAnswer g <;> rfl
@[simp] theorem lockAcquire_last (s : State) (g : Nat) : (s.lockAcquire g).last = s.last := by unfold State.lockAcquire; cases s.lockAnswer g <;> rfl
@[simp] theorem lockAcquire_pins (s : State) (g : Nat) : (s.lockAcquire g).pins = s.pins := by unfold State.lockAcquire; cases s.lockAnswer g <;> rfl
@[simp] theorem lockAcquire_inRoute (s : State) (g : Nat) : (s.lockAcquire g).inRoute = s.inRoute := by unfold State.lockAcquire; cases s.lockAnswer g <;> rfl
@[simp] theorem lockAcquire_irqDepth (s : State) (g : Nat) : (s.lockAcquire g).irqDepth = s.irqDepth := by unfold State.lockAcquire; cases s.lockAnswer g <;> rfl
@[simp] theorem lockAcquire_suspendDepth (s : State) (g : Nat) : (s.lockAcquire g).suspendDepth = s.suspendDepth := by unfold State.lockAcquire; cases s.lockAnswer g <;> rfl
@[simp] theorem lockAcquire_off (s : State) (g : Nat) : (s.lockAcquire g).off = s.off := by unfold State.lockAcquire; cases s.lockAnswer g <;> rfl
@[simp] theorem lockAcquire_staging (s : State) (g : Nat) : (s.lockAcquire g).staging = s.staging := by unfold State.lockAcquire; cases s.lockAnswer g <;> rfl
@[simp] theorem lockAcquire_mem (s : State) (g : Nat) : (s.lockAcquire g).mem = s.mem := by unfold State.lockAcquire; cases s.lockAnswer g <;> rfl
@[simp] theorem lockAcquire_line (s : State) (g : Nat) : (s.lockAcquire g).line = s.line := by unfold State.lockAcquire; cases s.lockAnswer g <;> rfl
@[simp] theorem lockAcquire_draws (s : State) (g : Nat) : (s.lockAcquire g).draws = s.draws := by unfold State.lockAcquire; cases s.lockAnswer g <;> rfl
@[simp] theorem lockAcquire_task (s : State) (g : Nat) : (s.lockAcquire g).task = s.task := by unfold State.lockAcquire; cases s.lockAnswer g <;> rfl
@[simp] theorem lockAcquire_others (s : State) (g : Nat) : (s.lockAcquire g).others = s.others := by unfold State.lockAcquire; cases s.lockAnswer g <;> rfl
@[simp] theorem lockAcquire_sched (s : State) (g : Nat) : (s.lockAcquire g).sched = s.sched := by unfold State.lockAcquire; cases s.lockAnswer g <;> rfl

/-! ### `State.storeIn` -/

@[simp] theorem storeIn_params (s : State) (dst : InDst) (off : Nat) (bs : List Byte) : (s.storeIn dst off bs).params = s.params := by cases dst <;> rfl
@[simp] theorem storeIn_periphs (s : State) (dst : InDst) (off : Nat) (bs : List Byte) : (s.storeIn dst off bs).periphs = s.periphs := by cases dst <;> rfl
@[simp] theorem storeIn_units (s : State) (dst : InDst) (off : Nat) (bs : List Byte) : (s.storeIn dst off bs).units = s.units := by cases dst <;> rfl
@[simp] theorem storeIn_last (s : State) (dst : InDst) (off : Nat) (bs : List Byte) : (s.storeIn dst off bs).last = s.last := by cases dst <;> rfl
@[simp] theorem storeIn_pins (s : State) (dst : InDst) (off : Nat) (bs : List Byte) : (s.storeIn dst off bs).pins = s.pins := by cases dst <;> rfl
@[simp] theorem storeIn_inRoute (s : State) (dst : InDst) (off : Nat) (bs : List Byte) : (s.storeIn dst off bs).inRoute = s.inRoute := by cases dst <;> rfl
@[simp] theorem storeIn_locks (s : State) (dst : InDst) (off : Nat) (bs : List Byte) : (s.storeIn dst off bs).locks = s.locks := by cases dst <;> rfl
@[simp] theorem storeIn_irqDepth (s : State) (dst : InDst) (off : Nat) (bs : List Byte) : (s.storeIn dst off bs).irqDepth = s.irqDepth := by cases dst <;> rfl
@[simp] theorem storeIn_suspendDepth (s : State) (dst : InDst) (off : Nat) (bs : List Byte) : (s.storeIn dst off bs).suspendDepth = s.suspendDepth := by cases dst <;> rfl
@[simp] theorem storeIn_off (s : State) (dst : InDst) (off : Nat) (bs : List Byte) : (s.storeIn dst off bs).off = s.off := by cases dst <;> rfl
@[simp] theorem storeIn_line (s : State) (dst : InDst) (off : Nat) (bs : List Byte) : (s.storeIn dst off bs).line = s.line := by cases dst <;> rfl
@[simp] theorem storeIn_draws (s : State) (dst : InDst) (off : Nat) (bs : List Byte) : (s.storeIn dst off bs).draws = s.draws := by cases dst <;> rfl
@[simp] theorem storeIn_trace (s : State) (dst : InDst) (off : Nat) (bs : List Byte) : (s.storeIn dst off bs).trace = s.trace := by cases dst <;> rfl
@[simp] theorem storeIn_task (s : State) (dst : InDst) (off : Nat) (bs : List Byte) : (s.storeIn dst off bs).task = s.task := by cases dst <;> rfl
@[simp] theorem storeIn_others (s : State) (dst : InDst) (off : Nat) (bs : List Byte) : (s.storeIn dst off bs).others = s.others := by cases dst <;> rfl
@[simp] theorem storeIn_sched (s : State) (dst : InDst) (off : Nat) (bs : List Byte) : (s.storeIn dst off bs).sched = s.sched := by cases dst <;> rfl

/-! ### Reading back what was stored -/

@[simp] theorem periph_setPeriph_self (s : State) (p : Fin 4) (r : PeriphRegs) : (s.setPeriph p r).periph p = r := by
  exact Vector.getElem_set_self p.isLt

theorem periph_setPeriph_ne (s : State) {p q : Fin 4} (r : PeriphRegs) (h : q ≠ p) :
    (s.setPeriph p r).periph q = s.periph q := by
  have : p.val ≠ q.val := fun e => h (Fin.ext e.symm)
  exact Vector.getElem_set_ne p.isLt q.isLt this

@[simp] theorem periph_emit (s : State) (e : Event) (p : Fin 4) : (s.emit e).periph p = s.periph p := rfl

@[simp] theorem unit_emit (s : State) (e : Event) (u : Nat) : (s.emit e).unit u = s.unit u := rfl

theorem periph_writeReg_self (s : State) (p : Fin 4) (f : RegField) (v : Word) :
    (s.writeReg p f v).periph p = (s.periph p).put f v := by
  simp [State.writeReg]

theorem periph_writeReg_ne (s : State) {p q : Fin 4} (f : RegField) (v : Word) (h : q ≠ p) :
    (s.writeReg p f v).periph q = s.periph q := by
  simp [State.writeReg, periph_setPeriph_ne _ _ h]

/-- A stored unit record reads back, when the table has its place. -/
theorem unit_setUnit_self (s : State) {u : Nat} (r : UnitRec) (h : s.params.inRange u = true)
    (hl : s.units.length = s.params.unitCount) : (s.setUnit u r).unit u = r := by
  have hi : u - s.params.firstUnit < s.units.length := by
    rw [hl]; simp [Params.inRange, Params.unitCount] at *; omega
  simp [State.setUnit, State.unit, h, hi]

/-- Storing one unit's record leaves every other unit's as it was. -/
theorem unit_setUnit_ne (s : State) {u v : Nat} (r : UnitRec) (h : v ≠ u) : (s.setUnit u r).unit v = s.unit v := by
  unfold State.setUnit
  split
  next hu =>
    unfold State.unit
    by_cases hv : s.params.inRange v = true
    · have : u - s.params.firstUnit ≠ v - s.params.firstUnit := by
        simp [Params.inRange] at hu hv; omega
      simp [hv, List.getD, List.getElem?_set_ne this]
    · simp [hv]
  next => rfl

@[simp] theorem setUnit_units_length (s : State) (u : Nat) (r : UnitRec) :
    (s.setUnit u r).units.length = s.units.length := by
  unfold State.setUnit; split <;> simp

end Sys2Proof.Machine.Laws
end

