-- ==== Sys2Proof/Laws/Micro.lean ====
section
/-! SUPPORT. How lists of micro-steps run: one lemma for each kind of micro-step, for a branch and for a list after another,
and the rule by which a property of the state passes through all of them. -/

namespace Sys2Proof.Machine.Laws

/-! ## One after the other -/

/-- What a run does next, when it goes on. -/
def Run.next : Run → (Locals → State → Run) → Run
  | .go l s, k => k l s
  | .ended s, _ => .ended s
  | .hung s, _ => .hung s
  | .refuse r, _ => .refuse r

theorem runMicros_cons (m : Micro) (ms : List Micro) (l : Locals) (s : State) :
    runMicros (m :: ms) l s = Run.next (m.run l s) (runMicros ms) := by
  rw [runMicros]
  cases m.run l s <;> rfl

theorem runMicros_append (a b : List Micro) (l : Locals) (s : State) :
    runMicros (a ++ b) l s = Run.next (runMicros a l s) (runMicros b) := by
  induction a generalizing l s with
  | nil => rfl
  | cons m a ih =>
    rw [List.cons_append, runMicros_cons, runMicros_cons]
    cases m.run l s with
    | go l s => exact ih l s
    | _ => rfl

@[simp] theorem runMicros_nil (l : Locals) (s : State) : runMicros [] l s = .go l s := rfl

theorem runMicros_act (f : Locals → State → State) (ms : List Micro) {l : Locals} (s : State) (h : l.skip = 0) :
    runMicros (act f :: ms) l s = runMicros ms l (f l s) := by
  rw [runMicros_cons, Micro.run, if_pos h]; rfl

theorem runMicros_note (f : Locals → State → Locals) (ms : List Micro) {l : Locals} (s : State) (h : l.skip = 0) :
    runMicros (note f :: ms) l s = runMicros ms (f l s) s := by
  rw [runMicros_cons, Micro.run, if_pos h]; rfl

theorem runMicros_finish (f : State → State) (ms : List Micro) {l : Locals} (s : State) (h : l.skip = 0) :
    runMicros (finish f :: ms) l s = .ended (f s) := by
  rw [runMicros_cons, Micro.run, if_pos h]; rfl

theorem runMicros_span (f : State → Flow) (ms : List Micro) {l : Locals} (s : State) (h : l.skip = 0) :
    runMicros (span f :: ms) l s =
      match f s with
      | .run t => runMicros ms l t
      | .hung t => .hung t
      | .refuse r => .refuse r := by
  rw [runMicros_cons, Micro.run, if_pos h, span]
  cases f s <;> rfl

theorem runMicros_onPinRead (g : PinSet → Nat) (f : Locals → State → Nat → State) (ms : List Micro) {l : Locals}
    (s : State) (h : l.skip = 0) : runMicros (onPinRead g f :: ms) l s = runMicros ms l (s.onPin (g l.pins) (f l)) :=
  runMicros_act _ ms s h

theorem runMicros_store (u : Nat) (f : State → UnitRec → UnitRec) (ms : List Micro) {l : Locals} (s : State)
    (h : l.skip = 0) : runMicros (store u f :: ms) l s = runMicros ms l (s.setUnit u (f s (s.unit u))) :=
  runMicros_act _ ms s h

theorem runMicros_markDirty (u : Nat) (d : Bool) (ms : List Micro) {l : Locals} (s : State) (h : l.skip = 0) :
    runMicros (markDirty u d :: ms) l s = runMicros ms l (s.setDirty u d) := runMicros_act _ ms s h

theorem runMicros_skip (body rest : List Micro) (l : Locals) (s : State) :
    runMicros (body ++ rest) { l with skip := body.length } s = runMicros rest { l with skip := 0 } s := by
  induction body with
  | nil => rfl
  | cons m body ih =>
    rw [List.cons_append, runMicros_cons, Micro.run, if_neg (by simp)]
    exact ih

/-- A branch runs its body or passes over it. -/
theorem runMicros_branch (c : Locals → State → Bool) (body rest : List Micro) {l : Locals} (s : State) (h : l.skip = 0) :
    runMicros (branch c body ++ rest) l s = if c l s then runMicros (body ++ rest) l s else runMicros rest l s := by
  rw [branch, List.cons_append, runMicros_note _ _ s h]
  split
  · rfl
  · rw [runMicros_skip]
    congr 1
    rw [← h]

/-- Reading the four pins of a record. -/
theorem runMicros_loadPins (u : Locals → Nat) (ms : List Micro) {l : Locals} (s : State) (h : l.skip = 0)
    (hu : ∀ g, u { l with pins := g } = u l) :
    runMicros (loadPins u ++ ms) l s = runMicros ms { l with pins := (s.unit (u l)).pinSet } s := by
  simp only [loadPins, List.cons_append, List.nil_append, runMicros_note _ _ s, h]
  have h1 : ∀ g, u ⟨g, l.prev, l.word, l.reg, 0⟩ = u l := fun g => by rw [← h]; exact hu g
  simp only [h1]
  rfl

/-! ## What every micro-step of a list keeps -/

/-- What holds of the state where a run stands: `P` where it goes on or has returned, `Q` where it hangs. -/
def RunAll (P Q : State → Prop) : Run → Prop
  | .go _ s => P s
  | .ended s => P s
  | .hung s => Q s
  | .refuse _ => True

/-- A micro-step keeps `P`, whatever the task remembers; `Q` is what holds where it hangs. -/
def MicroKeeps (P Q : State → Prop) (m : Micro) : Prop := ∀ l s, P s → RunAll P Q (m l s)

theorem runMicros_all {P Q : State → Prop} {ms : List Micro} (h : ∀ m ∈ ms, MicroKeeps P Q m) (l : Locals) {s : State}
    (hs : P s) : RunAll P Q (runMicros ms l s) := by
  induction ms generalizing l s with
  | nil => exact hs
  | cons m ms ih =>
    rw [runMicros_cons]
    have hm : RunAll P Q (m.run l s) := by
      rw [Micro.run]
      split
      · exact h m (List.mem_cons_self) l s hs
      · exact hs
    revert hm
    cases m.run l s with
    | go l' s' => exact fun hm => ih (fun m' hm' => h m' (List.mem_cons_of_mem _ hm')) l' hm
    | ended s' => exact id
    | hung s' => exact id
    | refuse r => exact id

theorem microKeeps_act {P Q : State → Prop} {f : Locals → State → State} (h : ∀ l s, P s → P (f l s)) :
    MicroKeeps P Q (act f) := h

theorem microKeeps_note {P Q : State → Prop} (f : Locals → State → Locals) : MicroKeeps P Q (note f) := fun _ _ h => h

theorem microKeeps_finish {P Q : State → Prop} {f : State → State} (h : ∀ s, P s → P (f s)) :
    MicroKeeps P Q (finish f) := fun _ s hs => h s hs

theorem microKeeps_span {P Q : State → Prop} {f : State → Flow} (h : ∀ s, P s → FlowAll P Q (f s)) :
    MicroKeeps P Q (span f) := by
  intro l s hs
  have := h s hs
  rw [span]
  revert this
  cases f s <;> exact id

end Sys2Proof.Machine.Laws
end

