-- ==== Sys2Proof/Laws/Closed.lean ====
section
/-! SUPPORT. The operations of the device configuration, of the pin multiplexer and of the init records in closed form: what
their micro-steps come to when no other task comes between. What is proved of `exec` cites these. -/

namespace Sys2Proof.Machine

/-! ## The closed forms -/

/-- What the five setters have in common (R120): the unit check first, then the new record, marked dirty. -/
def State.configure (s : State) (u : Nat) (f : UnitRec → UnitRec) : State :=
  if s.params.inRange u then (s.setUnit u { f (s.unit u) with dirty := true }).ret .none
  else s.failWith .invalidUnit .none

/-- A unit is unconfigured when all four of its pin fields are 0 (R131). -/
def UnitRec.unconfigured (r : UnitRec) : Bool := r.sdi == 0 && r.sdo == 0 && r.sck == 0 && r.cs == 0

/-- A record with other pins. -/
def UnitRec.withPins (r : UnitRec) (g : PinSet) : UnitRec :=
  { r with sdi := g.sdi, sdo := g.sdo, sck := g.sck, cs := g.cs }

/-- Default pins for an unconfigured unit, the pins it has for any other (R130, R131). -/
def State.assignDefaultPins (s : State) (u : Nat) : State :=
  if (s.unit u).unconfigured then s.setUnit u ((s.unit u).withPins (s.params.defPinsOf u)) else s

/-- Acquire the pins in order, skipping 0, and stop at the first conflict: the state then, and the conflict's owner and
pin (R130, R132). -/
def State.acquirePins (s : State) : List Nat → State × Option (Nat × Nat)
  | [] => (s, none)
  | g :: gs =>
    if g = 0 then s.acquirePins gs
    else
      match s.lockAnswer g with
      | .ok => (s.lockAcquire g).acquirePins gs
      | .conflict o => (s.lockAcquire g, some (o, g))

/-- The pins `init` acquires, in its order (R132). -/
def UnitRec.lockOrder (r : UnitRec) : List Nat := [r.sdi, r.sdo, r.sck, r.cs]

/-- The end of `init`: the conflict as an error, or mode 0, full duplex, dirty (R130). -/
def State.initEnd (u : Nat) : State × Option (Nat × Nat) → State
  | (s, some (o, g)) => s.failWith (.pinLockConflict o g) .none
  | (s, none) => (s.setUnit u { s.unit u with mode := 0, duplex := true, dirty := true }).ret .none

/-- `soft(u)`: one of the four pins differs from the dedicated pin of the unit's peripheral (R26). -/
def State.soft (s : State) (u : Nat) : Bool := (s.unit u).pinSet != s.params.dedOf (s.params.periphOf u)

/-- `detach(prev)` (R145). -/
def State.detach (s : State) (prev : Nat) : State :=
  let p := s.params.periphOf prev
  let r := s.unit prev
  let route (t : State) (g : Nat) : State := t.onPin g fun t g => t.matrixRouteOutput g .gpioDriven
  let plain (t : State) (g : Nat) : State := t.onPin g fun t g => t.matrixSelectPinFunction g .gpio
  let s := s.matrixRouteInput none p
  let s := route (route (route s r.sdo) r.sck) r.cs
  let s := plain (plain (plain (plain s r.sdi) r.sdo) r.sck) r.cs
  s.onPin r.cs fun t g => t.gpioSetLevel g true

/-- The routes `attach` makes on peripheral `p`: through the matrix when software-routed, else the matrix input is
detached and the peripheral listens to its dedicated pin (R148). -/
def State.attachRoutes (s : State) (p : Fin 4) (r : UnitRec) (soft : Bool) : State :=
  if soft then
    let s := s.onPin r.sdi fun t g => t.matrixRouteInput (some g) p
    let s := s.onPin r.sdo fun t g => t.matrixRouteOutput g (.dout p)
    s.onPin r.sck fun t g => t.matrixRouteOutput g (.clk p)
  else s.matrixRouteInput none p

/-- `attach` for a record on a peripheral (R148). -/
def State.attachPins (s : State) (p : Fin 4) (r : UnitRec) (soft : Bool) : State :=
  let fn : PinFn := if soft then .gpio else .dedicated
  let func (t : State) (g : Nat) : State := t.onPin g fun t g => t.matrixSelectPinFunction g fn
  let s := func (func (func s r.sdi) r.sdo) r.sck
  let s := s.onPin r.sdi fun t g => (t.gpioSetDirection g .input).gpioSetPullMode g .pullup
  let s := s.onPin r.sdo fun t g => t.gpioSetDirection g .output
  let s := s.onPin r.sck fun t g => t.gpioSetDirection g .output
  let s := s.attachRoutes p r soft
  s.onPin r.cs fun t g => t.gpioSetOutput g

/-- `attach(u)` (R148). -/
def State.attach (s : State) (u : Nat) : State := s.attachPins (s.params.periphOf u) (s.unit u) (s.soft u)

/-- Step 1 of the hand-off: a software-routed previous unit is detached, a dedicated one is left as it is (R143). -/
def State.detachPrev (s : State) : Option Nat → State
  | some prev => if s.soft prev then s.detach prev else s
  | none => s

/-- `selectUnit(u)`, the hand-off (R143). -/
def State.selectUnit (s : State) (u : Nat) : State := if s.last = some u then s else (s.detachPrev s.last).attach u

/-- The dirty marks of the hand-off: the unit that held the bus, and the one that gains it (R144). -/
def State.handoffMarks (s : State) (u : Nat) : State :=
  (match s.last with
    | some prev => s.setDirty prev true
    | none => s).setDirty u true

/-- What `select(u)` does when `u` is not `last`: the hand-off, the dirty marks, the marker (R141). -/
def State.handoff (s : State) (u : Nat) : State :=
  if s.last = some u then s else { (s.selectUnit u).handoffMarks u with last := some u }

/-- The eleven register writes of a reprogram, in order (R146). -/
def State.writeConfig (s : State) (p : Fin 4) (r : UnitRec) : State :=
  let s := s.writeReg p .pinCkIdle (bitWord (modeIdle r.mode))
  let s := s.writeReg p .userCkPhase (bitWord (modePhase r.mode))
  let s := s.writeReg p .ctrlWrBitOrder 0
  let s := s.writeReg p .ctrlRdBitOrder 0
  let s := s.writeReg p .userDoutdin (bitWord r.duplex)
  let s := s.writeReg p .slaveMode 0
  let s := s.writeReg p .clock r.divisor
  let s := s.writeReg p .userUsrMosi 1
  let s := s.writeReg p .userUsrMiso 1
  let s := s.writeReg p .userCsSetup 1
  s.writeReg p .userCsHold 1

/-- `reprogram(u)`: bus-idle wait, pin-mux setup, the eleven writes, `dirty <- 0` (R146). -/
def reprogram (u : Nat) (s : State) : Flow :=
  (waitIdle (s.params.periphOf u) s).andDo fun t =>
    ((t.attach u).writeConfig (s.params.periphOf u) (t.unit u)).setDirty u false

/-- `Gpio.setLevel(U[u].cs, v)` when a chip-select is configured (R151, R152). -/
def State.driveCs (s : State) (u : Nat) (v : Bool) : State := s.onPin (s.unit u).cs fun t g => t.gpioSetLevel g v

/-- The COMMAND and ARGS states of a record (R231): `cmd` and `argc` are fetched, the command is sent, the arguments are
fetched, then sent. -/
def recordBody (cmd : Byte) (args : List Byte) (s : State) : Flow :=
  (sendCommand cmd (s.advance 2)).andThen fun t => sendData args (t.advance args.length)

end Sys2Proof.Machine

namespace Sys2Proof.Machine.Laws

/-! ## Records -/

/-- Two stores into one record are one. -/
theorem setUnit_setUnit (s : State) (u : Nat) (f g : UnitRec → UnitRec) :
    (s.setUnit u (f (s.unit u))).setUnit u (g ((s.setUnit u (f (s.unit u))).unit u)) = s.setUnit u (g (f (s.unit u))) := by
  by_cases h : s.params.inRange u = true
  · by_cases hl : u - s.params.firstUnit < s.units.length
    · simp [State.setUnit, State.unit, h, hl]
    · have e : ∀ r, s.units.set (u - s.params.firstUnit) r = s.units := fun r => List.set_eq_of_length_le (by omega)
      simp [State.setUnit, h, e]
  · simp [State.setUnit, h]

theorem start_skip : Locals.start.skip = 0 := rfl

/-- A setter whose stores come to one new record, marked dirty (R120). -/
theorem carryOut_setter {u : Nat} {s : State} {ms : List Micro} {f : UnitRec → UnitRec} (h : s.params.inRange u = true)
    (hr : ∀ k, runMicros (ms ++ k) .start s = runMicros k .start (s.setUnit u (f (s.unit u)))) :
    carryOut (ms ++ [markDirty u true, returnOk]) s = .next (s.configure u f) := by
  unfold carryOut
  rw [hr, runMicros_markDirty _ _ _ _ start_skip, returnOk, runMicros_finish _ _ _ start_skip, State.setDirty,
    setUnit_setUnit s u f fun r => { r with dirty := true }, State.configure, if_pos h]
  rfl

theorem execCfgpins_eq (u a b c d : Nat) (s : State) : execCfgpins u a b c d s =
    if s.params.pinsOk ⟨a, b, c, d⟩ then
      .next (s.configure u fun r => { r with sdi := a, sdo := b, sck := c, cs := d })
    else .refused .pinOutOfRange := by
  unfold execCfgpins
  congr 1
  split
  · next h =>
    refine carryOut_setter (ms := [_, _, _, _]) h fun k => ?_
    simp only [List.cons_append, List.nil_append, runMicros_store _ _ _ _ start_skip]
    rw [setUnit_setUnit s u (fun r => { r with sdi := a }) (fun r => { r with sdo := b }),
      setUnit_setUnit s u (fun r => { r with sdi := a, sdo := b }) (fun r => { r with sck := c }),
      setUnit_setUnit s u (fun r => { r with sdi := a, sdo := b, sck := c }) (fun r => { r with cs := d })]
  · next h => rw [State.configure, if_neg h]

theorem execSetmode_eq (u m : Nat) (s : State) : execSetmode u m s =
    if s.params.inRange u && 3 < m then .next (s.failWith .invalidMode .none)
    else .next (s.configure u fun r => { r with mode := BitVec.ofNat 2 m }) := by
  unfold execSetmode
  by_cases h : s.params.inRange u = true
  · by_cases hm : m ≤ 3
    · rw [if_pos h, if_pos hm, if_neg (by simp [h]; omega)]
      exact carryOut_setter (ms := [_]) h fun k => runMicros_store _ _ _ _ start_skip
    · rw [if_pos h, if_neg hm, if_pos (by simp [h]; omega)]
  · rw [if_neg h, if_neg (by simp [h]), State.configure, if_neg h]

theorem execSetspeed_eq (u : Nat) (k : Word) (s : State) : execSetspeed u k s =
    .next (s.configure u fun r =>
      { r with speedKhz := k, divisor := frequencyToDivisor s.params.sysclkHz (k.toNat * 1000) }) := by
  unfold execSetspeed
  split
  · next h =>
    refine carryOut_setter (ms := [_, _]) h fun ms => ?_
    simp only [List.cons_append, List.nil_append, runMicros_store _ _ _ _ start_skip, setUnit_params]
    rw [setUnit_setUnit s u (fun r => { r with speedKhz := k })
      (fun r => { r with divisor := frequencyToDivisor s.params.sysclkHz (k.toNat * 1000) })]
  · next h => rw [State.configure, if_neg h]

theorem execSetcs_eq (u g : Nat) (s : State) : execSetcs u g s =
    if g < s.params.npins then .next (s.configure u fun r => { r with cs := g }) else .refused .pinOutOfRange := by
  unfold execSetcs
  congr 1
  split
  · next h => exact carryOut_setter (ms := [_]) h fun k => runMicros_store _ _ _ _ start_skip
  · next h => rw [State.configure, if_neg h]

theorem execSetduplex_eq (u : Nat) (d : Bool) (s : State) : execSetduplex u d s =
    .next (s.configure u fun r => { r with duplex := d }) := by
  unfold execSetduplex
  split
  · next h => exact carryOut_setter (ms := [_]) h fun k => runMicros_store _ _ _ _ start_skip
  · next h => rw [State.configure, if_neg h]

/-! ## init -/

theorem runMicros_acquire (g : PinSet → Nat) (ms : List Micro) {l : Locals} (s : State) (h : l.skip = 0) :
    runMicros (acquire g :: ms) l s =
      if g l.pins = 0 then runMicros ms l s
      else
        match s.lockAnswer (g l.pins) with
        | .ok => runMicros ms l (s.lockAcquire (g l.pins))
        | .conflict o => .ended ((s.lockAcquire (g l.pins)).failWith (.pinLockConflict o (g l.pins)) .none) := by
  rw [runMicros_cons, Micro.run, if_pos h, acquire]
  split
  · rfl
  · cases s.lockAnswer (g l.pins) <;> rfl

/-- The locks of `init`, one after the other. -/
theorem runMicros_locks (gs : List (PinSet → Nat)) (ms : List Micro) {l : Locals} (s : State) (h : l.skip = 0) :
    runMicros (gs.map acquire ++ ms) l s =
      match s.acquirePins (gs.map fun g => g l.pins) with
      | (t, none) => runMicros ms l t
      | (t, some (o, g)) => .ended (t.failWith (.pinLockConflict o g) .none) := by
  induction gs generalizing s with
  | nil => rfl
  | cons g gs ih =>
    rw [List.map_cons, List.cons_append, runMicros_acquire _ _ _ h, List.map_cons, State.acquirePins]
    split
    · exact ih s
    · cases s.lockAnswer (g l.pins) with
      | ok => exact ih _
      | conflict o => rfl

/-- `init` from its second reading of the pins on. -/
theorem runMicros_initTail (u : Nat) {l : Locals} (t : State) (h : l.skip = 0) :
    runMicros (loadPins (fun _ => u) ++
      [acquire (·.sdi), acquire (·.sdo), acquire (·.sck), acquire (·.cs), store u fun _ r => { r with mode := 0 },
        store u fun _ r => { r with duplex := true }, markDirty u true, returnOk]) l t =
      .ended (State.initEnd u (t.acquirePins (t.unit u).lockOrder)) := by
  rw [runMicros_loadPins _ _ _ h (fun _ => rfl)]
  refine Eq.trans (runMicros_locks [(·.sdi), (·.sdo), (·.sck), (·.cs)]
    [store u fun _ r => { r with mode := 0 }, store u fun _ r => { r with duplex := true }, markDirty u true, returnOk]
    (l := { l with pins := (t.unit u).pinSet }) t h) ?_
  show (match t.acquirePins (t.unit u).lockOrder with
    | (t, none) => _
    | (t, some (o, g)) => _) = Run.ended (State.initEnd u (t.acquirePins (t.unit u).lockOrder))
  generalize t.acquirePins (t.unit u).lockOrder = r
  obtain ⟨t', _ | ⟨o, g⟩⟩ := r
  · have h' : ({ l with pins := (t.unit u).pinSet } : Locals).skip = 0 := h
    simp only
    rw [runMicros_store _ _ _ _ h', runMicros_store _ _ _ _ h', runMicros_markDirty _ _ _ _ h', returnOk,
      runMicros_finish _ _ _ h', State.setDirty,
      setUnit_setUnit t' u (fun r => { r with mode := 0 }) (fun r => { r with duplex := true }),
      setUnit_setUnit t' u (fun r => { r with mode := 0, duplex := true }) (fun r => { r with dirty := true })]
    rfl
  · rfl

theorem unconfigured_eq (r : UnitRec) : (r.pinSet == (⟨0, 0, 0, 0⟩ : PinSet)) = r.unconfigured := by
  unfold UnitRec.unconfigured UnitRec.pinSet
  rw [Bool.eq_iff_iff]
  simp [and_assoc]

theorem execInit_eq (u : Nat) (master : Bool) (s : State) : execInit u master s =
    if s.params.inRange u then
      if master then
        .next (State.initEnd u ((s.assignDefaultPins u).acquirePins ((s.assignDefaultPins u).unit u).lockOrder))
      else .next (s.failWith .slaveNotAllowed .none)
    else .next (s.failWith .invalidUnit .none) := by
  unfold execInit
  congr 1
  congr 1
  unfold carryOut initSteps
  rw [List.append_assoc, List.append_assoc, runMicros_loadPins _ _ _ start_skip (fun _ => rfl), runMicros_branch _ _ _ _ rfl]
  have hc : (({ Locals.start with pins := (s.unit u).pinSet } : Locals).pins == (⟨0, 0, 0, 0⟩ : PinSet)) =
      (s.unit u).unconfigured := unconfigured_eq _
  rw [hc]
  unfold State.assignDefaultPins
  by_cases h0 : (s.unit u).unconfigured = true
  · rw [if_pos h0, if_pos h0]
    simp only [List.cons_append, List.nil_append, runMicros_store _ _ _ _ (show ({ Locals.start with
      pins := (s.unit u).pinSet } : Locals).skip = 0 from rfl), setUnit_params]
    rw [setUnit_setUnit s u (fun r => { r with sdi := (s.params.defPinsOf u).sdi })
        (fun r => { r with sdo := (s.params.defPinsOf u).sdo }),
      setUnit_setUnit s u (fun r => { r with sdi := (s.params.defPinsOf u).sdi, sdo := (s.params.defPinsOf u).sdo })
        (fun r => { r with sck := (s.params.defPinsOf u).sck }),
      setUnit_setUnit s u (fun r => { r with
        sdi := (s.params.defPinsOf u).sdi, sdo := (s.params.defPinsOf u).sdo, sck := (s.params.defPinsOf u).sck })
        (fun r => { r with cs := (s.params.defPinsOf u).cs })]
    rw [runMicros_initTail _ _ rfl]
    rfl
  · rw [if_neg h0, if_neg h0, runMicros_initTail _ _ rfl]
    rfl

/-! ## The pin multiplexer -/

theorem onPin_params {s : State} {g : Nat} {f : State → Nat → State} (hf : ∀ t g, (f t g).params = t.params) :
    (s.onPin g f).params = s.params := by
  unfold State.onPin
  split
  · rfl
  · exact hf s g

theorem onPin_onPin (s : State) (g : Nat) (f h : State → Nat → State) :
    (s.onPin g f).onPin g h = s.onPin g fun t g => h (f t g) g := by
  unfold State.onPin
  split <;> rfl

theorem softRead_of (u : Locals → Nat) {l : Locals} {s t : State} (hp : t.params = s.params)
    (hl : l.pins = (s.unit (u l)).pinSet) : softRead u l t = s.soft (u l) := by
  rw [softRead, State.soft, hp, hl]

/-- `detach`, whose holder has been read. -/
theorem runMicros_detach (prev : Nat) (ms : List Micro) {l : Locals} (s : State) (h : l.skip = 0)
    (hp : l.prev = some prev) :
    runMicros (detachSteps ++ ms) l s = runMicros ms { l with pins := (s.unit prev).pinSet } (s.detach prev) := by
  have hh : l.holder = prev := by rw [Locals.holder, hp]; rfl
  rw [detachSteps, List.append_assoc, runMicros_loadPins _ _ _ h (fun _ => rfl), hh]
  have h' : ({ l with pins := (s.unit prev).pinSet } : Locals).skip = 0 := h
  have hh' : ({ l with pins := (s.unit prev).pinSet } : Locals).holder = prev := hh
  simp only [List.cons_append, List.nil_append, runMicros_act _ _ _ h', runMicros_onPinRead _ _ _ _ h', hh']
  rfl

theorem onPin_congr {t : State} {g : Nat} {f h : State → Nat → State} (e : f t g = h t g) : t.onPin g f = t.onPin g h := by
  unfold State.onPin
  rw [e]

/-- `attach`. -/
theorem runMicros_attach (u : Nat) (ms : List Micro) {l : Locals} (s : State) (h : l.skip = 0) :
    runMicros (attachSteps u ++ ms) l s = runMicros ms { l with pins := (s.unit u).pinSet } (s.attach u) := by
  simp only [attachSteps, List.append_assoc]
  rw [runMicros_loadPins _ _ _ h (fun _ => rfl)]
  generalize hl' : ({ l with pins := (s.unit u).pinSet } : Locals) = l'
  have h' : l'.skip = 0 := by rw [← hl']; exact h
  have hpins : l'.pins = (s.unit u).pinSet := by rw [← hl']
  have hs : ∀ t : State, t.params = s.params → softRead (fun _ => u) l' t = s.soft u := fun t ht =>
    softRead_of (fun _ => u) ht hpins
  have hf : ∀ (t : State) (g : Nat), t.params = s.params →
      (t.onPin g fun t g => t.matrixSelectPinFunction g (fnRead u l' t)) =
        t.onPin g fun t g => t.matrixSelectPinFunction g (if s.soft u then .gpio else .dedicated) := by
    intro t g ht
    refine onPin_congr ?_
    show t.matrixSelectPinFunction g (fnRead u l' t) = _
    rw [fnRead, hs t ht]
  have p1 : ∀ (t : State) (g : Nat) (f : PinFn), (t.onPin g fun t g => t.matrixSelectPinFunction g f).params = t.params :=
    fun t g f => onPin_params fun _ _ => rfl
  have p2 : ∀ (t : State) (g : Nat) (d : Dir), (t.onPin g fun t g => t.gpioSetDirection g d).params = t.params :=
    fun t g f => onPin_params fun _ _ => rfl
  have p3 : ∀ (t : State) (g : Nat),
      (t.onPin g fun t g => (t.gpioSetDirection g .input).gpioSetPullMode g .pullup).params = t.params :=
    fun t g => onPin_params fun _ _ => rfl
  simp only [List.cons_append, List.nil_append, runMicros_onPinRead _ _ _ _ h']
  rw [hf s _ rfl, hf _ _ (p1 _ _ _), hf _ _ ((p1 _ _ _).trans (p1 _ _ _)), onPin_onPin, State.attach, State.attachPins]
  simp only
  have e1 : (s.unit u).sdi = l'.pins.sdi := by rw [hpins]; rfl
  have e2 : (s.unit u).sdo = l'.pins.sdo := by rw [hpins]; rfl
  have e3 : (s.unit u).sck = l'.pins.sck := by rw [hpins]; rfl
  have e4 : (s.unit u).cs = l'.pins.cs := by rw [hpins]; rfl
  rw [e1, e2, e3, e4]
  generalize ht : State.onPin _ l'.pins.sck (fun t g => t.gpioSetDirection g .output) = t
  have hpar : t.params = s.params := by rw [← ht, p2, p2, p3, p1, p1, p1]
  rw [runMicros_branch _ _ _ _ h', hs t hpar]
  have r1 : ∀ (t : State) (g : Nat), t.params = s.params →
      (t.onPin g fun t g => t.matrixRouteInput (some g) (t.params.periphOf u)) =
        t.onPin g fun t g => t.matrixRouteInput (some g) (s.params.periphOf u) := fun t g ht =>
    onPin_congr (by rw [ht])
  have r2 : ∀ (t : State) (g : Nat), t.params = s.params →
      (t.onPin g fun t g => t.matrixRouteOutput g (.dout (t.params.periphOf u))) =
        t.onPin g fun t g => t.matrixRouteOutput g (.dout (s.params.periphOf u)) := fun t g ht =>
    onPin_congr (by rw [ht])
  have r3 : ∀ (t : State) (g : Nat), t.params = s.params →
      (t.onPin g fun t g => t.matrixRouteOutput g (.clk (t.params.periphOf u))) =
        t.onPin g fun t g => t.matrixRouteOutput g (.clk (s.params.periphOf u)) := fun t g ht =>
    onPin_congr (by rw [ht])
  have q1 : ∀ (t : State) (g : Nat) (p : Fin 4), (t.onPin g fun t g => t.matrixRouteInput (some g) p).params = t.params :=
    fun t g p => onPin_params fun _ _ => rfl
  have q2 : ∀ (t : State) (g : Nat) (r : OutRoute), (t.onPin g fun t g => t.matrixRouteOutput g r).params = t.params :=
    fun t g r => onPin_params fun _ _ => rfl
  cases hsoft : s.soft u with
  | true =>
    simp only [if_true, List.cons_append, List.nil_append, runMicros_onPinRead _ _ _ _ h', State.attachRoutes]
    rw [r1 _ _ hpar, r2 _ _ ((q1 _ _ _).trans hpar), r3 _ _ ((q2 _ _ _).trans ((q1 _ _ _).trans hpar)),
      runMicros_branch _ _ _ _ h', hs _ ((q2 _ _ _).trans ((q2 _ _ _).trans ((q1 _ _ _).trans hpar))), hsoft, if_neg (by simp),
      runMicros_onPinRead _ _ _ _ h', e1, e2, e3]
  | false =>
    simp only [Bool.false_eq_true, if_false, State.attachRoutes]
    rw [runMicros_branch _ _ _ _ h', hs t hpar, hsoft, if_pos (by simp)]
    simp only [List.cons_append, List.nil_append, runMicros_act _ _ _ h', runMicros_onPinRead _ _ _ _ h']
    rw [hpar]

/-- What a list of micro-steps comes to: the state after it, with nothing left to pass over. -/
def Does (ms : List Micro) (s t : State) : Prop :=
  ∀ (l : Locals) (k : List Micro), l.skip = 0 → ∃ l' : Locals, l'.skip = 0 ∧ runMicros (ms ++ k) l s = runMicros k l' t

theorem Does.append {a b : List Micro} {s t v : State} (h1 : Does a s t) (h2 : Does b t v) : Does (a ++ b) s v := by
  intro l k hl
  obtain ⟨l1, hl1, e1⟩ := h1 l (b ++ k) hl
  obtain ⟨l2, hl2, e2⟩ := h2 l1 k hl1
  exact ⟨l2, hl2, by rw [List.append_assoc, e1, e2]⟩

theorem Does.branch {c : Locals → State → Bool} {body : List Micro} {s t : State} (h : Does body s t)
    (hc : ∀ l, c l s = true) : Does (branch c body) s t := by
  intro l k hl
  obtain ⟨l1, hl1, e1⟩ := h l k hl
  exact ⟨l1, hl1, by rw [runMicros_branch _ _ _ _ hl, if_pos (hc l), e1]⟩

theorem Does.skip {c : Locals → State → Bool} {body : List Micro} {s : State} (hc : ∀ l, c l s = false) :
    Does (Machine.branch c body) s s := by
  intro l k hl
  exact ⟨l, hl, by rw [runMicros_branch _ _ _ _ hl, hc l, if_neg (by simp)]⟩

theorem does_act {f : Locals → State → State} {s t : State} (h : ∀ l, f l s = t) : Does [act f] s t := by
  intro l k hl
  exact ⟨l, hl, by rw [List.singleton_append, runMicros_act _ _ _ hl, h]⟩

theorem does_markDirty (u : Nat) (d : Bool) (s : State) : Does [markDirty u d] s (s.setDirty u d) := does_act fun _ => rfl

theorem does_attach (u : Nat) (s : State) : Does (attachSteps u) s (s.attach u) :=
  fun l _ hl => ⟨{ l with pins := (s.unit u).pinSet }, hl, runMicros_attach u _ s hl⟩

/-- The hand-off. -/
theorem does_selectUnit (u : Nat) (s : State) : Does (selectUnitSteps u) s (s.selectUnit u) := by
  intro l k hl
  rw [selectUnitSteps, List.append_assoc, List.singleton_append, runMicros_note _ _ _ hl]
  generalize hl1 : ({ l with prev := s.last } : Locals) = l1
  have h1 : l1.skip = 0 := by rw [← hl1]; exact hl
  have hp : l1.prev = s.last := by rw [← hl1]
  rw [runMicros_branch _ _ _ _ h1, hp, State.selectUnit]
  by_cases hlast : s.last = some u
  · exact ⟨l1, h1, by rw [if_neg (by simp [hlast]), if_pos hlast]⟩
  · rw [if_pos (by simpa using hlast), if_neg hlast, List.append_assoc, runMicros_branch _ _ _ _ h1, hp]
    cases hl2 : s.last with
    | none =>
      rw [if_neg (by simp), runMicros_attach _ _ _ h1]
      exact ⟨{ l1 with pins := (s.unit u).pinSet }, h1, rfl⟩
    | some prev =>
      rw [if_pos (by simp), List.append_assoc, runMicros_loadPins _ _ _ h1 (fun _ => rfl)]
      generalize hl3 : ({ l1 with pins := (s.unit l1.holder).pinSet } : Locals) = l3
      have h3 : l3.skip = 0 := by rw [← hl3]; exact h1
      have hh : l1.holder = prev := by rw [Locals.holder, hp, hl2]; rfl
      have hh3 : l3.holder = prev := by rw [← hl3]; exact hh
      have hsoft : softRead Locals.holder l3 s = s.soft prev := by
        rw [softRead_of (s := s) Locals.holder rfl (by rw [hh3, ← hl3, hh]), hh3]
      rw [runMicros_branch _ _ _ _ h3, hsoft, State.detachPrev]
      cases hs : s.soft prev with
      | false =>
        rw [if_neg (by simp), runMicros_attach _ _ _ h3]
        exact ⟨{ l3 with pins := (s.unit u).pinSet }, h3, by simp⟩
      | true =>
        have h4 : ({ l3 with pins := (s.unit prev).pinSet } : Locals).skip = 0 := h3
        rw [if_pos rfl, runMicros_detach prev _ _ h3 (by rw [← hl3]; exact hp.trans hl2), runMicros_attach _ _ _ h4]
        exact ⟨{ l3 with pins := ((s.detach prev).unit u).pinSet }, h3, by simp⟩

/-! ## Register fields -/

theorem bitWord_bit (b : Bool) : (bitWord b).getLsbD 0 = b := by cases b <;> rfl

/-- Writing back what a field holds changes nothing. -/
theorem put_get (r : RegFile) (f : RegField) : r.put f (r.get f) = r := by
  cases f with
  | w i =>
    have : r.w.set i (Vector.get r.w i) i.isLt = r.w := Vector.set_getElem_self i.isLt
    simp only [RegFile.put, RegFile.get, this]
  | mosiDlen => simp [RegFile.put, RegFile.get]
  | misoDlen => simp [RegFile.put, RegFile.get]
  | _ => simp only [RegFile.put, RegFile.get, bitWord_bit]

theorem foldl_put_get (fs : List RegField) (r : RegFile) : fs.foldl (fun acc g => acc.put g (r.get g)) r = r := by
  induction fs with
  | nil => rfl
  | cons f fs ih => rw [List.foldl_cons, put_get, ih]

/-- A field write that nothing comes between changes the one field (R65). -/
theorem writeBack_self (r : PeriphRegs) {f : RegField} (hf : f ≠ .cmdUsr) (v : Word) :
    r.writeBack r.toRegFile f v = r.put f v := by
  rw [PeriphRegs.writeBack, foldl_put_get, PeriphRegs.put, if_neg hf]

theorem does_writeField (u : Nat) {f : RegField} (hf : f ≠ .cmdUsr) (v : UnitRec → Word) (s : State) :
    Does (writeField u f v) s (s.writeReg (s.params.periphOf u) f (v (s.unit u))) := by
  intro l k hl
  refine ⟨{ l with word := v (s.unit u), reg := (s.periph (s.params.periphOf u)).toRegFile }, hl, ?_⟩
  simp only [writeField, List.cons_append, List.nil_append]
  rw [runMicros_note _ _ _ hl, runMicros_note _ _ s (l := { l with word := v (s.unit u) }) hl,
    runMicros_act _ _ s (l := { l with word := v (s.unit u), reg := (s.periph (s.params.periphOf u)).toRegFile }) hl]
  simp only
  rw [writeBack_self _ hf]
  rfl

theorem unit_writeReg (s : State) (p : Fin 4) (f : RegField) (v : Word) (u : Nat) :
    (s.writeReg p f v).unit u = s.unit u := rfl

/-- The eleven writes of a reprogram. -/
theorem does_writeConfig (u : Nat) (s : State) :
    Does (writeField u .pinCkIdle (fun r => bitWord (modeIdle r.mode))
      ++ writeField u .userCkPhase (fun r => bitWord (modePhase r.mode)) ++ writeField u .ctrlWrBitOrder (fun _ => 0)
      ++ writeField u .ctrlRdBitOrder (fun _ => 0) ++ writeField u .userDoutdin (fun r => bitWord r.duplex)
      ++ writeField u .slaveMode (fun _ => 0) ++ writeField u .clock (fun r => r.divisor)
      ++ writeField u .userUsrMosi (fun _ => 1) ++ writeField u .userUsrMiso (fun _ => 1)
      ++ writeField u .userCsSetup (fun _ => 1) ++ writeField u .userCsHold (fun _ => 1)) s
      (s.writeConfig (s.params.periphOf u) (s.unit u)) := by
  have w : ∀ (f : RegField) (v : UnitRec → Word) (t : State), f ≠ .cmdUsr → t.params = s.params → t.unit u = s.unit u →
      Does (writeField u f v) t (t.writeReg (s.params.periphOf u) f (v (s.unit u))) := by
    intro f v t hf hp hu
    rw [← hp, ← hu]
    exact does_writeField u hf v t
  unfold State.writeConfig
  refine Does.append ?_ (w _ (fun _ => 1) _ (by decide) (by simp only [writeReg_params]) (by simp only [unit_writeReg]))
  refine Does.append ?_ (w _ (fun _ => 1) _ (by decide) (by simp only [writeReg_params]) (by simp only [unit_writeReg]))
  refine Does.append ?_ (w _ (fun _ => 1) _ (by decide) (by simp only [writeReg_params]) (by simp only [unit_writeReg]))
  refine Does.append ?_ (w _ (fun _ => 1) _ (by decide) (by simp only [writeReg_params]) (by simp only [unit_writeReg]))
  refine Does.append ?_ (w _ (fun r => r.divisor) _ (by decide) (by simp only [writeReg_params]) (by simp only [unit_writeReg]))
  refine Does.append ?_ (w _ (fun _ => 0) _ (by decide) (by simp only [writeReg_params]) (by simp only [unit_writeReg]))
  refine Does.append ?_ (w _ (fun r => bitWord r.duplex) _ (by decide) (by simp only [writeReg_params])
    (by simp only [unit_writeReg]))
  refine Does.append ?_ (w _ (fun _ => 0) _ (by decide) (by simp only [writeReg_params]) (by simp only [unit_writeReg]))
  refine Does.append ?_ (w _ (fun _ => 0) _ (by decide) (by simp only [writeReg_params]) (by simp only [unit_writeReg]))
  refine Does.append ?_ (w _ (fun r => bitWord (modePhase r.mode)) _ (by decide) (by simp only [writeReg_params])
    (by simp only [unit_writeReg]))
  exact w _ (fun r => bitWord (modeIdle r.mode)) _ (by decide) rfl rfl

/-! ## Select and deselect -/

/-- What a list of micro-steps that waits comes to. -/
def DoesFlow (ms : List Micro) (s : State) (f : Flow) : Prop :=
  ∀ (l : Locals) (k : List Micro), l.skip = 0 →
    match f with
    | .run t => ∃ l' : Locals, l'.skip = 0 ∧ runMicros (ms ++ k) l s = runMicros k l' t
    | .hung t => runMicros (ms ++ k) l s = .hung t
    | .refuse r => runMicros (ms ++ k) l s = .refuse r

theorem DoesFlow.of_does {ms : List Micro} {s t : State} (h : Does ms s t) : DoesFlow ms s (.run t) := h

theorem doesFlow_span (f : State → Flow) (s : State) : DoesFlow [span f] s (f s) := by
  intro l k hl
  have := runMicros_span f k s hl
  rw [List.singleton_append, this]
  cases f s with
  | run t => exact ⟨l, hl, rfl⟩
  | hung t => rfl
  | refuse r => rfl

theorem DoesFlow.append {a b : List Micro} {s : State} {f : Flow} {k : State → Flow} (h1 : DoesFlow a s f)
    (h2 : ∀ t, f = .run t → DoesFlow b t (k t)) : DoesFlow (a ++ b) s (f.andThen k) := by
  intro l ms hl
  have h1' := h1 l (b ++ ms) hl
  rw [List.append_assoc]
  cases f with
  | hung t => exact h1'
  | refuse r => exact h1'
  | run t =>
    obtain ⟨l1, hl1, e1⟩ := h1'
    have := h2 t rfl l1 ms hl1
    rw [e1]
    exact this

theorem DoesFlow.branch {c : Locals → State → Bool} {body : List Micro} {s : State} {f : Flow} (h : DoesFlow body s f)
    (hc : ∀ l, c l s = true) : DoesFlow (Machine.branch c body) s f := by
  intro l k hl
  have := h l k hl
  rw [runMicros_branch _ _ _ _ hl, if_pos (hc l)]
  exact this

/-- What a whole list comes to, from the start of an operation. -/
theorem DoesFlow.flow {ms : List Micro} {s : State} {f : Flow} (h : DoesFlow ms s f) : (runMicros ms .start s).flow = f := by
  have := h .start [] rfl
  rw [List.append_nil] at this
  cases f with
  | run t =>
    obtain ⟨l, _, e⟩ := this
    rw [e]; rfl
  | hung t => rw [this]; rfl
  | refuse r => rw [this]; rfl

/-- What an operation comes to that returns after a list of micro-steps. -/
theorem DoesFlow.carryOut {ms : List Micro} {s : State} {f : Flow} (h : DoesFlow ms s f) (g : State → State) :
    Machine.carryOut (ms ++ [finish g]) s = f.outcome g := by
  have := h .start [finish g] rfl
  rw [Machine.carryOut]
  cases f with
  | run t =>
    obtain ⟨l, hl, e⟩ := this
    rw [e, runMicros_finish _ _ _ hl]; rfl
  | hung t => rw [this]; rfl
  | refuse r => rw [this]; rfl

theorem does_dirtyLast (s : State) {prev : Nat} (h : s.last = some prev) : Does dirtyLast s (s.setDirty prev true) := by
  intro l k hl
  refine ⟨{ l with prev := s.last }, hl, ?_⟩
  rw [dirtyLast, List.cons_append, List.cons_append, runMicros_note _ _ _ hl,
    runMicros_act _ _ s (l := { l with prev := s.last }) hl, List.nil_append]
  simp only [h]

theorem does_driveCs (u : Nat) (v : Bool) (s : State) : Does (driveCsSteps u v) s (s.driveCs u v) := by
  intro l k hl
  refine ⟨{ l with pins := { l.pins with cs := (s.unit u).cs } }, hl, ?_⟩
  rw [driveCsSteps, List.cons_append, List.cons_append, runMicros_note _ _ _ hl,
    runMicros_onPinRead _ _ _ s (l := { l with pins := { l.pins with cs := (s.unit u).cs } }) hl, List.nil_append]
  rfl

/-- The COMMAND and ARGS states of a record. -/
theorem doesFlow_record (cmd : Byte) (args : List Byte) (s : State) :
    DoesFlow (recordSteps cmd args) s (recordBody cmd args s) := by
  refine DoesFlow.append (a := [_]) (f := .run (s.advance 2)) (k := fun t =>
    (sendCommand cmd t).andThen fun t => sendData args (t.advance args.length)) (.of_does (does_act fun _ => rfl)) ?_
  intro t ht
  cases ht
  refine DoesFlow.append (a := [_]) (doesFlow_span _ _) fun t _ => ?_
  exact DoesFlow.append (a := [_]) (f := .run (t.advance args.length)) (k := sendData args)
    (.of_does (does_act fun _ => rfl)) fun v hv => by cases hv; exact doesFlow_span _ _

theorem execInitrec_eq (cmd : Byte) (args : List Byte) (s : State) :
    execInitrec cmd args s = (recordBody cmd args s).outcome State.recordDone := (doesFlow_record cmd args s).carryOut _

theorem execInitrecD_eq (cmd : Byte) (args : List Byte) (code : Byte) (s : State) :
    execInitrecD cmd args code s =
      (recordBody cmd args s).outcome fun t => ((t.advance 1).schedDelay (delayMs code)).recordDone := by
  have h : DoesFlow (recordSteps cmd args ++ ([act fun _ s => s.advance 1] ++ [act fun _ s => s.schedDelay (delayMs code)])) s
      ((recordBody cmd args s).andThen fun t => .run ((t.advance 1).schedDelay (delayMs code))) :=
    (doesFlow_record cmd args s).append fun t _ =>
      DoesFlow.of_does ((does_act fun _ => rfl).append (does_act fun _ => rfl))
  have := h.carryOut State.recordDone
  rw [execInitrecD, initrecDSteps]
  simp only [List.append_assoc, List.cons_append, List.nil_append] at this ⊢
  rw [this]
  cases recordBody cmd args s <;> rfl

/-- Driving a chip-select, where one is configured. -/
theorem does_driveCs_if (u : Nat) (v : Bool) (s : State) : Does (branch (hasCs u) (driveCsSteps u v)) s (s.driveCs u v) := by
  by_cases h : (s.unit u).cs = 0
  · have := Does.skip (c := hasCs u) (body := driveCsSteps u v) (s := s) fun l => by simp [hasCs, h]
    rwa [show s.driveCs u v = s by rw [State.driveCs, State.onPin, if_pos h]]
  · exact (does_driveCs u v s).branch fun l => by simp [hasCs, h]

end Sys2Proof.Machine.Laws
end

