-- ==== Sys2Proof/Laws/Pins.lean ====
section
/-! SUPPORT. What each call on the GPIO and matrix collaborators leaves on each pin, and from these which pins the
multiplexer touches and what it leaves on them. -/

namespace Sys2Proof.Machine.Laws

open Sys2Proof.Safety

/-! ## One call -/

theorem pin_setPin (s : State) (g h : Nat) (q : PinState) :
    (s.setPin g q).pin h = if h = g ∧ g < s.pins.length then q else s.pin h := by
  unfold State.setPin State.pin
  simp only [List.getD_eq_getElem?_getD, List.getElem?_set]
  split
  · next e =>
    subst e
    split
    · next hl => simp [hl]
    · next hl => simp [hl]
  · next e => simp [Ne.symm e]

theorem pin_congr {s t : State} (h : t.pins = s.pins) (g : Nat) : t.pin g = s.pin g := by unfold State.pin; rw [h]

@[simp] theorem pin_emit (s : State) (e : Event) (g : Nat) : (s.emit e).pin g = s.pin g := rfl
@[simp] theorem pin_routeInput (s : State) (src : Option Nat) (p : Fin 4) (g : Nat) :
    (s.matrixRouteInput src p).pin g = s.pin g := rfl

theorem length_routeInput (s : State) (src : Option Nat) (p : Fin 4) :
    (s.matrixRouteInput src p).pins.length = s.pins.length := by rw [matrixRouteInput_pins]

/-- `F` was applied to pin `g` and to no other. -/
structure OnePin (s t : State) (g : Nat) (F : PinState → PinState) : Prop where
  length : t.pins.length = s.pins.length
  pin : ∀ h, t.pin h = if h = g ∧ g < s.pins.length then F (s.pin h) else s.pin h

theorem onePin_setPin (s : State) (g : Nat) (F : PinState → PinState) (e : Event) :
    OnePin s ((s.setPin g (F (s.pin g))).emit e) g F where
  length := by simp
  pin h := by
    rw [pin_emit, pin_setPin]
    split
    · next c => rw [c.1]
    · rfl

/-- One call in a skipping position: on pin 0 nothing happens. -/
theorem pin_onPin {s : State} {g : Nat} {f : State → Nat → State} {F : PinState → PinState}
    (hf : ∀ t g, OnePin t (f t g) g F) (h : Nat) :
    (s.onPin g f).pin h = if h = g ∧ g ≠ 0 ∧ g < s.pins.length then F (s.pin h) else s.pin h := by
  unfold State.onPin
  split
  · next e => simp [e]
  · next e => rw [(hf s g).pin]; simp [e]

theorem length_onPin {s : State} {g : Nat} {f : State → Nat → State} {F : PinState → PinState}
    (hf : ∀ t g, OnePin t (f t g) g F) : (s.onPin g f).pins.length = s.pins.length := by
  unfold State.onPin
  split
  · rfl
  · exact (hf s g).length

theorem onePin_direction (d : Dir) (t : State) (g : Nat) :
    OnePin t (t.gpioSetDirection g d) g fun q => { q with dir := d } := onePin_setPin t g (fun q => { q with dir := d }) _
theorem onePin_level (v : Bool) (t : State) (g : Nat) :
    OnePin t (t.gpioSetLevel g v) g fun q => { q with level := v } := onePin_setPin t g (fun q => { q with level := v }) _
theorem onePin_function (f : PinFn) (t : State) (g : Nat) :
    OnePin t (t.matrixSelectPinFunction g f) g fun q => { q with fn := f } := onePin_setPin t g (fun q => { q with fn := f }) _
theorem onePin_routeOutput (r : OutRoute) (t : State) (g : Nat) :
    OnePin t (t.matrixRouteOutput g r) g fun q => { q with out := r } := onePin_setPin t g (fun q => { q with out := r }) _
theorem onePin_routeInput (p : Fin 4) (t : State) (g : Nat) :
    OnePin t (t.matrixRouteInput (some g) p) g fun q => q where
  length := rfl
  pin h := by simp

theorem OnePin.trans {s t u : State} {g : Nat} {F G : PinState → PinState} (h1 : OnePin s t g F) (h2 : OnePin t u g G) :
    OnePin s u g fun q => G (F q) where
  length := h2.length.trans h1.length
  pin h := by
    rw [h2.pin, h1.pin, h1.length]
    by_cases c : h = g ∧ g < s.pins.length <;> simp [c]

theorem onePin_inputPull (t : State) (g : Nat) :
    OnePin t ((t.gpioSetDirection g .input).gpioSetPullMode g .pullup) g
      fun q => { q with dir := .input, pull := .pullup } :=
  (onePin_direction .input t g).trans (G := fun q => { q with pull := .pullup })
    (onePin_setPin _ g (fun q => { q with pull := .pullup }) _)

theorem onePin_output (t : State) (g : Nat) :
    OnePin t (t.gpioSetOutput g) g fun q => { q with fn := .gpio, dir := .output, out := .gpioDriven } :=
  ((onePin_function .gpio t g).trans (onePin_direction .output _ g)).trans (onePin_routeOutput .gpioDriven _ g)

/-! ## The multiplexer -/

/-- Pin `h` is one of some configured pins. -/
abbrev touched (s : State) (h : Nat) (gs : List Nat) : Prop := h ∈ gs ∧ h ≠ 0 ∧ h < s.pins.length

theorem ite_touched_nil {α : Type} (s : State) (h : Nat) (x y : α) : (if touched s h [] then x else y) = y := by
  simp [touched]

theorem ite_touched_cons {α : Type} (s : State) (h g : Nat) (gs : List Nat) (x y : α) :
    (if touched s h (g :: gs) then x else y) =
      if h = g ∧ g ≠ 0 ∧ g < s.pins.length then x else if touched s h gs then x else y := by
  by_cases e : h = g
  · subst e
    by_cases c : h ≠ 0 ∧ h < s.pins.length <;> simp [touched, c]
  · simp [touched, e]

/-- What `detach` leaves on pin `h` (R145). -/
structure DetachedPin (s : State) (prev h : Nat) (q : PinState) : Prop where
  fn : q.fn = if touched s h [(s.unit prev).cs, (s.unit prev).sck, (s.unit prev).sdo, (s.unit prev).sdi] then .gpio
    else (s.pin h).fn
  out : q.out = if touched s h [(s.unit prev).cs, (s.unit prev).sck, (s.unit prev).sdo] then .gpioDriven
    else (s.pin h).out
  level : q.level = if touched s h [(s.unit prev).cs] then true else (s.pin h).level
  dir : q.dir = (s.pin h).dir
  pull : q.pull = (s.pin h).pull

theorem pin_detach (s : State) (prev h : Nat) : DetachedPin s prev h ((s.detach prev).pin h) := by
  unfold State.detach
  simp only [pin_onPin (onePin_level true), pin_onPin (onePin_function .gpio), pin_onPin (onePin_routeOutput .gpioDriven),
    length_onPin (onePin_function .gpio), length_onPin (onePin_routeOutput .gpioDriven),
    pin_routeInput, length_routeInput]
  constructor <;>
    simp only [apply_ite PinState.fn, apply_ite PinState.out, apply_ite PinState.level, apply_ite PinState.dir,
      apply_ite PinState.pull, ite_self, ite_touched_cons, ite_touched_nil]

/-- What `attach` leaves on pin `h` (R148). -/
structure AttachedPin (s : State) (p : Fin 4) (r : UnitRec) (soft : Bool) (h : Nat) (q : PinState) : Prop where
  fn : q.fn = if touched s h [r.cs] then .gpio
    else if touched s h [r.sck, r.sdo, r.sdi] then (if soft then .gpio else .dedicated) else (s.pin h).fn
  dir : q.dir = if touched s h [r.cs, r.sck, r.sdo] then .output else if touched s h [r.sdi] then .input
    else (s.pin h).dir
  pull : q.pull = if touched s h [r.sdi] then .pullup else (s.pin h).pull
  out : q.out = if touched s h [r.cs] then .gpioDriven
    else if soft then (if touched s h [r.sck] then .clk p else if touched s h [r.sdo] then .dout p else (s.pin h).out)
    else (s.pin h).out
  level : q.level = (s.pin h).level

theorem pin_attachPins (s : State) (p : Fin 4) (r : UnitRec) (soft : Bool) (h : Nat) :
    AttachedPin s p r soft h ((s.attachPins p r soft).pin h) := by
  unfold State.attachPins State.attachRoutes
  cases soft <;>
  simp only [pin_onPin (onePin_direction .output), pin_onPin (onePin_function .dedicated),
    pin_onPin (onePin_function .gpio), pin_onPin onePin_inputPull, pin_onPin onePin_output,
    pin_onPin (onePin_routeOutput (.clk p)), pin_onPin (onePin_routeOutput (.dout p)), pin_onPin (onePin_routeInput p),
    length_onPin (onePin_direction .output), length_onPin (onePin_function .dedicated),
    length_onPin (onePin_function .gpio), length_onPin onePin_inputPull,
    length_onPin (onePin_routeOutput (.clk p)), length_onPin (onePin_routeOutput (.dout p)),
    length_onPin (onePin_routeInput p), pin_routeInput, length_routeInput, ite_self, Bool.false_eq_true, if_false,
    if_true] <;>
  constructor <;>
    simp only [apply_ite PinState.fn, apply_ite PinState.out, apply_ite PinState.level, apply_ite PinState.dir,
      apply_ite PinState.pull, ite_self, ite_touched_cons, ite_touched_nil, Bool.false_eq_true, if_false, if_true]

theorem pinState_ext {a b : PinState} (h1 : a.fn = b.fn) (h2 : a.dir = b.dir) (h3 : a.pull = b.pull)
    (h4 : a.out = b.out) (h5 : a.level = b.level) : a = b := by
  cases a; cases b; simp_all

theorem mem_nonzeroPins {r : UnitRec} {h : Nat} :
    h ∈ nonzeroPins r ↔ h ≠ 0 ∧ (h = r.sdi ∨ h = r.sdo ∨ h = r.sck ∨ h = r.cs) := by
  simp [nonzeroPins, and_comm]

/-- `detach` leaves alone every pin that is none of the unit's (R145). -/
theorem pins_detach (s : State) {prev h : Nat} (hn : h ∉ nonzeroPins (s.unit prev)) :
    (s.detach prev).pin h = s.pin h := by
  rw [mem_nonzeroPins] at hn
  obtain ⟨h1, h2, h3, h4, h5⟩ := pin_detach s prev h
  refine pinState_ext ?_ h4 h5 ?_ ?_
  · rw [h1, if_neg]; simp [touched]; omega
  · rw [h2, if_neg]; simp [touched]; omega
  · rw [h3, if_neg]; simp [touched]; omega

/-- `attach` leaves alone every pin that is none of the record's (R148). -/
theorem pins_attachPins (s : State) (p : Fin 4) {r : UnitRec} (soft : Bool) {h : Nat} (hn : h ∉ nonzeroPins r) :
    (s.attachPins p r soft).pin h = s.pin h := by
  rw [mem_nonzeroPins] at hn
  have e : ∀ gs : List Nat, (∀ g ∈ gs, g = r.sdi ∨ g = r.sdo ∨ g = r.sck ∨ g = r.cs) → ¬touched s h gs := by
    rintro gs hg ⟨hm, hz, _⟩
    exact hn ⟨hz, hg h hm⟩
  obtain ⟨h1, h2, h3, h4, h5⟩ := pin_attachPins s p r soft h
  refine pinState_ext ?_ ?_ ?_ ?_ h5
  · rw [h1, if_neg (e _ (by simp)), if_neg (e _ (by simp))]
  · rw [h2, if_neg (e _ (by simp)), if_neg (e _ (by simp))]
  · rw [h3, if_neg (e _ (by simp))]
  · rw [h4, if_neg (e _ (by simp)), if_neg (e _ (by simp)), if_neg (e _ (by simp)), ite_self]

/-! ## Input routes -/

theorem inRoute_onPin {s : State} {g : Nat} {f : State → Nat → State} (hf : ∀ t g, (f t g).inRoute = t.inRoute) :
    (s.onPin g f).inRoute = s.inRoute := by
  unfold State.onPin
  split
  · rfl
  · exact hf s g

theorem inRoute_detach (s : State) (prev : Nat) :
    (s.detach prev).inRoute = s.inRoute.set (s.params.periphOf prev) none (s.params.periphOf prev).isLt := by
  unfold State.detach
  have h1 : ∀ (t : State) (r : OutRoute) (g : Nat),
      (t.onPin g fun t g => t.matrixRouteOutput g r).inRoute = t.inRoute := fun _ _ _ => inRoute_onPin fun _ _ => rfl
  have h2 : ∀ (t : State) (f : PinFn) (g : Nat),
      (t.onPin g fun t g => t.matrixSelectPinFunction g f).inRoute = t.inRoute := fun _ _ _ => inRoute_onPin fun _ _ => rfl
  have h3 : ∀ (t : State) (v : Bool) (g : Nat),
      (t.onPin g fun t g => t.gpioSetLevel g v).inRoute = t.inRoute := fun _ _ _ => inRoute_onPin fun _ _ => rfl
  simp only [h1, h2, h3, matrixRouteInput_inRoute]

theorem inRoute_attachPins (s : State) (p : Fin 4) (r : UnitRec) (soft : Bool) :
    (s.attachPins p r soft).inRoute =
      if soft ∧ r.sdi = 0 then s.inRoute else s.inRoute.set p (if soft then some r.sdi else none) p.isLt := by
  have h1 : ∀ (t : State) (r : OutRoute) (g : Nat),
      (t.onPin g fun t g => t.matrixRouteOutput g r).inRoute = t.inRoute := fun _ _ _ => inRoute_onPin fun _ _ => rfl
  have h2 : ∀ (t : State) (f : PinFn) (g : Nat),
      (t.onPin g fun t g => t.matrixSelectPinFunction g f).inRoute = t.inRoute := fun _ _ _ => inRoute_onPin fun _ _ => rfl
  have h3 : ∀ (t : State) (d : Dir) (g : Nat),
      (t.onPin g fun t g => t.gpioSetDirection g d).inRoute = t.inRoute := fun _ _ _ => inRoute_onPin fun _ _ => rfl
  have h4 : ∀ (t : State) (g : Nat),
      (t.onPin g fun t g => (t.gpioSetDirection g .input).gpioSetPullMode g .pullup).inRoute = t.inRoute :=
    fun _ _ => inRoute_onPin fun _ _ => rfl
  have h5 : ∀ (t : State) (g : Nat), (t.onPin g fun t g => t.gpioSetOutput g).inRoute = t.inRoute :=
    fun _ _ => inRoute_onPin fun _ _ => rfl
  have h6 : ∀ (t : State) (g : Nat), (t.onPin g fun t g => t.matrixRouteInput (some g) p).inRoute =
      if g = 0 then t.inRoute else t.inRoute.set p (some g) p.isLt := by
    intro t g; unfold State.onPin; split <;> rfl
  unfold State.attachPins State.attachRoutes
  cases soft <;>
    simp only [h1, h2, h3, h4, h5, h6, if_true, if_false, Bool.false_eq_true, matrixRouteInput_inRoute, false_and,
      true_and]

end Sys2Proof.Machine.Laws
end

