-- ==== Sys2Proof/Laws/Bits.lean ====
section
/-! SUPPORT. Bits, bytes and words: a number made of bits has them, a received stream read back byte by byte is the stream,
the stream sent is the buffer's bytes, most significant bit first. -/

namespace Sys2Proof.Machine.Laws

open Sys2Proof.Safety

theorem natOfBits_lt (f : Nat → Bool) (n : Nat) : natOfBits f n < 2 ^ n := by
  induction n with
  | zero => simp [natOfBits]
  | succ n ih =>
    rw [natOfBits, Nat.pow_succ]
    split <;> omega

theorem testBit_natOfBits (f : Nat → Bool) (n b : Nat) : (natOfBits f n).testBit b = (decide (b < n) && f b) := by
  induction n with
  | zero => simp [natOfBits]
  | succ n ih =>
    have hlt := natOfBits_lt f n
    rw [natOfBits]
    by_cases hf : f n = true
    · rw [if_pos hf, Nat.add_comm]
      rcases Nat.lt_trichotomy b n with h | h | h
      · rw [Nat.testBit_two_pow_add_gt h, ih]
        simp [h, Nat.lt_succ_of_lt h]
      · subst h
        rw [Nat.testBit_two_pow_add_eq, Nat.testBit_lt_two_pow hlt]
        simp [hf]
      · rw [Nat.testBit_lt_two_pow]
        · simp; omega
        · have : 2 ^ (n + 1) ≤ 2 ^ b := Nat.pow_le_pow_right (by omega) h
          rw [Nat.pow_succ] at this; omega
    · rw [if_neg hf, Nat.add_zero, ih]
      rcases Nat.lt_trichotomy b n with h | h | h
      · simp [h, Nat.lt_succ_of_lt h]
      · subst h; simp [hf]
      · simp [show ¬b < n by omega, show ¬b < n + 1 by omega]

theorem getLsbD_ofNat_natOfBits (w : Nat) (f : Nat → Bool) (b : Nat) (h : b < w) :
    (BitVec.ofNat w (natOfBits f w)).getLsbD b = f b := by
  rw [BitVec.getLsbD_ofNat, testBit_natOfBits]
  simp [h]

/-- Bit `k` of the stream is bit `7 - k mod 8` of byte `k div 8` of the buffer (R62). -/
theorem wbit_eq_bufByte (w : Vector Word 16) (k : Nat) : wbit w k = (bufByte w (k / 8)).getLsbD (7 - k % 8) := by
  have h : 7 - k % 8 < 8 := by omega
  simp only [wbit, bufByte, BitVec.getLsbD_extractLsb', h, decide_true, Bool.true_and]
  congr 1; omega

theorem bitsOf_nil : bitsOf [] = [] := rfl

theorem bitsOf_append (a b : List Byte) : bitsOf (a ++ b) = bitsOf a ++ bitsOf b := by simp [bitsOf]

@[simp] theorem bitsOf_length (bs : List Byte) : (bitsOf bs).length = 8 * bs.length := by
  induction bs with
  | nil => rfl
  | cons b bs ih =>
    have : bitsOf (b :: bs) = (List.range 8).map (fun k => b.getLsbD (7 - k)) ++ bitsOf bs := rfl
    rw [this, List.length_append, ih]; simp; omega

/-- Bit `k` of the stream of some bytes. -/
theorem bitsOf_getD (bs : List Byte) (k : Nat) (h : k < 8 * bs.length) :
    (bitsOf bs).getD k false = (bs.getD (k / 8) 0).getLsbD (7 - k % 8) := by
  induction bs generalizing k with
  | nil => simp at h
  | cons b bs ih =>
    have hc : bitsOf (b :: bs) = (List.range 8).map (fun k => b.getLsbD (7 - k)) ++ bitsOf bs := rfl
    rw [hc]
    by_cases hk : k < 8
    · rw [List.getD_append _ _ _ _ (by simpa using hk)]
      have h0 : k / 8 = 0 := by omega
      have h1 : k % 8 = k := by omega
      simp [List.getD, h0, h1, hk]
    · rw [List.getD_append_right _ _ _ _ (by simpa using hk)]
      simp only [List.length_map, List.length_range]
      rw [ih (k - 8) (by simp only [List.length_cons] at h; omega)]
      have h0 : k / 8 = (k - 8) / 8 + 1 := by omega
      have h1 : (k - 8) % 8 = k % 8 := by omega
      rw [h0, h1, List.getD_cons_succ]

/-- The bits of a whole number of bytes of the buffer. -/
theorem map_wbit (w : Vector Word 16) (n : Nat) :
    (List.range (8 * n)).map (wbit w) = bitsOf ((List.range n).map (bufByte w)) := by
  apply List.ext_getElem
  · simp
  · intro k h1 h2
    have hk : k < 8 * n := by simpa using h1
    have hb := bitsOf_getD ((List.range n).map (bufByte w)) k (by simpa using hk)
    rw [List.getD_eq_getElem _ _ h2] at hb
    rw [hb, List.getElem_map, List.getElem_range, wbit_eq_bufByte]
    congr 1
    have : k / 8 < n := by omega
    simp [List.getD, this]

theorem getLsbD_byteAt (bits : List Bool) (k b : Nat) (h : b < 8) :
    (byteAt bits k).getLsbD b = bits.getD (8 * k + (7 - b)) false := getLsbD_ofNat_natOfBits 8 _ b h

/-- The stream of some bytes, cut into bytes, gives them back. -/
theorem byteAt_bitsOf (bs : List Byte) (k : Nat) (h : k < bs.length) : byteAt (bitsOf bs) k = bs.getD k 0 := by
  apply BitVec.eq_of_getLsbD_eq
  intro i hi
  rw [getLsbD_byteAt _ _ _ hi, bitsOf_getD _ _ (by omega)]
  congr 1
  · congr 1; omega
  · omega

theorem bytesOf_bitsOf (bs : List Byte) : bytesOf (bitsOf bs) = bs := by
  apply List.ext_getElem
  · simp [bytesOf]
  · intro k h1 h2
    simp only [bytesOf, List.getElem_map, List.getElem_range]
    rw [byteAt_bitsOf bs k h2, List.getD_eq_getElem _ _ h2]

theorem storeReceived_getD (inbits : List Bool) (nin : Nat) (w : Vector Word 16) (i : Nat) (h : i < 16) :
    (storeReceived inbits nin w).getD i 0 = receivedWord inbits nin i (w.getD i 0) := by
  have h16 : List.range 16 = [0, 1, 2, 3, 4, 5, 6, 7, 8, 9, 10, 11, 12, 13, 14, 15] := rfl
  simp only [storeReceived, h16, List.foldl_cons, List.foldl_nil]
  interval_cases i <;> simp [Vector.getD]

theorem getLsbD_receivedWord (inbits : List Bool) (nin i : Nat) (old : Word) (b : Nat) (h : b < 32) :
    (receivedWord inbits nin i old).getLsbD b =
      if streamPos i b < nin then inbits.getD (streamPos i b) false else old.getLsbD b := by
  unfold receivedWord
  split
  · next hn =>
    rw [if_neg]
    unfold streamPos; omega
  · exact getLsbD_ofNat_natOfBits 32 _ b h

/-- Byte `k` of the buffer after `nin` received bits, when all its bits are received (R176). -/
theorem bufByte_storeReceived (inbits : List Bool) (nin : Nat) (w : Vector Word 16) (k : Nat) (hk : k < 64)
    (hn : 8 * k + 8 ≤ nin) : bufByte (storeReceived inbits nin w) k = byteAt inbits k := by
  apply BitVec.eq_of_getLsbD_eq
  intro b hb
  have hp : streamPos (k / 4) (8 * (k % 4) + b) = 8 * k + (7 - b) := by unfold streamPos; omega
  rw [getLsbD_byteAt _ _ _ hb]
  simp only [bufByte, BitVec.getLsbD_extractLsb', hb, decide_true, Bool.true_and]
  rw [storeReceived_getD _ _ _ _ (by omega), getLsbD_receivedWord _ _ _ _ _ (by omega), hp, if_pos (by omega)]

end Sys2Proof.Machine.Laws
end

