-- ==== Sys2Proof/Laws/Memory.lean ====
section
/-! SUPPORT. The laws of the caller's memory: every operation keeps the canonical form, a byte written reads back, and
every other byte is left alone. -/

namespace Sys2Proof.Machine.Laws

/-- The canonical form as a proposition. -/
theorem wf_cons {c : Host.Cell} {m : Memory} :
    Memory.wf (c :: m) = true ↔ c.2 ≠ Memory.blank ∧ (∀ d ∈ m, c.1 < d.1) ∧ Memory.wf m = true := by
  simp [Memory.wf, and_assoc]

/-- Where the addresses of a write's result come from. -/
theorem mem_write {m : Memory} {a : Nat} {b : Byte} {d : Host.Cell} (h : d ∈ m.write a b) : d = (a, b) ∨ d ∈ m := by
  induction m with
  | nil => simp only [Memory.write] at h; split at h <;> simp_all
  | cons c m ih =>
    simp only [Memory.write] at h
    split at h
    · split at h <;> simp_all
    · split at h
      · split at h <;> simp_all
        rcases h with h | h <;> simp [h]
      · rcases List.mem_cons.1 h with h | h
        · simp [h]
        · rcases ih h with h | h <;> simp [h]

/-- A byte store keeps the canonical form. -/
theorem write_wf {m : Memory} (a : Nat) (b : Byte) (h : m.wf = true) : (m.write a b).wf = true := by
  induction m with
  | nil =>
    simp only [Memory.write]
    split <;> simp_all [Memory.wf]
  | cons c m ih =>
    obtain ⟨hb, hlt, hm⟩ := wf_cons.1 h
    simp only [Memory.write]
    split
    · split
      · exact h
      · refine wf_cons.2 ⟨by assumption, ?_, h⟩
        intro d hd
        rcases List.mem_cons.1 hd with rfl | hd
        · assumption
        · exact Nat.lt_trans ‹_› (hlt d hd)
    · split
      · split
        · exact hm
        · next hac _ => exact wf_cons.2 ⟨by assumption, fun d hd => hac ▸ hlt d hd, hm⟩
      · refine wf_cons.2 ⟨hb, ?_, ih hm⟩
        intro d hd
        rcases mem_write hd with rfl | hd
        · simp; omega
        · exact hlt d hd

/-- A multi-byte store keeps the canonical form. -/
theorem writeBytes_wf {m : Memory} (a : Nat) (bs : List Byte) (h : m.wf = true) : (m.writeBytes a bs).wf = true := by
  induction bs generalizing m a with
  | nil => exact h
  | cons b bs ih => exact ih (a + 1) (write_wf a b h)

/-- In canonical form, an address below every listed one reads as blank. -/
theorem read_of_lt {m : Memory} {a : Nat} (h : ∀ d ∈ m, a < d.1) : m.read a = Memory.blank := by
  induction m with
  | nil => rfl
  | cons c m ih =>
    have hc := h c (by simp)
    simp only [Memory.read, if_neg (by omega : ¬c.1 = a)]
    exact ih fun d hd => h d (by simp [hd])

/-- A byte written reads back. -/
theorem read_write_self {m : Memory} (a : Nat) (b : Byte) (h : m.wf = true) : (m.write a b).read a = b := by
  induction m with
  | nil =>
    simp only [Memory.write]
    split
    · next hb => exact hb.symm
    · simp [Memory.read]
  | cons c m ih =>
    obtain ⟨_, hlt, hm⟩ := wf_cons.1 h
    simp only [Memory.write]
    split
    · next hac =>
      split
      · next hb =>
        rw [hb]
        refine read_of_lt fun d hd => ?_
        rcases List.mem_cons.1 hd with rfl | hd
        · exact hac
        · exact Nat.lt_trans hac (hlt d hd)
      · simp [Memory.read]
    · split
      · next hac =>
        split
        · next hb => rw [hb]; exact read_of_lt fun d hd => hac ▸ hlt d hd
        · simp [Memory.read]
      · next hac => rw [Memory.read, if_neg (show ¬c.1 = a from fun e => hac e.symm)]; exact ih hm

/-- A byte store leaves every other byte alone. -/
theorem read_write_ne {m : Memory} {a k : Nat} (b : Byte) (hk : k ≠ a) : (m.write a b).read k = m.read k := by
  induction m with
  | nil =>
    simp only [Memory.write]
    split
    · rfl
    · simp [Memory.read, Ne.symm hk]
  | cons c m ih =>
    simp only [Memory.write]
    split
    · split
      · rfl
      · simp [Memory.read, Ne.symm hk]
    · split
      · next hac =>
        split
        · simp [Memory.read, ← hac, Ne.symm hk]
        · simp [Memory.read, ← hac, Ne.symm hk]
      · simp only [Memory.read, ih]

/-- A multi-byte store leaves every byte outside its range alone. -/
theorem read_writeBytes_of_outside {m : Memory} {a k : Nat} (bs : List Byte) (hk : k < a ∨ a + bs.length ≤ k) :
    (m.writeBytes a bs).read k = m.read k := by
  induction bs generalizing m a with
  | nil => rfl
  | cons b bs ih =>
    simp only [List.length_cons] at hk
    rw [Memory.writeBytes, ih (by omega), read_write_ne b (by omega)]

/-- A multi-byte store puts its `j`-th byte at the `j`-th address. -/
theorem read_writeBytes_inside {m : Memory} {a j : Nat} (bs : List Byte) (h : m.wf = true) (hj : j < bs.length) :
    (m.writeBytes a bs).read (a + j) = bs.getD j 0 := by
  induction bs generalizing m a j with
  | nil => simp at hj
  | cons b bs ih =>
    simp only [List.length_cons] at hj
    rw [Memory.writeBytes]
    cases j with
    | zero =>
      show ((m.write a b).writeBytes (a + 1) bs).read a = b
      rw [read_writeBytes_of_outside bs (Or.inl (Nat.lt_succ_self a)), read_write_self a b h]
    | succ j =>
      have := ih (a := a + 1) (j := j) (write_wf a b h) (by omega)
      rw [show a + (j + 1) = a + 1 + j by omega, this]
      simp

@[simp] theorem readBytes_length (m : Memory) (a n : Nat) : (m.readBytes a n).length = n := by
  induction n generalizing a with
  | zero => rfl
  | succ n ih => simp [Memory.readBytes, ih]

/-- The `j`-th byte of a multi-byte read. -/
theorem readBytes_getD (m : Memory) (a n j : Nat) (hj : j < n) : (m.readBytes a n).getD j 0 = m.read (a + j) := by
  induction n generalizing a j with
  | zero => omega
  | succ n ih =>
    cases j with
    | zero => simp [Memory.readBytes]
    | succ j =>
      rw [Memory.readBytes, List.getD_cons_succ, ih (a + 1) j (by omega)]
      congr 1; omega

end Sys2Proof.Machine.Laws
end

