-- ==== Sys2Proof/Laws/Engine.lean ====
section
/-! SUPPORT. What the transfer engine can do: the state a chunk and a whole transfer leave on a peripheral that is ready, and
the frame every transfer keeps wherever it ends. -/

namespace Sys2Proof.Machine.Laws

open Sys2Proof.Safety

/-! ## Packing -/

/-- `k` words from word `i` on. -/
def packW (word : Nat → Word) : Nat → Nat → Vector Word 16 → Vector Word 16
  | 0, _, w => w
  | k + 1, i, w => packW word k (i + 1) (w.set (Fin.ofNat 16 i) (word i) (Fin.ofNat 16 i).isLt)

/-- The register writes of `k` words from word `i` on. -/
def packEvents (p : Fin 4) (word : Nat → Word) (k i : Nat) : List Event :=
  (List.range k).map fun j => .regWrite p (.w (Fin.ofNat 16 (i + j))) (word (i + j))

theorem packEvents_succ (p : Fin 4) (word : Nat → Word) (k i : Nat) :
    packEvents p word (k + 1) i = .regWrite p (.w (Fin.ofNat 16 i)) (word i) :: packEvents p word k (i + 1) := by
  simp only [packEvents, List.range_succ_eq_map, List.map_cons, List.map_map, Nat.add_zero]
  congr 1
  apply List.map_congr_left
  intro j _
  simp [Nat.add_assoc, Nat.add_comm 1 j]

theorem writeReg_eq (s : State) (p : Fin 4) (f : RegField) (v : Word) :
    s.writeReg p f v =
      { s with periphs := s.periphs.set p ((s.periph p).put f v) p.isLt, trace := s.trace ++ [.regWrite p f v] } := rfl

theorem put_w (r : PeriphRegs) (i : Fin 16) (v : Word) : r.put (.w i) v = { r with w := r.w.set i v i.isLt } := rfl

theorem packFrom_eq (p : Fin 4) (src : OutSrc) (off n k i : Nat) (s : State) :
    packFrom p src off n k i s =
      { s with
        periphs := s.periphs.set p { s.periph p with w := packW (s.packWord src off n) k i (s.periph p).w } p.isLt
        trace := s.trace ++ packEvents p (s.packWord src off n) k i } := by
  induction k generalizing i s with
  | zero =>
    have : s.periphs.set p (s.periph p) p.isLt = s.periphs := by
      simp [State.periph, Vector.get_eq_getElem]
    simp only [packFrom, packEvents, List.range_zero, List.map_nil, List.append_nil, packW]
    rw [this]
  | succ k ih =>
    rw [packFrom, ih, packEvents_succ]
    have hw : (s.writeReg p (.w (Fin.ofNat 16 i)) (s.packWord src off n i)).packWord src off n = s.packWord src off n := by
      funext j; cases src <;> rfl
    rw [hw, periph_writeReg_self, writeReg_eq]
    simp only [packW, put_w, Vector.set_set, List.append_assoc, List.singleton_append]

/-- The word registers after a pack. -/
theorem packW_getD (word : Nat → Word) (k i j : Nat) (w : Vector Word 16) (hk : i + k ≤ 16) (hj : j < 16) :
    (packW word k i w).getD j 0 = if i ≤ j ∧ j < i + k then word j else w.getD j 0 := by
  induction k generalizing i w with
  | zero => rw [packW, if_neg (by omega)]
  | succ k ih =>
    rw [packW, ih (i + 1) _ (by omega)]
    have hi : i % 16 = i := Nat.mod_eq_of_lt (by omega)
    by_cases h : i = j
    · subst h
      rw [if_neg (by omega), if_pos (by omega)]
      simp [Vector.getD, hj, hi]
    · by_cases h2 : i + 1 ≤ j ∧ j < i + 1 + k
      · rw [if_pos h2, if_pos (by omega)]
      · rw [if_neg h2, if_neg (by omega)]
        simp [Vector.getD, hj, hi, h]

/-- Byte `b` of a word built from four bytes. -/
theorem wordOfBytes_byte (a b c d : Byte) (k : Nat) (hk : k < 4) :
    (wordOfBytes a b c d).extractLsb' (8 * k) 8 = [a, b, c, d].getD k 0 := by
  have : ∀ i, i < 8 → ((wordOfBytes a b c d).extractLsb' (8 * k) 8).getLsbD i = ([a, b, c, d].getD k 0).getLsbD i := by
    intro i hi
    simp only [wordOfBytes, BitVec.getLsbD_extractLsb', hi, decide_true, Bool.true_and, BitVec.getLsbD_append]
    interval_cases k
    · simp [hi]
    · simp [show ¬8 + i < 8 by omega, hi]
    · simp [show ¬16 + i < 8 by omega, show ¬16 + i - 8 < 8 by omega, show 16 + i - 8 - 8 = i by omega, hi]
    · simp [show ¬24 + i < 8 by omega, show ¬24 + i - 8 < 8 by omega, show ¬24 + i - 8 - 8 < 8 by omega,
        show 24 + i - 8 - 8 - 8 = i by omega]
  exact BitVec.eq_of_getLsbD_eq fun i hi => this i hi

/-- Byte `k` of a packed buffer is byte `k` of the chunk (R173, R61). -/
theorem bufByte_packW (s : State) (src : OutSrc) (off n k : Nat) (w : Vector Word 16) (hn : n ≤ 64) (hk : k < n) :
    bufByte (packW (s.packWord src off n) ((n + 3) / 4) 0 w) k = s.outByte src (off + k) := by
  rw [bufByte, packW_getD _ _ _ _ _ (by omega) (by omega), if_pos (by omega), State.packWord,
    wordOfBytes_byte _ _ _ _ _ (by omega)]
  have hm : k % 4 < 4 := by omega
  have he : 4 * (k / 4) + k % 4 = k := by omega
  generalize hb : k % 4 = b at *
  interval_cases b
  · simp [show 4 * (k / 4) < n by omega]; congr 1; omega
  · simp [show 4 * (k / 4) + 1 < n by omega]; congr 1; omega
  · simp [show 4 * (k / 4) + 2 < n by omega]; congr 1; omega
  · simp [show 4 * (k / 4) + 3 < n by omega]; congr 1; omega

/-! ## A chunk on a ready peripheral -/

/-- The bytes of a chunk. -/
def chunkOut (s : State) (src : OutSrc) (off n : Nat) : List Byte := (List.range n).map fun k => s.outByte src (off + k)

/-- The registers after pack and lengths. -/
def triggeredFile (s : State) (p : Fin 4) (src : OutSrc) (off n : Nat) : RegFile :=
  { (s.periph p).toRegFile with
    w := packW (s.packWord src off n) ((n + 3) / 4) 0 (s.periph p).w
    mosiDlen := (BitVec.ofNat 32 (8 * n - 1)).setWidth 24
    misoDlen := (BitVec.ofNat 32 (8 * n - 1)).setWidth 24 }

/-- A peripheral after pack, lengths and trigger: the transaction in flight is on the registers as they stand. -/
def triggered (s : State) (p : Fin 4) (src : OutSrc) (off n : Nat) : PeriphRegs :=
  { triggeredFile s p src off n with flight := some (triggeredFile s p src off n) }

/-- The events of pack, lengths and trigger (R172). -/
def triggerEvents (s : State) (p : Fin 4) (src : OutSrc) (off n : Nat) : List Event :=
  packEvents p (s.packWord src off n) ((n + 3) / 4) 0 ++
    [.regWrite p .mosiDlen (BitVec.ofNat 32 (8 * n - 1)), .regWrite p .misoDlen (BitVec.ofNat 32 (8 * n - 1)),
      .regWrite p .cmdUsr 1]

/-- The state after pack, lengths and trigger. -/
def triggeredState (s : State) (p : Fin 4) (src : OutSrc) (off n : Nat) : State :=
  { s with
    periphs := s.periphs.set p (triggered s p src off n) p.isLt
    trace := s.trace ++ triggerEvents s p src off n }

theorem triggeredState_periph (s : State) (p : Fin 4) (src : OutSrc) (off n : Nat) :
    (triggeredState s p src off n).periph p = triggered s p src off n := Vector.getElem_set_self p.isLt

/-- Pack, lengths and trigger write registers and nothing else. -/
theorem pack_trigger_frame (p : Fin 4) (src : OutSrc) (off n m : Nat) (s : State) :
    (pack p src off n s).trigger p m = { s with
      periphs := ((pack p src off n s).trigger p m).periphs, trace := ((pack p src off n s).trigger p m).trace } := by
  rw [State.trigger, pack, packFrom_eq]
  rfl

theorem pack_trigger_eq {p : Fin 4} (src : OutSrc) (off n : Nat) {s : State} (h : s.busy p = false) :
    (pack p src off n s).trigger p n = triggeredState s p src off n := by
  have h' : (s.periph p).flight = none := by simpa [State.busy, PeriphRegs.usr] using h
  rw [State.periph, Vector.get_eq_getElem] at h'
  rw [State.trigger, pack, packFrom_eq]
  simp only [writeReg_eq]
  simp only [State.periph, Vector.get_eq_getElem, Vector.getElem_set_self, Vector.set_set, PeriphRegs.put,
    List.append_assoc, triggerEvents, triggeredState]
  simp [triggered, triggeredFile, PeriphRegs.start, PeriphRegs.usr, RegFile.put, State.periph, Vector.get_eq_getElem, h']

theorem triggered_dlen (s : State) (p : Fin 4) (src : OutSrc) (off n : Nat) (h1 : 1 ≤ n) (hn : n ≤ 64) :
    (triggeredFile s p src off n).mosiDlen.toNat + 1 = 8 * n ∧ (triggeredFile s p src off n).misoDlen.toNat + 1 = 8 * n := by
  have : ((BitVec.ofNat 32 (8 * n - 1)).setWidth 24 : BitVec 24).toNat = 8 * n - 1 := by
    rw [BitVec.toNat_setWidth, BitVec.toNat_ofNat, Nat.mod_eq_of_lt, Nat.mod_eq_of_lt] <;> omega
  simp only [triggeredFile, this]
  omega

/-- Bits sent by a chunk of `n` bytes. -/
def chunkNout (r : PeriphRegs) (n : Nat) : Nat := if r.usrMosi then 8 * n else 0

/-- Bits received by a chunk of `n` bytes. -/
def chunkNin (r : PeriphRegs) (n : Nat) : Nat := if r.usrMiso then 8 * n else 0

theorem triggered_nout (s : State) (p : Fin 4) (src : OutSrc) (off n : Nat) (h1 : 1 ≤ n) (hn : n ≤ 64) :
    (triggeredFile s p src off n).nout = chunkNout (s.periph p) n := by
  rw [RegFile.nout, (triggered_dlen s p src off n h1 hn).1]; rfl

theorem triggered_nin (s : State) (p : Fin 4) (src : OutSrc) (off n : Nat) (h1 : 1 ≤ n) (hn : n ≤ 64) :
    (triggeredFile s p src off n).nin = chunkNin (s.periph p) n := by
  rw [RegFile.nin, (triggered_dlen s p src off n h1 hn).2]; rfl

/-- The bits a chunk sends: its bytes in order, most significant bit first, when the transmit phase is enabled. -/
theorem triggered_outbits (s : State) (p : Fin 4) (src : OutSrc) (off n : Nat) (h1 : 1 ≤ n) (hn : n ≤ 64) :
    (triggeredFile s p src off n).outbits =
      if (s.periph p).usrMosi then bitsOf (chunkOut s src off n) else [] := by
  rw [RegFile.outbits, triggered_nout s p src off n h1 hn, chunkNout]
  split
  · rw [map_wbit]
    congr 1
    apply List.map_congr_left
    intro k hk
    exact bufByte_packW s src off n k _ hn (List.mem_range.1 hk)
  · rfl

/-- The bits the line answers to a chunk. -/
def chunkIn (s : State) (p : Fin 4) (src : OutSrc) (off n : Nat) : List Bool :=
  s.lineBits (if (s.periph p).usrMosi then bitsOf (chunkOut s src off n) else []) (chunkNin (s.periph p) n)

/-- The state after a chunk of `n` bytes on a ready peripheral. -/
def afterChunk (p : Fin 4) (src : OutSrc) (dst : InDst) (n : Nat) (s : State) : State :=
  ({ s with
      periphs := s.periphs.set p
        { triggered s p src s.off n with
          w := storeReceived (chunkIn s p src s.off n) (chunkNin (s.periph p) n) (triggered s p src s.off n).w
          flight := none } p.isLt
      line := { s.line with script := s.line.script.tail }
      draws := s.draws + chunkNin (s.periph p) n
      trace := s.trace ++ triggerEvents s p src s.off n ++
        [.xfer p (s.periph p).cfg (chunkNout (s.periph p) n)
          (if (s.periph p).usrMosi then bitsOf (chunkOut s src s.off n) else [])
          (chunkNin (s.periph p) n) (chunkIn s p src s.off n)] } : State).chunkEnd p dst n

theorem waitIdle_idle {p : Fin 4} {s : State} (h : s.busy p = false) : waitIdle p s = .run s := by
  simp [waitIdle, h]

/-- What a chunk does on a ready peripheral. -/
theorem chunk_ready {p : Fin 4} {len : Nat} {src : OutSrc} {dst : InDst} {s : State} (h : periphReady s p)
    (hl : s.off < len) :
    chunk p len src dst s = .run (afterChunk p src dst (s.chunkLen len) s) := by
  obtain ⟨⟨hb, hs⟩, hm, hw, hr, hp⟩ := h
  have hn1 : 1 ≤ s.chunkLen len := by unfold State.chunkLen; omega
  have hn64 : s.chunkLen len ≤ 64 := by unfold State.chunkLen; omega
  rw [chunk, waitIdle_idle hb, andThen_run, pack_trigger_eq _ _ _ hb]
  generalize hn : s.chunkLen len = n at *
  have hper := triggeredState_periph s p src s.off n
  have hfl : ((triggeredState s p src s.off n).periph p).flight = some (triggeredFile s p src s.off n) := by rw [hper]; rfl
  have hbusy : (triggeredState s p src s.off n).busy p = true := by rw [State.busy, PeriphRegs.usr, hfl]; rfl
  have hns : ¬(triggeredState s p src s.off n).params.isStuck p = true := by
    show ¬s.params.isStuck p = true
    simp [hs]
  rw [waitIdle, if_pos hbusy, if_neg hns, shifter, hfl]
  simp only
  rw [if_pos]
  · rw [andDo_run]
    congr 1
    rw [afterChunk, State.transact]
    simp only [hper]
    rw [triggered_nin s p src s.off n hn1 hn64, triggered_nout s p src s.off n hn1 hn64,
      triggered_outbits s p src s.off n hn1 hn64]
    simp only [State.setPeriph, State.emit, State.lineNext, triggeredState, Vector.set_set]
    rfl
  · have h1 := triggered_nout s p src s.off n hn1 hn64
    have h2 := triggered_nin s p src s.off n hn1 hn64
    simp only [RegFile.shiftable, h1, h2]
    have e1 : (triggeredFile s p src s.off n).slaveMode = false := hm
    have e2 : (triggeredFile s p src s.off n).wrBitOrder = false := hw
    have e3 : (triggeredFile s p src s.off n).rdBitOrder = false := hr
    have e4 : (triggeredFile s p src s.off n).usrMosi = true := hp.1
    have e5 : (triggeredFile s p src s.off n).usrMiso = true := hp.2
    simp only [e1, e2, e3, e4, e5, chunkNout, chunkNin]
    split <;> split <;> simp <;> omega

end Sys2Proof.Machine.Laws
end

