-- ==== Sys2Proof/Laws/Transfer.lean ====
section
/-! SUPPORT. A whole transfer on a peripheral that is ready: what state it leaves, what it puts on the wire, where the
received bytes go. -/

namespace Sys2Proof.Machine.Laws

open Sys2Proof.Safety

/-- Two register blocks differ at most in the word registers, the lengths and the busy flag. -/
def dataOnly (r r' : PeriphRegs) : Prop :=
  r' = { r with w := r'.w, flight := r'.flight, mosiDlen := r'.mosiDlen, misoDlen := r'.misoDlen }

theorem dataOnly_refl (r : PeriphRegs) : dataOnly r r := rfl

theorem dataOnly_trans {a b c : PeriphRegs} (h1 : dataOnly a b) (h2 : dataOnly b c) : dataOnly a c := by
  unfold dataOnly at *
  rw [h2, h1]

theorem dataOnly_shiftRule {r r' : PeriphRegs} (h : dataOnly r r') (hm : shiftRule r) : shiftRule r' := by
  unfold dataOnly at h
  rw [h]; exact hm

theorem dataOnly_bothPhases {r r' : PeriphRegs} (h : dataOnly r r') (hm : bothPhases r) : bothPhases r' := by
  unfold dataOnly at h
  rw [h]; exact hm

theorem dataOnly_cfg {r r' : PeriphRegs} (h : dataOnly r r') : r'.cfg = r.cfg := by
  unfold dataOnly at h
  rw [h]; rfl

theorem dataOnly_reflects {r r' : PeriphRegs} (h : dataOnly r r') (rec : UnitRec) :
    reflects r' rec ↔ reflects r rec := by
  unfold dataOnly at h
  rw [h]; rfl

/-- A store into a peripheral, seen from every peripheral. -/
theorem periph_set (s t : State) (p q : Fin 4) (r : PeriphRegs) (h : t.periphs = s.periphs.set p r p.isLt) :
    t.periph q = if q = p then r else s.periph q := by
  unfold State.periph
  rw [h]
  split
  · next e => subst e; exact Vector.getElem_set_self q.isLt
  · next e => exact Vector.getElem_set_ne p.isLt q.isLt fun x => e (Fin.ext x.symm)

/-- The transactions of some chunks: for each its bits sent and received. -/
abbrev Exchanges := List (List Bool × List Bool)

/-- The bits sent, in order. -/
def sentOf (w : Exchanges) : List Bool := w.flatMap (·.1)

/-- The bits received, in order. -/
def recvOf (w : Exchanges) : List Bool := w.flatMap (·.2)

/-- Events that put exactly the given transactions on the wire and change no pin level. -/
def Carries (es : List Event) (w : Exchanges) : Prop :=
  ∀ dc level es', wireLog dc level (es ++ es') = w.map (fun x => ⟨level, x.1, x.2⟩) ++ wireLog dc level es'

theorem Carries.nil : Carries [] [] := fun _ _ _ => rfl

theorem Carries.append {e1 e2 : List Event} {w1 w2 : Exchanges} (h1 : Carries e1 w1) (h2 : Carries e2 w2) :
    Carries (e1 ++ e2) (w1 ++ w2) := by
  intro dc level es'
  rw [List.append_assoc, h1, h2, List.map_append, List.append_assoc]

theorem Carries.packEvents (p : Fin 4) (word : Nat → Word) (k i : Nat) : Carries (packEvents p word k i) [] := by
  induction k generalizing i with
  | zero => exact Carries.nil
  | succ k ih =>
    rw [packEvents_succ]
    intro dc level es'
    have := ih (i + 1) dc level es'
    simpa [wireLog] using this

theorem Carries.triggerEvents (s : State) (p : Fin 4) (src : OutSrc) (off n : Nat) :
    Carries (triggerEvents s p src off n) [] :=
  (Carries.packEvents p _ _ _).append (w2 := []) fun _ _ _ => rfl

/-- The caller's memory after bytes were received at offset `off` of a buffer. -/
def storedMem (dst : InDst) (off : Nat) (bs : List Byte) (s : State) : Memory :=
  match dst with
  | .mem base => s.mem.writeBytes (base + off) bs
  | .drop => s.mem
  | .staging => s.mem

/-- The staging buffer after bytes were received at its offset `off`. -/
def storedStaging (dst : InDst) (off : Nat) (bs : List Byte) (s : State) : Option (List Byte) :=
  match dst with
  | .staging => if bs = [] then s.staging else some (s.raw.take off ++ bs ++ s.raw.drop (off + bs.length))
  | .drop => s.staging
  | .mem _ => s.staging

theorem writeBytes_append (m : Memory) (a : Nat) (x y : List Byte) :
    (m.writeBytes a x).writeBytes (a + x.length) y = m.writeBytes a (x ++ y) := by
  induction x generalizing m a with
  | nil => rfl
  | cons b x ih =>
    rw [Memory.writeBytes, List.length_cons, List.cons_append, Memory.writeBytes, ← ih]
    congr 1; omega

/-- Storing in two parts is storing once. -/
theorem storedMem_trans {dst : InDst} {off : Nat} {x y : List Byte} {s t : State} (h : t.mem = storedMem dst off x s) :
    storedMem dst (off + x.length) y t = storedMem dst off (x ++ y) s := by
  cases dst with
  | drop => exact h
  | staging => exact h
  | mem base =>
    simp only [storedMem] at *
    rw [h, ← Nat.add_assoc]
    exact writeBytes_append _ _ _ _

/-- The same for the staging buffer, when the first part begins inside it. -/
theorem storedStaging_trans {dst : InDst} {off : Nat} {x y : List Byte} {s t : State}
    (h : t.staging = storedStaging dst off x s) (hl : dst = .staging → off ≤ s.raw.length) :
    storedStaging dst (off + x.length) y t = storedStaging dst off (x ++ y) s := by
  cases dst with
  | drop => exact h
  | mem base => exact h
  | staging =>
    have hl := hl rfl
    simp only [storedStaging] at h ⊢
    by_cases hx : x = []
    · subst hx
      simp only [if_true] at h
      simp only [List.nil_append, List.length_nil, Nat.add_zero]
      rw [h, State.raw, State.raw, h]
    · rw [if_neg hx] at h
      have hr : t.raw = s.raw.take off ++ x ++ s.raw.drop (off + x.length) := by rw [State.raw, h]; rfl
      by_cases hy : y = []
      · subst hy
        simp only [List.append_nil, if_true, if_neg hx]
        exact h
      · have hxy : x ++ y ≠ [] := by simp [hx]
        rw [if_neg hy, if_neg hxy, hr]
        have htl : (s.raw.take off ++ x).length = off + x.length := by simp; omega
        congr 1
        rw [List.take_append_of_le_length (by rw [htl]), List.take_of_length_le (by rw [htl])]
        rw [List.drop_append, htl, List.drop_of_length_le (by rw [htl]; omega)]
        simp only [List.nil_append, List.drop_drop, List.length_append, List.append_assoc]
        congr 3
        congr 1
        omega

/-- The registers a transfer writes. -/
def dataField : RegField → Bool
  | .w _ | .cmdUsr | .mosiDlen | .misoDlen => true
  | .clock | .ctrlWrBitOrder | .ctrlRdBitOrder | .userDoutdin | .userUsrMosi | .userUsrMiso | .userCsSetup | .userCsHold
  | .userCkPhase | .pinCkIdle | .slaveMode => false

/-- The events of the chunk loop on peripheral `p`: writes of word registers, lengths and trigger, and transactions. -/
def dataEvent (p : Fin 4) : Event → Bool
  | .regWrite q f _ => q == p && dataField f
  | .xfer q _ _ _ _ _ => q == p
  | .pinLevel _ _ | .pinDir _ _ | .pinPull _ _ | .pinFunc _ _ | .routeIn _ _ | .routeOut _ _ | .delay _
  | .irqOff | .irqOn | .suspendAll | .resumeAll | .lockAcquire _ _ => false

/-- The events of the chunks of a transfer, one after the other (R172). -/
def chunkTrace (p : Fin 4) (cfg : XferCfg) : List Byte → Exchanges → List Event
  | _, [] => []
  | bs, x :: w => chunkEvents p cfg (bs.take 64) ⟨false, x.1, x.2⟩ ++ chunkTrace p cfg (bs.drop 64) w

/-- The events of the chunks, each by its number. -/
theorem chunkTrace_range (p : Fin 4) (cfg : XferCfg) (level : Bool) (bs : List Byte) (w : Exchanges) :
    chunkTrace p cfg bs w = (List.range w.length).flatMap fun i =>
      chunkEvents p cfg (chunkOf bs i) ((w.map fun x => (⟨level, x.1, x.2⟩ : WireXfer)).getD i ⟨false, [], []⟩) := by
  induction w generalizing bs with
  | nil => rfl
  | cons x w ih =>
    have hd : ∀ i, chunkOf bs (i + 1) = chunkOf (bs.drop 64) i := by
      intro i
      rw [chunkOf, chunkOf, List.drop_drop, Nat.mul_add, Nat.add_comm]
    rw [chunkTrace, ih, List.length_cons, List.range_succ_eq_map, List.flatMap_cons, List.flatMap_map]
    simp only [List.map_cons, List.getD_cons_succ, List.getD_cons_zero, hd]
    rfl

theorem wordOfBytes_halves (a b c d : Byte) :
    wordOfBytes a b c d = ((d ++ c : BitVec 16) ++ (b ++ a : BitVec 16) : BitVec 32) := BitVec.append_assoc ..

/-- A packed word is four bytes of the chunk (R173). -/
theorem packWord_chunkOut (s : State) (src : OutSrc) (off n i : Nat) :
    s.packWord src off n i = chunkWord (chunkOut s src off n) i := by
  have hb : ∀ k, (chunkOut s src off n).getD k 0 = if k < n then s.outByte src (off + k) else 0 := by
    intro k
    by_cases hk : k < n <;> simp [chunkOut, List.getD, hk]
  rw [State.packWord, wordOfBytes_halves, chunkWord, hb, hb, hb, hb]
  rfl

/-- The events of one chunk are its trigger's and its transaction. -/
theorem chunkEvents_eq (s : State) (p : Fin 4) (src : OutSrc) (off n : Nat) (cfg : XferCfg) (o i : List Bool) (l : Bool) :
    triggerEvents s p src off n ++ [.xfer p cfg (8 * n) o (8 * n) i] = chunkEvents p cfg (chunkOut s src off n) ⟨l, o, i⟩ := by
  simp only [triggerEvents, packEvents, chunkEvents, packWord_chunkOut, Nat.zero_add, List.append_assoc, chunkOut,
    List.length_map, List.length_range]
  rfl

/-- What some chunks of a transfer do on a ready peripheral, from byte `s.off` to byte `t.off`. -/
structure Chunked (p : Fin 4) (src : OutSrc) (dst : InDst) (len : Nat) (s t : State) (es : List Event)
    (w : Exchanges) : Prop where
  /-- everything else is as it was -/
  frame : t = { s with
    periphs := t.periphs, off := len, staging := t.staging, mem := t.mem, line := t.line, draws := t.draws,
    trace := s.trace ++ es }
  others : ∀ q, q ≠ p → t.periph q = s.periph q
  config : dataOnly (s.periph p) (t.periph p)
  idle : t.busy p = false
  loopback : t.line.loopback = s.line.loopback
  script : t.line.script = s.line.script.drop w.length
  carries : Carries es w
  events : ∀ e ∈ es, dataEvent p e = true
  count : w.length = chunkCount (len - s.off)
  trace : bothPhases (s.periph p) → es = chunkTrace p (s.periph p).cfg (chunkOut s src s.off (len - s.off)) w
  /-- with both phases enabled, the bytes of the buffer go out and as many come in -/
  sent : bothPhases (s.periph p) → sentOf w = bitsOf (chunkOut s src s.off (len - s.off))
  received : bothPhases (s.periph p) → (recvOf w).length = 8 * (len - s.off)
  shape : bothPhases (s.periph p) → ∀ i, (h : i < w.length) →
    w[i].1.length = 8 * min 64 (len - s.off - 64 * i) ∧ w[i].2.length = 8 * min 64 (len - s.off - 64 * i)
  looped : bothPhases (s.periph p) → s.line.script = [] → s.line.loopback = true → ∀ x ∈ w, x.2 = x.1
  mem : bothPhases (s.periph p) → t.mem = storedMem dst s.off (bytesOf (recvOf w)) s
  staging : bothPhases (s.periph p) → (dst = .staging → s.off ≤ s.raw.length) →
    t.staging = storedStaging dst s.off (bytesOf (recvOf w)) s

/-- The buffers of a transfer of `len` bytes are the same place or apart (R68). -/
def apart (len : Nat) : OutSrc → InDst → Prop
  | .mem a, .mem b => a = b ∨ a + len ≤ b ∨ b + len ≤ a
  | _, _ => True

theorem chunkLen_pos {s : State} {len : Nat} (h : s.off < len) : 1 ≤ s.chunkLen len := by
  unfold State.chunkLen; omega

theorem chunkLen_le (s : State) (len : Nat) : s.chunkLen len ≤ 64 := by unfold State.chunkLen; omega

@[simp] theorem chunkOut_length (s : State) (src : OutSrc) (off n : Nat) : (chunkOut s src off n).length = n := by
  simp [chunkOut]

@[simp] theorem lineBits_length (s : State) (o : List Bool) (n : Nat) : (s.lineBits o n).length = n := by
  simp [State.lineBits]

theorem bytesOf_length (bits : List Bool) : (bytesOf bits).length = bits.length / 8 := by simp [bytesOf]

/-- Streams of whole bytes are cut into bytes part by part. -/
theorem bytesOf_append (a b : List Bool) (n : Nat) (h : a.length = 8 * n) : bytesOf (a ++ b) = bytesOf a ++ bytesOf b := by
  apply List.ext_getElem
  · simp only [bytesOf_length, List.length_append]; omega
  · intro k h1 h2
    have hk : k < (a.length + b.length) / 8 := by simpa [bytesOf_length] using h1
    simp only [bytesOf, List.getElem_map, List.getElem_range, List.getElem_append, List.length_map, List.length_range]
    have hb : ∀ j, j < 8 → (byteAt (a ++ b) k).getLsbD j = (if h : k < n then byteAt a k else byteAt b (k - n)).getLsbD j := by
      intro j hj
      rw [getLsbD_byteAt _ _ _ hj]
      split
      · next hn =>
        rw [getLsbD_byteAt _ _ _ hj, List.getD_append _ _ _ _ (by omega)]
      · next hn =>
        rw [getLsbD_byteAt _ _ _ hj, List.getD_append_right _ _ _ _ (by omega)]
        congr 1; omega
    have he := BitVec.eq_of_getLsbD_eq (fun j hj => hb j hj)
    rw [he]
    have hn : a.length / 8 = n := by omega
    by_cases hkn : k < n
    · rw [dif_pos hkn, dif_pos (by omega)]
    · rw [dif_neg hkn, dif_neg (by omega)]
      congr 1; omega

/-- One chunk on a ready peripheral. -/
theorem afterChunk_spec {p : Fin 4} {src : OutSrc} {dst : InDst} {len : Nat} {s : State} (hl : s.off < len) :
    ∃ es w, Chunked p src dst (s.off + s.chunkLen len) s (afterChunk p src dst (s.chunkLen len) s) es w := by
  have h1 := chunkLen_pos hl
  have h64 := chunkLen_le s len
  generalize s.chunkLen len = n at *
  refine ⟨triggerEvents s p src s.off n ++ [.xfer p (s.periph p).cfg (chunkNout (s.periph p) n)
          (if (s.periph p).usrMosi then bitsOf (chunkOut s src s.off n) else [])
          (chunkNin (s.periph p) n) (chunkIn s p src s.off n)],
    [(if (s.periph p).usrMosi then bitsOf (chunkOut s src s.off n) else [], chunkIn s p src s.off n)], ?_⟩
  have hsub : s.off + n - s.off = n := by omega
  let r : PeriphRegs := { triggered s p src s.off n with
    w := storeReceived (chunkIn s p src s.off n) (chunkNin (s.periph p) n) (triggered s p src s.off n).w
    flight := none }
  have hper : ∀ q, (afterChunk p src dst n s).periph q =
      if q = p then r else s.periph q := by
    intro q
    refine periph_set s _ p q _ ?_
    cases dst <;> rfl
  have hin : bothPhases (s.periph p) → (chunkIn s p src s.off n).length = 8 * n := by
    intro hb; simp [chunkIn, chunkNin, hb.2]
  have hbytes : bothPhases (s.periph p) → ∀ t : State, t.periph p = r →
      t.chunkBytes p n = bytesOf (chunkIn s p src s.off n) := by
    intro hb t ht
    rw [State.chunkBytes, ht, bytesOf, hin hb]
    rw [show 8 * n / 8 = n by omega]
    apply List.map_congr_left
    intro k hk
    have hk := List.mem_range.1 hk
    apply bufByte_storeReceived _ _ _ _ (by omega)
    simp only [chunkNin, hb.2, if_true]; omega
  have hpp : ∀ (l : Line) (d : Nat) (tr : List Event),
      ({ s with periphs := s.periphs.set p r p.isLt, line := l, draws := d, trace := tr } : State).periph p = r :=
    fun l d tr => Vector.getElem_set_self p.isLt
  have hrec : recvOf [(if (s.periph p).usrMosi then bitsOf (chunkOut s src s.off n) else [], chunkIn s p src s.off n)]
      = chunkIn s p src s.off n := by simp [recvOf]
  constructor
  case frame =>
    rw [← List.append_assoc]
    cases dst <;> rfl
  case others => intro q hq; rw [hper, if_neg hq]
  case config => rw [hper, if_pos rfl]; rfl
  case idle => rw [State.busy, hper, if_pos rfl]; rfl
  case loopback => cases dst <;> rfl
  case script => cases dst <;> simp [afterChunk, State.chunkEnd, State.storeIn]
  case carries =>
    refine (Carries.triggerEvents s p src s.off n).append (w1 := []) ?_
    intro dc level es'
    rfl
  case events =>
    intro e he
    simp only [triggerEvents, packEvents, List.mem_append, List.mem_map, List.mem_cons, List.not_mem_nil, or_false] at he
    rcases he with (⟨j, _, rfl⟩ | rfl | rfl | rfl) | rfl <;> simp [dataEvent, dataField]
  case count => simp only [hsub, chunkCount, List.length_singleton]; omega
  case trace =>
    intro hb
    simp only [chunkNout, chunkNin, hb.1, hb.2, if_true, hsub, chunkTrace, List.append_nil]
    rw [List.take_of_length_le (by simpa using h64)]
    exact chunkEvents_eq ..
  case sent =>
    intro hb
    simp [sentOf, hb.1, hsub]
  case received =>
    intro hb
    simp [recvOf, chunkIn, chunkNin, hb.2, hsub]
  case shape =>
    intro hb i hi
    simp only [List.length_singleton] at hi
    obtain rfl : i = 0 := by omega
    simp only [List.getElem_singleton, hb.1, if_true, bitsOf_length, chunkOut_length, chunkIn, lineBits_length, chunkNin,
      hb.2, hsub]
    omega
  case looped =>
    intro hb hs hlp x hx
    simp only [List.mem_singleton] at hx
    subst hx
    simp only [hb.1, if_true, chunkIn, chunkNin, hb.2, State.lineBits, Line.answer, hs, hlp]
    apply List.ext_getElem
    · simp
    · intro k hk1 hk2
      simp only [List.getElem_map, List.getElem_range]
      exact List.getD_eq_getElem _ _ hk2
  case mem =>
    intro hb
    rw [hrec]
    cases dst with
    | drop => rfl
    | staging => rfl
    | mem base =>
      simp only [afterChunk, State.chunkEnd, State.storeIn, storedMem]
      rw [hbytes hb _ (hpp _ _ _)]
  case staging =>
    intro hb _
    rw [hrec]
    cases dst with
    | drop => rfl
    | mem base => rfl
    | staging =>
      have hne : bytesOf (chunkIn s p src s.off n) ≠ [] := by
        intro h
        have := congrArg List.length h
        simp only [bytesOf_length, hin hb, List.length_nil] at this
        omega
      simp only [storedStaging, if_neg hne]
      simp only [afterChunk, State.chunkEnd, State.storeIn]
      rw [hbytes hb _ (hpp _ _ _)]
      rfl

theorem chunkOut_append (s : State) (src : OutSrc) (off a b : Nat) :
    chunkOut s src off (a + b) = chunkOut s src off a ++ chunkOut s src (off + a) b := by
  simp [chunkOut, List.range_add, Nat.add_assoc]

/-- What is still to be sent is not touched by what was received, when the buffers are the same place or apart. -/
theorem chunkOut_of_stored {s t : State} {src : OutSrc} {dst : InDst} {off len : Nat} {bs : List Byte}
    (hm : t.mem = storedMem dst off bs s) (ha : apart len src dst) (hl : off + bs.length ≤ len) :
    chunkOut t src (off + bs.length) (len - (off + bs.length)) = chunkOut s src (off + bs.length) (len - (off + bs.length)) := by
  apply List.map_congr_left
  intro k hk
  have hk := List.mem_range.1 hk
  cases src with
  | filler => rfl
  | bytes bs => rfl
  | mem a =>
    simp only [State.outByte]
    cases dst with
    | drop => simp only [storedMem] at hm; rw [hm]
    | staging => simp only [storedMem] at hm; rw [hm]
    | mem b =>
      simp only [storedMem, apart] at hm ha
      rw [hm, read_writeBytes_of_outside]
      omega

/-- The bytes of the first part of a transfer end where its second part begins. -/
theorem Chunked.trans {p : Fin 4} {src : OutSrc} {dst : InDst} {mid len : Nat} {s t u : State} {e1 e2 : List Event}
    {w1 w2 : Exchanges} (h1 : Chunked p src dst mid s t e1 w1) (h2 : Chunked p src dst len t u e2 w2)
    (hs : s.off < mid) (hm : mid ≤ len) (hfull : mid = s.off + 64 ∨ mid = len) (hle : mid ≤ s.off + 64)
    (ha : apart len src dst) :
    Chunked p src dst len s u (e1 ++ e2) (w1 ++ w2) := by
  have htoff : t.off = mid := by rw [h1.frame]
  have hb' : bothPhases (s.periph p) → bothPhases (t.periph p) := dataOnly_bothPhases h1.config
  have hlen1 : bothPhases (s.periph p) → (bytesOf (recvOf w1)).length = mid - s.off := by
    intro hb
    rw [bytesOf_length, h1.received hb]; omega
  have hrecv : bothPhases (s.periph p) →
      bytesOf (recvOf (w1 ++ w2)) = bytesOf (recvOf w1) ++ bytesOf (recvOf w2) := by
    intro hb
    rw [recvOf, List.flatMap_append]
    exact bytesOf_append _ _ (mid - s.off) (h1.received hb)
  have hrest : bothPhases (s.periph p) → chunkOut t src mid (len - mid) = chunkOut s src mid (len - mid) := by
    intro hb
    have := chunkOut_of_stored (h1.mem hb) ha (by rw [hlen1 hb]; omega)
    rwa [hlen1 hb, show s.off + (mid - s.off) = mid by omega] at this
  constructor
  case frame =>
    rw [h2.frame]
    have hf := h1.frame
    have f1 : t.params = s.params := by rw [hf]
    have f2 : t.units = s.units := by rw [hf]
    have f3 : t.last = s.last := by rw [hf]
    have f4 : t.pins = s.pins := by rw [hf]
    have f5 : t.inRoute = s.inRoute := by rw [hf]
    have f6 : t.locks = s.locks := by rw [hf]
    have f7 : t.irqDepth = s.irqDepth := by rw [hf]
    have f8 : t.suspendDepth = s.suspendDepth := by rw [hf]
    have f9 : t.trace = s.trace ++ e1 := by rw [hf]
    have f10 : t.task = s.task := by rw [hf]
    have f11 : t.others = s.others := by rw [hf]
    have f12 : t.sched = s.sched := by rw [hf]
    rw [f1, f2, f3, f4, f5, f6, f7, f8, f9, f10, f11, f12, List.append_assoc]
  case others => intro q hq; rw [h2.others q hq, h1.others q hq]
  case config => exact dataOnly_trans h1.config h2.config
  case idle => exact h2.idle
  case loopback => rw [h2.loopback, h1.loopback]
  case script => rw [h2.script, h1.script, List.drop_drop, List.length_append]
  case carries => exact h1.carries.append h2.carries
  case events =>
    intro e he
    rcases List.mem_append.1 he with he | he
    · exact h1.events e he
    · exact h2.events e he
  case count =>
    rw [List.length_append, h1.count, h2.count, htoff]
    simp only [chunkCount]; omega
  case trace =>
    intro hb
    have hh := h2.trace (hb' hb)
    rw [htoff, hrest hb, dataOnly_cfg h1.config] at hh
    rw [h1.trace hb, hh, show len - s.off = (mid - s.off) + (len - mid) by omega, chunkOut_append,
      show s.off + (mid - s.off) = mid by omega]
    have hc1 : w1.length = 1 := by rw [h1.count]; simp only [chunkCount]; omega
    obtain ⟨x, rfl⟩ := List.length_eq_one_iff.1 hc1
    have hl : (chunkOut s src s.off (mid - s.off)).length = mid - s.off := by simp
    simp only [chunkTrace, List.append_nil, List.cons_append, List.nil_append]
    rcases hfull with hf | hf
    · rw [List.take_append_of_le_length (by omega), List.drop_append_of_le_length (by omega),
        List.drop_of_length_le (by omega), List.nil_append]
    · have hc2 := h2.count
      rw [htoff, hf] at hc2
      have : w2 = [] := by
        rw [← List.length_eq_zero_iff, hc2]; simp [chunkCount]
      subst this
      have hz : chunkOut s src mid (len - mid) = [] := by rw [hf, Nat.sub_self]; rfl
      rw [hz, List.append_nil]; rfl
  case sent =>
    intro hb
    have hh := h2.sent (hb' hb)
    rw [htoff] at hh
    have hrest := hrest hb
    rw [sentOf, List.flatMap_append, show w1.flatMap (·.1) = sentOf w1 from rfl, show w2.flatMap (·.1) = sentOf w2 from rfl,
      h1.sent hb, hh, hrest, ← bitsOf_append]
    congr 1
    rw [show len - s.off = (mid - s.off) + (len - mid) by omega, chunkOut_append,
      show s.off + (mid - s.off) = mid by omega]
  case received =>
    intro hb
    have hh := h2.received (hb' hb)
    rw [htoff] at hh
    rw [recvOf, List.flatMap_append, List.length_append, show w1.flatMap (·.2) = recvOf w1 from rfl,
      show w2.flatMap (·.2) = recvOf w2 from rfl, h1.received hb, hh]
    omega
  case shape =>
    intro hb i hi
    have hc := h1.count
    rw [List.getElem_append]
    split
    · next h =>
      have := h1.shape hb i h
      have h0 : i = 0 := by simp only [chunkCount] at hc; omega
      subst h0
      rw [this.1, this.2]
      omega
    · next h =>
      have hi2 : i - w1.length < w2.length := by rw [List.length_append] at hi; omega
      have := h2.shape (hb' hb) (i - w1.length) hi2
      rw [this.1, this.2, htoff]
      have hw1 : w1.length = 1 := by rw [hc]; simp only [chunkCount]; omega
      rcases hfull with hf | hf
      · omega
      · have hc2 := h2.count
        rw [htoff, hf] at hc2
        simp [chunkCount] at hc2
        simp [hc2] at hi2
  case looped =>
    intro hb hsc hlp x hx
    rcases List.mem_append.1 hx with hx | hx
    · exact h1.looped hb hsc hlp x hx
    · exact h2.looped (hb' hb) (by rw [h1.script, hsc, List.drop_nil]) (by rw [h1.loopback]; exact hlp) x hx
  case mem =>
    intro hb
    rw [h2.mem (hb' hb), hrecv hb, ← storedMem_trans (h1.mem hb), hlen1 hb, htoff]
    congr 1; omega
  case staging =>
    intro hb hst
    have h1s := h1.staging hb hst
    rw [h2.staging (hb' hb), hrecv hb, ← storedStaging_trans h1s hst, hlen1 hb, htoff]
    · congr 1; omega
    · intro hd
      subst hd
      have := hst rfl
      rw [State.raw, h1s, htoff]
      simp only [storedStaging]
      have hne : bytesOf (recvOf w1) ≠ [] := by
        intro h
        have h3 := congrArg List.length h
        rw [hlen1 hb] at h3
        simp at h3; omega
      rw [if_neg hne]
      simp only [Option.getD_some, List.length_append, hlen1 hb, List.length_take]
      omega

theorem Chunked.refl (p : Fin 4) (src : OutSrc) (dst : InDst) (s : State) (h : s.busy p = false) :
    Chunked p src dst s.off s s [] [] where
  frame := by simp
  others _ _ := rfl
  config := rfl
  idle := h
  loopback := rfl
  script := rfl
  carries := Carries.nil
  events := by simp
  count := by simp [chunkCount]
  trace _ := rfl
  sent _ := by simp [sentOf, chunkOut, bitsOf]
  received _ := by simp [recvOf]
  shape _ i hi := by simp at hi
  looped _ _ _ := by simp
  mem _ := by cases dst <;> rfl
  staging _ _ := by cases dst <;> rfl

theorem Chunked.ready {p : Fin 4} {src : OutSrc} {dst : InDst} {len : Nat} {s t : State} {es : List Event}
    {w : Exchanges} (h : Chunked p src dst len s t es w) (hr : periphReady s p) : periphReady t p := by
  refine ⟨⟨h.idle, ?_⟩, dataOnly_shiftRule h.config hr.2⟩
  have : t.params = s.params := by rw [h.frame]
  rw [this]; exact hr.1.2

/-- All the chunks that are left, on a ready peripheral. -/
theorem chunks_ready {p : Fin 4} {len : Nat} {src : OutSrc} {dst : InDst} (ha : apart len src dst) (k : Nat) (s : State)
    (hr : periphReady s p) (hoff : s.off ≤ len) (hk : k = chunkCount (len - s.off)) :
    ∃ t es w, chunks p len src dst k s = .run t ∧ Chunked p src dst len s t es w := by
  induction k generalizing s with
  | zero =>
    have : s.off = len := by unfold chunkCount at hk; omega
    exact ⟨s, [], [], rfl, this ▸ Chunked.refl p src dst s hr.1.1⟩
  | succ k ih =>
    have hlt : s.off < len := by unfold chunkCount at hk; omega
    obtain ⟨e1, w1, h1⟩ := afterChunk_spec (p := p) (src := src) (dst := dst) hlt
    have hpos := chunkLen_pos hlt
    have h64 := chunkLen_le s len
    have hcl : s.chunkLen len = min 64 (len - s.off) := rfl
    have htoff : (afterChunk p src dst (s.chunkLen len) s).off = s.off + s.chunkLen len := by rw [h1.frame]
    obtain ⟨u, e2, w2, hu, h2⟩ := ih (afterChunk p src dst (s.chunkLen len) s) (h1.ready hr) (by rw [htoff]; omega)
      (by rw [htoff]; unfold chunkCount at *; omega)
    refine ⟨u, e1 ++ e2, w1 ++ w2, ?_, h1.trans h2 (by omega) (by omega) (by omega) (by omega) ha⟩
    rw [chunks, chunk_ready hr hlt, andThen_run, hu]

/-- A whole transfer on a ready peripheral. -/
structure Transferred (p : Fin 4) (src : OutSrc) (dst : InDst) (len : Nat) (s t : State) (es : List Event)
    (w : Exchanges) : Prop where
  /-- everything else is as it was, the interrupt bracket is closed -/
  frame : t = { s with
    periphs := t.periphs, off := len, staging := t.staging, mem := t.mem, line := t.line, draws := t.draws,
    trace := s.trace ++ (.irqOff :: (es ++ [.irqOn])) }
  others : ∀ q, q ≠ p → t.periph q = s.periph q
  config : dataOnly (s.periph p) (t.periph p)
  idle : t.busy p = false
  loopback : t.line.loopback = s.line.loopback
  script : t.line.script = s.line.script.drop w.length
  carries : Carries (.irqOff :: (es ++ [.irqOn])) w
  events : ∀ e ∈ es, dataEvent p e = true
  count : w.length = chunkCount len
  /-- the events between the two ends of the bracket -/
  trace : bothPhases (s.periph p) → es = chunkTrace p (s.periph p).cfg (chunkOut s src 0 len) w
  sent : bothPhases (s.periph p) → sentOf w = bitsOf (chunkOut s src 0 len)
  received : bothPhases (s.periph p) → (recvOf w).length = 8 * len
  shape : bothPhases (s.periph p) → ∀ i, (h : i < w.length) →
    w[i].1.length = 8 * min 64 (len - 64 * i) ∧ w[i].2.length = 8 * min 64 (len - 64 * i)
  looped : bothPhases (s.periph p) → s.line.script = [] → s.line.loopback = true → ∀ x ∈ w, x.2 = x.1
  mem : bothPhases (s.periph p) → t.mem = storedMem dst 0 (bytesOf (recvOf w)) s
  staging : bothPhases (s.periph p) → t.staging = storedStaging dst 0 (bytesOf (recvOf w)) s

/-- The events of a whole transfer, bracket included (R172). -/
theorem Transferred.events_eq {p : Fin 4} {src : OutSrc} {dst : InDst} {len : Nat} {s t : State} {es : List Event}
    {w : Exchanges} (h : Transferred p src dst len s t es w) (hb : bothPhases (s.periph p)) (level : Bool) :
    Event.irqOff :: (es ++ [.irqOn]) =
      transferEvents p (s.periph p).cfg (chunkOut s src 0 len) (w.map fun x => ⟨level, x.1, x.2⟩) := by
  rw [h.trace hb, chunkTrace_range p _ level, transferEvents, List.length_map]

theorem transferOn_ready {p : Fin 4} {len : Nat} {src : OutSrc} {dst : InDst} {s : State} (ha : apart len src dst)
    (hr : periphReady s p) :
    ∃ t es w, transferOn p len src dst s = .run t ∧ Transferred p src dst len s t es w := by
  obtain ⟨t, es, w, ht, h⟩ := chunks_ready (p := p) (dst := dst) ha (chunkCount len)
    { s.disableInterrupts with off := 0 } hr (Nat.zero_le len) rfl
  refine ⟨t.enableInterrupts, es, w, ?_, ?_⟩
  · rw [transferOn, ht, andDo_run]
  · constructor
    case frame =>
      rw [State.enableInterrupts]
      rw [h.frame]
      simp [State.emit, State.disableInterrupts]
    case others => exact h.others
    case config => exact h.config
    case idle => exact h.idle
    case loopback => exact h.loopback
    case script => exact h.script
    case carries =>
      intro dc level es'
      have := h.carries dc level (.irqOn :: es')
      simpa [wireLog] using this
    case events => exact h.events
    case count => exact h.count
    case trace => exact h.trace
    case sent => exact h.sent
    case received => exact h.received
    case shape => exact h.shape
    case looped => exact h.looped
    case mem =>
      intro hb
      have := h.mem hb
      cases dst <;> exact this
    case staging =>
      intro hb
      have := h.staging hb (fun _ => Nat.zero_le _)
      cases dst <;> exact this

end Sys2Proof.Machine.Laws
end

