-- ==== Sys2Proof/Laws/PinMux.lean ====
section
/-! SUPPORT. What the pin multiplexer, select and deselect can do: the hand-off touches pins and routes alone, a reprogram
writes eleven fields, and each comes to an end when the peripheral is idle. -/

namespace Sys2Proof.Machine.Laws

open Sys2Proof.Safety

/-- The events of the GPIO and matrix collaborators (R262, R263), but for a level that falls. -/
def pinEvent : Event → Bool
  | .pinLevel _ v => v
  | .pinDir _ _ | .pinPull _ _ | .pinFunc _ _ | .routeIn _ _ | .routeOut _ _ => true
  | .regWrite _ _ _ | .xfer _ _ _ _ _ _ | .delay _ | .irqOff | .irqOn | .suspendAll | .resumeAll
  | .lockAcquire _ _ => false

/-- Only pins and routes changed. -/
structure PinsOnly (s t : State) (es : List Event) : Prop where
  frame : t = { s with pins := t.pins, inRoute := t.inRoute, trace := s.trace ++ es }
  length : t.pins.length = s.pins.length

/-- The same, and the events say so; no level fell. -/
structure PinsUp (s t : State) (es : List Event) : Prop extends PinsOnly s t es where
  events : ∀ e ∈ es, pinEvent e = true

/-- Some call changed pins and routes alone. -/
def PinCall (s t : State) : Prop := ∃ es, PinsOnly s t es

/-- The same, and no level fell. -/
def PinUp (s t : State) : Prop := ∃ es, PinsUp s t es

theorem PinUp.call {s t : State} (h : PinUp s t) : PinCall s t := let ⟨es, h⟩ := h; ⟨es, h.toPinsOnly⟩

theorem PinUp.refl (s : State) : PinUp s s := ⟨[], ⟨by simp, rfl⟩, by simp⟩

theorem PinCall.refl (s : State) : PinCall s s := (PinUp.refl s).call

theorem PinUp.trans {s t u : State} (h1 : PinUp s t) (h2 : PinUp t u) : PinUp s u := by
  obtain ⟨e1, h1⟩ := h1
  obtain ⟨e2, h2⟩ := h2
  refine ⟨e1 ++ e2, ⟨?_, h2.length.trans h1.length⟩, ?_⟩
  · rw [h2.frame, h1.frame, List.append_assoc]
  · intro e he
    rcases List.mem_append.1 he with he | he
    · exact h1.events e he
    · exact h2.events e he

theorem pinsOnly_setPin (s : State) (g : Nat) (q : PinState) (e : Event) : PinsOnly s ((s.setPin g q).emit e) [e] :=
  ⟨rfl, by simp [State.setPin, State.emit]⟩

theorem pinUp_setPin (s : State) (g : Nat) (q : PinState) (e : Event) (h : pinEvent e = true) :
    PinUp s ((s.setPin g q).emit e) := ⟨[e], pinsOnly_setPin s g q e, by simpa using h⟩

theorem pinUp_setDirection (s : State) (g : Nat) (d : Dir) : PinUp s (s.gpioSetDirection g d) := pinUp_setPin s g _ _ rfl
theorem pinUp_setPullMode (s : State) (g : Nat) (m : Pull) : PinUp s (s.gpioSetPullMode g m) := pinUp_setPin s g _ _ rfl
theorem pinUp_raise (s : State) (g : Nat) : PinUp s (s.gpioSetLevel g true) := pinUp_setPin s g _ _ rfl
theorem pinCall_setLevel (s : State) (g : Nat) (v : Bool) : PinCall s (s.gpioSetLevel g v) :=
  ⟨_, pinsOnly_setPin s g _ _⟩
theorem pinUp_function (s : State) (g : Nat) (f : PinFn) : PinUp s (s.matrixSelectPinFunction g f) :=
  pinUp_setPin s g _ _ rfl
theorem pinUp_routeOutput (s : State) (g : Nat) (r : OutRoute) : PinUp s (s.matrixRouteOutput g r) :=
  pinUp_setPin s g _ _ rfl
theorem pinUp_routeInput (s : State) (src : Option Nat) (p : Fin 4) : PinUp s (s.matrixRouteInput src p) :=
  ⟨[.routeIn p src], ⟨rfl, rfl⟩, by simp [pinEvent]⟩
theorem pinUp_setOutput (s : State) (g : Nat) : PinUp s (s.gpioSetOutput g) :=
  ((pinUp_function s g .gpio).trans (pinUp_setDirection _ g .output)).trans (pinUp_routeOutput _ g .gpioDriven)

theorem pinUp_onPin {s : State} {g : Nat} {f : State → Nat → State} (h : ∀ t g, PinUp t (f t g)) :
    PinUp s (s.onPin g f) := by
  unfold State.onPin
  split
  · exact .refl s
  · exact h s g

theorem pinUp_detach (s : State) (u : Nat) : PinUp s (s.detach u) := by
  unfold State.detach
  refine .trans ?_ (pinUp_onPin fun t g => pinUp_raise t g)
  refine .trans ?_ (pinUp_onPin fun t g => pinUp_function t g _)
  refine .trans ?_ (pinUp_onPin fun t g => pinUp_function t g _)
  refine .trans ?_ (pinUp_onPin fun t g => pinUp_function t g _)
  refine .trans ?_ (pinUp_onPin fun t g => pinUp_function t g _)
  refine .trans ?_ (pinUp_onPin fun t g => pinUp_routeOutput t g _)
  refine .trans ?_ (pinUp_onPin fun t g => pinUp_routeOutput t g _)
  refine .trans ?_ (pinUp_onPin fun t g => pinUp_routeOutput t g _)
  exact pinUp_routeInput s none _

theorem pinUp_attachRoutes (s : State) (p : Fin 4) (r : UnitRec) (soft : Bool) :
    PinUp s (s.attachRoutes p r soft) := by
  unfold State.attachRoutes
  split
  · refine .trans ?_ (pinUp_onPin fun t g => pinUp_routeOutput t g _)
    refine .trans ?_ (pinUp_onPin fun t g => pinUp_routeOutput t g _)
    exact pinUp_onPin fun t g => pinUp_routeInput t _ _
  · exact pinUp_routeInput s none p

theorem pinUp_attachPins (s : State) (p : Fin 4) (r : UnitRec) (soft : Bool) :
    PinUp s (s.attachPins p r soft) := by
  unfold State.attachPins
  refine .trans ?_ (pinUp_onPin fun t g => pinUp_setOutput t g)
  refine .trans ?_ (pinUp_attachRoutes _ p r soft)
  refine .trans ?_ (pinUp_onPin fun t g => pinUp_setDirection t g _)
  refine .trans ?_ (pinUp_onPin fun t g => pinUp_setDirection t g _)
  refine .trans ?_ (pinUp_onPin fun t g => (pinUp_setDirection t g _).trans (pinUp_setPullMode _ g _))
  refine .trans ?_ (pinUp_onPin fun t g => pinUp_function t g _)
  refine .trans ?_ (pinUp_onPin fun t g => pinUp_function t g _)
  exact pinUp_onPin fun t g => pinUp_function t g _

theorem pinUp_attach (s : State) (u : Nat) : PinUp s (s.attach u) := pinUp_attachPins s _ _ _

theorem pinUp_selectUnit (s : State) (u : Nat) : PinUp s (s.selectUnit u) := by
  unfold State.selectUnit
  split
  · exact .refl s
  · refine .trans ?_ (pinUp_attach _ u)
    unfold State.detachPrev
    split
    · split
      · exact pinUp_detach s _
      · exact .refl s
    · exact .refl s

theorem pinCall_driveCs (s : State) (u : Nat) (v : Bool) : PinCall s (s.driveCs u v) := by
  unfold State.driveCs State.onPin
  split
  · exact .refl s
  · exact pinCall_setLevel s _ v

theorem pin_driveCs (s : State) (u h : Nat) (v : Bool) : (s.driveCs u v).pin h =
    if h = (s.unit u).cs ∧ (s.unit u).cs ≠ 0 ∧ (s.unit u).cs < s.pins.length then { s.pin h with level := v }
    else s.pin h := pin_onPin (onePin_level v) h

/-! ## Events that carry no transaction -/

/-- Neither a transaction nor a delay. -/
def quiet : Event → Bool
  | .xfer _ _ _ _ _ _ | .delay _ => false
  | .regWrite _ _ _ | .pinLevel _ _ | .pinDir _ _ | .pinPull _ _ | .pinFunc _ _ | .routeIn _ _ | .routeOut _ _
  | .irqOff | .irqOn | .suspendAll | .resumeAll | .lockAcquire _ _ => true

/-- Quiet events add nothing to the wire log; they may move the mode signal. -/
theorem wireLog_quiet (dc : Nat) (level : Bool) (es es' : List Event) (h : ∀ e ∈ es, quiet e = true) :
    ∃ level', wireLog dc level (es ++ es') = wireLog dc level' es' := by
  induction es generalizing level with
  | nil => exact ⟨level, rfl⟩
  | cons e es ih =>
    have he := h e (by simp)
    have ih := fun l => ih l fun e' he' => h e' (by simp [he'])
    cases e with
    | xfer => simp [quiet] at he
    | delay => simp [quiet] at he
    | _ => simp only [List.cons_append, wireLog]; exact ih _

theorem quiet_of_pinEvent {e : Event} (h : pinEvent e = true) : quiet e = true := by
  cases e <;> simp [pinEvent] at h <;> rfl

theorem setupEvent_of_pinEvent {e : Event} (h : pinEvent e = true) : setupEvent e = true := by
  cases e <;> simp [pinEvent] at h <;> simp [setupEvent, h]

/-! ## Reprogram -/

/-- The eleven writes of a reprogram (R146). -/
def configEvents (p : Fin 4) (r : UnitRec) : List Event :=
  [.regWrite p .pinCkIdle (bitWord (modeIdle r.mode)), .regWrite p .userCkPhase (bitWord (modePhase r.mode)),
    .regWrite p .ctrlWrBitOrder 0, .regWrite p .ctrlRdBitOrder 0, .regWrite p .userDoutdin (bitWord r.duplex),
    .regWrite p .slaveMode 0, .regWrite p .clock r.divisor, .regWrite p .userUsrMosi 1, .regWrite p .userUsrMiso 1,
    .regWrite p .userCsSetup 1, .regWrite p .userCsHold 1]

/-- A register block after the eleven writes. -/
def configured (q : PeriphRegs) (r : UnitRec) : PeriphRegs :=
  { q with
    ckIdle := modeIdle r.mode, ckPhase := modePhase r.mode, wrBitOrder := false, rdBitOrder := false
    doutdin := r.duplex, slaveMode := false, clock := r.divisor, usrMosi := true, usrMiso := true
    csSetup := true, csHold := true }

theorem configured_reflects (q : PeriphRegs) (r : UnitRec) : reflects (configured q r) r := by
  simp [reflects, configured]

theorem writeConfig_eq (s : State) (p : Fin 4) (r : UnitRec) :
    s.writeConfig p r =
      { s with
        periphs := s.periphs.set p (configured (s.periph p) r) p.isLt
        trace := s.trace ++ configEvents p r } := by
  simp only [State.writeConfig, writeReg_eq]
  simp only [State.periph, Vector.get_eq_getElem, Vector.getElem_set_self, Vector.set_set, List.append_assoc, configEvents,
    List.cons_append, List.nil_append]
  have hb : ∀ b : Bool, (bitWord b)[0] = b := fun b => by cases b <;> rfl
  simp [PeriphRegs.put, RegFile.put, hb, configured]

/-- A unit record stored back under its own number changes nothing else. -/
theorem unit_congr {s t : State} (hp : t.params = s.params) (hu : t.units = s.units) (u : Nat) : t.unit u = s.unit u := by
  unfold State.unit; rw [hp, hu]

theorem PinsOnly.params {s t : State} {es : List Event} (h : PinsOnly s t es) : t.params = s.params := by rw [h.frame]
theorem PinsOnly.units {s t : State} {es : List Event} (h : PinsOnly s t es) : t.units = s.units := by rw [h.frame]
theorem PinsOnly.periphs {s t : State} {es : List Event} (h : PinsOnly s t es) : t.periphs = s.periphs := by rw [h.frame]
theorem PinsOnly.last {s t : State} {es : List Event} (h : PinsOnly s t es) : t.last = s.last := by rw [h.frame]
theorem PinsOnly.unit {s t : State} {es : List Event} (h : PinsOnly s t es) (u : Nat) : t.unit u = s.unit u :=
  unit_congr h.params h.units u
theorem PinsOnly.periph {s t : State} {es : List Event} (h : PinsOnly s t es) (q : Fin 4) : t.periph q = s.periph q := by
  unfold State.periph; rw [h.periphs]

/-- The hand-off leaves alone every pin that is of neither unit (R143). -/
theorem pins_selectUnit (s : State) {u h : Nat} (hn : h ∉ handoffPins s u) : (s.selectUnit u).pin h = s.pin h := by
  unfold State.selectUnit
  split
  · rfl
  · have hd : (s.detachPrev s.last).pin h = s.pin h ∧ ∀ v, (s.detachPrev s.last).unit v = s.unit v := by
      unfold State.detachPrev
      split
      · next prev hl =>
        split
        · refine ⟨pins_detach s ?_, ?_⟩
          · intro hm; exact hn (by unfold handoffPins; rw [hl]; exact List.mem_append_right _ hm)
          · obtain ⟨es, hp⟩ := pinUp_detach s prev
            exact fun v => hp.unit v
        · exact ⟨rfl, fun _ => rfl⟩
      · exact ⟨rfl, fun _ => rfl⟩
    rw [State.attach, pins_attachPins, hd.1]
    rw [hd.2]
    exact fun hm => hn (List.mem_append_left _ hm)

/-- What `reprogram(u)` leaves (R146), from the state `s` in which its wait has ended. -/
structure Reprogrammed (u : Nat) (s t : State) (es : List Event) : Prop where
  frame : t = { s with
    periphs := t.periphs, units := t.units, pins := t.pins, inRoute := t.inRoute, trace := s.trace ++ es }
  length : t.pins.length = s.pins.length
  away : ∀ h, h ∉ nonzeroPins (s.unit u) → t.pin h = s.pin h
  pins : ∃ e0, es = e0 ++ configEvents (s.params.periphOf u) (s.unit u) ∧ ∀ e ∈ e0, pinEvent e = true
  units : t.units = (s.setDirty u false).units
  periph : ∀ q, t.periph q = if q = s.params.periphOf u then configured (s.periph q) (s.unit u) else s.periph q

theorem reprogram_body (u : Nat) (s : State) :
    ∃ es, Reprogrammed u s (((s.attach u).writeConfig (s.params.periphOf u) (s.unit u)).setDirty u false) es := by
  obtain ⟨e0, h⟩ := pinUp_attach s u
  refine ⟨e0 ++ configEvents (s.params.periphOf u) (s.unit u), ?_⟩
  have hun : ∀ (t : State) (d : Bool), (t.setDirty u d) = { t with units := (t.setDirty u d).units } := by
    intro t d
    unfold State.setDirty State.setUnit
    split <;> simp
  rw [writeConfig_eq]
  constructor
  · rw [hun]
    simp only
    rw [h.frame]
    simp
  · have := h.length
    rw [hun]; exact this
  · intro g hg
    rw [hun]
    exact pins_attachPins s _ _ hg
  · exact ⟨e0, rfl, h.events⟩
  · have hu := h.unit u
    have hp := h.params
    have hs := h.units
    unfold State.setDirty State.setUnit State.unit at *
    simp only [hp, hs]
    split <;> simp
  · intro q
    have := periph_set s (((s.attach u).writeConfig (s.params.periphOf u) (s.unit u)).setDirty u false)
      (s.params.periphOf u) q (configured (s.periph (s.params.periphOf u)) (s.unit u)) (by
        rw [writeConfig_eq, setDirty_periphs]
        simp only [h.periphs, h.periph])
    rw [writeConfig_eq] at this
    rw [this]
    split
    · next e => rw [e]
    · rfl

/-! ## Select and deselect, from their micro-steps -/

/-- The hand-off of `select`: the multiplexer, the marks, the marker. -/
theorem does_handoff (u : Nat) (s : State) :
    Does (branch (fun _ s => s.last != some u)
      (selectUnitSteps u ++ branch (fun _ s => s.last.isSome) dirtyLast
        ++ [markDirty u true, act fun _ s => { s with last := some u }])) s (s.handoff u) := by
  by_cases h : s.last = some u
  · rw [State.handoff, if_pos h]
    exact .skip fun l => by simp [h]
  · rw [State.handoff, if_neg h]
    refine Does.branch ?_ fun l => by simpa using h
    rw [List.append_assoc]
    refine (does_selectUnit u s).append ?_
    have hl : (s.selectUnit u).last = s.last := let ⟨_, hp⟩ := pinUp_selectUnit s u; hp.last
    unfold State.handoffMarks
    cases hs : (s.selectUnit u).last with
    | none =>
      refine Does.append (.skip fun l => by simp [hs]) ?_
      exact Does.append (a := [_]) (does_markDirty u true _) (does_act fun _ => rfl)
    | some prev =>
      refine Does.append ((does_dirtyLast _ hs).branch fun l => by simp [hs]) ?_
      exact Does.append (a := [_]) (does_markDirty u true _) (does_act fun _ => rfl)


theorem waitIdle_params {p : Fin 4} {s t : State} (h : waitIdle p s = .run t) : t.params = s.params := by
  rw [waitIdle] at h
  split at h
  · split at h
    · cases h
    · rw [shifter] at h
      cases hf : (s.periph p).flight with
      | none => rw [hf] at h; cases h; rfl
      | some r =>
        rw [hf] at h
        simp only at h
        split at h
        · cases h; rfl
        · cases h
  · cases h; rfl

theorem doesFlow_reprogram (u : Nat) (s : State) : DoesFlow (reprogramSteps u) s (reprogram u s) := by
  unfold reprogramSteps reprogram Flow.andDo
  simp only [List.append_assoc]
  refine (doesFlow_span _ s).append (k := fun t => .run _) fun t ht => DoesFlow.of_does ?_
  have hp := waitIdle_params ht
  obtain ⟨es, ha⟩ := pinUp_attach t u
  refine (does_attach u t).append ?_
  have hw := does_writeConfig u (t.attach u)
  rw [ha.params, hp, ha.unit] at hw
  have := hw.append (does_markDirty u false _)
  simpa only [List.append_assoc] using this

/-- `select` inside a frame, in closed form (R141). -/
theorem selectFlow_does (u : Nat) (s : State) : DoesFlow (selectBody u) s
    ((if ((s.handoff u).unit u).dirty then reprogram u (s.handoff u) else .run (s.handoff u)).andDo
      fun t => t.driveCs u false) := by
  have hd : DoesFlow (branch (fun _ s => (s.unit u).dirty) (reprogramSteps u)) (s.handoff u)
      (if ((s.handoff u).unit u).dirty then reprogram u (s.handoff u) else .run (s.handoff u)) := by
    split
    · next h => exact (doesFlow_reprogram u _).branch fun _ => h
    · next h => exact .of_does (.skip fun _ => by simpa using h)
  unfold selectBody Flow.andDo
  rw [List.append_assoc]
  exact (DoesFlow.of_does (does_handoff u s)).append (k := fun t =>
      (if (t.unit u).dirty then reprogram u t else .run t).andThen fun t => .run (t.driveCs u false)) fun t ht => by
    cases ht
    exact hd.append fun v _ => .of_does (does_driveCs_if u false v)

/-- `deselect` inside a frame, in closed form (R152). -/
theorem deselectFlow_does (u : Nat) (s : State) : DoesFlow (deselectBody u) s
    (if (s.unit u).dirty then .run s
      else if (s.unit u).cs = 0 then .run s
      else (waitIdle (s.params.periphOf u) s).andDo fun t => t.driveCs u true) := by
  unfold deselectBody
  split
  · next h => exact .of_does (.skip fun _ => by simp [h])
  · next h =>
    refine DoesFlow.branch ?_ fun _ => by simpa using h
    split
    · next hc => exact .of_does (.skip fun _ => by simp [hasCs, hc])
    · next hc =>
      refine DoesFlow.branch ?_ fun _ => by simpa [hasCs] using hc
      exact (doesFlow_span _ s).append (k := fun t => .run (t.driveCs u true)) fun t _ => .of_does (does_driveCs u true t)

theorem selectFlow_eq (u : Nat) (s : State) : selectFlow u s =
    (if ((s.handoff u).unit u).dirty then reprogram u (s.handoff u) else .run (s.handoff u)).andDo
      fun t => t.driveCs u false := (selectFlow_does u s).flow

theorem deselectFlow_eq (u : Nat) (s : State) : deselectFlow u s =
    if (s.unit u).dirty then .run s
    else if (s.unit u).cs = 0 then .run s
    else (waitIdle (s.params.periphOf u) s).andDo fun t => t.driveCs u true := (deselectFlow_does u s).flow

theorem execSelect_eq (u : Nat) (s : State) : execSelect u s =
    if s.params.inRange u then (selectFlow u s).outcome fun t => t.ret .none
    else .next (s.failWith .invalidUnit .none) := by
  rw [execSelect, selectFlow_eq]
  congr 1
  exact (selectFlow_does u s).carryOut _

theorem execDeselect_eq (u : Nat) (s : State) : execDeselect u s =
    if s.params.inRange u then (deselectFlow u s).outcome fun t => t.ret .none
    else .next (s.failWith .invalidUnit .none) := by
  rw [execDeselect, deselectFlow_eq]
  congr 1
  exact (deselectFlow_does u s).carryOut _

theorem execPinmux_eq (u : Nat) (s : State) : execPinmux u s =
    if s.params.inRange u then .next ((s.selectUnit u).ret .none) else .refused .unitOutOfRange := by
  unfold execPinmux
  congr 1
  exact (DoesFlow.of_does (does_selectUnit u s)).carryOut _

/-! ## Select and deselect -/

/-- What the hand-off leaves (R143, R144). -/
structure HandedOff (u : Nat) (s t : State) (es : List Event) : Prop where
  frame : t = { s with
    units := t.units, last := some u, pins := t.pins, inRoute := t.inRoute, trace := s.trace ++ es }
  length : t.pins.length = s.pins.length
  away : ∀ h, h ∉ handoffPins s u → t.pin h = s.pin h
  events : ∀ e ∈ es, pinEvent e = true
  units : t.units = if s.last = some u then s.units else (s.handoffMarks u).units

theorem setDirty_eq (s : State) (u : Nat) (d : Bool) : s.setDirty u d = { s with units := (s.setDirty u d).units } := by
  unfold State.setDirty State.setUnit
  split <;> simp

theorem handoffMarks_eq (s : State) (u : Nat) : s.handoffMarks u = { s with units := (s.handoffMarks u).units } := by
  unfold State.handoffMarks
  split
  · rw [setDirty_eq]
    simp only
    rw [setDirty_eq s]
  · rw [setDirty_eq]

theorem setDirty_units_congr {s t : State} (hp : t.params = s.params) (hu : t.units = s.units) (u : Nat) (d : Bool) :
    (t.setDirty u d).units = (s.setDirty u d).units := by
  unfold State.setDirty State.setUnit State.unit
  simp only [hp, hu]
  split <;> simp [hu]

theorem handoffMarks_units_congr {s t : State} (hp : t.params = s.params) (hu : t.units = s.units)
    (hl : t.last = s.last) (u : Nat) : (t.handoffMarks u).units = (s.handoffMarks u).units := by
  unfold State.handoffMarks
  simp only [hl]
  split
  · exact setDirty_units_congr (by simp [hp]) (setDirty_units_congr hp hu _ _) _ _
  · exact setDirty_units_congr hp hu _ _

theorem handoff_spec (u : Nat) (s : State) : ∃ es, HandedOff u s (s.handoff u) es := by
  unfold State.handoff
  split
  · next h => exact ⟨[], by rw [← h]; simp, rfl, fun _ _ => rfl, by simp, by simp [h]⟩
  · next h =>
    obtain ⟨es, hs⟩ := pinUp_selectUnit s u
    refine ⟨es, ?_, ?_, ?_, hs.events, ?_⟩
    · rw [handoffMarks_eq]
      simp only
      rw [hs.frame]
    · rw [handoffMarks_eq]; exact hs.length
    · intro g hg
      rw [handoffMarks_eq]
      exact pins_selectUnit s hg
    · rw [if_neg h]
      exact handoffMarks_units_congr hs.params hs.units hs.last u

theorem setDirty_units_length (s : State) (u : Nat) (d : Bool) : (s.setDirty u d).units.length = s.units.length :=
  setUnit_units_length s u _

theorem handoffMarks_units_length (s : State) (u : Nat) : (s.handoffMarks u).units.length = s.units.length := by
  unfold State.handoffMarks
  split <;> simp [setDirty_units_length]

theorem unit_setDirty (s : State) (u v : Nat) (d : Bool) (h : s.params.inRange u = true)
    (hl : s.units.length = s.params.unitCount) :
    (s.setDirty u d).unit v = if v = u then { s.unit u with dirty := d } else s.unit v := by
  split
  · next e => subst e; exact unit_setUnit_self s _ h hl
  · next e => exact unit_setUnit_ne s _ e

theorem unit_setDirty_of_not (s : State) (u v : Nat) (d : Bool) (h : s.params.inRange u ≠ true) :
    (s.setDirty u d).unit v = s.unit v := by
  unfold State.setDirty State.setUnit
  rw [if_neg h]

/-- The records after the marks of a hand-off (R144). -/
theorem unit_handoffMarks (s : State) (u v : Nat) (h : s.params.inRange u = true) (hn : s.last ≠ some u)
    (hl : s.units.length = s.params.unitCount) :
    (s.handoffMarks u).unit v =
      if v = u ∨ (s.last = some v ∧ s.params.inRange v = true) then { s.unit v with dirty := true } else s.unit v := by
  unfold State.handoffMarks
  cases hlast : s.last with
  | none =>
    simp only
    rw [unit_setDirty s u v true h hl]
    by_cases hv : v = u <;> simp [hv]
  | some w =>
    simp only
    have hwu : w ≠ u := fun e => hn (by rw [hlast, e])
    rw [unit_setDirty _ u v true (by simpa using h) (by rw [setDirty_units_length]; simpa using hl)]
    by_cases hw : s.params.inRange w = true
    · rw [unit_setDirty s w v true hw hl, unit_setDirty s w u true hw hl]
      by_cases hv : v = u
      · subst hv; simp [Ne.symm hwu]
      · by_cases hvw : v = w
        · subst hvw; simp [hv, hw]
        · have : ¬w = v := fun e => hvw e.symm
          simp [hv, hvw, this]
    · rw [unit_setDirty_of_not s w v true hw, unit_setDirty_of_not s w u true hw]
      by_cases hv : v = u
      · simp [hv]
      · by_cases hvw : w = v
        · subst hvw; simp [hv, hw]
        · simp [hv, hvw]

/-- What `select(u)` leaves when it comes to its end (R141). -/
structure Selected (u : Nat) (s t : State) (es : List Event) : Prop where
  frame : t = { s with
    periphs := t.periphs, units := t.units, last := some u, pins := t.pins, inRoute := t.inRoute,
    trace := s.trace ++ es }
  length : t.pins.length = s.pins.length
  away : ∀ h, h ∉ handoffPins s u → t.pin h = s.pin h
  ulength : t.units.length = s.units.length
  quiet : ∀ e ∈ es, quiet e = true
  unit : t.unit u = { s.unit u with dirty := false }
  loser : ∀ v, v ≠ u → s.last = some v → s.params.inRange v = true → t.unit v = { s.unit v with dirty := true }
  rest : ∀ v, v ≠ u → ¬(s.last = some v ∧ s.params.inRange v = true) → t.unit v = s.unit v
  others : ∀ q, q ≠ s.params.periphOf u → t.periph q = s.periph q
  cheap : held s u → t.periph (s.params.periphOf u) = s.periph (s.params.periphOf u)
  fresh : ¬held s u → t.periph (s.params.periphOf u) = configured (s.periph (s.params.periphOf u)) (s.unit u)
  writes : regWrites es = if held s u then [] else configEvents (s.params.periphOf u) (s.unit u)
  cs : (s.unit u).cs ≠ 0 → (s.unit u).cs < s.pins.length → (t.pin (s.unit u).cs).level = false
  setup : ∃ e0, es = e0 ++ csEvents (s.unit u) false ∧ ∀ e ∈ e0, setupEvent e = true
  final0 : held s u → es = if (s.unit u).cs = 0 then [] else [.pinLevel (s.unit u).cs false]

theorem regWrites_append (a b : List Event) : regWrites (a ++ b) = regWrites a ++ regWrites b := by simp [regWrites]

theorem regWrites_pinEvents {es : List Event} (h : ∀ e ∈ es, pinEvent e = true) : regWrites es = [] := by
  rw [regWrites, List.filter_eq_nil_iff]
  intro e he
  have := h e he
  cases e <;> simp [pinEvent] at this ⊢

theorem regWrites_configEvents (p : Fin 4) (r : UnitRec) : regWrites (configEvents p r) = configEvents p r := rfl

/-- `driveCs` in full. -/
theorem driveCs_eq (s : State) (u : Nat) (v : Bool) :
    s.driveCs u v = if (s.unit u).cs = 0 then s else s.gpioSetLevel (s.unit u).cs v := rfl

theorem select_ready {u : Nat} {s : State} (hr : s.params.inRange u = true)
    (hl : s.units.length = s.params.unitCount) (hi : ¬held s u → s.busy (s.params.periphOf u) = false) :
    ∃ t es, selectFlow u s = .run t ∧ Selected u s t es := by
  obtain ⟨e0, h0⟩ := handoff_spec u s
  have hpar : (s.handoff u).params = s.params := by rw [h0.frame]
  have hper : (s.handoff u).periphs = s.periphs := by rw [h0.frame]
  have hperq : ∀ q, (s.handoff u).periph q = s.periph q := fun q => by unfold State.periph; rw [hper]
  have hunit : ∀ v, (s.handoff u).unit v =
      if s.last = some u then s.unit v
      else if v = u ∨ (s.last = some v ∧ s.params.inRange v = true) then { s.unit v with dirty := true }
      else s.unit v := by
    intro v
    by_cases hlast : s.last = some u
    · rw [if_pos hlast]
      exact unit_congr hpar (by rw [h0.units, if_pos hlast]) v
    · rw [if_neg hlast, ← unit_handoffMarks s u v hr hlast hl]
      refine unit_congr (s := s.handoffMarks u) ?_ ?_ v
      · rw [hpar, handoffMarks_eq]
      · rw [h0.units, if_neg hlast]
  have hulen : (s.handoff u).units.length = s.units.length := by
    rw [h0.units]; split
    · rfl
    · exact handoffMarks_units_length s u
  have hheld : held s u ↔ ((s.handoff u).unit u).dirty = false := by
    rw [hunit, held]
    by_cases hlast : s.last = some u <;> simp [hlast]
  have hcs : ((s.handoff u).unit u).cs = (s.unit u).cs := by
    rw [hunit]; split
    · rfl
    · simp
  have hsame : ({ (s.handoff u).unit u with dirty := false } : UnitRec) = { s.unit u with dirty := false } := by
    rw [hunit]; split
    · rfl
    · simp
  rw [selectFlow_eq]
  by_cases hh : held s u
  · -- the cheap case
    have hlast := hh.1
    have hsame0 : s.handoff u = s := by unfold State.handoff; rw [if_pos hlast]
    simp only [hsame0, hh.2, Bool.false_eq_true, if_false, andDo_run]
    have hd := driveCs_eq s u false
    refine ⟨_, if (s.unit u).cs = 0 then [] else [.pinLevel (s.unit u).cs false], rfl, ?_⟩
    have huu : s.unit u = { s.unit u with dirty := false } := by rw [← hh.2]
    by_cases hc : (s.unit u).cs = 0
    · rw [if_pos hc] at hd ⊢
      rw [hd]
      exact {
        frame := by rw [← hlast]; simp
        length := rfl
        away := fun _ _ => rfl
        ulength := rfl
        quiet := by simp
        unit := huu
        loser := by intro v hv hlv; rw [hlast] at hlv; exact absurd (Option.some.inj hlv).symm hv
        rest := fun _ _ _ => rfl
        others := fun _ _ => rfl
        cheap := fun _ => rfl
        fresh := fun h => absurd hh h
        writes := by simp [hh, regWrites]
        cs := fun h => absurd hc h
        setup := ⟨[], by simp [csEvents, hc], by simp⟩
        final0 := by simp [hc] }
    · rw [if_neg hc] at hd ⊢
      rw [hd]
      exact {
        frame := by rw [← hlast]; rfl
        length := by simp [State.gpioSetLevel, State.emit, State.setPin]
        away := by
          intro h hn
          rw [(onePin_level false s _).pin, if_neg]
          rintro ⟨e, _⟩
          exact hn (List.mem_append_left _ (mem_nonzeroPins.2 ⟨e ▸ hc, .inr (.inr (.inr e))⟩))
        ulength := rfl
        quiet := by simp [Laws.quiet]
        unit := huu
        loser := by intro v hv hlv; rw [hlast] at hlv; exact absurd (Option.some.inj hlv).symm hv
        rest := fun _ _ _ => rfl
        others := fun _ _ => rfl
        cheap := fun _ => rfl
        fresh := fun h => absurd hh h
        writes := by simp [hh, regWrites]
        cs := by intro _ hlt; simp [State.gpioSetLevel, State.emit, State.setPin, State.pin, hlt]
        setup := ⟨[], by simp [csEvents, hc], by simp⟩
        final0 := by simp [hc] }
  · -- a reprogram
    have hd : ((s.handoff u).unit u).dirty = true := by
      by_contra h
      exact hh (hheld.2 (by simpa using h))
    have hbusy : (s.handoff u).busy (s.params.periphOf u) = false := by rw [State.busy, hperq]; exact hi hh
    rw [if_pos hd, reprogram, hpar, waitIdle_idle hbusy, andDo_run, andDo_run]
    obtain ⟨e1, h1⟩ := reprogram_body u (s.handoff u)
    rw [hpar] at h1
    generalize hm : (((s.handoff u).attach u).writeConfig (s.params.periphOf u) ((s.handoff u).unit u)).setDirty u false
      = m at h1
    have hmp : m.params = s.params := by rw [h1.frame]; exact hpar
    have hmu : ∀ v, m.unit v = if v = u then { s.unit u with dirty := false } else (s.handoff u).unit v := by
      intro v
      have : m.unit v = ((s.handoff u).setDirty u false).unit v :=
        unit_congr (by rw [hmp, setDirty_params, hpar]) h1.units v
      rw [this, unit_setDirty _ u v false (by rw [hpar]; exact hr) (by rw [hulen, hpar]; exact hl), hsame]
    have hmcs : (m.unit u).cs = (s.unit u).cs := by rw [hmu, if_pos rfl]
    obtain ⟨e2, he2, hpe⟩ := h1.pins
    have hde := driveCs_eq m u false
    rw [hmcs] at hde
    refine ⟨_, e0 ++ e1 ++ (if (s.unit u).cs = 0 then [] else [.pinLevel (s.unit u).cs false]), rfl, ?_⟩
    have htu : ∀ v, (m.driveCs u false).unit v = m.unit v := by
      intro v; rw [hde]; split <;> rfl
    have htp : ∀ q, (m.driveCs u false).periph q = m.periph q := by
      intro q; rw [hde]; split <;> rfl
    have hconf : configEvents (s.params.periphOf u) ((s.handoff u).unit u) =
        configEvents (s.params.periphOf u) (s.unit u) := by
      rw [hunit]; split
      · rfl
      · simp [configEvents]
    have hconf2 : ∀ q, configured q ((s.handoff u).unit u) = configured q (s.unit u) := by
      intro q; rw [hunit]; split
      · rfl
      · simp [configured]
    have hq0 : ∀ e ∈ e0, Laws.quiet e = true := fun e he => quiet_of_pinEvent (h0.events e he)
    have hq1 : ∀ e ∈ e1, Laws.quiet e = true := by
      intro e he
      rw [he2] at he
      rcases List.mem_append.1 he with he | he
      · exact quiet_of_pinEvent (hpe e he)
      · simp only [configEvents, List.mem_cons, List.not_mem_nil, or_false] at he
        rcases he with rfl | rfl | rfl | rfl | rfl | rfl | rfl | rfl | rfl | rfl | rfl <;> rfl
    exact {
      frame := by
        have hm2 : m = { s with
            periphs := m.periphs, units := m.units, last := some u, pins := m.pins, inRoute := m.inRoute,
            trace := s.trace ++ e0 ++ e1 } := by
          have h1f := h1.frame
          rw [h0.frame] at h1f
          exact h1f
        rw [hde]
        split
        · rw [List.append_nil, ← List.append_assoc]; exact hm2
        · rw [← List.append_assoc, ← List.append_assoc]
          simp only [State.gpioSetLevel, State.emit, State.setPin]
          rw [hm2]
      length := by
        rw [hde]; split
        · rw [h1.length, h0.length]
        · simp [State.gpioSetLevel, State.emit, State.setPin, h1.length, h0.length]
      away := by
        intro h hn
        have hnp : nonzeroPins ((s.handoff u).unit u) = nonzeroPins (s.unit u) := by
          rw [hunit]; split
          · rfl
          · simp [nonzeroPins]
        have hna : h ∉ nonzeroPins (s.unit u) := fun hm => hn (List.mem_append_left _ hm)
        have hm : m.pin h = s.pin h := by rw [h1.away h (by rw [hnp]; exact hna), h0.away h hn]
        rw [hde]; split
        · exact hm
        · next hc =>
          rw [(onePin_level false m _).pin, if_neg]
          · exact hm
          · rintro ⟨e, _⟩
            exact hna (mem_nonzeroPins.2 ⟨e ▸ hc, .inr (.inr (.inr e))⟩)
      ulength := by
        have : m.units.length = s.units.length := by rw [h1.units, setDirty_units_length, hulen]
        rw [hde]; split <;> exact this
      quiet := by
        intro e he
        rcases List.mem_append.1 he with he | he
        · rcases List.mem_append.1 he with he | he
          · exact hq0 e he
          · exact hq1 e he
        · split at he
          · simp at he
          · simp at he; subst he; rfl
      unit := by rw [htu, hmu, if_pos rfl]
      loser := by
        intro v hv hlv hrv
        have hn : s.last ≠ some u := by rw [hlv]; intro e; exact hv (Option.some.inj e)
        rw [htu, hmu, if_neg hv, hunit, if_neg hn, if_pos (.inr ⟨hlv, hrv⟩)]
      rest := by
        intro v hv hnv
        rw [htu, hmu, if_neg hv, hunit]
        split
        · rfl
        · rw [if_neg (by rintro (h | h); exacts [hv h, hnv h])]
      others := by intro q hq; rw [htp, h1.periph, hpar, if_neg hq, hperq]
      cheap := fun h => absurd h hh
      fresh := by intro _; rw [htp, h1.periph, hpar, if_pos rfl, hperq, hconf2]
      writes := by
        rw [if_neg hh, regWrites_append, regWrites_append, regWrites_pinEvents h0.events, he2, regWrites_append,
          regWrites_pinEvents hpe, hpar, regWrites_configEvents, hconf]
        split <;> simp [regWrites]
      cs := by
        intro hc hlt
        rw [hde, if_neg hc]
        have : (s.unit u).cs < m.pins.length := by rw [h1.length, h0.length]; exact hlt
        simp [State.gpioSetLevel, State.emit, State.setPin, State.pin, this]
      setup := by
        refine ⟨e0 ++ e1, rfl, ?_⟩
        intro e he
        rcases List.mem_append.1 he with he | he
        · exact setupEvent_of_pinEvent (h0.events e he)
        · rw [he2] at he
          rcases List.mem_append.1 he with he | he
          · exact setupEvent_of_pinEvent (hpe e he)
          · simp only [configEvents, List.mem_cons, List.not_mem_nil, or_false] at he
            rcases he with rfl | rfl | rfl | rfl | rfl | rfl | rfl | rfl | rfl | rfl | rfl <;> rfl
      final0 := fun h => absurd h hh }

end Sys2Proof.Machine.Laws
end

