-- ==== Sys2Proof/Laws/Display.lean ====
section
/-! SUPPORT. What a display operation does when its unit's frame can run to its end: the phases inside the frame, the frame
around them, and what the whole puts on the wire. -/

namespace Sys2Proof.Machine.Laws

open Sys2Proof.Safety

/-- What a part of a frame's body leaves: pins and data registers may change, the caller's memory and the records stay. -/
structure Inside (p : Fin 4) (s t : State) (es : List Event) : Prop where
  frame : t = { s with
    periphs := t.periphs, pins := t.pins, off := t.off, staging := t.staging, line := t.line, draws := t.draws,
    trace := s.trace ++ es }
  length : t.pins.length = s.pins.length
  pins : ∀ g, g ≠ s.params.dcPin → t.pin g = s.pin g
  others : ∀ q, q ≠ p → t.periph q = s.periph q
  config : dataOnly (s.periph p) (t.periph p)
  idle : t.busy p = false
  noConfig : configWrites es = []
  noDelay : ∀ ms, .delay ms ∉ es
  inner : ∀ e ∈ es, bodyEvent s.params.dcPin e = true

/-- The same, and the wire carries `W`, whatever the mode signal was before. -/
structure Body (p : Fin 4) (s t : State) (es : List Event) (W : List WireXfer) : Prop extends Inside p s t es where
  wire : ∀ level es', ∃ level', wireLog s.params.dcPin level (es ++ es') = W ++ wireLog s.params.dcPin level' es'

theorem configWrites_append (a b : List Event) : configWrites (a ++ b) = configWrites a ++ configWrites b := by
  simp [configWrites]

theorem Inside.params {p : Fin 4} {s t : State} {es : List Event} (h : Inside p s t es) :
    t.params = s.params := by rw [h.frame]

theorem Inside.mem {p : Fin 4} {s t : State} {es : List Event} (h : Inside p s t es) :
    t.mem = s.mem := by rw [h.frame]

theorem Inside.trans {p : Fin 4} {s t u : State} {e1 e2 : List Event}
    (h1 : Inside p s t e1) (h2 : Inside p t u e2) : Inside p s u (e1 ++ e2) := by
  have hp := h1.params
  constructor
  case frame =>
    have hf := h2.frame
    rw [h1.frame] at hf
    rw [← List.append_assoc]
    exact hf
  case length => rw [h2.length, h1.length]
  case pins => intro g hg; rw [h2.pins g (by rw [hp]; exact hg), h1.pins g hg]
  case others => intro q hq; rw [h2.others q hq, h1.others q hq]
  case config => exact dataOnly_trans h1.config h2.config
  case idle => exact h2.idle
  case noConfig => rw [configWrites_append, h1.noConfig, h2.noConfig]; rfl
  case noDelay => intro ms; simp [h1.noDelay ms, h2.noDelay ms]
  case inner =>
    intro e he
    rcases List.mem_append.1 he with he | he
    · exact h1.inner e he
    · rw [← hp]; exact h2.inner e he

theorem Body.trans {p : Fin 4} {s t u : State} {e1 e2 : List Event} {w1 w2 : List WireXfer}
    (h1 : Body p s t e1 w1) (h2 : Body p t u e2 w2) : Body p s u (e1 ++ e2) (w1 ++ w2) := by
  refine ⟨h1.toInside.trans h2.toInside, ?_⟩
  intro level es'
  obtain ⟨l1, hl1⟩ := h1.wire level (e2 ++ es')
  obtain ⟨l2, hl2⟩ := h2.wire l1 es'
  rw [h1.params] at hl2
  exact ⟨l2, by rw [List.append_assoc, hl1, hl2, List.append_assoc]⟩

theorem Inside.ready {p : Fin 4} {s t : State} {es : List Event} (h : Inside p s t es)
    (hr : periphReady s p) : periphReady t p :=
  ⟨⟨h.idle, by rw [h.params]; exact hr.1.2⟩, dataOnly_shiftRule h.config hr.2⟩

theorem Inside.both {p : Fin 4} {s t : State} {es : List Event} (h : Inside p s t es)
    (hb : bothPhases (s.periph p)) : bothPhases (t.periph p) := dataOnly_bothPhases h.config hb

theorem configWrites_dataEvents {p : Fin 4} {es : List Event} (h : ∀ e ∈ es, dataEvent p e = true) :
    configWrites es = [] := by
  rw [configWrites, List.filter_eq_nil_iff]
  intro e he
  have := h e he
  cases e with
  | regWrite q f v => cases f <;> simp [dataEvent, dataField] at this ⊢
  | _ => simp [dataEvent] at this ⊢

theorem noDelay_dataEvents {p : Fin 4} {es : List Event} (h : ∀ e ∈ es, dataEvent p e = true) (ms : Nat) :
    .delay ms ∉ es := fun hm => by simpa [dataEvent] using h _ hm

theorem bodyEvent_of_dataEvent {p : Fin 4} {e : Event} (dc : Nat) (h : dataEvent p e = true) : bodyEvent dc e = true := by
  cases e <;> simp [dataEvent] at h <;> rfl

/-- The events of a transfer may stand in a frame. -/
theorem bodyEvent_transfer {p : Fin 4} {es : List Event} (dc : Nat) (h : ∀ e ∈ es, dataEvent p e = true) :
    ∀ e ∈ (Event.irqOff :: (es ++ [.irqOn])), bodyEvent dc e = true := by
  intro e he
  simp only [List.mem_cons, List.mem_append, List.not_mem_nil, or_false] at he
  rcases he with rfl | he | rfl
  · rfl
  · exact bodyEvent_of_dataEvent dc (h e he)
  · rfl

theorem pin_gpioSetLevel (s : State) (g h : Nat) (v : Bool) (hg : h ≠ g) : (s.gpioSetLevel g v).pin h = s.pin h := by
  simp only [State.gpioSetLevel, State.emit, State.setPin, State.pin]
  simp only [List.getD_eq_getElem?_getD]
  rw [List.getElem?_set_ne (fun e => hg e.symm)]

theorem gpioSetLevel_periph (s : State) (g : Nat) (v : Bool) (q : Fin 4) : (s.gpioSetLevel g v).periph q = s.periph q := rfl

/-- A transfer with the mode signal set before it. -/
theorem body_of_transfer {p : Fin 4} {src : OutSrc} {dst : InDst} {len : Nat} {s t : State} {v : Bool} {es : List Event}
    {w : Exchanges} (h : Transferred p src dst len (s.gpioSetLevel s.params.dcPin v) t es w) (hm : t.mem = s.mem) :
    Body p s t (.pinLevel s.params.dcPin v :: .irqOff :: (es ++ [.irqOn])) (w.map fun x => ⟨v, x.1, x.2⟩) := by
  refine ⟨?_, ?_⟩
  · constructor
    case frame =>
      have hf := h.frame
      rw [hm] at hf
      rw [hf]
      simp [State.gpioSetLevel, State.emit, State.setPin]
    case length => rw [h.frame]; simp [State.gpioSetLevel, State.emit, State.setPin]
    case pins =>
      intro g hg
      have : t.pin g = (s.gpioSetLevel s.params.dcPin v).pin g := by
        unfold State.pin; rw [h.frame]
      rw [this, pin_gpioSetLevel _ _ _ _ hg]
    case others => exact h.others
    case config => exact h.config
    case idle => exact h.idle
    case noConfig =>
      have := configWrites_dataEvents h.events
      have e : configWrites (.pinLevel s.params.dcPin v :: .irqOff :: (es ++ [.irqOn])) = configWrites (es ++ [.irqOn]) := rfl
      rw [e, configWrites_append, this]; rfl
    case noDelay => intro ms; simp [noDelay_dataEvents h.events ms]
    case inner =>
      intro e he
      rcases List.mem_cons.1 he with rfl | he
      · simp [bodyEvent]
      · exact bodyEvent_transfer _ h.events e he
  · intro level es'
    refine ⟨v, ?_⟩
    have := h.carries s.params.dcPin v es'
    simpa [wireLog] using this

/-- The same for a transfer that leaves the mode signal alone. -/
theorem inside_of_transfer {p : Fin 4} {src : OutSrc} {dst : InDst} {len : Nat} {s t : State} {es : List Event}
    {w : Exchanges} (h : Transferred p src dst len s t es w) (hm : t.mem = s.mem) :
    Inside p s t (.irqOff :: (es ++ [.irqOn])) := by
  constructor
  case frame =>
    have hf := h.frame
    rw [hm] at hf
    rw [hf]
  case length => rw [h.frame]
  case pins => intro g _; unfold State.pin; rw [h.frame]
  case others => exact h.others
  case config => exact h.config
  case idle => exact h.idle
  case noConfig =>
    have e : configWrites (.irqOff :: (es ++ [.irqOn])) = configWrites (es ++ [.irqOn]) := rfl
    rw [e, configWrites_append, configWrites_dataEvents h.events]; rfl
  case noDelay => intro ms; simp [noDelay_dataEvents h.events ms]
  case inner => exact bodyEvent_transfer _ h.events

theorem storedMem_of_not_mem {dst : InDst} {off : Nat} {bs : List Byte} {s : State} (h : ∀ b, dst ≠ .mem b) :
    storedMem dst off bs s = s.mem := by
  cases dst with
  | mem b => exact absurd rfl (h b)
  | drop => rfl
  | staging => rfl

/-- What a phase of `n` bytes puts on the wire: all at one level, the bytes sent, as many received, in full chunks but
the last. -/
structure Phase (level : Bool) (bs : List Byte) (W : List WireXfer) : Prop where
  level : ∀ x ∈ W, x.level = level
  count : W.length = chunkCount bs.length
  sent : sentBits W = bitsOf bs
  received : (receivedBits W).length = 8 * bs.length
  shape : ∀ i, (h : i < W.length) →
    W[i].sent.length = 8 * min 64 (bs.length - 64 * i) ∧ W[i].received.length = 8 * min 64 (bs.length - 64 * i)

theorem chunkOut_bytes (s : State) (bs : List Byte) : chunkOut s (.bytes bs) 0 bs.length = bs := by
  apply List.ext_getElem
  · simp
  · intro k h1 h2
    simp [chunkOut, State.outByte, List.getD, h2]

theorem chunkOut_filler (s : State) (n : Nat) : chunkOut s .filler 0 n = List.replicate n 0xFF := by
  apply List.ext_getElem
  · simp
  · intro k h1 h2
    simp [chunkOut, State.outByte]

theorem phase_of_transferred {p : Fin 4} {src : OutSrc} {dst : InDst} {len : Nat} {s t : State} {es : List Event}
    {w : Exchanges} {level : Bool} {bs : List Byte} (h : Transferred p src dst len s t es w)
    (hb : bothPhases (s.periph p)) (hbs : chunkOut s src 0 len = bs) :
    Phase level bs (w.map fun x => ⟨level, x.1, x.2⟩) := by
  have hl : bs.length = len := by rw [← hbs]; simp
  constructor
  · intro x hx
    obtain ⟨y, _, rfl⟩ := List.mem_map.1 hx
    rfl
  · rw [List.length_map, h.count, hl]
  · have := h.sent hb
    rw [hbs] at this
    rw [← this]
    simp [sentBits, sentOf, List.flatMap_map]
  · have := h.received hb
    rw [hl, ← this]
    simp [receivedBits, recvOf, List.flatMap_map]
  · intro i hi
    have hi' : i < w.length := by simpa using hi
    have := h.shape hb i hi'
    rw [hl]
    simpa using this

/-- All that a phase on the display does, bit for bit: the mode signal, the events of its transfer, the data registers of the
display's peripheral, the cursor, the line, the staging buffer. -/
structure Phased (s t : State) (level : Bool) (bs : List Byte) (W : List WireXfer) : Prop where
  frame : t = { s with
    periphs := t.periphs, pins := s.pins.set s.params.dcPin { s.pin s.params.dcPin with level := level }
    off := bs.length, staging := t.staging, line := t.line, draws := t.draws
    trace := s.trace ++ phaseEvents s level bs W }
  others : ∀ q, q ≠ s.dispPeriph → t.periph q = s.periph q
  own : dataOnly (s.periph s.dispPeriph) (t.periph s.dispPeriph)
  idle : t.busy s.dispPeriph = false

theorem phased_of_transferred {src : OutSrc} {dst : InDst} {len : Nat} {s t : State} {level : Bool} {bs : List Byte}
    {es : List Event} {w : Exchanges}
    (h : Transferred s.dispPeriph src dst len (s.gpioSetLevel s.params.dcPin level) t es w)
    (hb : bothPhases (s.periph s.dispPeriph)) (hm : t.mem = s.mem) (hbs : chunkOut s src 0 len = bs) :
    Phased s t level bs (w.map fun x => ⟨level, x.1, x.2⟩) := by
  have hl : bs.length = len := by rw [← hbs]; simp
  have he := h.events_eq hb level
  have ho : chunkOut (s.gpioSetLevel s.params.dcPin level) src 0 len = bs := by rw [← hbs]; cases src <;> rfl
  rw [ho] at he
  refine ⟨?_, h.others, h.config, h.idle⟩
  have hf := h.frame
  rw [he, hm] at hf
  rw [hf, hl]
  simp only [State.gpioSetLevel, State.emit, State.setPin, phaseEvents, List.append_assoc, List.singleton_append]
  rfl

theorem receivedBits_map (w : Exchanges) (level : Bool) :
    receivedBits (w.map fun x => ⟨level, x.1, x.2⟩) = recvOf w := by
  simp [receivedBits, recvOf, List.flatMap_map]

/-- `cmdPhase` (R205). -/
theorem cmdPhase_ready {s : State} (c : Byte) (hr : periphReady s s.dispPeriph) (hb : bothPhases (s.periph s.dispPeriph)) :
    ∃ t es W, cmdPhase c s = .run t ∧ Body s.dispPeriph s t es W ∧ Phase s.params.dcCmdLevel [c] W ∧
      t.staging = s.staging ∧ Phased s t s.params.dcCmdLevel [c] W := by
  obtain ⟨t, es, w, ht, h⟩ := transferOn_ready (p := s.dispPeriph) (len := 1) (src := .bytes [c]) (dst := .drop)
    (s := s.cmdLevel) trivial hr
  exact ⟨t, _, _, ht, body_of_transfer h (h.mem hb), phase_of_transferred h hb (chunkOut_bytes _ [c]), h.staging hb,
    phased_of_transferred h hb (h.mem hb) (chunkOut_bytes s [c])⟩

/-- `dataPhase` (R205). -/
theorem dataPhase_ready {s : State} (bs : List Byte) (hr : periphReady s s.dispPeriph)
    (hb : bothPhases (s.periph s.dispPeriph)) :
    ∃ t es W, dataPhase bs s = .run t ∧ Body s.dispPeriph s t es W ∧ Phase s.params.dcDataLevel bs W ∧
      t.staging = s.staging ∧ Phased s t s.params.dcDataLevel bs W := by
  obtain ⟨t, es, w, ht, h⟩ := transferOn_ready (p := s.dispPeriph) (len := bs.length) (src := .bytes bs) (dst := .drop)
    (s := s.dataLevel) trivial hr
  exact ⟨t, _, _, ht, body_of_transfer h (h.mem hb), phase_of_transferred h hb (chunkOut_bytes _ bs), h.staging hb,
    phased_of_transferred h hb (h.mem hb) (chunkOut_bytes s bs)⟩

/-- The reading phase of a readback: filler out, `n` bytes into the staging buffer, which holds `n` bytes. -/
theorem readPhase_ready {s : State} (n : Nat) (hr : periphReady s s.dispPeriph)
    (hb : bothPhases (s.periph s.dispPeriph)) (hs : s.raw.length = n) :
    ∃ t es W, transferOn s.dispPeriph n .filler .staging s.dataLevel = .run t ∧ Body s.dispPeriph s t es W ∧
      Phase s.params.dcDataLevel (List.replicate n 0xFF) W ∧ t.raw = bytesOf (receivedBits W) ∧
      Phased s t s.params.dcDataLevel (List.replicate n 0xFF) W := by
  obtain ⟨t, es, w, ht, h⟩ := transferOn_ready (p := s.dispPeriph) (len := n) (src := .filler) (dst := .staging)
    (s := s.dataLevel) trivial hr
  refine ⟨t, _, _, ht, body_of_transfer h (h.mem hb), phase_of_transferred h hb (chunkOut_filler _ n), ?_,
    phased_of_transferred h hb (h.mem hb) (chunkOut_filler s n)⟩
  have hst := h.staging hb
  have hlen : (bytesOf (recvOf w)).length = n := by rw [bytesOf_length, h.received hb]; omega
  rw [receivedBits_map]
  simp only [storedStaging] at hst
  split at hst
  · next he =>
    rw [he] at hlen
    have hn : s.raw.length = 0 := by rw [hs, ← hlen]; rfl
    rw [State.raw, hst, he]
    exact List.length_eq_zero_iff.1 hn
  · rw [State.raw, hst]
    simp only [Option.getD_some, List.take_zero, List.nil_append, Nat.zero_add]
    rw [List.drop_of_length_le, List.append_nil]
    have : s.dataLevel.raw = s.raw := rfl
    rw [this, hs, hlen]

end Sys2Proof.Machine.Laws
end

