-- ==== Sys2Proof/Laws/Frame.lean ====
section
/-! SUPPORT. The frame of a display operation (R200): what `framed(u, body)` leaves when unit `u`'s frame can run to its end,
and the bodies of the display operations. -/

namespace Sys2Proof.Machine.Laws

open Sys2Proof.Safety

/-- What a whole frame leaves, `eb` the events of its body. -/
structure Framed (u : Nat) (s t : State) (eb : List Event) : Prop where
  frame : t = { s with
    periphs := t.periphs, units := t.units, last := some u, pins := t.pins, inRoute := t.inRoute, off := t.off,
    staging := t.staging, line := t.line, draws := t.draws, trace := t.trace }
  length : t.pins.length = s.pins.length
  away : ∀ h, h ∉ handoffPins s u → h ≠ s.params.dcPin → t.pin h = s.pin h
  ulength : t.units.length = s.units.length
  events : ∃ e1 e3, t.trace = s.trace ++ (.suspendAll :: (e1 ++ (eb ++ (e3 ++ [.resumeAll])))) ∧
    (∀ e ∈ e1, quiet e = true) ∧ (∀ e ∈ e3, quiet e = true) ∧
    configWrites e1 = (if held s u then [] else configEvents (s.params.periphOf u) (s.unit u)) ∧
    e3 = (if (s.unit u).cs = 0 then [] else [.pinLevel (s.unit u).cs true]) ∧
    (held s u → e1 = if (s.unit u).cs = 0 then [] else [.pinLevel (s.unit u).cs false]) ∧
    (∃ e0, e1 = e0 ++ csEvents (s.unit u) false ∧ ∀ e ∈ e0, setupEvent e = true) ∧
    ∀ e ∈ eb, bodyEvent s.params.dcPin e = true
  unit : t.unit u = { s.unit u with dirty := false }
  loser : ∀ v, v ≠ u → s.last = some v → s.params.inRange v = true → t.unit v = { s.unit v with dirty := true }
  rest : ∀ v, v ≠ u → ¬(s.last = some v ∧ s.params.inRange v = true) → t.unit v = s.unit v
  others : ∀ q, q ≠ s.params.periphOf u → t.periph q = s.periph q
  cheap : held s u → dataOnly (s.periph (s.params.periphOf u)) (t.periph (s.params.periphOf u))
  fresh : ¬held s u →
    dataOnly (configured (s.periph (s.params.periphOf u)) (s.unit u)) (t.periph (s.params.periphOf u))
  idle : t.busy (s.params.periphOf u) = false
  cs : (s.unit u).cs ≠ 0 → (s.unit u).cs < s.pins.length → (t.pin (s.unit u).cs).level = true

theorem deselect_ready {u : Nat} {s : State} (hd : (s.unit u).dirty = false)
    (hi : s.busy (s.params.periphOf u) = false) : deselectFlow u s = .run (s.driveCs u true) := by
  rw [deselectFlow_eq, hd, driveCs_eq]
  by_cases hc : (s.unit u).cs = 0
  · simp [hc]
  · simp [hc, waitIdle_idle hi, driveCs_eq]

theorem configWrites_of_regWrites {es : List Event} : configWrites es = configWrites (regWrites es) := by
  simp only [configWrites, regWrites, List.filter_filter]
  congr 1
  funext e
  cases e <;> simp

theorem configured_ready (q : PeriphRegs) (r : UnitRec) : shiftRule (configured q r) := ⟨rfl, rfl, rfl, rfl, rfl⟩
theorem configured_both (q : PeriphRegs) (r : UnitRec) : bothPhases (configured q r) := ⟨rfl, rfl⟩

theorem configWrites_select {u : Nat} {s t : State} {es : List Event} (h : Selected u s t es) :
    configWrites es = if held s u then [] else configEvents (s.params.periphOf u) (s.unit u) := by
  rw [configWrites_of_regWrites, h.writes]
  split <;> rfl

/-- A frame runs to its end when its body does: `R` is any fact about the body's events and the staging buffer. -/
theorem framed_ready {u : Nat} {s : State} {body : State → Flow} {R : List Event → Option (List Byte) → Prop}
    (hr : frameReady s u)
    (hbody : ∀ s1, s1.params = s.params → s1.mem = s.mem → s1.staging = s.staging → s1.line = s.line →
      s1.draws = s.draws → periphReady s1 (s.params.periphOf u) → bothPhases (s1.periph (s.params.periphOf u)) →
      (held s u → s1.periph (s.params.periphOf u) = s.periph (s.params.periphOf u)) →
      ∃ t es, body s1 = .run t ∧ Inside (s.params.periphOf u) s1 t es ∧ R es t.staging) :
    ∃ t eb, framed u body s = .run t ∧ Framed u s t eb ∧ R eb t.staging := by
  obtain ⟨hin, hl, ⟨hb, hst⟩, hm⟩ := hr
  obtain ⟨s1, e1, hs1, h1⟩ := select_ready (u := u) (s := s.suspendAllTasks) hin hl fun _ => hb
  have hp1 : s1.params = s.params := by rw [h1.frame]; rfl
  have hper : (s.suspendAllTasks).periph (s.params.periphOf u) = s.periph (s.params.periphOf u) := rfl
  have hheld : held s.suspendAllTasks u ↔ held s u := Iff.rfl
  have hq : periphReady s1 (s.params.periphOf u) ∧ bothPhases (s1.periph (s.params.periphOf u)) := by
    by_cases hh : held s u
    · have := h1.cheap hh
      rw [suspendAllTasks_params, hper] at this
      refine ⟨⟨⟨?_, by rw [hp1]; exact hst⟩, ?_⟩, ?_⟩
      · rw [State.busy, this]; exact hb
      · rw [this]; exact hm hh
      · rw [this]; exact (hm hh).2.2.2
    · have := h1.fresh hh
      rw [suspendAllTasks_params, hper] at this
      refine ⟨⟨⟨?_, by rw [hp1]; exact hst⟩, ?_⟩, ?_⟩
      · rw [State.busy, this]; exact hb
      · rw [this]; exact configured_ready _ _
      · rw [this]; exact configured_both _ _
  obtain ⟨t1, eb, ht1, h2, hR⟩ := hbody s1 hp1 (by rw [h1.frame]; rfl) (by rw [h1.frame]; rfl) (by rw [h1.frame]; rfl)
    (by rw [h1.frame]; rfl) hq.1 hq.2 (fun hh => h1.cheap hh)
  have htp : t1.params = s.params := by rw [h2.params, hp1]
  have htu : ∀ v, t1.unit v = s1.unit v := fun v => unit_congr h2.params (by rw [h2.frame]) v
  have hcs : (t1.unit u).cs = (s.unit u).cs := by rw [htu, h1.unit]; rfl
  have hdes : deselectFlow u t1 = .run (t1.driveCs u true) :=
    deselect_ready (by rw [htu, h1.unit]) (by rw [htp]; exact h2.idle)
  have hde := driveCs_eq t1 u true
  rw [hcs] at hde
  refine ⟨(t1.driveCs u true).resumeAllTasks, eb, ?_, ?_, ?_⟩
  · rw [framed, if_pos hin, hs1, andThen_run, ht1, andThen_run, hdes, andDo_run]
  · constructor
    case frame =>
      have hf := h2.frame
      rw [h1.frame] at hf
      have hx : t1 = { s with
          suspendDepth := s.suspendDepth + 1
          periphs := t1.periphs, units := t1.units, last := some u, pins := t1.pins, inRoute := t1.inRoute,
          off := t1.off, staging := t1.staging, line := t1.line, draws := t1.draws, trace := t1.trace } := by
        rw [hf]
        simp [State.suspendAllTasks, State.emit]
      rw [hde]
      split
      · rw [State.resumeAllTasks, State.emit, hx]
        simp
      · rw [State.resumeAllTasks, State.emit, State.gpioSetLevel, State.emit, State.setPin, hx]
        simp
    case length =>
      have : t1.pins.length = s.pins.length := by rw [h2.length, h1.length]; rfl
      rw [hde]; split
      · exact this
      · simp [State.gpioSetLevel, State.emit, State.setPin, State.resumeAllTasks, this]
    case away =>
      intro h hn hdc
      have h1a : s1.pin h = s.pin h := h1.away h hn
      have h2a : t1.pin h = s.pin h := by rw [h2.pins h (by rw [hp1]; exact hdc), h1a]
      have hd := pin_driveCs t1 u h true
      rw [hcs, if_neg] at hd
      · show (t1.driveCs u true).pin h = s.pin h
        rw [hd, h2a]
      · rintro ⟨e, hc, _⟩
        exact hn (List.mem_append_left _ (mem_nonzeroPins.2 ⟨e ▸ hc, .inr (.inr (.inr e))⟩))
    case ulength =>
      have : t1.units.length = s.units.length := by
        have e : t1.units = s1.units := by rw [h2.frame]
        rw [e, h1.ulength]; rfl
      rw [hde]; split <;> exact this
    case events =>
      refine ⟨e1, if (s.unit u).cs = 0 then [] else [.pinLevel (s.unit u).cs true], ?_, h1.quiet, ?_, ?_, rfl, ?_, h1.setup, ?_⟩
      · have e : t1.trace = s.trace ++ (.suspendAll :: (e1 ++ eb)) := by
          rw [h2.frame, h1.frame]
          simp [State.suspendAllTasks, State.emit]
        rw [hde]
        split
        · simp [State.resumeAllTasks, State.emit, e]
        · simp [State.resumeAllTasks, State.emit, State.gpioSetLevel, State.setPin, e]
      · intro e he
        split at he
        · simp at he
        · simp at he; subst he; rfl
      · have hh := configWrites_select h1
        exact hh
      · exact h1.final0
      · rw [← hp1]; exact h2.inner
    case unit =>
      have : ∀ v, ((t1.driveCs u true).resumeAllTasks).unit v = t1.unit v := by
        intro v; rw [hde]; split <;> rfl
      rw [this, htu, h1.unit]; rfl
    case loser =>
      intro v hv hlv hrv
      have : ∀ v, ((t1.driveCs u true).resumeAllTasks).unit v = t1.unit v := by
        intro v; rw [hde]; split <;> rfl
      rw [this, htu, h1.loser v hv hlv hrv]; rfl
    case rest =>
      intro v hv hn
      have : ∀ v, ((t1.driveCs u true).resumeAllTasks).unit v = t1.unit v := by
        intro v; rw [hde]; split <;> rfl
      rw [this, htu, h1.rest v hv hn]; rfl
    case others =>
      intro q hq
      have : ((t1.driveCs u true).resumeAllTasks).periph q = t1.periph q := by rw [hde]; split <;> rfl
      rw [this, h2.others q hq, h1.others q hq]; rfl
    case cheap =>
      intro hh
      have : ((t1.driveCs u true).resumeAllTasks).periph (s.params.periphOf u) = t1.periph (s.params.periphOf u) := by
        rw [hde]; split <;> rfl
      have hc := h1.cheap hh
      rw [suspendAllTasks_params, hper] at hc
      rw [this, ← hc]
      exact h2.config
    case fresh =>
      intro hh
      have : ((t1.driveCs u true).resumeAllTasks).periph (s.params.periphOf u) = t1.periph (s.params.periphOf u) := by
        rw [hde]; split <;> rfl
      have hc := h1.fresh hh
      rw [suspendAllTasks_params, hper] at hc
      rw [this]
      have := h2.config
      rw [hc] at this
      exact this
    case idle =>
      have : ((t1.driveCs u true).resumeAllTasks).busy (s.params.periphOf u) = t1.busy (s.params.periphOf u) := by
        rw [hde]; split <;> rfl
      rw [this]; exact h2.idle
    case cs =>
      intro hc hlt
      rw [hde, if_neg hc]
      have : (s.unit u).cs < t1.pins.length := by rw [h2.length, h1.length]; exact hlt
      simp [State.gpioSetLevel, State.emit, State.setPin, State.pin, State.resumeAllTasks, this]
  · have : ((t1.driveCs u true).resumeAllTasks).staging = t1.staging := by rw [hde]; split <;> rfl
    rw [this]; exact hR

/-- What a frame puts on the wire is what its body does, whatever the mode signal was before. -/
theorem Framed.wireFrom {u : Nat} {s t : State} {eb : List Event} {W : List WireXfer} (h : Framed u s t eb)
    (hw : ∀ level es', ∃ level', wireLog s.params.dcPin level (eb ++ es') = W ++ wireLog s.params.dcPin level' es')
    (level : Bool) : wireLog s.params.dcPin level (newEvents s t) = W := by
  obtain ⟨e1, e3, ht, h1, h3, _⟩ := h.events
  rw [newEvents, ht, List.drop_left]
  have h0 : ∀ l es, wireLog s.params.dcPin l (.suspendAll :: es) = wireLog s.params.dcPin l es := fun _ _ => rfl
  rw [h0]
  obtain ⟨l1, hl1⟩ := wireLog_quiet s.params.dcPin level e1 (eb ++ (e3 ++ [.resumeAll])) h1
  obtain ⟨l2, hl2⟩ := hw l1 (e3 ++ [.resumeAll])
  obtain ⟨l3, hl3⟩ := wireLog_quiet s.params.dcPin l2 e3 [.resumeAll] h3
  rw [hl1, hl2, hl3]
  simp [wireLog]

/-- The same, from the level the mode signal had. -/
theorem Framed.wire {u : Nat} {s t : State} {eb : List Event} {W : List WireXfer} (h : Framed u s t eb)
    (hw : ∀ level es', ∃ level', wireLog s.params.dcPin level (eb ++ es') = W ++ wireLog s.params.dcPin level' es') :
    wire s t = W := h.wireFrom hw _

/-- The wire log of events in a row. -/
theorem wireLog_append (dc : Nat) (level : Bool) (a b : List Event) :
    ∃ level', wireLog dc level (a ++ b) = wireLog dc level a ++ wireLog dc level' b := by
  induction a generalizing level with
  | nil => exact ⟨level, rfl⟩
  | cons e a ih =>
    cases e with
    | xfer =>
      simp only [List.cons_append, wireLog]
      obtain ⟨l, h⟩ := ih level
      exact ⟨l, by rw [h]⟩
    | _ => simp only [List.cons_append, wireLog]; exact ih _

/-- A frame ends with the resumption, and nothing in it is a delay when nothing in its body is. -/
theorem Framed.noDelay {u : Nat} {s t : State} {eb : List Event} (h : Framed u s t eb) (hd : ∀ ms, .delay ms ∉ eb) :
    ∃ es, t.trace = s.trace ++ (es ++ [.resumeAll]) ∧ ∀ ms, .delay ms ∉ es := by
  obtain ⟨e1, e3, ht, h1, h3, _⟩ := h.events
  refine ⟨.suspendAll :: (e1 ++ (eb ++ e3)), by rw [ht]; simp, ?_⟩
  intro ms hm
  simp only [List.mem_cons, List.mem_append, reduceCtorEq, false_or] at hm
  rcases hm with hm | hm | hm
  · simpa [quiet] using h1 _ hm
  · exact hd ms hm
  · simpa [quiet] using h3 _ hm

/-- What a frame writes into configuration fields. -/
theorem Framed.configWrites {u : Nat} {s t : State} {eb : List Event} (h : Framed u s t eb)
    (hn : Safety.configWrites eb = []) :
    Safety.configWrites (newEvents s t) = if held s u then [] else configEvents (s.params.periphOf u) (s.unit u) := by
  obtain ⟨e1, e3, ht, h1, h3, hc, he3, _⟩ := h.events
  rw [newEvents, ht, List.drop_left]
  have h0 : ∀ es, Safety.configWrites (.suspendAll :: es) = Safety.configWrites es := fun _ => rfl
  rw [h0, configWrites_append, configWrites_append, configWrites_append, hn, hc, he3]
  split <;> split <;> simp [Safety.configWrites]

/-- The events of a frame, in the words of the statements. -/
theorem Framed.one {u : Nat} {s t : State} {eb : List Event} (h : Framed u s t eb) : oneFrame s u (newEvents s t) := by
  obtain ⟨e1, e3, ht, _, _, _, he3, _, ⟨e0, he1, h0⟩, hb⟩ := h.events
  refine ⟨e0, eb, ?_, h0, hb⟩
  have : e3 = csEvents (s.unit u) true := he3
  rw [newEvents, ht, List.drop_left, he1, this]
  simp

/-- One frame, from a state with the same chip-select and the same mode signal. -/
theorem oneFrame_congr {s t : State} {u : Nat} {es : List Event} (hp : t.params = s.params)
    (hc : (t.unit u).cs = (s.unit u).cs) (h : oneFrame t u es) : oneFrame s u es := by
  unfold oneFrame csEvents at *
  rwa [hp, hc] at h

/-- What a frame leaves, in the words of the statements. -/
theorem Framed.leaves {u : Nat} {s t : State} {eb : List Event} (h : Framed u s t eb) : frameLeaves s t u where
  last := by rw [h.frame]
  unit := h.unit
  loser := h.loser
  rest v hv hl := h.rest v hv fun x => hl x.1
  others := h.others
  idle := h.idle
  fresh hh := (dataOnly_reflects (h.fresh hh) _).2 (configured_reflects _ _)
  pins := h.away
  cs := h.cs
  memory a := by rw [h.frame]
  locks := by rw [h.frame]
  irqDepth := by rw [h.frame]
  suspendDepth := by rw [h.frame]
  params := by rw [h.frame]
  tasks := by rw [h.frame]; exact ⟨rfl, rfl, rfl, rfl, rfl⟩

/-- Recording a result and freeing the staging buffer change nothing a frame leaves. -/
theorem leaves_ret {u : Nat} {s t : State} (h : frameLeaves s t u) (v : Value) : frameLeaves s (t.ret v) u :=
  ⟨h.last, h.unit, h.loser, h.rest, h.others, h.idle, h.fresh, h.pins, h.cs, h.memory, h.locks, h.irqDepth,
    h.suspendDepth, h.params, h.tasks⟩

theorem leaves_heapFree {u : Nat} {s t : State} (h : frameLeaves s t u) : frameLeaves s t.heapFree u :=
  ⟨h.last, h.unit, h.loser, h.rest, h.others, h.idle, h.fresh, h.pins, h.cs, h.memory, h.locks, h.irqDepth,
    h.suspendDepth, h.params, h.tasks⟩

theorem leaves_heapAlloc {u n : Nat} {s t : State} (h : frameLeaves (s.heapAlloc n) t u) : frameLeaves s t u :=
  ⟨h.last, h.unit, h.loser, h.rest, h.others, h.idle, h.fresh, h.pins, h.cs, h.memory, h.locks, h.irqDepth,
    h.suspendDepth, h.params, h.tasks⟩

/-- A frame on the display unit whose body runs to its end on a ready peripheral: `R` is any fact about what the body
puts on the wire and the staging buffer. -/
theorem displayFrame_ready {s : State} {body : State → Flow} {R : List WireXfer → Option (List Byte) → Prop}
    (hr : displayReady s)
    (h : ∀ s1, s1.params = s.params → s1.mem = s.mem → s1.staging = s.staging → periphReady s1 s1.dispPeriph →
      bothPhases (s1.periph s1.dispPeriph) →
      ∃ t es W, body s1 = .run t ∧ Body s1.dispPeriph s1 t es W ∧ R W t.staging) :
    ∃ t eb, framed s.params.dispUnit body s = .run t ∧ Framed s.params.dispUnit s t eb ∧ R (Safety.wire s t) t.staging ∧
      (∀ ms, .delay ms ∉ eb) ∧
      ∀ level, wireLog s.params.dcPin level (newEvents s t) = Safety.wire s t := by
  obtain ⟨t, eb, ht, hf, ⟨W, hw, hW⟩, hd⟩ := framed_ready (u := s.params.dispUnit) (body := body)
    (R := fun eb st => (∃ W, (∀ level es', ∃ level',
      wireLog s.params.dcPin level (eb ++ es') = W ++ wireLog s.params.dcPin level' es') ∧ R W st) ∧
      ∀ ms, .delay ms ∉ eb) hr (by
    intro s1 hp hm hst hl hd hrd hb _
    have hdp : s1.dispPeriph = s.params.periphOf s.params.dispUnit := by unfold State.dispPeriph; rw [hp]
    rw [← hdp] at hrd hb
    obtain ⟨t, es, W, h1, b, hR⟩ := h s1 hp hm hst hrd hb
    rw [hdp] at b
    refine ⟨t, es, h1, b.toInside, ⟨W, ?_, hR⟩, b.noDelay⟩
    rw [← hp]; exact b.wire)
  exact ⟨t, eb, ht, hf, by rw [hf.wire hw]; exact hW, hd, fun l => by rw [hf.wireFrom hw l, hf.wire hw]⟩

/-- After a frame the display is ready for another. -/
theorem ready_after {s t : State} (hr : displayReady s) (h : frameLeaves s t s.params.dispUnit)
    (hl : t.units.length = s.units.length)
    (hc : held s s.params.dispUnit → dataOnly (s.periph s.dispPeriph) (t.periph s.dispPeriph)) : displayReady t := by
  obtain ⟨a, b, ⟨c, d⟩, e⟩ := hr
  have hp := h.params
  unfold displayReady frameReady
  rw [hp]
  refine ⟨a, by rw [hl, b], ⟨h.idle, by rw [hp]; exact d⟩, fun _ => ?_⟩
  by_cases hh : held s s.params.dispUnit
  · have := e hh
    exact dataOnly_shiftRule (hc hh) this
  · obtain ⟨_, _, r3, r4, _, r6, _, r8, r9, _⟩ := h.fresh hh
    exact ⟨r6, r3, r4, r8, r9⟩

/-- Two frames on one unit leave what one does. -/
theorem leaves_trans {s t u : State} {d : Nat} (h1 : frameLeaves s t d) (h2 : frameLeaves t u d)
    (hc : dataOnly (t.periph (s.params.periphOf d)) (u.periph (s.params.periphOf d)))
    (hl : t.pins.length = s.pins.length) : frameLeaves s u d := by
  have hp := h1.params
  have hud : u.unit d = t.unit d := by rw [h2.unit, h1.unit]
  have hrest : ∀ v, v ≠ d → u.unit v = t.unit v := fun v hv =>
    h2.rest v hv (by rw [h1.last]; intro e; exact hv (Option.some.inj e).symm)
  exact {
    last := h2.last
    unit := by rw [hud, h1.unit]
    loser := fun v hv hl hr => by rw [hrest v hv, h1.loser v hv hl hr]
    rest := fun v hv hl => by rw [hrest v hv, h1.rest v hv hl]
    others := fun q hq => by rw [h2.others q (by rw [hp]; exact hq), h1.others q hq]
    idle := by have := h2.idle; rwa [hp] at this
    fresh := fun hh => (dataOnly_reflects hc _).2 (h1.fresh hh)
    pins := by
      intro g hg hdc
      rw [h2.pins g _ (by rw [hp]; exact hdc), h1.pins g hg hdc]
      intro hm
      refine hg (List.mem_append_left _ ?_)
      unfold handoffPins at hm
      rw [h1.last, h1.unit] at hm
      rcases List.mem_append.1 hm with hm | hm
      · exact hm
      · simp only [h1.unit] at hm
        exact hm
    cs := by
      intro hc hg
      have hcs : (t.unit d).cs = (s.unit d).cs := by rw [h1.unit]
      have := h2.cs (by rw [hcs]; exact hc) (by rw [hcs, hl]; exact hg)
      rwa [hcs] at this
    memory := fun a => by rw [h2.memory, h1.memory]
    locks := h2.locks.trans h1.locks
    irqDepth := h2.irqDepth.trans h1.irqDepth
    suspendDepth := h2.suspendDepth.trans h1.suspendDepth
    params := h2.params.trans hp
    tasks := by
      obtain ⟨a, b, c, d, e⟩ := h1.tasks
      obtain ⟨a', b', c', d', e'⟩ := h2.tasks
      exact ⟨a'.trans a, b'.trans b, c'.trans c, d'.trans d, e'.trans e⟩ }

/-- Moving the cursor of a table, before or after, changes nothing a frame leaves. -/
theorem leaves_advance_left {u n : Nat} {s t : State} (h : frameLeaves (s.advance n) t u) : frameLeaves s t u :=
  ⟨h.last, h.unit, h.loser, h.rest, h.others, h.idle, h.fresh, h.pins, h.cs, h.memory, h.locks, h.irqDepth,
    h.suspendDepth, h.params, h.tasks⟩

theorem leaves_advance {u n : Nat} {s t : State} (h : frameLeaves s t u) : frameLeaves s (t.advance n) u :=
  ⟨h.last, h.unit, h.loser, h.rest, h.others, h.idle, h.fresh, h.pins, h.cs, h.memory, h.locks, h.irqDepth,
    h.suspendDepth, h.params, h.tasks⟩

/-! ## Bodies -/

/-- A phase of at most 64 bytes is one transaction. -/
theorem Phase.single {level : Bool} {bs : List Byte} {W : List WireXfer} (h : Phase level bs W) (h1 : bs ≠ [])
    (h2 : bs.length ≤ 64) : ∃ r, W = [⟨level, bitsOf bs, r⟩] ∧ r.length = 8 * bs.length := by
  have hpos : 0 < bs.length := List.length_pos_iff.2 h1
  have hc : W.length = 1 := by rw [h.count]; unfold chunkCount; omega
  obtain ⟨x, rfl⟩ := List.length_eq_one_iff.1 hc
  obtain ⟨l, a, b⟩ := x
  have hlev := h.level ⟨l, a, b⟩ (by simp)
  have hs := h.sent
  have hrec := h.received
  simp [sentBits, receivedBits] at hs hrec hlev
  exact ⟨b, by rw [hs, hlev], hrec⟩

/-- A command byte and its payload. -/
structure CommandPhase (s : State) (c : Byte) (bs : List Byte) (W : List WireXfer) : Prop where
  split : ∃ r D, W = ⟨s.params.dcCmdLevel, bitsOf [c], r⟩ :: D ∧ r.length = 8 ∧ Phase s.params.dcDataLevel bs D

/-- All that a command and its payload do on the display, bit for bit: two phases one after the other, and nothing else. -/
structure Emits (s t : State) (c : Byte) (bs : List Byte) (W : List WireXfer) : Prop where
  frame : ∃ x D, W = x :: D ∧ t = { s with
    periphs := t.periphs, pins := s.pins.set s.params.dcPin { s.pin s.params.dcPin with level := s.params.dcDataLevel }
    off := bs.length, staging := t.staging, line := t.line, draws := t.draws
    trace := s.trace ++ (phaseEvents s s.params.dcCmdLevel [c] [x] ++ phaseEvents s s.params.dcDataLevel bs D) }
  others : ∀ q, q ≠ s.dispPeriph → t.periph q = s.periph q
  own : dataOnly (s.periph s.dispPeriph) (t.periph s.dispPeriph)
  idle : t.busy s.dispPeriph = false

/-- A command phase, then a data phase. -/
theorem Phased.emits {s t u : State} {c : Byte} {bs : List Byte} {x : WireXfer} {D : List WireXfer}
    (h1 : Phased s t s.params.dcCmdLevel [c] [x]) (h2 : Phased t u s.params.dcDataLevel bs D) : Emits s u c bs (x :: D) := by
  have hp : t.params = s.params := by rw [h1.frame]
  have hd : t.dispPeriph = s.dispPeriph := by unfold State.dispPeriph; rw [hp]
  have hcfg : (t.periph s.dispPeriph).cfg = (s.periph s.dispPeriph).cfg := dataOnly_cfg h1.own
  have hev : phaseEvents t s.params.dcDataLevel bs D = phaseEvents s s.params.dcDataLevel bs D := by
    simp only [phaseEvents, hp, hd, hcfg]
  have hpin : t.pins = s.pins.set s.params.dcPin { s.pin s.params.dcPin with level := s.params.dcCmdLevel } := by rw [h1.frame]
  have hpins : t.pins.set s.params.dcPin { t.pin s.params.dcPin with level := s.params.dcDataLevel } =
      s.pins.set s.params.dcPin { s.pin s.params.dcPin with level := s.params.dcDataLevel } := by
    rw [hpin, List.set_set]
    by_cases hlt : s.params.dcPin < s.pins.length
    · have : t.pin s.params.dcPin = { s.pin s.params.dcPin with level := s.params.dcCmdLevel } := by
        unfold State.pin; rw [hpin]; simp [State.pin, List.getD, hlt]
      rw [this]
    · rw [List.set_eq_of_length_le (by omega), List.set_eq_of_length_le (by omega)]
  refine ⟨⟨x, D, rfl, ?_⟩, ?_, dataOnly_trans h1.own (hd ▸ h2.own), hd ▸ h2.idle⟩
  · have hf := h2.frame
    rw [hev, hp, hpins, h1.frame, List.append_assoc] at hf
    exact hf
  · intro q hq
    rw [h2.others q (by rw [hd]; exact hq), h1.others q hq]

theorem commandBody_ready {s : State} {k : State → Flow} (c : Byte) (bs : List Byte) (hr : periphReady s s.dispPeriph)
    (hb : bothPhases (s.periph s.dispPeriph)) (hk : ∀ t, t.params = s.params → k t = dataPhase bs t) :
    ∃ t es W, (cmdPhase c s).andThen k = .run t ∧ Body s.dispPeriph s t es W ∧ CommandPhase s c bs W ∧
      t.staging = s.staging ∧ Emits s t c bs W := by
  obtain ⟨t1, e1, W1, h1, b1, p1, g1, x1⟩ := cmdPhase_ready c hr hb
  have hd : t1.dispPeriph = s.dispPeriph := by unfold State.dispPeriph; rw [b1.params]
  obtain ⟨t2, e2, W2, h2, b2, p2, g2, x2⟩ := dataPhase_ready (s := t1) bs (by rw [hd]; exact b1.ready hr)
    (by rw [hd]; exact b1.both hb)
  rw [hd] at b2
  rw [b1.params] at p2 x2
  obtain ⟨r, rfl, hr8⟩ := p1.single (by simp) (by simp)
  refine ⟨t2, _, _, ?_, b1.trans b2, ⟨r, W2, rfl, by simpa using hr8, p2⟩, by rw [g2, g1], x1.emits x2⟩
  rw [h1, andThen_run, hk t1 b1.params, h2]

theorem casetBody_ready {s : State} (x1 x2 : Half) (hr : periphReady s s.dispPeriph)
    (hb : bothPhases (s.periph s.dispPeriph)) :
    ∃ t es W, casetBody x1 x2 s = .run t ∧ Body s.dispPeriph s t es W ∧ CommandPhase s s.params.cmdCaset (win x1 x2) W ∧
      t.staging = s.staging ∧ Emits s t s.params.cmdCaset (win x1 x2) W := commandBody_ready _ _ hr hb fun _ _ => rfl

theorem pasetBody_ready {s : State} (y1 y2 : Half) (hr : periphReady s s.dispPeriph)
    (hb : bothPhases (s.periph s.dispPeriph)) :
    ∃ t es W, pasetBody y1 y2 s = .run t ∧ Body s.dispPeriph s t es W ∧ CommandPhase s s.params.cmdPaset (win y1 y2) W ∧
      t.staging = s.staging ∧ Emits s t s.params.cmdPaset (win y1 y2) W := commandBody_ready _ _ hr hb fun _ _ => rfl

theorem ramwrBody_ready {s : State} (bs : List Byte) (hr : periphReady s s.dispPeriph)
    (hb : bothPhases (s.periph s.dispPeriph)) :
    ∃ t es W, ramwrBody bs s = .run t ∧ Body s.dispPeriph s t es W ∧ CommandPhase s s.params.cmdRamwr bs W ∧
      t.staging = s.staging ∧ Emits s t s.params.cmdRamwr bs W := commandBody_ready _ _ hr hb fun _ _ => rfl

theorem win_length (a b : Half) : (win a b).length = 4 := rfl

/-- The four transactions of a window (R204). -/
def WindowLog (s : State) (x1 y1 x2 y2 : Half) (W : List WireXfer) : Prop :=
  ∃ r1 r2 r3 r4, W = [⟨s.params.dcCmdLevel, bitsOf [s.params.cmdCaset], r1⟩, ⟨s.params.dcDataLevel, bitsOf (win x1 x2), r2⟩,
    ⟨s.params.dcCmdLevel, bitsOf [s.params.cmdPaset], r3⟩, ⟨s.params.dcDataLevel, bitsOf (win y1 y2), r4⟩]

theorem windowBody_ready {s : State} (x1 y1 x2 y2 : Half) (hr : periphReady s s.dispPeriph)
    (hb : bothPhases (s.periph s.dispPeriph)) :
    ∃ t es W, windowBody x1 y1 x2 y2 s = .run t ∧ Body s.dispPeriph s t es W ∧ WindowLog s x1 y1 x2 y2 W ∧
      t.staging = s.staging := by
  obtain ⟨t1, e1, W1, h1, b1, ⟨r1, D1, hW1, _, p1⟩, g1, _⟩ := casetBody_ready x1 x2 hr hb
  have hd : t1.dispPeriph = s.dispPeriph := by unfold State.dispPeriph; rw [b1.params]
  obtain ⟨t2, e2, W2, h2, b2, ⟨r3, D2, hW2, _, p2⟩, g2, _⟩ := pasetBody_ready (s := t1) y1 y2
    (by rw [hd]; exact b1.ready hr) (by rw [hd]; exact b1.both hb)
  rw [hd] at b2
  rw [b1.params] at hW2 p2
  obtain ⟨r2, hD1, _⟩ := p1.single (by simp [win]) (by simp [win])
  obtain ⟨r4, hD2, _⟩ := p2.single (by simp [win]) (by simp [win])
  refine ⟨t2, _, _, ?_, b1.trans b2, ⟨r1, r2, r3, r4, ?_⟩, by rw [g2, g1]⟩
  · rw [windowBody, h1, andThen_run, h2]
  · rw [hW1, hW2, hD1, hD2]; rfl

/-- The memory-read command and the bytes received after it (R210). -/
theorem ramrdBody_ready {s : State} (n : Nat) (hr : periphReady s s.dispPeriph)
    (hb : bothPhases (s.periph s.dispPeriph)) (hs : s.raw.length = n) :
    ∃ t es W, ramrdBody n s = .run t ∧ Body s.dispPeriph s t es W ∧
      ∃ r D, W = ⟨s.params.dcCmdLevel, bitsOf [s.params.cmdRamrd], r⟩ :: D ∧
        Phase s.params.dcDataLevel (List.replicate n 0xFF) D ∧ t.raw = bytesOf (receivedBits D) ∧
        Emits s t s.params.cmdRamrd (List.replicate n 0xFF) W := by
  obtain ⟨t1, e1, W1, h1, b1, p1, g1, x1⟩ := cmdPhase_ready s.params.cmdRamrd hr hb
  have hd : t1.dispPeriph = s.dispPeriph := by unfold State.dispPeriph; rw [b1.params]
  obtain ⟨t2, e2, W2, h2, b2, p2, g2, x2⟩ := readPhase_ready (s := t1) n (by rw [hd]; exact b1.ready hr)
    (by rw [hd]; exact b1.both hb) (by rw [State.raw, g1]; exact hs)
  rw [hd] at b2
  rw [b1.params] at p2 x2
  obtain ⟨r, rfl, hr8⟩ := p1.single (by simp) (by simp)
  refine ⟨t2, _, _, ?_, b1.trans b2, r, W2, rfl, p2, g2, x1.emits x2⟩
  rw [ramrdBody, h1, andThen_run, h2]

/-- The body of a readback: the window, the read command, the bytes (R210, R211). -/
theorem readBody_ready {s : State} (x1 y1 x2 y2 : Half) (n : Nat) (hr : periphReady s s.dispPeriph)
    (hb : bothPhases (s.periph s.dispPeriph)) (hs : s.raw.length = n) :
    ∃ t es W, (windowBody x1 y1 x2 y2 s).andThen (ramrdBody n) = .run t ∧ Body s.dispPeriph s t es W ∧
      ∃ W0 r D, W = W0 ++ ⟨s.params.dcCmdLevel, bitsOf [s.params.cmdRamrd], r⟩ :: D ∧ WindowLog s x1 y1 x2 y2 W0 ∧
        Phase s.params.dcDataLevel (List.replicate n 0xFF) D ∧ t.raw = bytesOf (receivedBits D) := by
  obtain ⟨t1, e1, W1, h1, b1, p1, g1⟩ := windowBody_ready x1 y1 x2 y2 hr hb
  have hd : t1.dispPeriph = s.dispPeriph := by unfold State.dispPeriph; rw [b1.params]
  obtain ⟨t2, e2, W2, h2, b2, r, D, hW2, p2, g2, _⟩ := ramrdBody_ready (s := t1) n (by rw [hd]; exact b1.ready hr)
    (by rw [hd]; exact b1.both hb) (by rw [State.raw, g1]; exact hs)
  rw [hd] at b2
  rw [b1.params] at p2 hW2
  refine ⟨t2, _, _, ?_, b1.trans b2, W1, r, D, by rw [hW2], p1, p2, g2⟩
  rw [h1, andThen_run, h2]

/-- The body of a touch sample (R214). -/
theorem touchBody_ready {s : State} (c : Byte) (hr : periphReady s (s.params.periphOf s.params.touchUnit))
    (hb : bothPhases (s.periph (s.params.periphOf s.params.touchUnit))) (hs : s.raw.length = 2) :
    ∃ t es, touchBody c s = .run t ∧ Inside (s.params.periphOf s.params.touchUnit) s t es ∧
      (∀ e ∈ es, ∀ g v, e ≠ .pinLevel g v) ∧
      ∃ r q, Carries es [(bitsOf [c], r), (bitsOf [0xFF, 0xFF], q)] ∧ q.length = 16 ∧ t.raw = bytesOf q := by
  obtain ⟨t1, e1, w1, h1, x1⟩ := transferOn_ready (p := s.params.periphOf s.params.touchUnit) (len := 1)
    (src := .bytes [c]) (dst := .drop) (s := s) trivial hr
  have i1 := inside_of_transfer x1 (x1.mem hb)
  have hp1 : t1.params = s.params := i1.params
  obtain ⟨t2, e2, w2, h2, x2⟩ := transferOn_ready (p := s.params.periphOf s.params.touchUnit) (len := 2)
    (src := .filler) (dst := .staging) (s := t1) trivial (i1.ready hr)
  have hb1 := i1.both hb
  have i2 := inside_of_transfer x2 (x2.mem hb1)
  have hc1 : w1.length = 1 := by rw [x1.count]; rfl
  have hc2 : w2.length = 1 := by rw [x2.count]; rfl
  obtain ⟨⟨a1, r⟩, rfl⟩ := List.length_eq_one_iff.1 hc1
  obtain ⟨⟨a2, q⟩, rfl⟩ := List.length_eq_one_iff.1 hc2
  have hs1 := x1.sent hb
  have hs2 := x2.sent hb1
  have hq := x2.received hb1
  rw [show (1 : Nat) = [c].length from rfl, chunkOut_bytes] at hs1
  rw [chunkOut_filler] at hs2
  simp only [sentOf, recvOf, List.flatMap_cons, List.flatMap_nil, List.append_nil] at hs1 hs2 hq
  subst hs1; subst hs2
  refine ⟨t2, _, ?_, i1.trans i2, ?_, r, q, x1.carries.append x2.carries, hq, ?_⟩
  · rw [touchBody, h1, andThen_run, hp1, h2]
  · have hde : ∀ {es : List Event}, (∀ e ∈ es, dataEvent (s.params.periphOf s.params.touchUnit) e = true) →
        ∀ e ∈ (Event.irqOff :: (es ++ [.irqOn])), ∀ g v, e ≠ .pinLevel g v := by
      intro es h e he g v hv
      subst hv
      simp only [List.mem_cons, List.mem_append, List.not_mem_nil, or_false, reduceCtorEq, false_or] at he
      have := h _ he
      simp [dataEvent] at this
    intro e he
    rcases List.mem_append.1 he with he | he
    · exact hde x1.events e he
    · exact hde x2.events e he
  · have hst := x2.staging hb1
    have h1s := x1.staging hb
    have hlen : (bytesOf q).length = 2 := by rw [bytesOf_length, hq]
    simp only [storedStaging, recvOf, List.flatMap_cons, List.flatMap_nil, List.append_nil] at hst h1s
    rw [if_neg (by intro h; rw [h] at hlen; simp at hlen)] at hst
    rw [State.raw, hst]
    simp only [Option.getD_some, List.take_zero, List.nil_append, Nat.zero_add]
    rw [List.drop_of_length_le, List.append_nil]
    rw [State.raw, h1s, hlen]
    exact Nat.le_of_eq hs

/-! ## An init record -/

/-- What the frames of an init record leave (R231): the command byte and the arguments on the wire, the cursor past
them. -/
structure RecordSent (c : Byte) (args : List Byte) (s t : State) (es : List Event) : Prop where
  wire : commandWithPayload s (Safety.wire s t) c args
  leaves : frameLeaves s t s.params.dispUnit
  units : t.units.length = s.units.length
  pins : t.pins.length = s.pins.length
  task : t.task = { s.task with seq := { s.task.seq with tp := s.task.seq.tp + 2 + args.length } }
  ready : displayReady t
  mem : t.mem = s.mem
  trace : t.trace = s.trace ++ (es ++ [.resumeAll])
  noDelay : ∀ ms, .delay ms ∉ es
  frames : ∃ f1 f2, newEvents s t = f1 ++ f2 ∧ oneFrame s s.params.dispUnit f1 ∧
    (∃ r, wireLog s.params.dcPin (s.pin s.params.dcPin).level f1 = [⟨s.params.dcCmdLevel, bitsOf [c], r⟩]) ∧
    if args = [] then f2 = [] else oneFrame s s.params.dispUnit f2

theorem recordBody_ready {s : State} (c : Byte) (args : List Byte) (hr : displayReady s) :
    ∃ t es, recordBody c args s = .run t ∧ RecordSent c args s t es := by
  have hra : displayReady (s.advance 2) := hr
  obtain ⟨t1, eb, ht, hf, ⟨r, hW⟩, hdl, _⟩ := displayFrame_ready (s := s.advance 2) (body := cmdPhase c)
    (R := fun W _ => ∃ r, W = [⟨s.params.dcCmdLevel, bitsOf [c], r⟩]) hra (by
    intro s1 hp hm hst h1 h2
    obtain ⟨t, es, W, h1, b, ph, _⟩ := cmdPhase_ready (s := s1) c h1 h2
    obtain ⟨r, hW, hr⟩ := ph.single (by simp) (by simp)
    exact ⟨t, es, W, h1, b, r, by rw [hW, hp]; rfl⟩)
  have hl1 : frameLeaves s t1 s.params.dispUnit := leaves_advance_left hf.leaves
  have hd1 : displayReady t1 := ready_after hr hl1 hf.ulength fun h => hf.cheap h
  have htask : t1.task = (s.advance 2).task := by rw [hf.frame]
  have hmem : t1.mem = s.mem := by rw [hf.frame]; rfl
  obtain ⟨es1, htr1, hnd1⟩ := hf.noDelay hdl
  by_cases ha : args = []
  · subst ha
    refine ⟨t1.advance 0, es1, ?_, ⟨⟨r, [], hW, by simp, rfl, rfl⟩, leaves_advance hl1, hf.ulength, hf.length, ?_, hd1,
      hmem, htr1, hnd1, newEvents s t1, [], ?_, hf.one, ⟨r, hW⟩, by simp⟩⟩
    · rw [recordBody, sendCommand, ht]; rfl
    · simp only [State.advance, State.setSeq, htask, List.length_nil, Nat.add_zero]
    · rw [List.append_nil]; rfl
  · have hpp : t1.params = s.params := hl1.params
    obtain ⟨t2, eb2, ht2, hf2, hph, hdl2, hlev⟩ := displayFrame_ready (s := t1.advance args.length)
      (body := dataPhase args) (R := fun W _ => Phase s.params.dcDataLevel args W) hd1 (by
      intro s1 hp _ _ h1 h2
      obtain ⟨t, es, W, a, b, c, d⟩ := dataPhase_ready args h1 h2
      exact ⟨t, es, W, a, b, by rw [hp] at c; rw [← hpp]; exact c⟩)
    obtain ⟨es2, htr2, hnd2⟩ := hf2.noDelay hdl2
    have hdp : (t1.advance args.length).params.dispUnit = s.params.dispUnit := by rw [advance_params, hpp]
    have hl2 : frameLeaves t1 t2 s.params.dispUnit := by
      have := leaves_advance_left hf2.leaves; rw [hdp] at this; exact this
    have hcf : dataOnly (t1.periph (s.params.periphOf s.params.dispUnit))
        (t2.periph (s.params.periphOf s.params.dispUnit)) := by
      have := hf2.cheap (by rw [hdp]; exact ⟨hl1.last, by show (t1.unit _).dirty = false; rw [hl1.unit]⟩)
      rw [hdp, advance_params, hpp] at this
      exact this
    have hne : newEvents s t2 = newEvents s t1 ++ newEvents (t1.advance args.length) t2 := by
      simp only [newEvents]
      rw [htr2]
      simp [State.advance, State.setSeq, htr1]
    refine ⟨t2, es1 ++ [.resumeAll] ++ es2, ?_, ?_, leaves_trans hl1 hl2 hcf hf.length, ?_, ?_, ?_, ?_, ?_, ?_, ?_, ?_⟩
    · rw [recordBody, sendCommand, ht, andThen_run, sendData, if_neg (by simpa using ha), ht2]
    · refine ⟨r, Safety.wire (t1.advance args.length) t2, ?_, hph.level, hph.sent, hph.count⟩
      have hw1 : wireLog s.params.dcPin (s.pin s.params.dcPin).level (newEvents s t1) =
          [⟨s.params.dcCmdLevel, bitsOf [c], r⟩] := hW
      obtain ⟨l, hl⟩ := wireLog_append s.params.dcPin (s.pin s.params.dcPin).level (newEvents s t1)
        (newEvents (t1.advance args.length) t2)
      have hlev' := hlev l
      rw [advance_params, hpp] at hlev'
      rw [Safety.wire, hne, hl, hw1, hlev']
      rfl
    · rw [hf2.ulength]; exact hf.ulength
    · rw [hf2.length]; exact hf.length
    · have : t2.task = (t1.advance args.length).task := by rw [hf2.frame]
      rw [this]
      simp only [State.advance, State.setSeq, htask]
    · exact ready_after (s := t1) hd1 (by rw [hpp]; exact hl2) hf2.ulength fun _ => by
        rw [State.dispPeriph, hpp]; exact hcf
    · have : t2.mem = (t1.advance args.length).mem := by rw [hf2.frame]
      rw [this]; exact hmem
    · rw [htr2]; simp [htr1]
    · intro ms; simp [hnd1 ms, hnd2 ms]
    · refine ⟨_, _, hne, hf.one, ⟨r, hW⟩, ?_⟩
      rw [if_neg ha]
      have h2 := hf2.one
      rw [hdp] at h2
      exact oneFrame_congr (by rw [advance_params, hpp]) (by show (t1.unit _).cs = _; rw [hl1.unit]) h2

end Sys2Proof.Machine.Laws
end

