-- ==== Sys2Proof/Laws/Always.lean ====
section
/-! SUPPORT. What holds of every run of the micro-steps, on whatever state: what a transfer, a select, a frame keep wherever
they end. -/

namespace Sys2Proof.Machine.Laws

open Sys2Proof.Safety

/-- What every operation keeps: parameters, other tasks, the schedule, the issued operations, the operation in progress, the
sizes of the tables, the canonical form of memory; the trace only grows. -/
structure Keeps (s t : State) : Prop where
  params : t.params = s.params
  others : t.others = s.others
  sched : t.sched = s.sched
  issue : t.task.issue = s.task.issue
  op : t.task.op = s.task.op
  loopback : t.line.loopback = s.line.loopback
  units : t.units.length = s.units.length
  pins : t.pins.length = s.pins.length
  locks : t.locks.length = s.locks.length
  mem : s.mem.wf = true → t.mem.wf = true
  trace : ∃ es, t.trace = s.trace ++ es

theorem Keeps.refl (s : State) : Keeps s s := ⟨rfl, rfl, rfl, rfl, rfl, rfl, rfl, rfl, rfl, id, [], by simp⟩

theorem Keeps.trans {s t u : State} (h1 : Keeps s t) (h2 : Keeps t u) : Keeps s u := by
  obtain ⟨e1, h1t⟩ := h1.trace
  obtain ⟨e2, h2t⟩ := h2.trace
  exact ⟨h2.params.trans h1.params, h2.others.trans h1.others, h2.sched.trans h1.sched, h2.issue.trans h1.issue,
    h2.op.trans h1.op, h2.loopback.trans h1.loopback, h2.units.trans h1.units, h2.pins.trans h1.pins, h2.locks.trans h1.locks,
    fun h => h2.mem (h1.mem h), e1 ++ e2, by rw [h2t, h1t, List.append_assoc]⟩

/-- What a transfer on peripheral `p` keeps besides: everything but the data registers of `p`, the cursor, the buffers,
the line and the draws. -/
structure Engine (p : Fin 4) (s t : State) : Prop where
  keeps : Keeps s t
  units : t.units = s.units
  last : t.last = s.last
  pins : t.pins = s.pins
  inRoute : t.inRoute = s.inRoute
  locks : t.locks = s.locks
  suspendDepth : t.suspendDepth = s.suspendDepth
  seq : t.task.seq = s.task.seq
  result : t.task.result = s.task.result
  others : ∀ q, q ≠ p → t.periph q = s.periph q
  config : dataOnly (s.periph p) (t.periph p)

theorem Engine.refl (p : Fin 4) (s : State) : Engine p s s :=
  ⟨.refl s, rfl, rfl, rfl, rfl, rfl, rfl, rfl, rfl, fun _ _ => rfl, rfl⟩

theorem Engine.trans {p : Fin 4} {s t u : State} (h1 : Engine p s t) (h2 : Engine p t u) : Engine p s u :=
  ⟨h1.keeps.trans h2.keeps, h2.units.trans h1.units, h2.last.trans h1.last, h2.pins.trans h1.pins,
    h2.inRoute.trans h1.inRoute, h2.locks.trans h1.locks, h2.suspendDepth.trans h1.suspendDepth,
    h2.seq.trans h1.seq, h2.result.trans h1.result,
    fun q hq => (h2.others q hq).trans (h1.others q hq), dataOnly_trans h1.config h2.config⟩

theorem engine_writeReg (s : State) (p : Fin 4) (f : RegField) (v : Word) (h : dataField f = true) :
    Engine p s (s.writeReg p f v) := by
  refine ⟨⟨rfl, rfl, rfl, rfl, rfl, rfl, rfl, rfl, rfl, id, _, rfl⟩, rfl, rfl, rfl, rfl, rfl, rfl, rfl, rfl, ?_, ?_⟩
  · intro q hq; exact periph_writeReg_ne s f v hq
  · rw [periph_writeReg_self]
    cases f with
    | cmdUsr =>
      simp only [PeriphRegs.put, if_true, PeriphRegs.start]
      split <;> rfl
    | _ => first | rfl | simp [dataField] at h

theorem engine_packFrom (p : Fin 4) (src : OutSrc) (off n k i : Nat) (s : State) :
    Engine p s (packFrom p src off n k i s) := by
  induction k generalizing i s with
  | zero => exact .refl p s
  | succ k ih => exact (engine_writeReg s p _ _ rfl).trans (ih _ _)

theorem engine_trigger (p : Fin 4) (src : OutSrc) (off n m : Nat) (s : State) :
    Engine p s ((pack p src off n s).trigger p m) :=
  (((engine_packFrom p src off n _ 0 s).trans (engine_writeReg _ p _ _ rfl)).trans (engine_writeReg _ p _ _ rfl)).trans
    (engine_writeReg _ p _ _ rfl)

theorem transact_periph (s : State) (p q : Fin 4) (r : RegFile) : (s.transact p r).periph q =
    if q = p then { s.periph p with
      w := storeReceived (s.lineBits r.outbits r.nin) r.nin (s.periph p).w
      flight := none } else s.periph q :=
  periph_set s _ p q _ rfl

theorem engine_transact (p : Fin 4) (s : State) (r : RegFile) : Engine p s (s.transact p r) := by
  refine ⟨⟨rfl, rfl, rfl, rfl, rfl, rfl, rfl, rfl, rfl, id, _, rfl⟩, rfl, rfl, rfl, rfl, rfl, rfl, rfl, rfl, ?_, ?_⟩
  · intro q hq; rw [transact_periph, if_neg hq]
  · rw [transact_periph, if_pos rfl]; rfl

theorem keeps_storeIn (s : State) (dst : InDst) (off : Nat) (bs : List Byte) : Keeps s (s.storeIn dst off bs) := by
  cases dst with
  | drop => exact .refl s
  | staging => exact ⟨rfl, rfl, rfl, rfl, rfl, rfl, rfl, rfl, rfl, id, [], by simp⟩
  | mem base => exact ⟨rfl, rfl, rfl, rfl, rfl, rfl, rfl, rfl, rfl, fun h => writeBytes_wf _ _ h, [], by simp⟩

theorem engine_chunkEnd (p : Fin 4) (s : State) (dst : InDst) (n : Nat) : Engine p s (s.chunkEnd p dst n) := by
  have hk := keeps_storeIn s dst s.off (s.chunkBytes p n)
  refine ⟨⟨hk.params, hk.others, hk.sched, hk.issue, hk.op, hk.loopback, hk.units, hk.pins, hk.locks, hk.mem, hk.trace⟩,
    ?_, ?_, ?_, ?_, ?_, ?_, ?_, ?_, fun q _ => ?_, ?_⟩ <;> cases dst <;> rfl

/-- What the busy-wait can do (R71): it goes on with the peripheral idle, or it hangs on a stuck one. -/
theorem waitIdle_all (p : Fin 4) (s : State) :
    FlowAll (fun t => Engine p s t ∧ t.irqDepth = s.irqDepth ∧ t.task = s.task ∧ t.busy p = false)
      (fun t => t = { s with task := { s.task with spin := some p } } ∧ s.busy p = true ∧ s.params.isStuck p = true)
      (waitIdle p s) := by
  rw [waitIdle]
  split
  · next hb =>
    split
    · next hs => exact ⟨rfl, hb, hs⟩
    · rw [shifter]
      split
      · next hf => exact ⟨.refl p s, rfl, rfl, by rw [State.busy, PeriphRegs.usr, hf]; rfl⟩
      · next r hf =>
        split
        · refine ⟨engine_transact p s r, rfl, rfl, ?_⟩
          rw [State.busy, transact_periph, if_pos rfl]; rfl
        · trivial
  · next hb => exact ⟨.refl p s, rfl, rfl, by simpa using hb⟩

/-- Where a wait on `p` hung: the task spins, the peripheral is stuck. -/
structure Hung (p : Fin 4) (s t : State) : Prop where
  engine : Engine p s t
  spin : t.task.spin = some p
  stuck : s.params.isStuck p = true
  busy : t.busy p = true

theorem hung_spin (p : Fin 4) (s t : State) (h : t = { s with task := { s.task with spin := some p } })
    (hb : s.busy p = true) (hs : s.params.isStuck p = true) : Hung p s t ∧ t.irqDepth = s.irqDepth := by
  subst h
  exact ⟨⟨⟨⟨rfl, rfl, rfl, rfl, rfl, rfl, rfl, rfl, rfl, id, [], by simp⟩, rfl, rfl, rfl, rfl, rfl, rfl, rfl, rfl,
    fun _ _ => rfl, rfl⟩, rfl, hs, hb⟩, rfl⟩

/-- What a chunk can do. -/
theorem chunk_all (p : Fin 4) (len : Nat) (src : OutSrc) (dst : InDst) (s : State) :
    FlowAll (fun t => Engine p s t ∧ t.irqDepth = s.irqDepth ∧ t.task = s.task ∧ t.busy p = false)
      (fun t => Hung p s t ∧ t.irqDepth = s.irqDepth) (chunk p len src dst s) := by
  rw [chunk]
  refine ((waitIdle_all p s).mono (fun _ h => h) (fun t h => hung_spin p s t h.1 h.2.1 h.2.2)).andThen ?_
  rintro s1 ⟨e1, i1, k1, _⟩
  have e2 := engine_trigger p src s1.off (s1.chunkLen len) (s1.chunkLen len) s1
  have i2 : ((pack p src s1.off (s1.chunkLen len) s1).trigger p (s1.chunkLen len)).irqDepth = s1.irqDepth := by
    rw [pack_trigger_frame]
  have k2 : ((pack p src s1.off (s1.chunkLen len) s1).trigger p (s1.chunkLen len)).task = s1.task := by
    rw [pack_trigger_frame]
  generalize (pack p src s1.off (s1.chunkLen len) s1).trigger p (s1.chunkLen len) = s2 at *
  refine ((waitIdle_all p s2).mono (fun _ h => h) (fun t h => ?_)).andDo ?_
  · obtain ⟨hh, hi⟩ := hung_spin p s2 t h.1 h.2.1 h.2.2
    refine ⟨⟨(e1.trans e2).trans hh.engine, hh.spin, ?_, hh.busy⟩, hi.trans (i2.trans i1)⟩
    rw [← (e1.trans e2).keeps.params]; exact hh.stuck
  · rintro s3 ⟨e3, i3, k3, b3⟩
    refine ⟨((e1.trans e2).trans e3).trans (engine_chunkEnd p s3 dst _), ?_, ?_, ?_⟩
    · rw [← i1, ← i2, ← i3]; cases dst <;> rfl
    · rw [← k1, ← k2, ← k3]; cases dst <;> rfl
    · rw [← b3]; cases dst <;> rfl

theorem chunks_all (p : Fin 4) (len : Nat) (src : OutSrc) (dst : InDst) (k : Nat) (s : State) :
    FlowAll (fun t => Engine p s t ∧ t.irqDepth = s.irqDepth ∧ t.task = s.task ∧ (s.busy p = false → t.busy p = false))
      (fun t => Hung p s t ∧ t.irqDepth = s.irqDepth) (chunks p len src dst k s) := by
  induction k generalizing s with
  | zero => exact ⟨.refl p s, rfl, rfl, id⟩
  | succ k ih =>
    refine (chunk_all p len src dst s).andThen ?_
    rintro s1 ⟨e1, i1, k1, b1⟩
    refine (ih s1).mono ?_ ?_
    · rintro t ⟨e2, i2, k2, b2⟩
      exact ⟨e1.trans e2, i2.trans i1, k2.trans k1, fun _ => b2 b1⟩
    · rintro t ⟨h, i2⟩
      exact ⟨⟨e1.trans h.engine, h.spin, by rw [← e1.keeps.params]; exact h.stuck, h.busy⟩, i2.trans i1⟩

/-- What a transfer can do (R172): it ends with the interrupt bracket closed, or hangs with it open. -/
theorem transferOn_all (p : Fin 4) (len : Nat) (src : OutSrc) (dst : InDst) (s : State) :
    FlowAll (fun t => Engine p s t ∧ t.irqDepth = s.irqDepth ∧ t.task = s.task ∧ (s.busy p = false → t.busy p = false))
      (fun t => Hung p s t ∧ t.irqDepth = s.irqDepth + 1) (transferOn p len src dst s) := by
  have e0 : Engine p s { s.disableInterrupts with off := 0 } :=
    ⟨⟨rfl, rfl, rfl, rfl, rfl, rfl, rfl, rfl, rfl, id, _, rfl⟩, rfl, rfl, rfl, rfl, rfl, rfl, rfl, rfl, fun _ _ => rfl, rfl⟩
  have e9 : ∀ t : State, Engine p t t.enableInterrupts := fun t =>
    ⟨⟨rfl, rfl, rfl, rfl, rfl, rfl, rfl, rfl, rfl, id, _, rfl⟩, rfl, rfl, rfl, rfl, rfl, rfl, rfl, rfl, fun _ _ => rfl, rfl⟩
  refine ((chunks_all p len src dst (chunkCount len) { s.disableInterrupts with off := 0 }).mono (fun _ h => h) ?_).andDo ?_
  · rintro t ⟨h, i⟩
    exact ⟨⟨e0.trans h.engine, h.spin, h.stuck, h.busy⟩, i⟩
  · rintro t ⟨e, i, k, b⟩
    refine ⟨(e0.trans e).trans (e9 t), ?_, k, b⟩
    show t.irqDepth - 1 = s.irqDepth
    rw [i]; rfl

/-! ## Every operation -/

/-- What every sequence of micro-steps of the bus operations keeps besides: the locks, the recorded result. -/
structure Flowed (s t : State) : Prop where
  keeps : Keeps s t
  locks : t.locks = s.locks
  result : t.task.result = s.task.result

theorem Flowed.refl (s : State) : Flowed s s := ⟨.refl s, rfl, rfl⟩

theorem Flowed.trans {s t u : State} (h1 : Flowed s t) (h2 : Flowed t u) : Flowed s u :=
  ⟨h1.keeps.trans h2.keeps, h2.locks.trans h1.locks, h2.result.trans h1.result⟩

theorem Engine.flowed {p : Fin 4} {s t : State} (h : Engine p s t) : Flowed s t := ⟨h.keeps, h.locks, h.result⟩

/-- A hung end: the task spins on a stuck peripheral that is busy. -/
def Spins (s t : State) : Prop := ∃ p, t.task.spin = some p ∧ s.params.isStuck p = true ∧ t.busy p = true

/-- Where a sequence that begins in `s` can end: with the brackets as they were, or hung. -/
def FlowOk (s : State) (f : Flow) : Prop :=
  FlowAll (fun t => Flowed s t ∧ t.irqDepth = s.irqDepth ∧ t.suspendDepth = s.suspendDepth ∧ t.task.spin = s.task.spin)
    (fun t => Flowed s t ∧ Spins s t) f

theorem FlowOk.run {s t : State} (h : Flowed s t) (h1 : t.irqDepth = s.irqDepth) (h2 : t.suspendDepth = s.suspendDepth)
    (h3 : t.task.spin = s.task.spin) : FlowOk s (.run t) := ⟨h, h1, h2, h3⟩

theorem FlowOk.refl (s : State) : FlowOk s (.run s) := .run (.refl s) rfl rfl rfl

theorem FlowOk.andThen {s : State} {f : Flow} {k : State → Flow} (h : FlowOk s f) (hk : ∀ t, FlowOk t (k t)) :
    FlowOk s (f.andThen k) := by
  refine FlowAll.andThen h ?_
  rintro t ⟨h0, h1, h2, h3⟩
  refine (hk t).mono ?_ ?_
  · rintro u ⟨g0, g1, g2, g3⟩
    exact ⟨h0.trans g0, g1.trans h1, g2.trans h2, g3.trans h3⟩
  · rintro u ⟨g0, p, g1, g2, g3⟩
    exact ⟨h0.trans g0, p, g1, by rw [← h0.keeps.params]; exact g2, g3⟩

theorem FlowOk.after {s t : State} {f : Flow} (h : FlowOk s (.run t)) (hk : FlowOk t f) : FlowOk s f := by
  obtain ⟨h0, h1, h2, h3⟩ := h
  refine FlowAll.mono hk ?_ ?_
  · rintro u ⟨g0, g1, g2, g3⟩
    exact ⟨h0.trans g0, g1.trans h1, g2.trans h2, g3.trans h3⟩
  · rintro u ⟨g0, p, g1, g2, g3⟩
    exact ⟨h0.trans g0, p, g1, by rw [← h0.keeps.params]; exact g2, g3⟩

theorem flowOk_pinCall {s t : State} (h : PinCall s t) : FlowOk s (.run t) := by
  obtain ⟨es, h⟩ := h
  have hf := h.frame
  refine ⟨⟨⟨?_, ?_, ?_, ?_, ?_, ?_, ?_, h.length, ?_, ?_, es, ?_⟩, ?_, ?_⟩, ?_, ?_, ?_⟩ <;> (rw [hf])
  exact id

theorem flowOk_waitIdle (p : Fin 4) (s : State) : FlowOk s (waitIdle p s) := by
  refine (waitIdle_all p s).mono ?_ ?_
  · rintro t ⟨e, i, k, _⟩
    exact ⟨e.flowed, i, e.suspendDepth, by rw [k]⟩
  · rintro t ⟨h, hb, hs⟩
    obtain ⟨hh, _⟩ := hung_spin p s t h hb hs
    exact ⟨hh.engine.flowed, p, hh.spin, hs, hh.busy⟩

theorem flowOk_transferOn (p : Fin 4) (len : Nat) (src : OutSrc) (dst : InDst) (s : State) :
    FlowOk s (transferOn p len src dst s) := by
  refine (transferOn_all p len src dst s).mono ?_ ?_
  · rintro t ⟨e, i, k, _⟩
    exact ⟨e.flowed, i, e.suspendDepth, by rw [k]⟩
  · rintro t ⟨h, _⟩
    exact ⟨h.engine.flowed, p, h.spin, h.stuck, h.busy⟩

/-- A change of records, marker and pins. -/
theorem flowOk_handoff (u : Nat) (s : State) : FlowOk s (.run (s.handoff u)) := by
  obtain ⟨es, h⟩ := handoff_spec u s
  have hf := h.frame
  have hu : (s.handoff u).units.length = s.units.length := by
    rw [h.units]; split
    · rfl
    · exact handoffMarks_units_length s u
  refine ⟨⟨⟨?_, ?_, ?_, ?_, ?_, ?_, hu, h.length, ?_, ?_, es, ?_⟩, ?_, ?_⟩, ?_, ?_, ?_⟩ <;> (rw [hf])
  exact id

theorem flowOk_reprogram (u : Nat) (s : State) : FlowOk s (reprogram u s) := by
  rw [reprogram]
  refine (flowOk_waitIdle _ s).andThen (k := fun t => .run _) fun t => ?_
  have hw : ∀ (x : State) (p : Fin 4) (f : RegField) (v : Word), FlowOk x (.run (x.writeReg p f v)) := fun x p f v =>
    .run ⟨⟨rfl, rfl, rfl, rfl, rfl, rfl, rfl, rfl, rfl, id, _, rfl⟩, rfl, rfl⟩ rfl rfl rfl
  have hc : ∀ (x : State) (p : Fin 4) (r : UnitRec), FlowOk x (.run (x.writeConfig p r)) := by
    intro x p r
    rw [writeConfig_eq]
    exact .run ⟨⟨rfl, rfl, rfl, rfl, rfl, rfl, rfl, rfl, rfl, id, _, rfl⟩, rfl, rfl⟩ rfl rfl rfl
  have hd : ∀ (x : State) (d : Bool), FlowOk x (.run (x.setDirty u d)) := by
    intro x d
    have hl := setDirty_units_length x u d
    rw [setDirty_eq]
    exact .run ⟨⟨rfl, rfl, rfl, rfl, rfl, rfl, hl, rfl, rfl, id, [], by simp⟩, rfl, rfl⟩ rfl rfl rfl
  exact ((flowOk_pinCall (pinUp_attach t u).call).after (hc _ _ _)).after (hd _ _)

theorem flowOk_select (u : Nat) (s : State) : FlowOk s (selectFlow u s) := by
  rw [selectFlow_eq]
  refine (flowOk_handoff u s).after (FlowOk.andThen (k := fun t => .run _) ?_ fun t => ?_)
  · split
    · exact flowOk_reprogram u _
    · exact .refl _
  · exact flowOk_pinCall (pinCall_driveCs t u false)

theorem flowOk_deselect (u : Nat) (s : State) : FlowOk s (deselectFlow u s) := by
  rw [deselectFlow_eq]
  split
  · exact .refl s
  split
  · exact .refl s
  · exact (flowOk_waitIdle _ s).andThen (k := fun t => .run _) fun t => flowOk_pinCall (pinCall_driveCs t u true)

theorem flowOk_framed (u : Nat) (body : State → Flow) (hb : ∀ t, FlowOk t (body t)) (s : State) :
    FlowOk s (framed u body s) := by
  rw [framed]
  split
  · have h0 : Flowed s s.suspendAllTasks := ⟨⟨rfl, rfl, rfl, rfl, rfl, rfl, rfl, rfl, rfl, id, _, rfl⟩, rfl, rfl⟩
    have h9 : ∀ t : State, Flowed t t.resumeAllTasks := fun t =>
      ⟨⟨rfl, rfl, rfl, rfl, rfl, rfl, rfl, rfl, rfl, id, _, rfl⟩, rfl, rfl⟩
    have h := ((flowOk_select u s.suspendAllTasks).andThen hb).andThen (flowOk_deselect u)
    have h' : FlowAll (fun t => Flowed s t ∧ t.irqDepth = s.irqDepth ∧ t.suspendDepth = s.suspendDepth + 1 ∧
        t.task.spin = s.task.spin) (fun t => Flowed s t ∧ Spins s t)
        (((selectFlow u s.suspendAllTasks).andThen body).andThen (deselectFlow u)) := by
      refine FlowAll.mono h ?_ ?_
      · rintro t ⟨g0, g1, g2, g3⟩
        exact ⟨h0.trans g0, g1, g2, g3⟩
      · rintro t ⟨g0, g1⟩
        exact ⟨h0.trans g0, g1⟩
    refine h'.andDo ?_
    rintro t ⟨g0, g1, g2, g3⟩
    refine ⟨g0.trans (h9 t), g1, ?_, g3⟩
    show t.suspendDepth - 1 = s.suspendDepth
    rw [g2]; rfl
  · trivial

theorem flowOk_cmdPhase (c : Byte) (s : State) : FlowOk s (cmdPhase c s) :=
  (flowOk_pinCall (pinCall_setLevel s _ _)).after (flowOk_transferOn _ _ _ _ _)

theorem flowOk_dataPhase (bs : List Byte) (s : State) : FlowOk s (dataPhase bs s) :=
  (flowOk_pinCall (pinCall_setLevel s _ _)).after (flowOk_transferOn _ _ _ _ _)

theorem flowOk_caset (x1 x2 : Half) (s : State) : FlowOk s (casetBody x1 x2 s) :=
  (flowOk_cmdPhase _ s).andThen (flowOk_dataPhase _)

theorem flowOk_paset (y1 y2 : Half) (s : State) : FlowOk s (pasetBody y1 y2 s) :=
  (flowOk_cmdPhase _ s).andThen (flowOk_dataPhase _)

theorem flowOk_window (x1 y1 x2 y2 : Half) (s : State) : FlowOk s (windowBody x1 y1 x2 y2 s) :=
  (flowOk_caset _ _ s).andThen (flowOk_paset _ _)

theorem flowOk_ramwr (bs : List Byte) (s : State) : FlowOk s (ramwrBody bs s) :=
  (flowOk_cmdPhase _ s).andThen (flowOk_dataPhase _)

theorem flowOk_ramrd (n : Nat) (s : State) : FlowOk s (ramrdBody n s) :=
  (flowOk_cmdPhase _ s).andThen fun t => (flowOk_pinCall (pinCall_setLevel t _ _)).after (flowOk_transferOn _ _ _ _ _)

theorem flowOk_touch (c : Byte) (s : State) : FlowOk s (touchBody c s) :=
  (flowOk_transferOn _ _ _ _ s).andThen fun t => flowOk_transferOn _ _ _ _ t

theorem flowOk_sendCommand (c : Byte) (s : State) : FlowOk s (sendCommand c s) :=
  flowOk_framed _ _ (flowOk_cmdPhase c) s

theorem flowOk_sendData (bs : List Byte) (s : State) : FlowOk s (sendData bs s) := by
  rw [sendData]
  split
  · exact .refl s
  · exact flowOk_framed _ _ (flowOk_dataPhase bs) s

theorem flowOk_heapAlloc (s : State) (n : Nat) : FlowOk s (.run (s.heapAlloc n)) :=
  .run ⟨⟨rfl, rfl, rfl, rfl, rfl, rfl, rfl, rfl, rfl, id, [], by simp [State.heapAlloc]⟩, rfl, rfl⟩ rfl rfl rfl

theorem flowOk_advance (s : State) (n : Nat) : FlowOk s (.run (s.advance n)) :=
  .run ⟨⟨rfl, rfl, rfl, rfl, rfl, rfl, rfl, rfl, rfl, id, [], by simp [State.advance, State.setSeq]⟩, rfl, rfl⟩ rfl rfl rfl

theorem flowOk_record (cmd : Byte) (args : List Byte) (s : State) : FlowOk s (recordBody cmd args s) :=
  ((flowOk_advance s 2).after (flowOk_sendCommand cmd _)).andThen fun t =>
    (flowOk_advance t args.length).after (flowOk_sendData args _)

/-! ## What no bus operation writes: the caller's memory, the records but for their dirty flags -/

/-- The caller's memory is as it was, and so is every record but for its dirty flag. -/
structure Records (s t : State) : Prop where
  params : t.params = s.params
  mem : t.mem = s.mem
  unit : ∀ v, { t.unit v with dirty := (s.unit v).dirty } = s.unit v

theorem Records.refl (s : State) : Records s s := ⟨rfl, rfl, fun _ => rfl⟩

theorem Records.trans {s t u : State} (h1 : Records s t) (h2 : Records t u) : Records s u := by
  refine ⟨h2.params.trans h1.params, h2.mem.trans h1.mem, fun v => ?_⟩
  have a := h1.unit v
  have b := h2.unit v
  rw [← a, ← b]

theorem Records.same {s t : State} (hp : t.params = s.params) (hm : t.mem = s.mem) (hu : t.units = s.units) :
    Records s t := ⟨hp, hm, fun v => by rw [unit_congr hp hu]⟩

theorem records_setDirty (s : State) (u : Nat) (d : Bool) : Records s (s.setDirty u d) := by
  by_cases hr : s.params.inRange u = true
  · refine ⟨setDirty_params _ _ _, setDirty_mem _ _ _, fun v => ?_⟩
    by_cases hv : v = u
    · subst hv
      unfold State.setDirty State.setUnit
      rw [if_pos hr]
      simp only [State.unit, hr, if_true]
      by_cases hl : v - s.params.firstUnit < s.units.length
      · simp [hl]
      · rw [List.set_eq_of_length_le (Nat.not_lt.1 hl)]
    · show { (s.setUnit u _).unit v with dirty := (s.unit v).dirty } = s.unit v
      rw [unit_setUnit_ne s _ hv]
  · unfold State.setDirty State.setUnit
    rw [if_neg hr]
    exact .refl s

theorem records_pinCall {s t : State} (h : PinCall s t) : Records s t := by
  obtain ⟨es, h⟩ := h
  exact .same h.params (by rw [h.frame]) h.units

/-- Wherever the flow ends, the memory and the records are as they were in `s`. -/
def RecOk (s : State) (f : Flow) : Prop := FlowAll (Records s) (Records s) f

theorem RecOk.andThen {s : State} {f : Flow} {k : State → Flow} (h : RecOk s f) (hk : ∀ t, RecOk t (k t)) :
    RecOk s (f.andThen k) :=
  FlowAll.andThen h fun t h0 => (hk t).mono (fun _ h1 => h0.trans h1) fun _ h1 => h0.trans h1

theorem RecOk.after {s t : State} {f : Flow} (h : Records s t) (hk : RecOk t f) : RecOk s f :=
  FlowAll.mono hk (fun _ h1 => h.trans h1) fun _ h1 => h.trans h1

theorem recOk_waitIdle (p : Fin 4) (s : State) : RecOk s (waitIdle p s) := by
  rw [waitIdle]
  split
  · split
    · exact Records.same rfl rfl rfl
    · rw [shifter]
      split
      · exact Records.refl s
      split
      · exact Records.same rfl rfl rfl
      · trivial
  · exact .refl s

theorem records_packFrom (p : Fin 4) (src : OutSrc) (off n k i : Nat) (s : State) :
    Records s (packFrom p src off n k i s) := by
  rw [packFrom_eq]
  exact .same rfl rfl rfl

theorem recOk_chunk (p : Fin 4) (len : Nat) (src : OutSrc) (dst : InDst) (hd : ∀ b, dst ≠ .mem b) (s : State) :
    RecOk s (chunk p len src dst s) := by
  rw [chunk]
  refine (recOk_waitIdle p s).andThen fun s1 => ?_
  refine RecOk.after (t := (pack p src s1.off (s1.chunkLen len) s1).trigger p (s1.chunkLen len)) ?_
    ((recOk_waitIdle p _).andThen (k := fun t => .run _) fun t => ?_)
  · rw [pack_trigger_frame]
    exact .same rfl rfl rfl
  · cases dst with
    | mem b => exact absurd rfl (hd b)
    | drop => exact Records.same rfl rfl rfl
    | staging => exact Records.same rfl rfl rfl

theorem recOk_transferOn (p : Fin 4) (len : Nat) (src : OutSrc) (dst : InDst) (hd : ∀ b, dst ≠ .mem b) (s : State) :
    RecOk s (transferOn p len src dst s) := by
  have hc : ∀ (k : Nat) (t : State), RecOk t (chunks p len src dst k t) := by
    intro k
    induction k with
    | zero => exact fun t => Records.refl t
    | succ k ih => exact fun t => (recOk_chunk p len src dst hd t).andThen ih
  exact RecOk.after (t := { s.disableInterrupts with off := 0 }) (.same rfl rfl rfl)
    ((hc _ _).andThen (k := fun t => .run _) fun t => Records.same rfl rfl rfl)

theorem records_handoff (u : Nat) (s : State) : Records s (s.handoff u) := by
  unfold State.handoff
  split
  · exact .refl s
  · refine (records_pinCall (pinUp_selectUnit s u).call).trans (Records.trans (t := (s.selectUnit u).handoffMarks u) ?_ (.same rfl rfl rfl))
    unfold State.handoffMarks
    split
    · exact (records_setDirty _ _ _).trans (records_setDirty _ _ _)
    · exact records_setDirty _ _ _

theorem recOk_select (u : Nat) (s : State) : RecOk s (selectFlow u s) := by
  rw [selectFlow_eq]
  refine RecOk.after (records_handoff u s) (RecOk.andThen (k := fun t => .run _) ?_ fun t => records_pinCall (pinCall_driveCs t u false))
  split
  · rw [reprogram]
    refine (recOk_waitIdle _ _).andThen (k := fun t => .run _) fun t => ?_
    refine Records.trans ?_ (records_setDirty _ _ _)
    rw [writeConfig_eq]
    exact (records_pinCall (pinUp_attach t u).call).trans (.same rfl rfl rfl)
  · exact Records.refl _

theorem recOk_deselect (u : Nat) (s : State) : RecOk s (deselectFlow u s) := by
  rw [deselectFlow_eq]
  split
  · exact Records.refl s
  split
  · exact Records.refl s
  · exact (recOk_waitIdle _ s).andThen (k := fun t => .run _) fun t => records_pinCall (pinCall_driveCs t u true)

theorem recOk_framed (u : Nat) (body : State → Flow) (hb : ∀ t, RecOk t (body t)) (s : State) :
    RecOk s (framed u body s) := by
  rw [framed]
  split
  · exact RecOk.after (t := s.suspendAllTasks) (.same rfl rfl rfl)
      ((((recOk_select u _).andThen hb).andThen (recOk_deselect u)).andThen (k := fun t => .run _) fun t => Records.same rfl rfl rfl)
  · trivial

theorem recOk_cmdPhase (c : Byte) (s : State) : RecOk s (cmdPhase c s) :=
  RecOk.after (records_pinCall (pinCall_setLevel s _ _)) (recOk_transferOn _ _ _ _ (by simp) _)

theorem recOk_dataPhase (bs : List Byte) (s : State) : RecOk s (dataPhase bs s) :=
  RecOk.after (records_pinCall (pinCall_setLevel s _ _)) (recOk_transferOn _ _ _ _ (by simp) _)

theorem recOk_window (x1 y1 x2 y2 : Half) (s : State) : RecOk s (windowBody x1 y1 x2 y2 s) :=
  ((recOk_cmdPhase _ s).andThen (recOk_dataPhase _)).andThen fun t => (recOk_cmdPhase _ t).andThen (recOk_dataPhase _)

theorem recOk_ramwr (bs : List Byte) (s : State) : RecOk s (ramwrBody bs s) :=
  (recOk_cmdPhase _ s).andThen (recOk_dataPhase _)

theorem recOk_ramrd (n : Nat) (s : State) : RecOk s (ramrdBody n s) :=
  (recOk_cmdPhase _ s).andThen fun t =>
    RecOk.after (records_pinCall (pinCall_setLevel t _ _)) (recOk_transferOn _ _ _ _ (by simp) _)

theorem recOk_touch (c : Byte) (s : State) : RecOk s (touchBody c s) :=
  (recOk_transferOn _ _ _ _ (by simp) s).andThen fun t => recOk_transferOn _ _ _ _ (by simp) t

theorem recOk_sendCommand (c : Byte) (s : State) : RecOk s (sendCommand c s) := recOk_framed _ _ (recOk_cmdPhase c) s

theorem recOk_sendData (bs : List Byte) (s : State) : RecOk s (sendData bs s) := by
  rw [sendData]
  split
  · exact Records.refl s
  · exact recOk_framed _ _ (recOk_dataPhase bs) s

theorem recOk_record (cmd : Byte) (args : List Byte) (s : State) : RecOk s (recordBody cmd args s) :=
  RecOk.andThen (RecOk.after (t := s.advance 2) (.same rfl rfl rfl) (recOk_sendCommand cmd _)) fun t =>
    RecOk.after (t := t.advance args.length) (.same rfl rfl rfl) (recOk_sendData args _)

/-! ## Which pins a frame touches -/

theorem Records.nonzeroPins {s t : State} (h : Records s t) (v : Nat) :
    Safety.nonzeroPins (t.unit v) = Safety.nonzeroPins (s.unit v) := by
  rw [← h.unit v]; rfl

theorem Records.cs {s t : State} (h : Records s t) (v : Nat) : (t.unit v).cs = (s.unit v).cs := by rw [← h.unit v]

/-- The pins outside a list are as they were. -/
def Away (gs : List Nat) (s t : State) : Prop := ∀ h, h ∉ gs → t.pin h = s.pin h

theorem Away.trans {gs : List Nat} {s t u : State} (h1 : Away gs s t) (h2 : Away gs t u) : Away gs s u :=
  fun h hn => (h2 h hn).trans (h1 h hn)

theorem Away.same {gs : List Nat} {s t : State} (h : t.pins = s.pins) : Away gs s t := fun g _ => pin_congr h g

theorem away_driveCs {gs : List Nat} (s : State) (u : Nat) (v : Bool) (h : ∀ g ∈ nonzeroPins (s.unit u), g ∈ gs) :
    Away gs s (s.driveCs u v) := by
  intro g hg
  rw [pin_driveCs, if_neg]
  rintro ⟨e, hc, _⟩
  exact hg (h g (mem_nonzeroPins.2 ⟨e ▸ hc, .inr (.inr (.inr e))⟩))

theorem away_select (u : Nat) (s : State) :
    FlowAll (Away (handoffPins s u) s) (Away (handoffPins s u) s) (selectFlow u s) := by
  obtain ⟨es, h0⟩ := handoff_spec u s
  have r0 := records_handoff u s
  have hin : ∀ g ∈ nonzeroPins (s.unit u), g ∈ handoffPins s u := fun g hg => List.mem_append_left _ hg
  rw [selectFlow_eq]
  have hrep : FlowAll (fun t => Away (handoffPins s u) s t ∧ Records s t) (Away (handoffPins s u) s)
      (if ((s.handoff u).unit u).dirty then reprogram u (s.handoff u) else .run (s.handoff u)) := by
    split
    · rw [reprogram]
      have hw := waitIdle_all ((s.handoff u).params.periphOf u) (s.handoff u)
      have hr := recOk_waitIdle ((s.handoff u).params.periphOf u) (s.handoff u)
      generalize waitIdle ((s.handoff u).params.periphOf u) (s.handoff u) = f at hw hr
      cases f with
      | refuse r => trivial
      | hung t =>
        rw [flowAll_hung] at hw
        rw [andDo_hung, flowAll_hung, hw.1]
        exact fun g hg => h0.away g hg
      | run t =>
        rw [flowAll_run] at hw
        have hrt : Records (s.handoff u) t := hr
        obtain ⟨e1, h1⟩ := reprogram_body u t
        have hpp : (s.handoff u).params.periphOf u = t.params.periphOf u := by rw [hrt.params]
        rw [andDo_run, flowAll_run, hpp]
        refine ⟨fun g hg => ?_, ?_⟩
        · rw [h1.away g (by rw [hrt.nonzeroPins, r0.nonzeroPins]; exact fun x => hg (hin g x)),
            pin_congr hw.1.pins, h0.away g hg]
        · refine (r0.trans hrt).trans (Records.trans ?_ (records_setDirty _ _ _))
          rw [writeConfig_eq]
          exact (records_pinCall (pinUp_attach t u).call).trans (.same rfl rfl rfl)
    · exact ⟨h0.away, r0⟩
  refine hrep.andDo ?_
  rintro t ⟨ha, hr⟩
  exact ha.trans (away_driveCs t u false fun g hg => hin g (hr.nonzeroPins u ▸ hg))

/-- A frame whose body leaves every pin alone touches only the pins of its unit and of the unit that held the bus. -/
theorem away_framed (u : Nat) (body : State → Flow) (s : State) (hb : ∀ t, RecOk t (body t))
    (hp : ∀ t, FlowAll (fun t' => t'.pins = t.pins) (fun t' => t'.pins = t.pins) (body t)) :
    FlowAll (Away (handoffPins s u) s) (Away (handoffPins s u) s) (framed u body s) := by
  rw [framed]
  split
  · have hin : ∀ g ∈ nonzeroPins (s.unit u), g ∈ handoffPins s u := fun g hg => List.mem_append_left _ hg
    have h1 := away_select u s.suspendAllTasks
    have r1 := recOk_select u s.suspendAllTasks
    have key : FlowAll (fun t => Away (handoffPins s u) s t ∧ Records s t) (Away (handoffPins s u) s)
        (selectFlow u s.suspendAllTasks) := by
      generalize selectFlow u s.suspendAllTasks = f at h1 r1
      cases f with
      | refuse r => trivial
      | hung t => exact h1
      | run t => exact ⟨h1, (Records.same rfl rfl rfl : Records s s.suspendAllTasks).trans r1⟩
    have key2 := key.andThen (k := body) (P' := fun t => Away (handoffPins s u) s t ∧ Records s t) fun t ht => by
      have h2 := hp t
      have r2 := hb t
      generalize body t = f at h2 r2
      cases f with
      | refuse r => trivial
      | hung t' => exact ht.1.trans (.same h2)
      | run t' => exact ⟨ht.1.trans (.same h2), ht.2.trans r2⟩
    have key3 := key2.andThen (k := deselectFlow u) (P' := Away (handoffPins s u) s) fun t ht => by
      rw [deselectFlow_eq]
      split
      · exact ht.1
      split
      · exact ht.1
      · have hw := waitIdle_all (t.params.periphOf u) t
        have hr := recOk_waitIdle (t.params.periphOf u) t
        generalize waitIdle (t.params.periphOf u) t = f at hw hr
        cases f with
        | refuse r => trivial
        | hung t' =>
          rw [flowAll_hung] at hw
          rw [andDo_hung, flowAll_hung, hw.1]
          exact ht.1
        | run t' =>
          have hrt : Records s t' := ht.2.trans hr
          exact (ht.1.trans (.same hw.1.pins)).trans (away_driveCs t' u true fun g hg => hin g (hrt.nonzeroPins u ▸ hg))
    exact key3.andDo fun t ht => ht
  · trivial

theorem pins_touch (c : Byte) (s : State) :
    FlowAll (fun t => t.pins = s.pins) (fun t => t.pins = s.pins) (touchBody c s) := by
  refine FlowAll.andThen (P := fun t => t.pins = s.pins) ?_ fun t ht => ?_
  · exact (transferOn_all _ _ _ _ s).mono (fun t h => h.1.pins) fun t h => h.1.engine.pins
  · exact (transferOn_all _ _ _ _ t).mono (fun _ h => h.1.pins.trans ht) fun _ h => h.1.engine.pins.trans ht

/-! ## Where a transfer stores -/

/-- Bytes outside the `len` bytes of the input buffer, and the staging buffer unless it is the input buffer, are as they
were. -/
structure Stored (dst : InDst) (len : Nat) (s t : State) : Prop where
  mem : ∀ a, (∀ b, dst = .mem b → a < b ∨ b + len ≤ a) → t.mem.read a = s.mem.read a
  staging : dst ≠ .staging → t.staging = s.staging

theorem Stored.same {dst : InDst} {len : Nat} {s t : State} (hm : t.mem = s.mem) (hs : t.staging = s.staging) :
    Stored dst len s t := ⟨fun _ _ => by rw [hm], fun _ => hs⟩

theorem Stored.trans {dst : InDst} {len : Nat} {s t u : State} (h1 : Stored dst len s t) (h2 : Stored dst len t u) :
    Stored dst len s u :=
  ⟨fun a ha => (h2.mem a ha).trans (h1.mem a ha), fun h => (h2.staging h).trans (h1.staging h)⟩

theorem stored_waitIdle (dst : InDst) (len : Nat) (p : Fin 4) (s : State) :
    FlowAll (fun t => Stored dst len s t ∧ t.off = s.off) (Stored dst len s) (waitIdle p s) := by
  rw [waitIdle]
  split
  · split
    · exact Stored.same rfl rfl
    · rw [shifter]
      split
      · exact ⟨Stored.same rfl rfl, rfl⟩
      split
      · exact ⟨Stored.same rfl rfl, rfl⟩
      · trivial
  · exact ⟨Stored.same rfl rfl, rfl⟩

theorem stored_chunk (p : Fin 4) (len : Nat) (src : OutSrc) (dst : InDst) (s : State) (hs : s.off ≤ len) :
    FlowAll (fun t => Stored dst len s t ∧ t.off ≤ len) (Stored dst len s) (chunk p len src dst s) := by
  rw [chunk]
  refine (stored_waitIdle dst len p s).andThen ?_
  rintro s1 ⟨h1, o1⟩
  have hn : s1.off + s1.chunkLen len ≤ len := by rw [State.chunkLen]; omega
  have h2 : Stored dst len s1 ((pack p src s1.off (s1.chunkLen len) s1).trigger p (s1.chunkLen len)) := by
    rw [pack_trigger_frame]; exact .same rfl rfl
  have o2 : ((pack p src s1.off (s1.chunkLen len) s1).trigger p (s1.chunkLen len)).off = s1.off := by
    rw [pack_trigger_frame]
  generalize (pack p src s1.off (s1.chunkLen len) s1).trigger p (s1.chunkLen len) = s2 at *
  refine ((stored_waitIdle dst len p s2).mono (fun _ h => h) fun t h => (h1.trans h2).trans h).andDo ?_
  rintro s3 ⟨h3, o3⟩
  refine ⟨((h1.trans h2).trans h3).trans ?_, by show s3.off + s1.chunkLen len ≤ len; omega⟩
  cases dst with
  | drop => exact .same rfl rfl
  | staging => exact ⟨fun _ _ => rfl, fun h => absurd rfl h⟩
  | mem b =>
    refine ⟨fun a ha => ?_, fun _ => rfl⟩
    have hb := ha b rfl
    show (s3.mem.writeBytes (b + s3.off) _).read a = _
    rw [read_writeBytes_of_outside]
    simp only [State.chunkBytes, List.length_map, List.length_range]
    omega

/-- A transfer stores inside its input buffer, wherever it ends (R175). -/
theorem stored_transferOn (p : Fin 4) (len : Nat) (src : OutSrc) (dst : InDst) (s : State) :
    FlowAll (Stored dst len s) (Stored dst len s) (transferOn p len src dst s) := by
  have hc : ∀ (k : Nat) (t : State), t.off ≤ len →
      FlowAll (Stored dst len t) (Stored dst len t) (chunks p len src dst k t) := by
    intro k
    induction k with
    | zero => exact fun t _ => Stored.same rfl rfl
    | succ k ih =>
      intro t ht
      refine (stored_chunk p len src dst t ht).andThen fun t1 h1 => ?_
      exact (ih t1 h1.2).mono (fun _ h => h1.1.trans h) fun _ h => h1.1.trans h
  have h0 : Stored dst len s { s.disableInterrupts with off := 0 } := .same rfl rfl
  refine ((hc (chunkCount len) _ (Nat.zero_le len)).mono (fun _ h => h0.trans h) fun _ h => h0.trans h).andDo ?_
  exact fun t h => h.trans (.same rfl rfl)

/-! ## The locks -/

/-- What `acquirePins` leaves: the locks and the trace alone change; a conflict names a pin that another owner held
(R132, R264). -/
theorem acquirePins_spec (gs : List Nat) (s : State) :
    (s.acquirePins gs).1 =
        { s with locks := (s.acquirePins gs).1.locks, trace := (s.acquirePins gs).1.trace } ∧
      (∀ o g, (s.acquirePins gs).2 = some (o, g) → s.lockOwner g = some o ∧ o ≠ s.params.ownerSpi) := by
  induction gs generalizing s with
  | nil => exact ⟨rfl, by intro o g h; cases h⟩
  | cons g gs ih =>
    unfold State.acquirePins
    split
    · exact ih s
    · split
      · next h =>
        obtain ⟨h1, h2⟩ := ih (s.lockAcquire g)
        refine ⟨?_, ?_⟩
        · have e : s.lockAcquire g = { s with locks := (s.lockAcquire g).locks, trace := (s.lockAcquire g).trace } := by
            unfold State.lockAcquire; rw [h]; rfl
          rw [e] at h1
          rw [e]
          exact h1
        · intro o g' hh
          obtain ⟨ha, hb⟩ := h2 o g' hh
          have hp : (s.lockAcquire g).params = s.params := by simp
          rw [hp] at hb
          refine ⟨?_, hb⟩
          unfold State.lockAcquire at ha
          rw [h] at ha
          simp only [State.emit, State.lockOwner, List.getD_eq_getElem?_getD, List.getElem?_set] at ha ⊢
          split at ha
          · split at ha
            · simp at ha; exact absurd ha.symm hb
            · simp at ha
          · exact ha
      · next o h =>
        refine ⟨?_, ?_⟩
        · unfold State.lockAcquire; rw [h]; rfl
        · intro o' g' hh
          cases hh
          unfold State.lockAnswer at h
          split at h
          · cases h
          · next x hx =>
            split at h
            · cases h
            · next hne => cases h; exact ⟨hx, hne⟩

end Sys2Proof.Machine.Laws
end

