-- ==== Sys2Proof/Laws/Codec.lean ====
section
/-! SUPPORT. The readers of the decoder: each gives back what the matching writer of the encoder put, and leaves the bytes
after it; how many bytes a record takes. -/

namespace Sys2Proof.Machine.Laws

/-- A reader gives `v` from some bytes, and leaves whatever follows them. -/
def Reads {α : Type} (r : Reader α) (bs : List Byte) (v : α) : Prop := ∀ rest, r (bs ++ rest) = .ok (v, rest)

theorem Reads.pure {α : Type} (v : α) : Reads (Pure.pure v) [] v := fun _ => rfl

theorem Reads.bind {α β : Type} {r : Reader α} {k : α → Reader β} {b1 b2 : List Byte} {v : α} {w : β}
    (h1 : Reads r b1 v) (h2 : Reads (k v) b2 w) : Reads (r >>= k) (b1 ++ b2) w := by
  intro rest
  show StateT.bind r k _ = _
  rw [List.append_assoc, StateT.bind, h1]
  exact h2 rest

theorem Reads.map {α β : Type} {r : Reader α} {f : α → β} {bs : List Byte} {v : α} (h : Reads r bs v) :
    Reads (do let x ← r; return f x) bs (f v) := by
  have := h.bind (k := fun x => Pure.pure (f x)) (.pure (f v))
  rwa [List.append_nil] at this

theorem reads_byte (b : Byte) : Reads getByte [b] b := fun _ => rfl

theorem half_append (h : Half) : (h.extractLsb' 8 8 ++ h.extractLsb' 0 8 : BitVec 16) = h := by
  apply BitVec.eq_of_getLsbD_eq
  intro i hi
  simp only [BitVec.getLsbD_append, BitVec.getLsbD_extractLsb']
  by_cases h8 : i < 8
  · simp [h8]
  · simp only [h8, decide_false, Bool.false_and, if_false]
    rw [show 8 + (i - 8) = i by omega]
    simp [show i - 8 < 8 by omega]

theorem reads_half (h : Half) : Reads getHalf (putHalf h) h := by
  intro rest
  show Except.ok (_, rest) = _
  rw [half_append]

theorem reads_halfBe (h : Half) : Reads getHalfBe (putHalfBe h) h := by
  intro rest
  show Except.ok (_, rest) = _
  rw [half_append]

theorem word_append (w : Word) :
    ((w.extractLsb' 24 8 ++ w.extractLsb' 16 8 : BitVec 16) ++ (w.extractLsb' 8 8 ++ w.extractLsb' 0 8 : BitVec 16)
      : BitVec 32) = w := by
  apply BitVec.eq_of_getLsbD_eq
  intro i hi
  simp only [BitVec.getLsbD_append, BitVec.getLsbD_extractLsb']
  by_cases h0 : i < 8
  · simp [h0, show i < 16 by omega]
  · by_cases h1 : i < 16
    · simp [h0, h1, show i - 8 < 8 by omega, show 8 + (i - 8) = i by omega]
    · by_cases h2 : i < 24
      · simp [h1, show i - 16 < 8 by omega, show 16 + (i - 16) = i by omega]
      · simp [h1, show ¬i - 16 < 8 by omega, show i - 16 - 8 < 8 by omega, show 24 + (i - 16 - 8) = i by omega]

theorem reads_word (w : Word) : Reads getWord (putWord w) w := by
  intro rest
  show Except.ok (_, rest) = _
  rw [word_append]

/-- The last byte of a natural: below 128, so its top bit is clear. -/
theorem natByte_last {n : Nat} (h : n < 128) :
    (BitVec.ofNat 8 n).getLsbD 7 = false ∧ (BitVec.ofNat 8 n).toNat = n := by
  refine ⟨?_, by rw [BitVec.toNat_ofNat]; omega⟩
  rw [BitVec.getLsbD_ofNat, Nat.testBit_lt_two_pow (by omega)]; simp

/-- Any other byte of a natural: its top bit set, seven bits below it. -/
theorem natByte_more (n : Nat) :
    (BitVec.ofNat 8 (128 + n % 128)).getLsbD 7 = true ∧ (BitVec.ofNat 8 (128 + n % 128) &&& 0x7F).toNat = n % 128 := by
  have h : n % 128 < 128 := Nat.mod_lt _ (by omega)
  generalize n % 128 = k at h
  interval_cases k <;> decide

theorem reads_natIn (fuel n : Nat) (h : n ≤ fuel) : Reads getNat (putNatIn fuel n) n := by
  induction fuel generalizing n with
  | zero =>
    obtain rfl : n = 0 := by omega
    exact fun _ => rfl
  | succ fuel ih =>
    intro rest
    rw [putNatIn]
    split
    · next hn =>
      obtain ⟨h1, h2⟩ := natByte_last hn
      rw [List.singleton_append, getNat, h1, h2]
      rfl
    · obtain ⟨h1, h2⟩ := natByte_more n
      rw [List.cons_append, getNat, h1, if_pos rfl, ih (n / 128) (by omega) rest]
      simp only [h2]
      rw [Nat.mod_add_div]

theorem reads_nat (n : Nat) : Reads getNat (putNat n) n := reads_natIn n n (Nat.le_refl n)

theorem reads_bool (b : Bool) : Reads getBool (putBool b) b := by cases b <;> exact fun _ => rfl
theorem reads_wordSize (w : WordSize) : Reads getWordSize (putWordSize w) w := by cases w <;> exact fun _ => rfl
theorem reads_draw (d : AllocDraw) : Reads getDraw (putDraw d) d := by cases d <;> exact fun _ => rfl
theorem reads_form (f : TableForm) : Reads getForm (putForm f) f := by cases f <;> exact fun _ => rfl

theorem reads_buf (b : Buf) : Reads getBuf (putBuf b) b :=
  (reads_nat b.base).bind ((reads_nat b.len).map (f := fun len => (⟨b.base, len⟩ : Buf)))

theorem reads_opt {α : Type} {r : Reader α} {put : α → List Byte} (h : ∀ x, Reads r (put x) x) (o : Option α) :
    Reads (getOpt r) (putOpt put o) o := by
  cases o with
  | none => exact fun _ => rfl
  | some x => exact (reads_byte 0).bind (k := fun b => if b = 0 then (do
      let x ← r
      return some x) else if b = 1 then Pure.pure none else throw (.badBuffer b)) ((h x).map (f := some))

theorem reads_bytes (bs : List Byte) : Reads (getBytes bs.length) bs bs := by
  induction bs with
  | nil => exact .pure []
  | cons b bs ih => exact (reads_byte b).bind (ih.map (f := fun x => b :: x))

theorem reads_table {t : List Byte} (h : t ≠ []) : Reads getTable (putTable t) t := by
  refine (reads_nat (t.length - 1)).bind (k := fun n => getBytes (n + 1)) ?_
  rw [Nat.sub_add_cancel (List.length_pos_iff.2 h)]
  exact reads_bytes t

theorem reads_colors (cs : List Half) : Reads (getColors cs.length) (putColors cs) cs := by
  induction cs with
  | nil => exact .pure []
  | cons c cs ih => exact (reads_halfBe c).bind (ih.map (f := fun x => c :: x))

theorem reads_colorBuf (cs : List Half) : Reads getColorBuf (putColorBuf cs) cs :=
  (reads_nat cs.length).bind (k := getColors) (reads_colors cs)

theorem colorsOf_putColors (cs : List Half) : colorsOf (putColors cs) = .ok cs := by
  induction cs with
  | nil => rfl
  | cons c cs ih =>
    simp only [putColors, putHalfBe, List.cons_append, List.nil_append, colorsOf, ih, half_append]

/-- The two fields of `argc` (R84, R85). -/
theorem argcDelay_argcByte (d : Bool) (n : Nat) : argcDelay (argcByte d n) = d := by
  have h : n % 128 < 128 := Nat.mod_lt _ (by omega)
  have : (BitVec.ofNat 8 (n % 128)).getLsbD 7 = false := by
    rw [BitVec.getLsbD_ofNat, Nat.testBit_lt_two_pow (by omega)]; simp
  unfold argcDelay argcByte
  rw [BitVec.getLsbD_or, this]
  cases d <;> rfl

theorem argcCount_argcByte (d : Bool) {n : Nat} (h : n < 128) : argcCount (argcByte d n) = n := by
  unfold argcCount argcByte
  rw [Nat.mod_eq_of_lt h]
  interval_cases n <;> cases d <;> rfl

/-! ## Records -/

theorem getBytes_ok (n : Nat) (bs : List Byte) (h : n ≤ bs.length) : getBytes n bs = .ok (bs.take n, bs.drop n) := by
  have := reads_bytes (bs.take n) (bs.drop n)
  rwa [List.length_take, Nat.min_eq_left h, List.take_append_drop] at this

/-- A record that lies inside the bytes decodes, in counted form, to an init record of that length (R84, R87). -/
theorem decode_record (p : Params) (bs : List Byte) (n : Nat) (h : recordLength bs = some n) :
    ∃ i, decode p (.initrec .counted) bs = .ok (i, bs.drop n) ∧
      ((∃ c a, i = .initrec c a ∧ n = 2 + a.length) ∨ ∃ c a d, i = .initrecD c a d ∧ n = 3 + a.length) := by
  match bs, h with
  | c :: argc :: r, h =>
    simp only [recordLength] at h
    split at h
    · next hle =>
      have hn : 2 + argcCount argc + (argcDelay argc).toNat = n := Option.some.inj h
      have hg := getBytes_ok (argcCount argc) r (by omega)
      have hcl : (List.take (argcCount argc) r).length = argcCount argc := by rw [List.length_take]; omega
      have hdec : decode p (.initrec .counted) (c :: argc :: r) = getRecord c (argc :: r) := rfl
      have hrec : getRecord c (argc :: r) =
          StateT.bind (getBytes (argcCount argc)) (fun args => if argcDelay argc then (do
            let d ← getByte
            return .initrecD c args d) else return .initrec c args) r := rfl
      rw [hdec, hrec, StateT.bind, hg]
      cases hd : argcDelay argc with
      | false =>
        rw [hd] at hn
        refine ⟨.initrec c (r.take (argcCount argc)), ?_, .inl ⟨_, _, rfl, ?_⟩⟩
        · rw [← hn, show 2 + argcCount argc + false.toNat = argcCount argc + 1 + 1 by simp; omega]
          rfl
        · rw [hcl, ← hn]; rfl
      | true =>
        rw [hd] at hn hle
        cases hdr : r.drop (argcCount argc) with
        | nil =>
          have := congrArg List.length hdr
          simp at this hle
          omega
        | cons x xs =>
          refine ⟨.initrecD c (r.take (argcCount argc)) x, ?_, .inr ⟨_, _, _, rfl, ?_⟩⟩
          · rw [← hn, show 2 + argcCount argc + true.toNat = argcCount argc + 1 + 1 + 1 by simp; omega]
            have : r.drop (argcCount argc + 1) = xs := by rw [← List.drop_drop, hdr]; rfl
            simp only [List.drop_succ_cons, this]
            rfl
          · rw [hcl, ← hn]; simp; omega
    · cases h

end Sys2Proof.Machine.Laws
end

