-- ==== Sys2Proof/Laws/PerInstr.lean ====
section
/-! SUPPORT. One lemma for each instruction: what the first bytes of its encoding are (spec 30_encoding.md R81, R83, R84, R88,
R89). -/

namespace Sys2Proof.Laws

/-- The first byte of the encoding of `i` is `b`, whatever the parameters. -/
abbrev OpcodeByte.startsWith (i : Instr) (b : Params → Byte) : Prop := ∀ p, (encode p i).head? = some (b p)

/-- A record begins with its command and an `argc` whose bit 7 says whether a delay follows (R84, R85). -/
abbrev OpcodeByte.recordHead (i : Instr) (cmd : Byte) (delay : Bool) : Prop :=
  ∀ p, ∃ argc rest, encode p i = cmd :: argc :: rest ∧ argc.getLsbD 7 = delay

/-- The opcode byte of each row of the opcode table stands first in the encoding. -/
def OpcodeByte.Statement (i : Instr) : Prop :=
  match i with
  | .freq2div _ => OpcodeByte.startsWith i fun _ => 0x01
  | .div2freq _ => OpcodeByte.startsWith i fun _ => 0x02
  | .pinmux _ => OpcodeByte.startsWith i fun _ => 0x03
  | .transfer _ _ _ _ _ => OpcodeByte.startsWith i fun _ => 0x04
  | .cfgpins _ _ _ _ _ => OpcodeByte.startsWith i fun _ => 0x05
  | .setmode _ _ => OpcodeByte.startsWith i fun _ => 0x06
  | .setspeed _ _ => OpcodeByte.startsWith i fun _ => 0x07
  | .setcs _ _ => OpcodeByte.startsWith i fun _ => 0x08
  | .setduplex _ _ => OpcodeByte.startsWith i fun _ => 0x09
  | .select _ => OpcodeByte.startsWith i fun _ => 0x0A
  | .deselect _ => OpcodeByte.startsWith i fun _ => 0x0B
  | .init _ _ => OpcodeByte.startsWith i fun _ => 0x0C
  | .sendcmd _ => OpcodeByte.startsWith i fun _ => 0x0D
  | .senddata _ => OpcodeByte.startsWith i fun _ => 0x0E
  | .setwin _ _ _ _ => OpcodeByte.startsWith i fun _ => 0x0F
  | .pushpx _ => OpcodeByte.startsWith i fun _ => 0x10
  | .pushrep _ _ => OpcodeByte.startsWith i fun _ => 0x11
  | .pushbuf _ _ => OpcodeByte.startsWith i fun _ => 0x12
  | .readpx _ _ _ => OpcodeByte.startsWith i fun _ => 0x13
  | .readpxs _ _ _ _ _ _ => OpcodeByte.startsWith i fun _ => 0x14
  | .readtouch _ _ => OpcodeByte.startsWith i fun _ => 0x15
  | .runinit _ _ => OpcodeByte.startsWith i fun _ => 0x16
  | .inithdr count => ∀ p, encode p i = [count]
  | .initrec cmd _ => OpcodeByte.recordHead i cmd false
  | .initrecD cmd _ _ => OpcodeByte.recordHead i cmd true
  | .initend => ∀ p, encode p i = [p.initSentinel]
  | .caset _ _ => OpcodeByte.startsWith i (·.cmdCaset)
  | .paset _ _ => OpcodeByte.startsWith i (·.cmdPaset)
  | .ramwr _ => OpcodeByte.startsWith i (·.cmdRamwr)
  | .ramrd _ => OpcodeByte.startsWith i (·.cmdRamrd)

theorem OpcodeByte.freq2div : ∀ a, OpcodeByte.Statement (.freq2div a) := by
  intros; intro p; rfl

theorem OpcodeByte.div2freq : ∀ a, OpcodeByte.Statement (.div2freq a) := by
  intros; intro p; rfl

theorem OpcodeByte.pinmux : ∀ a, OpcodeByte.Statement (.pinmux a) := by
  intros; intro p; rfl

theorem OpcodeByte.transfer : ∀ a b c d e, OpcodeByte.Statement (.transfer a b c d e) := by
  intros; intro p; rfl

theorem OpcodeByte.cfgpins : ∀ a b c d e, OpcodeByte.Statement (.cfgpins a b c d e) := by
  intros; intro p; rfl

theorem OpcodeByte.setmode : ∀ a b, OpcodeByte.Statement (.setmode a b) := by
  intros; intro p; rfl

theorem OpcodeByte.setspeed : ∀ a b, OpcodeByte.Statement (.setspeed a b) := by
  intros; intro p; rfl

theorem OpcodeByte.setcs : ∀ a b, OpcodeByte.Statement (.setcs a b) := by
  intros; intro p; rfl

theorem OpcodeByte.setduplex : ∀ a b, OpcodeByte.Statement (.setduplex a b) := by
  intros; intro p; rfl

theorem OpcodeByte.select : ∀ a, OpcodeByte.Statement (.select a) := by
  intros; intro p; rfl

theorem OpcodeByte.deselect : ∀ a, OpcodeByte.Statement (.deselect a) := by
  intros; intro p; rfl

theorem OpcodeByte.init : ∀ a b, OpcodeByte.Statement (.init a b) := by
  intros; intro p; rfl

theorem OpcodeByte.sendcmd : ∀ a, OpcodeByte.Statement (.sendcmd a) := by
  intros; intro p; rfl

theorem OpcodeByte.senddata : ∀ a, OpcodeByte.Statement (.senddata a) := by
  intros; intro p; rfl

theorem OpcodeByte.setwin : ∀ a b c d, OpcodeByte.Statement (.setwin a b c d) := by
  intros; intro p; rfl

theorem OpcodeByte.pushpx : ∀ a, OpcodeByte.Statement (.pushpx a) := by
  intros; intro p; rfl

theorem OpcodeByte.pushrep : ∀ a b, OpcodeByte.Statement (.pushrep a b) := by
  intros; intro p; rfl

theorem OpcodeByte.pushbuf : ∀ a b, OpcodeByte.Statement (.pushbuf a b) := by
  intros; intro p; rfl

theorem OpcodeByte.readpx : ∀ a b c, OpcodeByte.Statement (.readpx a b c) := by
  intros; intro p; rfl

theorem OpcodeByte.readpxs : ∀ a b c d e f, OpcodeByte.Statement (.readpxs a b c d e f) := by
  intros; intro p; rfl

theorem OpcodeByte.readtouch : ∀ a b, OpcodeByte.Statement (.readtouch a b) := by
  intros; intro p; rfl

theorem OpcodeByte.runinit : ∀ a b, OpcodeByte.Statement (.runinit a b) := by
  intros; intro p; rfl

theorem OpcodeByte.inithdr : ∀ a, OpcodeByte.Statement (.inithdr a) := by
  intros; intro p; rfl

theorem OpcodeByte.initend : OpcodeByte.Statement .initend := by
  intro p; rfl

theorem OpcodeByte.caset : ∀ a b, OpcodeByte.Statement (.caset a b) := by
  intros; intro p; rfl

theorem OpcodeByte.paset : ∀ a b, OpcodeByte.Statement (.paset a b) := by
  intros; intro p; rfl

theorem OpcodeByte.ramwr : ∀ a, OpcodeByte.Statement (.ramwr a) := by
  intros; intro p; rfl

theorem OpcodeByte.ramrd : ∀ a, OpcodeByte.Statement (.ramrd a) := by
  intros; intro p; rfl

theorem OpcodeByte.argcByte_top (delay : Bool) (n : Nat) : (argcByte delay n).getLsbD 7 = delay := by
  have h : (BitVec.ofNat 8 (n % 128)).getLsbD 7 = false := by
    rw [BitVec.getLsbD_ofNat]
    simp [Nat.testBit_lt_two_pow (show n % 128 < 2 ^ 7 by omega)]
  rw [argcByte, BitVec.getLsbD_or, h]
  cases delay <;> decide

theorem OpcodeByte.initrec : ∀ cmd args, OpcodeByte.Statement (.initrec cmd args) := by
  intro cmd args p
  exact ⟨_, _, rfl, OpcodeByte.argcByte_top ..⟩

theorem OpcodeByte.initrecD : ∀ cmd args delay, OpcodeByte.Statement (.initrecD cmd args delay) := by
  intro cmd args delay p
  exact ⟨_, _, rfl, OpcodeByte.argcByte_top ..⟩

end Sys2Proof.Laws
end

