-- ==== Sys2Proof/Laws/Program.lean ====
section
/-! SUPPORT. An operation broken off between its micro-steps: a list of micro-steps cut in two, the instruction its
micro-steps come to, and what every micro-step keeps. -/

namespace Sys2Proof.Machine.Laws

open Sys2Proof.Safety

/-- Running a list is running its first `n` micro-steps, then the others. -/
theorem runMicros_split (n : Nat) (ms : List Micro) (l : Locals) (s : State) :
    runMicros ms l s = Run.next (runMicros (ms.take n) l s) (runMicros (ms.drop n)) := by
  rw [← runMicros_append, List.take_append_drop]

/-- An instruction that has micro-steps is what they come to. -/
theorem exec_micros {i : Instr} {s : State} {ms : List Micro} (h : microsOf s.params i = some ms) :
    exec i s = carryOut ms s := by
  cases i <;> simp only [microsOf, Option.ite_none_right_eq_some, Option.some.injEq, Bool.and_eq_true, decide_eq_true_eq,
    reduceCtorEq] at h
  case cfgpins => obtain ⟨⟨h1, h2⟩, rfl⟩ := h; simp [exec, execCfgpins, h1, h2]
  case setmode => obtain ⟨⟨h1, h2⟩, rfl⟩ := h; simp [exec, execSetmode, h1, h2]
  case setspeed => obtain ⟨h1, rfl⟩ := h; simp [exec, execSetspeed, h1]
  case setcs => obtain ⟨⟨h1, h2⟩, rfl⟩ := h; simp [exec, execSetcs, h1, h2]
  case setduplex => obtain ⟨h1, rfl⟩ := h; simp [exec, execSetduplex, h1]
  case init => obtain ⟨⟨h1, h2⟩, rfl⟩ := h; simp [exec, execInit, h1, h2]
  case pinmux => obtain ⟨h1, rfl⟩ := h; simp [exec, execPinmux, h1]
  case select => obtain ⟨h1, rfl⟩ := h; simp [exec, execSelect, h1]
  case deselect => obtain ⟨h1, rfl⟩ := h; simp [exec, execDeselect, h1]
  case initrec => subst h; rfl
  case initrecD => subst h; rfl

/-! ## What every micro-step keeps -/

/-- What a micro-step keeps, and whether the task spins. -/
def Kept (s t : State) : Prop := Keeps s t ∧ t.task.spin = s.task.spin

/-- What holds where one hangs. -/
def KeptHung (s t : State) : Prop := Keeps s t ∧ t.task.spin.isSome = true

theorem Kept.refl (s : State) : Kept s s := ⟨.refl s, rfl⟩

theorem Kept.trans {s t u : State} (h1 : Kept s t) (h2 : Kept t u) : Kept s u :=
  ⟨h1.1.trans h2.1, h2.2.trans h1.2⟩

/-- A micro-step that keeps what `Kept` says, from every state. -/
def MicroKept (m : Micro) : Prop := ∀ s, MicroKeeps (Kept s) (KeptHung s) m

theorem microKept_act {f : Locals → State → State} (h : ∀ l s, Kept s (f l s)) : MicroKept (act f) :=
  fun _ => microKeeps_act fun l t ht => ht.trans (h l t)

theorem microKept_note (f : Locals → State → Locals) : MicroKept (note f) := fun _ => microKeeps_note f

theorem microKept_finish {f : State → State} (h : ∀ s, Kept s (f s)) : MicroKept (finish f) :=
  fun _ => microKeeps_finish fun t ht => ht.trans (h t)

theorem kept_of_flowOk {s : State} {f : Flow} (h : FlowOk s f) : FlowAll (Kept s) (KeptHung s) f := by
  refine FlowAll.mono h (fun t ht => ⟨ht.1.keeps, ht.2.2.2⟩) fun t ht => ?_
  obtain ⟨h1, p, h2, _⟩ := ht
  exact ⟨h1.keeps, by rw [h2]; rfl⟩

theorem microKept_span {f : State → Flow} (h : ∀ s, FlowOk s (f s)) : MicroKept (span f) := by
  intro s
  refine microKeeps_span fun t ht => ?_
  refine FlowAll.mono (kept_of_flowOk (h t)) (fun u hu => ht.trans hu) fun u hu => ⟨ht.1.trans hu.1, hu.2⟩

theorem kept_setUnit (s : State) (u : Nat) (r : UnitRec) : Kept s (s.setUnit u r) := by
  unfold State.setUnit
  split
  · exact ⟨⟨rfl, rfl, rfl, rfl, rfl, rfl, by simp, rfl, rfl, id, [], by simp⟩, rfl⟩
  · exact .refl s

theorem kept_pinCall {s t : State} (h : PinCall s t) : Kept s t := by
  have := flowOk_pinCall h
  exact ⟨this.1.keeps, this.2.2.2⟩

theorem kept_onPin {s : State} {g : Nat} {f : State → Nat → State} (h : ∀ t g, PinCall t (f t g)) :
    Kept s (s.onPin g f) := by
  unfold State.onPin
  split
  · exact .refl s
  · exact kept_pinCall (h s g)

theorem kept_result (s : State) (r : Option OpResult) : Kept s (s.setResult r) :=
  ⟨⟨rfl, rfl, rfl, rfl, rfl, rfl, rfl, rfl, rfl, id, [], by simp [State.setResult]⟩, rfl⟩

theorem kept_setSeq (s : State) (q : Seq) : Kept s (s.setSeq q) :=
  ⟨⟨rfl, rfl, rfl, rfl, rfl, rfl, rfl, rfl, rfl, id, [], by simp [State.setSeq]⟩, rfl⟩

theorem kept_recordDone (s : State) : Kept s s.recordDone := by
  have h : ∀ t : State, Kept t t.settle := by
    intro t
    unfold State.settle State.finishTable
    split
    · exact (kept_setSeq t _).trans (kept_result _ _)
    · exact .refl t
  unfold State.recordDone
  split
  · exact (kept_setSeq s _).trans (h _)
  · exact h s

/-- Every micro-step of a list keeps what `Kept` says. -/
def ListKept (ms : List Micro) : Prop := ∀ m ∈ ms, MicroKept m

theorem ListKept.nil : ListKept [] := fun _ h => absurd h List.not_mem_nil

theorem ListKept.cons {m : Micro} {ms : List Micro} (h1 : MicroKept m) (h2 : ListKept ms) : ListKept (m :: ms) :=
  List.forall_mem_cons.2 ⟨h1, h2⟩

theorem ListKept.append {a b : List Micro} (h1 : ListKept a) (h2 : ListKept b) : ListKept (a ++ b) :=
  List.forall_mem_append.2 ⟨h1, h2⟩

theorem ListKept.branch {c : Locals → State → Bool} {body : List Micro} (h : ListKept body) :
    ListKept (Machine.branch c body) := .cons (microKept_note _) h

theorem microKept_store (u : Nat) (f : State → UnitRec → UnitRec) : MicroKept (store u f) :=
  microKept_act fun _ s => kept_setUnit s u _

theorem microKept_markDirty (u : Nat) (d : Bool) : MicroKept (markDirty u d) := microKept_store u _

theorem microKept_returnOk : MicroKept returnOk := microKept_finish fun s => kept_result s _

theorem listKept_loadPins (u : Locals → Nat) : ListKept (loadPins u) :=
  .cons (microKept_note _) (.cons (microKept_note _) (.cons (microKept_note _) (.cons (microKept_note _) .nil)))

theorem microKept_onPinRead (g : PinSet → Nat) {f : Locals → State → Nat → State} (h : ∀ l t g, PinCall t (f l t g)) :
    MicroKept (onPinRead g f) := microKept_act fun l _ => kept_onPin (h l)

theorem microKept_acquire (g : PinSet → Nat) : MicroKept (acquire g) := by
  intro s l t ht
  have hlock : Kept t (t.lockAcquire (g l.pins)) := by
    unfold State.lockAcquire
    cases t.lockAnswer (g l.pins) with
    | ok =>
      exact ⟨⟨rfl, rfl, rfl, rfl, rfl, rfl, rfl, rfl, by simp [State.emit], id, _, rfl⟩, rfl⟩
    | conflict o => exact ⟨⟨rfl, rfl, rfl, rfl, rfl, rfl, rfl, rfl, rfl, id, _, rfl⟩, rfl⟩
  unfold acquire
  split
  · exact ht
  · cases t.lockAnswer (g l.pins) with
    | ok => exact ht.trans hlock
    | conflict o => exact (ht.trans hlock).trans (kept_result _ _)

theorem listKept_detach : ListKept detachSteps := by
  refine .append (listKept_loadPins _) (.cons (microKept_act fun _ s => kept_pinCall (pinUp_routeInput s _ _).call) ?_)
  have r : ∀ l t g, PinCall t ((fun (_ : Locals) (s : State) (g : Nat) => s.matrixRouteOutput g .gpioDriven) l t g) :=
    fun _ t g => (pinUp_routeOutput t g _).call
  have f : ∀ l t g, PinCall t ((fun (_ : Locals) (s : State) (g : Nat) => s.matrixSelectPinFunction g .gpio) l t g) :=
    fun _ t g => (pinUp_function t g _).call
  exact .cons (microKept_onPinRead _ r) (.cons (microKept_onPinRead _ r) (.cons (microKept_onPinRead _ r)
    (.cons (microKept_onPinRead _ f) (.cons (microKept_onPinRead _ f) (.cons (microKept_onPinRead _ f)
      (.cons (microKept_onPinRead _ f) (.cons (microKept_onPinRead _ fun _ t g => pinCall_setLevel t g _) .nil)))))))

theorem listKept_attach (u : Nat) : ListKept (attachSteps u) := by
  have f : ∀ l t g, PinCall t ((fun l (s : State) g => s.matrixSelectPinFunction g (fnRead u l s)) l t g) :=
    fun _ t g => (pinUp_function t g _).call
  refine .append (.append (.append (.append (listKept_loadPins _) ?_) ?_) ?_) ?_
  · exact .cons (microKept_onPinRead _ f) (.cons (microKept_onPinRead _ f) (.cons (microKept_onPinRead _ f)
      (.cons (microKept_onPinRead _ fun _ t g => (pinUp_setDirection t g _).call)
        (.cons (microKept_onPinRead _ fun _ t g => (pinUp_setPullMode t g _).call)
          (.cons (microKept_onPinRead _ fun _ t g => (pinUp_setDirection t g _).call)
            (.cons (microKept_onPinRead _ fun _ t g => (pinUp_setDirection t g _).call) .nil))))))
  · exact .branch (.cons (microKept_onPinRead _ fun _ t g => (pinUp_routeInput t _ _).call)
      (.cons (microKept_onPinRead _ fun _ t g => (pinUp_routeOutput t g _).call)
        (.cons (microKept_onPinRead _ fun _ t g => (pinUp_routeOutput t g _).call) .nil)))
  · exact .branch (.cons (microKept_act fun _ s => kept_pinCall (pinUp_routeInput s _ _).call) .nil)
  · exact .cons (microKept_onPinRead _ fun _ t g => (pinUp_setOutput t g).call) .nil

theorem listKept_selectUnit (u : Nat) : ListKept (selectUnitSteps u) :=
  .cons (microKept_note _) (.branch (.append (.branch (.append (listKept_loadPins _) (.branch listKept_detach)))
    (listKept_attach u)))

theorem listKept_writeField (u : Nat) (f : RegField) (v : UnitRec → Word) : ListKept (writeField u f v) :=
  .cons (microKept_note _) (.cons (microKept_note _) (.cons (microKept_act fun _ _ =>
    ⟨⟨rfl, rfl, rfl, rfl, rfl, rfl, rfl, rfl, rfl, id, _, rfl⟩, rfl⟩) .nil))

theorem listKept_reprogram (u : Nat) : ListKept (reprogramSteps u) := by
  unfold reprogramSteps
  refine .append ?_ (.cons (microKept_markDirty u false) .nil)
  repeat (refine .append ?_ (listKept_writeField u _ _))
  exact .append (.cons (microKept_span fun s => flowOk_waitIdle _ s) .nil) (listKept_attach u)

theorem listKept_driveCs (u : Nat) (v : Bool) : ListKept (driveCsSteps u v) :=
  .cons (microKept_note _) (.cons (microKept_onPinRead _ fun _ t g => pinCall_setLevel t g v) .nil)

theorem listKept_select (u : Nat) : ListKept (selectBody u) := by
  refine .append (.append (.branch (.append (.append (listKept_selectUnit u) (.branch ?_)) ?_))
    (.branch (listKept_reprogram u))) (.branch (listKept_driveCs u false))
  · refine .cons (microKept_note _) (.cons (microKept_act fun l s => ?_) .nil)
    split
    · exact kept_setUnit s _ _
    · exact .refl s
  · exact .cons (microKept_markDirty u true) (.cons (microKept_act fun _ s =>
      ⟨⟨rfl, rfl, rfl, rfl, rfl, rfl, rfl, rfl, rfl, id, [], by simp⟩, rfl⟩) .nil)

theorem listKept_deselect (u : Nat) : ListKept (deselectBody u) :=
  .branch (.branch (.append (.cons (microKept_span fun s => flowOk_waitIdle _ s) .nil) (listKept_driveCs u true)))

theorem listKept_init (u : Nat) : ListKept (initSteps u) := by
  have h := fun f => microKept_store u f
  refine .append (.append (.append (listKept_loadPins _) (.branch ?_)) (listKept_loadPins _)) ?_
  · exact .cons (h _) (.cons (h _) (.cons (h _) (.cons (h _) .nil)))
  · exact .cons (microKept_acquire _) (.cons (microKept_acquire _) (.cons (microKept_acquire _) (.cons (microKept_acquire _)
      (.cons (h _) (.cons (h _) (.cons (microKept_markDirty u true) (.cons microKept_returnOk .nil)))))))

theorem listKept_record (c : Byte) (args : List Byte) : ListKept (recordSteps c args) := by
  have h : ∀ n, MicroKept (act fun _ s => s.advance n) := fun n => microKept_act fun _ s => kept_setSeq s _
  exact .cons (h _) (.cons (microKept_span (flowOk_sendCommand c)) (.cons (h _)
    (.cons (microKept_span (flowOk_sendData args)) .nil)))

/-- Every micro-step of every instruction keeps parameters, other tasks, the schedule, the issued operations, the operation
in progress, the sizes of the tables, the canonical form of memory; the trace only grows. -/
theorem microsOf_kept {p : Params} {i : Instr} {ms : List Micro} (h : microsOf p i = some ms) : ListKept ms := by
  have k := fun u f => microKept_store u f
  cases i <;> simp only [microsOf, Option.ite_none_right_eq_some, Option.some.injEq, reduceCtorEq] at h
  case cfgpins u a b c d =>
    rw [← h.2]
    exact .cons (k _ _) (.cons (k _ _) (.cons (k _ _) (.cons (k _ _) (.cons (microKept_markDirty u true)
      (.cons microKept_returnOk .nil)))))
  case setmode u m =>
    rw [← h.2]; exact .cons (k _ _) (.cons (microKept_markDirty u true) (.cons microKept_returnOk .nil))
  case setspeed u x =>
    rw [← h.2]
    exact .cons (k _ _) (.cons (k _ _) (.cons (microKept_markDirty u true) (.cons microKept_returnOk .nil)))
  case setcs u g =>
    rw [← h.2]; exact .cons (k _ _) (.cons (microKept_markDirty u true) (.cons microKept_returnOk .nil))
  case setduplex u d =>
    rw [← h.2]; exact .cons (k _ _) (.cons (microKept_markDirty u true) (.cons microKept_returnOk .nil))
  case init u m => rw [← h.2]; exact listKept_init u
  case pinmux u => rw [← h.2]; exact .append (listKept_selectUnit u) (.cons microKept_returnOk .nil)
  case select u => rw [← h.2]; exact .append (listKept_select u) (.cons microKept_returnOk .nil)
  case deselect u => rw [← h.2]; exact .append (listKept_deselect u) (.cons microKept_returnOk .nil)
  case initrec c args =>
    rw [← h]; exact .append (listKept_record c args) (.cons (microKept_finish kept_recordDone) .nil)
  case initrecD c args d =>
    rw [← h]
    refine .append (listKept_record c args) (.cons (microKept_act fun _ s => kept_setSeq s _) (.cons (microKept_act
      fun _ s => ?_) (.cons (microKept_finish kept_recordDone) .nil)))
    exact ⟨⟨rfl, rfl, rfl, rfl, rfl, rfl, rfl, rfl, rfl, id, _, rfl⟩, rfl⟩

/-- What some of the micro-steps of an instruction keep. -/
theorem runMicros_kept {ms : List Micro} (h : ListKept ms) (l : Locals) (s : State) :
    RunAll (Kept s) (KeptHung s) (runMicros ms l s) := runMicros_all (fun m hm => h m hm s) l (.refl s)

end Sys2Proof.Machine.Laws
end

