-- ==== Sys2Proof/Tests/Slice0.lean ====
section
/-! SUPPORT. Tests. Expected values are the spec's own: 95_test_vectors.md (V and P numbers), the tables of 30_encoding.md
(R81, R83, R84, R89) for the hand-written words. Then one witness for each statement that has hypotheses. -/

-- one theorem after the other: kernel evaluations in parallel would take a thread each
set_option Elab.async false

namespace Sys2Proof.Tests

open Sys2Proof Sys2Proof.Machine Sys2Proof.Safety

/-! ## A small state -/

/-- Configuration `EX` of 95_test_vectors.md, section 0. -/
def ex : Params :=
  { Params.default with
    nslot := 2, lastUnit := 7, periph := [0, 0, 1, 1, 2, 2, 3, 3], dispUnit := 4, touchUnit := 5
    defPins := [⟨0, 0, 0, 0⟩, ⟨0, 0, 0, 0⟩, ⟨0, 0, 0, 0⟩, ⟨0, 0, 0, 0⟩, ⟨12, 13, 14, 15⟩, ⟨12, 13, 14, 15⟩,
      ⟨19, 23, 18, 5⟩, ⟨19, 23, 18, 5⟩] }

/-- The record of unit 4 in `READY4`. -/
def rec4 : UnitRec := ⟨12, 13, 14, 15, 0, true, 10000, 0x000C1001, false⟩

/-- The record of unit 5 in program P6, before `readTouchSample`. -/
def rec5 : UnitRec := ⟨12, 13, 14, 22, 0, true, 2000, 0x004C1001, true⟩

/-- Peripheral 2 in `READY4`. -/
def regs4 : PeriphRegs :=
  { PeriphRegs.initial with doutdin := true, clock := 0x000C1001, csSetup := true, csHold := true }

/-- Reset under `EX`, with the loopback line. -/
def start : State := { State.initial ex with line := ⟨[], true⟩ }

/-- What `READY4` says of unit 4 and its peripheral; unit 5 as in P6. -/
def ready : State :=
  { start with units := (start.units.set 4 rec4).set 5 rec5, periphs := start.periphs.set 2 regs4, last := some 4 }

/-- `ready` with some bytes at address 256 of the caller's memory. -/
def ready.withBytes (bs : List Byte) : State := { ready with mem := Memory.writeBytes [] 256 bs }

/-- `ready` with a scripted line: each entry answers one transaction. -/
def ready.withAnswers (answers : List (List Byte)) : State := { ready with line := ⟨answers.map bitsOf, true⟩ }

/-- `ready` inside a run of a table. -/
def ready.inTable (form : TableForm) (phase : SeqPhase) (remaining : Nat) (bs : List Byte) : State :=
  { ready with task := { Task.fresh with seq := ⟨phase, form, bs, 0, remaining⟩ } }

/-- The state after an instruction that has one. -/
def after (i : Instr) (s : State) : State :=
  match exec i s with
  | .next t => t
  | .fault _ => s
  | .refused _ => s

/-- What the instruction added to the trace. -/
def events (i : Instr) (s : State) : List Event := newEvents s (after i s)

/-- The result it recorded. -/
def result (i : Instr) (s : State) : Option OpResult := (after i s).task.result

/-- Completed with `Ok` and no value. -/
abbrev okNone : Option OpResult := some (.ok .none)

/-- The level and the bytes of each transaction. -/
def wireBytes (i : Instr) (s : State) : List (Bool × List Byte) :=
  (wire s (after i s)).map fun x => (x.level, bytesOf x.sent)

/-! ## Well-formedness: one ill-formed term for each check -/

theorem test_wf_pinmux : (Instr.pinmux 4).wf .default = false ∧ (Instr.pinmux 3).wf .default = true := by decide
theorem test_wf_transfer_unit : (Instr.transfer 4 .one 1 none none).wf .default = false := by decide
theorem test_wf_transfer_short : (Instr.transfer 0 .two 2 (some ⟨0, 3⟩) none).wf .default = false
    ∧ (Instr.transfer 0 .two 2 none (some ⟨0, 3⟩)).wf .default = false
    ∧ (Instr.transfer 0 .two 2 none (some ⟨0, 4⟩)).wf .default = true := by decide
theorem test_wf_transfer_overlap : (Instr.transfer 0 .one 4 (some ⟨0, 4⟩) (some ⟨3, 4⟩)).wf .default = false
    ∧ (Instr.transfer 0 .one 4 (some ⟨0, 4⟩) (some ⟨0, 4⟩)).wf .default = true
    ∧ (Instr.transfer 0 .one 4 (some ⟨0, 4⟩) (some ⟨4, 4⟩)).wf .default = true := by decide
theorem test_wf_cfgpins : (Instr.cfgpins 0 40 1 2 3).wf .default = false ∧ (Instr.cfgpins 0 1 40 2 3).wf .default = false
    ∧ (Instr.cfgpins 0 1 2 40 3).wf .default = false ∧ (Instr.cfgpins 0 1 2 3 40).wf .default = false
    ∧ (Instr.cfgpins 9 39 0 0 39).wf .default = true := by decide
theorem test_wf_setcs : (Instr.setcs 0 40).wf .default = false := by decide
-- R82: any other unit and any other mode is a legal encoding
theorem test_wf_naturals : (Instr.setmode (2 ^ 32) (2 ^ 40)).wf .default = true
    ∧ (Instr.select (2 ^ 32)).wf .default = true ∧ (Instr.senddata none).wf .default = true := by decide
theorem test_wf_push : (Instr.pushbuf (some [1]) 2).wf .default = false ∧ (Instr.pushbuf none 2).wf .default = false := by
  decide
theorem test_wf_runinit : (Instr.runinit [] .counted).wf .default = false := by decide
-- R110: the clock frequency fits 32 bits; R9: it is not 0
theorem test_params_wf : Params.wf { Params.default with sysclkHz := 2 ^ 32 } = false
    ∧ Params.wf { Params.default with sysclkHz := 2 ^ 32 - 1 } = true
    ∧ Params.wf { Params.default with sysclkHz := 0 } = false := by decide +kernel
theorem test_wf_records : (Instr.initrec 0 (List.replicate 128 0)).wf .default = false
    ∧ (Instr.initrecD 0 (List.replicate 128 0) 0).wf .default = false
    ∧ (Instr.initrec 0 (List.replicate 127 0)).wf .default = true := by decide +kernel

/-! ## Decoding: a word written out for each constructor -/

theorem test_decode_freq2div : decode .default .hostop [0x01, 0x80, 0x96, 0x98, 0x00] = .ok (.freq2div 10000000, []) := by rfl
theorem test_decode_div2freq : decode .default .hostop [0x02, 0x01, 0x10, 0x0C, 0x00] = .ok (.div2freq 0x000C1001, []) := by rfl
theorem test_decode_pinmux : decode .default .hostop [0x03, 0x05] = .ok (.pinmux 5, []) := by rfl
theorem test_decode_transfer :
    decode .default .hostop [0x04, 0x04, 0x02, 0x03, 0x00, 0x80, 0x02, 0x0C, 0x01] =
      .ok (.transfer 4 .four 3 (some ⟨256, 12⟩) none, []) := by rfl
theorem test_decode_cfgpins : decode .default .hostop [0x05, 5, 12, 13, 14, 22] = .ok (.cfgpins 5 12 13 14 22, []) := by rfl
theorem test_decode_setmode : decode .default .hostop [0x06, 4, 3] = .ok (.setmode 4 3, []) := by rfl
theorem test_decode_setspeed : decode .default .hostop [0x07, 4, 0x10, 0x27, 0, 0] = .ok (.setspeed 4 10000, []) := by rfl
theorem test_decode_setcs : decode .default .hostop [0x08, 2, 22] = .ok (.setcs 2 22, []) := by rfl
theorem test_decode_setduplex : decode .default .hostop [0x09, 4, 1] = .ok (.setduplex 4 true, []) := by rfl
theorem test_decode_select : decode .default .hostop [0x0A, 0x84, 0x80, 0x01] = .ok (.select 16388, []) := by rfl
theorem test_decode_deselect : decode .default .hostop [0x0B, 4] = .ok (.deselect 4, []) := by rfl
theorem test_decode_init : decode .default .hostop [0x0C, 4, 1] = .ok (.init 4 true, []) := by rfl
theorem test_decode_sendcmd : decode .default .hostop [0x0D, 0x11] = .ok (.sendcmd 0x11, []) := by rfl
theorem test_decode_senddata : decode .default .hostop [0x0E, 0, 0x80, 0x02, 5] = .ok (.senddata (some ⟨256, 5⟩), [])
    ∧ decode .default .hostop [0x0E, 1] = .ok (.senddata none, []) := ⟨rfl, rfl⟩
theorem test_decode_setwin :
    decode .default .hostop [0x0F, 0x0A, 0, 0x14, 0, 0x0E, 0x01, 0x15, 0] = .ok (.setwin 10 20 0x010E 21, []) := by rfl
theorem test_decode_pushpx : decode .default .hostop [0x10, 0x34, 0x12] = .ok (.pushpx 0x1234, []) := by rfl
theorem test_decode_pushrep : decode .default .hostop [0x11, 0x34, 0x12, 5] = .ok (.pushrep 0x1234 5, []) := by rfl
theorem test_decode_pushbuf :
    decode .default .hostop [0x12, 0, 2, 0xF8, 0x00, 0x07, 0xE0, 1] = .ok (.pushbuf (some [0xF800, 0x07E0]) 1, [])
    ∧ decode .default .hostop [0x12, 1, 3] = .ok (.pushbuf none 3, []) := ⟨rfl, rfl⟩
theorem test_decode_readpx : decode .default .hostop [0x13, 3, 0, 7, 0, 0] = .ok (.readpx 3 7 .ok, []) := by rfl
theorem test_decode_readpxs :
    decode .default .hostop [0x14, 0, 0, 1, 0, 2, 0, 3, 0, 2, 1] = .ok (.readpxs 0 1 2 3 2 .fail, []) := by rfl
theorem test_decode_readtouch : decode .default .hostop [0x15, 0xD0, 0] = .ok (.readtouch 0xD0 .ok, []) := by rfl
theorem test_decode_runinit :
    decode .default .hostop [0x16, 2, 0x29, 0x00, 0x00, 1] = .ok (.runinit [0x29, 0x00, 0x00] .sentinel, []) := by rfl
theorem test_decode_inithdr : decode .default .inithdr [0x02, 0x11] = .ok (.inithdr 2, [0x11]) := by rfl
theorem test_decode_initrec :
    decode .default (.initrec .counted) [0x36, 0x01, 0x48, 0x29] = .ok (.initrec 0x36 [0x48], [0x29]) := by rfl
theorem test_decode_initrecD :
    decode .default (.initrec .sentinel) [0x3A, 0x81, 0x05, 0x0A] = .ok (.initrecD 0x3A [0x05] 10, []) := by rfl
theorem test_decode_initend : decode .default (.initrec .sentinel) [0x00, 0x80] = .ok (.initend, [0x80]) := by rfl
theorem test_decode_counted_zero : decode .default (.initrec .counted) [0x00, 0x00] = .ok (.initrec 0 [], []) := by rfl
theorem test_decode_caset : decode .default .wirecmd [0x2A, 0x01, 0x02, 0x01, 0x3F] = .ok (.caset 0x0102 0x013F, []) := by rfl
theorem test_decode_paset : decode .default .wirecmd [0x2B, 0x00, 0x14, 0x00, 0x15] = .ok (.paset 20 21, []) := by rfl
theorem test_decode_ramwr : decode .default .wirecmd [0x2C, 0x12, 0x34, 0xF8, 0x00] = .ok (.ramwr [0x1234, 0xF800], []) := by rfl
theorem test_decode_ramrd : decode .default .wirecmd [0x2E, 2] = .ok (.ramrd 2, []) := by rfl
theorem test_decode_bad : decode .default .hostop [0x00] = .error (.unknownOp 0)
    ∧ decode .default .hostop [0x17] = .error (.unknownOp 0x17)
    ∧ decode .default .hostop [0x04, 0, 3] = .error (.badWordSize 3)
    ∧ decode .default .hostop [0x09, 0, 2] = .error (.badBool 2)
    ∧ decode .default .hostop [0x0E, 2] = .error (.badBuffer 2)
    ∧ decode .default .wirecmd [0x2D] = .error (.unknownCommand 0x2D)
    ∧ decode .default .hostop [0x0D] = .error .truncated
    ∧ decode .default (.initrec .counted) [0x11, 0x01] = .error .truncated := ⟨rfl, rfl, rfl, rfl, rfl, rfl, rfl, rfl⟩

/-! ## The words of the opcode table, as the host asks for them -/

theorem test_table_words : decodeTableWord 8 0x0A = some (.select 0) ∧ decodeTableWord 8 0x2C = some (.ramwr [0, 0])
    ∧ decodeTableWord 16 0x1101 = some (.initrec 0x11 [0]) ∧ decodeTableWord 16 0x1180 = some (.initrecD 0x11 [] 0)
    ∧ decodeTableWord 8 0x00 = some .initend ∧ decodeTableWord 8 0xFF = some (.inithdr 0xFF) := by
  decide +kernel

/-- Every row's word runs as the first instruction after reset. -/
theorem test_table_words_run :
    ([(16, 0x1100), (16, 0x1180), (8, 0x00), (8, 0xFF), (8, 0x2A), (8, 0x2B), (8, 0x2C), (8, 0x2E)]
        ++ (List.range 22).map fun k => (8, k + 1)).all
      (fun (w : Nat × Nat) => completes (step (State.reset.withFetchWord w.1 w.2))) = true := by
  decide +kernel

/-! ## One step of each instruction -/

-- V20
theorem test_freq2div : [0, 151, 152, 115200, 3000000, 39999999, 79999999, 80000000].map (frequencyToDivisor 80000000) =
    [0x7FFFF020, 0x7FFFF020, 0x7FA7F020, 0x02284002, 0x00202001, 0x00002001, 0x00001001, 0x80000000] := by
  decide +kernel
theorem test_freq2div_result : result (.freq2div 9600) start = some (.ok (.encoding 0x0A00C006)) := by decide +kernel
-- V20, V21
theorem test_div2freq : [0x7ED3F020, 0x02284002, 0x7FFFF000, 0x80000FFF, 0x0003F000, 0x7FFC0000].map
      (divisorToFrequency 80000000) = [153, 115107, 152, 80000000, 1250000, 9765] := by
  decide +kernel
theorem test_div2freq_result : result (.div2freq 0x00202001) start = some (.ok (.hertz 2962962)) := by decide +kernel
-- V30
theorem test_cfgpins : (after (.cfgpins 2 19 23 18 5) start).unit 2 = ⟨19, 23, 18, 5, 0, false, 0, 0, true⟩
    ∧ events (.cfgpins 2 19 23 18 5) start = [] := by decide +kernel
theorem test_setmode : (after (.setmode 2 3) start).unit 2 = ⟨0, 0, 0, 0, 3, false, 0, 0, true⟩
    ∧ result (.setmode 2 4) start = some (.err .invalidMode .none) ∧ (after (.setmode 2 4) start).unit 2 = .zero := by
  decide +kernel
-- V2, V30
theorem test_setmode_unit_first : result (.setmode 8 9) start = some (.err .invalidUnit .none) := by decide +kernel
theorem test_setspeed : ((after (.setspeed 2 10000) start).unit 2).divisor = 0x000C1001
    ∧ ((after (.setspeed 2 0) start).unit 2).divisor = 0x7FFFF020 := by decide +kernel
theorem test_setspeed_no_wrap : (after (.setspeed 2 4294967295) start).unit 2 =
    ⟨0, 0, 0, 0, 0, false, 4294967295, 0x80000000, true⟩ := by decide +kernel
theorem test_setcs : (after (.setcs 2 22) start).unit 2 = ⟨0, 0, 0, 22, 0, false, 0, 0, true⟩ := by decide +kernel
theorem test_setduplex : (after (.setduplex 2 true) start).unit 2 = ⟨0, 0, 0, 0, 0, true, 0, 0, true⟩ := by decide +kernel
-- V31 (a), (c)
theorem test_init : (after (.init 4 true) start).unit 4 = ⟨12, 13, 14, 15, 0, true, 0, 0, true⟩
    ∧ events (.init 4 true) start = [12, 13, 14, 15].map (Event.lockAcquire · .ok) := by decide +kernel
theorem test_init_conflict :
    let t := after (.init 4 true) { start with locks := start.locks.set 14 (some 2) }
    t.task.result = some (.err (.pinLockConflict 2 14) .none) ∧ t.unit 4 = ⟨12, 13, 14, 15, 0, false, 0, 0, false⟩
      ∧ [12, 13, 14, 15].map t.lockOwner = [some 1, some 1, some 2, none] := by decide +kernel
-- P6, P2
theorem test_pinmux : events (.pinmux 5) ready =
    [.pinFunc 12 .gpio, .pinFunc 13 .gpio, .pinFunc 14 .gpio, .pinDir 12 .input, .pinPull 12 .pullup, .pinDir 13 .output,
      .pinDir 14 .output, .routeIn 2 (some 12), .routeOut 13 (.dout 2), .routeOut 14 (.clk 2), .pinFunc 22 .gpio,
      .pinDir 22 .output, .routeOut 22 .gpioDriven] := by decide +kernel
theorem test_pinmux_detach : (events (.pinmux 4) { ready with last := some 5 }).take 9 =
    [.routeIn 2 none, .routeOut 13 .gpioDriven, .routeOut 14 .gpioDriven, .routeOut 22 .gpioDriven, .pinFunc 12 .gpio,
      .pinFunc 13 .gpio, .pinFunc 14 .gpio, .pinFunc 22 .gpio, .pinLevel 22 true] := by decide +kernel
-- V40, V42
theorem test_select_cheap : events (.select 4) ready = [.pinLevel 15 false] := by decide +kernel
theorem test_select_no_pins : events (.select 6) start =
    [.regWrite 3 .pinCkIdle 0, .regWrite 3 .userCkPhase 0, .regWrite 3 .ctrlWrBitOrder 0, .regWrite 3 .ctrlRdBitOrder 0,
      .regWrite 3 .userDoutdin 0, .regWrite 3 .slaveMode 0, .regWrite 3 .clock 0, .regWrite 3 .userUsrMosi 1,
      .regWrite 3 .userUsrMiso 1, .regWrite 3 .userCsSetup 1, .regWrite 3 .userCsHold 1] := by decide +kernel
-- V40, V43
theorem test_deselect : events (.deselect 4) ready = [.pinLevel 15 true] := by decide +kernel
theorem test_deselect_dirty : events (.deselect 5) ready = [] ∧ result (.deselect 5) ready = okNone := by decide +kernel
-- V51
theorem test_transfer_filler : (events (.transfer 4 .two 3 none none) ready).take 6 =
    [.irqOff, .regWrite 2 (.w 0) 0xFFFFFFFF, .regWrite 2 (.w 1) 0x0000FFFF, .regWrite 2 .mosiDlen 47,
      .regWrite 2 .misoDlen 47, .regWrite 2 .cmdUsr 1] := by decide +kernel
-- V55
theorem test_transfer_receive :
    let t := after (.transfer 4 .one 5 none (some ⟨256, 5⟩)) (ready.withAnswers [[0xDE, 0xAD, 0xBE, 0xEF, 0x01]])
    t.mem.readBytes 256 5 = [0xDE, 0xAD, 0xBE, 0xEF, 0x01]
      ∧ (t.periph 2).get (.w 0) = 0xEFBEADDE ∧ (t.periph 2).get (.w 1) = 0x00000001 := by decide +kernel
-- V60
theorem test_sendcmd : events (.sendcmd 0x11) ready =
    [.suspendAll, .pinLevel 15 false, .pinLevel 27 false, .irqOff, .regWrite 2 (.w 0) 0x11, .regWrite 2 .mosiDlen 7,
      .regWrite 2 .misoDlen 7, .regWrite 2 .cmdUsr 1,
      .xfer 2 ⟨false, false, true, 0x000C1001⟩ 8 (bitsOf [0x11]) 8 (bitsOf [0x11]), .irqOn, .pinLevel 15 true,
      .resumeAll] := by decide +kernel
-- V61
theorem test_senddata : wireBytes (.senddata (some ⟨256, 1⟩)) (ready.withBytes [0x05]) = [(true, [0x05])]
    ∧ events (.senddata (some ⟨256, 0⟩)) ready = [] := by decide +kernel
-- P3
theorem test_setwin : wireBytes (.setwin 10 20 14 20) ready =
    [(false, [0x2A]), (true, [0x00, 0x0A, 0x00, 0x0E]), (false, [0x2B]), (true, [0x00, 0x14, 0x00, 0x14])] := by
  decide +kernel
-- V63
theorem test_pushpx : ((after (.pushpx 0xF800) ready).periph 2).get (.w 0) = 0x000000F8
    ∧ ((after (.pushpx 0xF800) ready).periph 2).mosiDlen = 15 := by decide +kernel
theorem test_pushrep : [0, 1, 2].map (fun k => ((after (.pushrep 0x1234 5) ready).periph 2).get (.w k)) =
    [0x34123412, 0x34123412, 0x00003412] := by decide +kernel
theorem test_pushrep_33 : (wireBytes (.pushrep 0xABCD 33) ready).map (fun x => x.2.length) = [1, 64, 2]
    ∧ wireBytes (.pushrep 0xABCD 0) ready = [(false, [0x2C])] := by decide +kernel
theorem test_pushbuf :
    [0, 1].map (fun k => ((after (.pushbuf (some [0xF800, 0x07E0, 0x001F]) 3) ready).periph 2).get (.w k)) =
      [0xE00700F8, 0x00001F00] := by decide +kernel
-- P4, V66
theorem test_readpx :
    let s := ready.withAnswers [[0], [0, 0, 0, 0], [0], [0, 0, 0, 0], [0], [0x55, 0xF8, 0xFC, 0x1F]]
    result (.readpx 3 7 .ok) s = some (.ok (.color 0xFFE3))
      ∧ ((after (.readpx 3 7 .ok) s).periph 2).get (.w 0) = 0x1FFCF855 := by decide +kernel
theorem test_readpx_fail : result (.readpx 3 7 .fail) ready = some (.err .outOfMemory (.color 0))
    ∧ events (.readpx 3 7 .fail) ready = [] := by decide +kernel
-- V65, V66
theorem test_readpxs : result (.readpxs 0 0 1 0 2 .ok)
    (ready.withAnswers [[0], [0, 0, 0, 0], [0], [0, 0, 0, 0], [0], [0x00, 0xF8, 0x00, 0x00, 0x00, 0xFC, 0x00]]) =
      some (.ok (.colors [0xF800, 0x07E0])) := by decide +kernel
theorem test_readpxs_fail : result (.readpxs 0 0 1 0 2 .fail) ready = some (.err .outOfMemory (.colors [0, 0])) := by
  decide +kernel
-- P6, V66
theorem test_readtouch : result (.readtouch 0xD0 .ok) (ready.withAnswers [[0], [0x7A, 0xB0]]) =
    some (.ok (.sample 0x7AB)) := by decide +kernel
theorem test_readtouch_events : (events (.readtouch 0xD0 .ok) (ready.withAnswers [[0], [0x7A, 0xB0]])).length = 55 := by
  decide +kernel
-- V70, R237
theorem test_runinit : (after (.runinit [0x01, 0x29, 0x00] .counted) ready).task.seq =
    ⟨.header, .counted, [0x01, 0x29, 0x00], 0, 0⟩ := by decide +kernel
theorem test_table_wf : tableWf ex .counted [0x02, 0x11, 0x00] = false ∧ tableWf ex .sentinel [0x11, 0x01] = false
    ∧ tableWf ex .sentinel [0x11, 0x80, 0x78, 0x29, 0x00, 0x00] = true
    ∧ tableWf ex .sentinel [0xB1, 0x03, 0x00, 0x00, 0x1F, 0x00] = true ∧ tableWf ex .counted [0x00] = true := by
  decide +kernel
theorem test_inithdr : (after (.inithdr 2) (ready.inTable .counted .header 0 [2])).task.seq =
    ⟨.record, .counted, [2], 1, 2⟩ := by decide +kernel
theorem test_inithdr_zero : (after (.inithdr 0) (ready.inTable .counted .header 0 [0])).task =
    { Task.fresh with seq := ⟨.idle, .counted, [0], 1, 0⟩, result := okNone } := by decide +kernel
theorem test_initrec : wireBytes (.initrec 0x36 [0x48]) (ready.inTable .counted .record 1 []) =
    [(false, [0x36]), (true, [0x48])]
    ∧ (after (.initrec 0x36 [0x48]) (ready.inTable .counted .record 1 [])).task.seq.tp = 3 := by decide +kernel
theorem test_initrecD : (events (.initrecD 0x01 [] 255) (ready.inTable .counted .record 2 [])).getLast? = some (.delay 500)
    ∧ (after (.initrecD 0x01 [] 255) (ready.inTable .counted .record 2 [])).task.seq =
      ⟨.record, .counted, [], 3, 1⟩ := by decide +kernel
theorem test_initend : (after .initend (ready.inTable .sentinel .record 0 [0])).task =
    { Task.fresh with seq := ⟨.idle, .sentinel, [0], 1, 0⟩, result := okNone } := by decide +kernel
-- V62, V63
theorem test_caset : ((after (.caset 0x0102 0x013F) ready).periph 2).get (.w 0) = 0x3F010201
    ∧ wireBytes (.caset 0x0102 0x013F) ready = [(false, [0x2A]), (true, [0x01, 0x02, 0x01, 0x3F])] := by decide +kernel
theorem test_paset : ((after (.paset 0xFFFF 0) ready).periph 2).get (.w 0) = 0x0000FFFF
    ∧ (events (.paset 0xFFFF 0) ready).head? = some (.pinLevel 27 false) := by decide +kernel
theorem test_ramwr : ((after (.ramwr [0xF800, 0x07E0, 0x001F]) ready).periph 2).get (.w 0) = 0xE00700F8 := by
  decide +kernel
theorem test_ramrd : result (.ramrd 2) (ready.withAnswers [[0], [0x00, 0xF8, 0x00, 0x00, 0x00, 0xFC, 0x00]]) =
    some (.ok (.colors [0xF800, 0x07E0])) := by decide +kernel
-- V64
theorem test_rgb565 : rgb565 0xFF 0 0 = 0xF800 ∧ rgb565 0x07 0x03 0x07 = 0 ∧ rgb565 0x80 0x40 0x20 = 0x8204 := by decide

/-! ## Other tasks between micro-steps -/

/-- A task that has issued a SELECT. -/
def selecting (u : Byte) : Task := { Task.fresh with issue := [⟨.hostop, [0x0A, u]⟩] }

/-- Units 6 and 7 of one peripheral, both dirty, in modes 3 and 0 at different speeds; one task selects 6, another 7. The
first is broken off after 72 micro-steps, between its second and its third register write; the second selects whole; the
first goes on. -/
def racing : State :=
  { start with
    units := (start.units.set 6 ⟨19, 23, 18, 5, 3, true, 1000, 0x1111, true⟩).set 7 ⟨19, 23, 18, 5, 0, true, 2000, 0x2222, true⟩
    task := selecting 6
    others := [selecting 7]
    sched := [⟨1, some 72⟩, ⟨0, none⟩, ⟨0, none⟩] }

-- R290, U16: "the hardware may end in a mixture of both configurations", both dirty flags clear
theorem test_interleaved_selects :
    (match Host.Core.run core 3 racing with
      | .next t => (t.last, (t.unit 6).dirty, (t.unit 7).dirty, (t.periph 3).ckIdle, (t.periph 3).clock)
      | _ => (none, true, true, false, 0)) = (some 7, false, false, false, 0x1111) := by decide +kernel

-- R72, R291: a register written while a transaction is in flight does not change it
theorem test_snapshot :
    let r := { regs4 with flight := some regs4.toRegFile, clock := 7 }
    (newEvents ready (match shifter 2 (ready.setPeriph 2 r) with
      | .run t => t
      | _ => ready)).map (fun
        | .xfer _ c _ _ _ _ => c.clock
        | _ => 0) = [0x000C1001]
      ∧ (r.put .clock 9).flight = r.flight := by decide +kernel

-- U5
theorem test_phase_off_refused :
    exec (.transfer 4 .one 1 none none) { ready with periphs := ready.periphs.set 2 { regs4 with usrMiso := false } } =
      .refused (.shifterUnspecified 2) := by rfl

/-! ## Witnesses: states and operands that meet the hypotheses of the statements -/

theorem next_after (i : Instr) (s : State) (h : completes (exec i s) = true) : exec i s = .next (after i s) := by
  unfold after
  cases e : exec i s <;> simp [e, completes] at h ⊢

/-- The state after a step that has one. -/
def afterStep (s : State) : State :=
  match step s with
  | .next t => t
  | .fault _ => s
  | .refused _ => s

theorem next_afterStep (s : State) (h : completes (step s) = true) : step s = .next (afterStep s) := by
  unfold afterStep
  cases e : step s <;> simp [e, completes] at h ⊢

/-- `ready` with one descriptor issued: `sendCommand(0x11)`. -/
def issued : State := { ready with task := { Task.fresh with issue := [⟨.hostop, [0x0D, 0x11]⟩] } }

/-- `ready` with peripheral 2 stuck and a transaction in flight on it. -/
def stuckState : State :=
  { ready with params := { ex with stuck := #v[false, false, true, false] },
               periphs := ready.periphs.set 2 { regs4 with flight := some regs4.toRegFile } }

theorem witness_StepRunsDecodedInstruction :
    (issued = switchTask issued ∧ issued.sched = [] ∧ issued.task.spin = none ∧ issued.task.op = none ∧ issued.task.seq.phase = .idle
      ∧ issued.task.issue = [⟨.hostop, [0x0D, 0x11]⟩]
      ∧ decode issued.params .hostop [0x0D, 0x11] = .ok (.sendcmd 0x11, []))
    ∧ (switchTask (ready.inTable .counted .header 0 [0])).task.seq.phase = .header
    ∧ decode ex .inithdr (switchTask (ready.inTable .counted .header 0 [0])).tableRest = .ok (.inithdr 0, [])
    ∧ (switchTask (ready.inTable .counted .record 1 [0x29, 0])).task.seq.phase = .record
    ∧ decode ex (.initrec .counted) (switchTask (ready.inTable .counted .record 1 [0x29, 0])).tableRest =
      .ok (.initrec 0x29 [], []) :=
  ⟨⟨rfl, rfl, rfl, rfl, rfl, rfl, rfl⟩, rfl, rfl, rfl, rfl⟩

theorem witness_DecodeEncodeRoundTrip : Params.default.wireDistinct = true
    ∧ (Instr.transfer 3 .four 16 (some ⟨0, 64⟩) (some ⟨64, 64⟩)).wf .default = true
    ∧ (Instr.initrecD 0 (List.replicate 127 0) 255).wf .default = true ∧ (Instr.ramwr [1]).wf .default = true
    ∧ (Instr.select (2 ^ 40)).wf .default = true ∧ (Instr.runinit [0] .counted).wf .default = true := by
  decide +kernel

theorem witness_InitRecordLayout : ([] : List Byte).length = ((0x80 : Byte) &&& 0x7F).toNat
    ∧ (List.replicate 127 (0 : Byte)).length = ((0xFF : Byte) &&& 0x7F).toNat := by decide +kernel

theorem witness_SentinelOnlyInSentinelForm : (0x01 : Byte) ≠ Params.default.initSentinel := by decide

theorem witness_UndecodableBytesStop :
    (ready.withIssued ⟨.hostop, [0x17]⟩).sched = [] ∧ (ready.withIssued ⟨.hostop, [0x17]⟩).task.spin = none
    ∧ (ready.withIssued ⟨.hostop, [0x17]⟩).task.seq.phase = .idle
    ∧ (ready.withIssued ⟨.hostop, [0x17]⟩).task.issue = [⟨.hostop, [0x17]⟩] ∧ 0x16 < (0x17 : Byte).toNat
    ∧ (ready.inTable .counted .record 1 [0x11, 0x01]).sched = []
    ∧ (ready.inTable .counted .record 1 [0x11, 0x01]).task.spin = none
    ∧ (ready.inTable .counted .record 1 [0x11, 0x01]).task.op = none
    ∧ recordLength (ready.inTable .counted .record 1 [0x11, 0x01]).tableRest = none := by decide +kernel

theorem witness_ResetState : State.reset = State.initial .default := rfl

theorem witness_ResetMeetsInvariants : Params.default.wf = true ∧ ex.wf = true := by decide +kernel

/-- For FrequencyToDivisorIsBest, DivisorLaws and DivisorMonotoneIdempotent: targets at both ends of each range, and
candidates not above them. -/
theorem witness_divisor : 80000000 / 524288 = 152 ∧ (151 : Nat) < 80000000 / 524288 ∧ 80000000 / 524288 ≤ 152
    ∧ 152 < 80000000 ∧ 80000000 / ((8191 + 1) * (63 + 1)) ≤ 152 ∧ 80000000 / ((0 + 1) * (1 + 1)) ≤ 79999999
    ∧ start.params.sysclkHz ≤ (80000000 : Word).toNat ∧ (79999999 : Word).toNat < start.params.sysclkHz
    ∧ (151 : Word).toNat < start.params.sysclkHz / 524288 ∧ start.params.sysclkHz / 524288 ≤ (152 : Word).toNat := by
  decide +kernel

/-- For ConfigurePinsSetsPins, SetModeStoresMode, SetSpeedStoresDivisor, SetChipSelectStoresPin, SetDuplexStoresFlag and
InvalidUnitWritesNothing: the first and the last unit, the number after it, the last pin; modes 3 and 4 are numbers. -/
theorem witness_setters : ready.params.inRange 0 = true ∧ ready.params.inRange 7 = true ∧ ready.params.inRange 8 = false
    ∧ ready.units.length = ready.params.unitCount ∧ ready.params.pinsOk ⟨39, 0, 39, 0⟩ = true
    ∧ 39 < ready.params.npins := by decide +kernel

theorem witness_InitAcquiresPins :
    start.units.length = start.params.unitCount ∧ start.params.inRange 4 = true
    ∧ (start.unit 4).pinSet = ⟨0, 0, 0, 0⟩
    ∧ ∀ g ∈ nonzeroPins { start.unit 4 with sdi := 12, sdo := 13, sck := 14, cs := 15 }, g < start.locks.length
      ∧ (start.lockOwner g = none ∨ start.lockOwner g = some start.params.ownerSpi) := by decide +kernel

theorem witness_InitStopsAtFirstConflict :
    nonzeroPins (ready.unit 5) = [12, 13] ++ 14 :: [22] ∧ (ready.unit 5).pinSet ≠ ⟨0, 0, 0, 0⟩
    ∧ (∀ h ∈ [12, 13], h < ready.locks.length ∧ ready.lockOwner h = none)
    ∧ State.lockOwner { ready with locks := ready.locks.set 14 (some 2) } 14 = some 2
    ∧ 2 ≠ ready.params.ownerSpi := by decide +kernel

theorem witness_InitRefusesSlave : start.params.inRange 0 = true ∧ start.params.inRange 8 = false
    ∧ start.task.result = none ∧ completes (exec (.init 4 false) start) = true
    ∧ result (.init 4 false) start = some (.err .slaveNotAllowed .none) := by decide +kernel

/-- R26's predicate on `ready`, unit by unit. -/
def softReady (v : Nat) : Bool := (ready.unit v).pinSet != ready.params.dedOf (ready.params.periphOf v)

theorem softReady_iff (v : Nat) : softReady v = true ↔
    (ready.unit v).sdi ≠ (ready.params.dedOf (ready.params.periphOf v)).sdi
      ∨ (ready.unit v).sdo ≠ (ready.params.dedOf (ready.params.periphOf v)).sdo
      ∨ (ready.unit v).sck ≠ (ready.params.dedOf (ready.params.periphOf v)).sck
      ∨ (ready.unit v).cs ≠ (ready.params.dedOf (ready.params.periphOf v)).cs := by
  unfold softReady UnitRec.pinSet
  generalize ready.unit v = r
  obtain ⟨a, b, c, d⟩ := ready.params.dedOf (ready.params.periphOf v)
  simp only [bne_iff_ne, ne_eq, PinSet.mk.injEq]
  tauto

/-- For PinmuxAttachesUnit, PinmuxDetachesHolder and SelectReprogramsHardware: unit 5 is software-routed, unit 4 is not;
each is the holder of a state. -/
theorem witness_pinmux : ready.params.inRange 5 = true ∧ ready.last = some 4 ∧ ready.last ≠ some 5
    ∧ plainPins ready (ready.unit 5) ∧ plainPins ready (ready.unit 4) ∧ softReady 5 = true ∧ softReady 4 = false
    ∧ (none : Option Nat) = ready.last.filter softReady
    ∧ (some 5 : Option Nat) = Option.filter softReady (State.last { ready with last := some 5 })
    ∧ 15 ∈ nonzeroPins (ready.unit 4) ∧ 15 ∉ nonzeroPins (ready.unit 5)
    ∧ 22 ∈ nonzeroPins (ready.unit 5) ∧ 22 ∉ nonzeroPins (ready.unit 4) ∧ ready.params.inRange 8 = false := by
  unfold plainPins; decide +kernel

theorem witness_SelectOfHolderIsCheap : ready.params.inRange 4 = true ∧ held ready 4 := by decide +kernel

theorem witness_SelectReprogramsHardware : ready.params.inRange 5 = true ∧ ready.units.length = ready.params.unitCount
    ∧ ¬held ready 5 ∧ ready.busy (ready.params.periphOf 5) = false ∧ (ready.unit 5).cs ≠ 0 := by decide +kernel

theorem witness_SelectAlternationReprograms : (5 : Nat) ≠ 4 ∧ ready.params.inRange 5 = true
    ∧ ready.params.inRange 4 = true ∧ ready.last ≠ some 5 ∧ ready.busy (ready.params.periphOf 4) = false := by
  decide +kernel

theorem witness_DeselectRaisesChipSelect : (ready.unit 5).dirty = true ∧ (ready.unit 0).cs = 0
    ∧ (ready.unit 4).dirty = false ∧ (ready.unit 4).cs ≠ 0 ∧ ready.busy (ready.params.periphOf 4) = false := by
  decide +kernel

/-- Also for TransferThroughLoopback. -/
theorem witness_TransferMovesBytes :
    (Instr.transfer 4 .one 70 (some ⟨256, 70⟩) (some ⟨326, 70⟩)).wf ready.params = true
    ∧ (Instr.transfer 4 .four 0 none none).wf ready.params = true
    ∧ periphReady ready (ready.params.periphOf 4)
    ∧ ready.mem.wf = true ∧ ready.line = ⟨[], true⟩ := by
  unfold periphReady idle shiftRule bothPhases; decide +kernel

theorem witness_TransferFrame :
    exec (.transfer 4 .one 1 none none) ready = .next (after (.transfer 4 .one 1 none none) ready) :=
  next_after _ _ (by decide +kernel)

theorem witness_IllegalOperandsRefused : ready.params.inRange 8 = false
    ∧ (bufHolds (WordSize.two.bytes * 2) (some ⟨0, 3⟩) && bufHolds (WordSize.two.bytes * 2) none) = false
    ∧ bufsApart (WordSize.one.bytes * 4) (some ⟨0, 4⟩) (some ⟨3, 4⟩) = false
    ∧ ready.params.pinsOk ⟨0, 0, 0, 40⟩ = false ∧ ready.params.npins ≤ 40
    ∧ Params.inRange { ex with dispUnit := 8, touchUnit := 8 } 8 = false := by decide +kernel

theorem witness_IllegalOperandsRefused_shifter :
    let s := { ready with periphs := ready.periphs.set 2 { regs4 with slaveMode := true } }
    (Instr.transfer 4 .one 1 none none).wf s.params = true ∧ 0 < WordSize.one.bytes * 1 ∧ idle s (s.params.periphOf 4)
      ∧ ¬shiftRule (s.periph (s.params.periphOf 4)) := by
  unfold idle shiftRule bothPhases; decide +kernel

/-- `ready` with peripheral 2 stuck and idle. -/
def stuckIdle : State := { ready with params := stuckState.params }

theorem witness_StuckPeripheralHangs_frames : stuckIdle.params.inRange 4 = true ∧ stuckIdle.params.dispUnit = 4
    ∧ stuckIdle.params.isStuck (stuckIdle.params.periphOf 4) = true
    ∧ stuckIdle.busy (stuckIdle.params.periphOf 4) = false ∧ stuckIdle.units.length = stuckIdle.params.unitCount
    ∧ (stuckState.unit 4).dirty = false ∧ (stuckState.unit 4).cs ≠ 0 ∧ held stuckState 4
    ∧ stuckState.busy (stuckState.params.periphOf 4) = true := by decide +kernel

theorem witness_StuckPeripheralHangs : stuckState.params.inRange 4 = true
    ∧ stuckState.params.isStuck (stuckState.params.periphOf 4) = true
    ∧ (Instr.transfer 4 .one 1 none none).wf stuckState.params = true ∧ ¬held stuckState 5
    ∧ stuckState.units.length = stuckState.params.unitCount
    ∧ stuckState.busy (stuckState.params.periphOf 5) = true := by decide +kernel

/-- `stuckState` hung in a transfer. -/
def hungState : State := { stuckState with irqDepth := 1, task := { Task.fresh with spin := some 2 } }

theorem witness_HangHoldsTheProcessor : hungState.task.spin = some 2 ∧ hungState.unbracketed = false
    ∧ step hungState = .next (afterStep hungState) ∧ hungState.params.isStuck 2 = true :=
  ⟨rfl, rfl, next_afterStep _ (by decide +kernel), rfl⟩

/-- Also for UnpackInvertsPack. -/
theorem witness_PackFillsWordRegisters : (64 : Nat) ≤ 64 ∧ 15 < (64 + 3) / 4 ∧ (5 + 3) / 4 ≤ 2 ∧ 2 < 16
    ∧ (List.replicate 64 (7 : Byte)).length ≤ 64 := by decide

/-- For SendCommandFramesOneByte, SendDataFramesBuffer, SetWindowSendsCoordinates, PushOperationsSendColours,
ReadPixelDecodesColour and ReadPixelsDecodesColours: a display that holds the bus clean, and one never selected. -/
theorem witness_displayReady : displayReady ready ∧ held ready ready.params.dispUnit
    ∧ (ready.unit ready.params.dispUnit).cs ≠ 0 ∧ displayReady start ∧ ¬held start start.params.dispUnit := by
  unfold displayReady frameReady shiftRule bothPhases idle; decide +kernel

theorem witness_ReadTouchReturnsSample : frameReady ready ready.params.touchUnit
    ∧ ready.params.dcPin ∉ handoffPins ready ready.params.touchUnit := by
  unfold frameReady shiftRule bothPhases idle; decide +kernel

theorem witness_DisplayOperationsFrame : exec (.sendcmd 0x11) ready = .next (after (.sendcmd 0x11) ready) :=
  next_after _ _ (by decide +kernel)

theorem witness_WireCommandsEmit : periphReady ready ready.dispPeriph := by
  unfold periphReady idle shiftRule bothPhases; decide +kernel

theorem witness_PayloadWordsAreSwapped : 2 * (List.replicate 32 (0x1234 : Half)).length ≤ 64
    ∧ 2 * 15 < (List.replicate 32 (0x1234 : Half)).length ∧ 2 * 2 < (List.replicate 5 (0x1234 : Half)).length
    ∧ ¬2 * 2 + 1 < (List.replicate 5 (0x1234 : Half)).length := by decide +kernel

theorem witness_record (cmd : Byte) : isRecord [cmd, 0x00] ∧ isRecord [cmd, 0x81, 0x05, 0x0A] :=
  ⟨⟨cmd, 0x00, [], rfl, rfl⟩, ⟨cmd, 0x81, [0x05, 0x0A], rfl, rfl⟩⟩

/-- Well-formed tables of both forms, and a malformed one. -/
theorem witness_RunInitStartsOrRefuses :
    ((∀ r ∈ [[0x29, 0x00]], isRecord r) ∧ ([0x01, 0x29, 0x00] : List Byte) = 0x01 :: ([[0x29, 0x00]].flatten ++ [])
      ∧ [[(0x29 : Byte), 0x00]].length = (0x01 : Byte).toNat)
    ∧ (([0x29, 0x00, 0x00] : List Byte) = [[0x29, 0x00]].flatten ++ ready.params.initSentinel :: []
      ∧ ∀ r ∈ [[(0x29 : Byte), 0x00]], r.head? ≠ some ready.params.initSentinel)
    ∧ exec (.runinit [0x02, 0x11, 0x00] .counted) ready = .refused .malformedTable := by
  refine ⟨⟨?_, rfl, rfl⟩, ⟨rfl, by decide⟩, rfl⟩
  simpa using (witness_record 0x29).1

theorem witness_InitRecordsSendAndDelay : displayReady (ready.inTable .counted .record 1 [])
    ∧ (ready.inTable .counted .record 1 []).task.seq.phase = .record
    ∧ oneFewer (ready.inTable .counted .record 1 []).task.seq = 0
    ∧ oneFewer (ready.inTable .counted .record 2 []).task.seq = 1
    ∧ displayReady (ready.inTable .sentinel .record 0 []) := by
  unfold displayReady frameReady shiftRule bothPhases idle; decide +kernel

theorem witness_CountedTableRunsToItsEnd :
    let table : List Byte := [0x02, 0x11, 0x00, 0x3A, 0x81, 0x05, 0x0A]
    let s := ready.inTable .counted .header 0 table
    s.sched = [] ∧ s.task.spin = none ∧ s.task.op = none ∧ displayReady s ∧ s.task.seq = ⟨.header, .counted, table, 0, 0⟩
      ∧ table = 0x02 :: ([[0x11, 0x00], [0x3A, 0x81, 0x05, 0x0A]].flatten ++ [])
      ∧ [[(0x11 : Byte), 0x00], [0x3A, 0x81, 0x05, 0x0A]].length = (0x02 : Byte).toNat := by
  unfold displayReady frameReady shiftRule bothPhases idle; decide +kernel

theorem witness_CountedTableRunsToItsEnd_sentinel :
    let table : List Byte := [0x11, 0x00, 0x00, 0xFF]
    let s := ready.inTable .sentinel .record 0 table
    s.sched = [] ∧ s.task.spin = none ∧ s.task.op = none ∧ displayReady s ∧ s.task.seq = ⟨.record, .sentinel, table, 0, 0⟩
      ∧ table = [[0x11, 0x00]].flatten ++ s.params.initSentinel :: [0xFF]
      ∧ ∀ r ∈ [[(0x11 : Byte), 0x00]], r.head? ≠ some s.params.initSentinel := by
  unfold displayReady frameReady shiftRule bothPhases idle; decide +kernel

theorem issued_unit (u : Nat) : issued.unit u = .zero ∨ u = 4 ∨ u = 5 := by
  by_cases h : u < 8
  · have : ∀ v < 8, issued.unit v = .zero ∨ v = 4 ∨ v = 5 := by decide +kernel
    exact this u h
  · refine .inl ?_
    have : issued.params.inRange u = false := by
      change (decide (0 ≤ u) && decide (u ≤ 7)) = false
      simp; omega
    simp [State.unit, this]

theorem witness_StepKeepsShape : Shape issued ∧ step issued = .next (afterStep issued) := by
  refine ⟨⟨by decide +kernel, by unfold sized; decide +kernel, ?_, ?_, by decide +kernel⟩,
    next_afterStep _ (by decide +kernel)⟩
  · intro u h
    cases h
    decide +kernel
  · intro u
    obtain h | rfl | rfl := issued_unit u
    · rw [h]; decide +kernel
    · decide +kernel
    · decide +kernel

theorem witness_StepKeepsUnitTableConsistent : Consistent issued ∧ undisturbed issued := by
  refine ⟨⟨?_, ?_, ?_, by decide +kernel⟩, rfl, by decide +kernel, by decide +kernel⟩
  · intro u _
    obtain h | rfl | rfl := issued_unit u
    · exact .inl (by rw [h]; rfl)
    · exact .inr ⟨10000000, by decide +kernel⟩
    · exact .inr ⟨2000000, by decide +kernel⟩
  · rintro u - ⟨h, -⟩
    cases h
    unfold reflects; decide +kernel
  · intro u _ hl hd
    obtain h | rfl | rfl := issued_unit u
    · rw [h]; exact ⟨rfl, rfl, rfl, rfl, .inl rfl⟩
    · exact absurd rfl hl
    · exact absurd hd (by decide +kernel)

theorem witness_BracketsAreBalanced : ready.task.spin = none
    ∧ exec (.sendcmd 0x11) ready = .next (after (.sendcmd 0x11) ready) ∧ (after (.sendcmd 0x11) ready).task.spin = none
    ∧ exec (.transfer 4 .one 1 none none) stuckState = .next (after (.transfer 4 .one 1 none none) stuckState)
    ∧ (after (.transfer 4 .one 1 none none) stuckState).task.spin = some 2 :=
  ⟨rfl, next_after _ _ (by decide +kernel), by decide +kernel, next_after _ _ (by decide +kernel), by decide +kernel⟩

/-- `ready`, whose task has ended an operation before. -/
def again : State := ready.ret .none

/-- Also for the last clauses of SetModeStoresMode, InvalidUnitWritesNothing and InitRefusesSlave: after an earlier
result. -/
theorem witness_ErrorKindsByOperation : again.task.result = some (.ok .none)
    ∧ result (.select 8) again = some (.err .invalidUnit .none)
    ∧ result (.setmode 7 4) again = some (.err .invalidMode .none)
    ∧ result (.init 7 false) again = some (.err .slaveNotAllowed .none)
    ∧ result (.init 5 true) { again with locks := ready.locks.set 22 (some 2) } =
      some (.err (.pinLockConflict 2 22) .none)
    ∧ result (.readtouch 0 .fail) again = some (.err .outOfMemory (.sample 0)) := by decide +kernel

theorem witness_StepAppendsToTrace : step issued = .next (afterStep issued) ∧ (afterStep issued).trace ≠ [] :=
  ⟨next_afterStep _ (by decide +kernel), by decide +kernel⟩

theorem witness_HeldBracketKeepsOtherTasks :
    let s := { ready with suspendDepth := 1, others := [issued.task], sched := [⟨0, none⟩] }
    s.unbracketed = false ∧ step s = .next (afterStep s) ∧ s.task.spin = none ∧ s.task.op = none ∧ s.task.seq.phase = .idle
      ∧ s.task.issue = [] :=
  ⟨rfl, next_afterStep _ (by decide +kernel), rfl, rfl, rfl, rfl⟩

theorem witness_CollaboratorCalls : 39 < ready.pins.length := by decide +kernel

theorem witness_RegisterMapPlacesFields : 1 % 4 ≠ 0 ∧ (regs4.busWrite 0x18 0x80000000).isSome = true
    ∧ (regs4.busRead 0xBC).isSome = true ∧ regs4.usr = false ∧ (regs4.busWrite 0x00 0x40000).isSome = true
    ∧ (regs4.start true).usr = true ∧ ((regs4.start true).busWrite 0x00 0).isSome = true := by
  decide +kernel

/-- `ready` with a SELECT of unit 5 issued, to be broken off after `n` micro-steps. -/
def preempted (n : Nat) : State := { ready with task := selecting 5, sched := [⟨0, some n⟩] }

theorem witness_PreemptedOperationResumes : (preempted 9).sched = [⟨0, some 9⟩] ∧ (preempted 9).others.length ≤ 0
    ∧ fetch (switchTask (preempted 9)) =
      .instr (.select 5) { preempted 9 with sched := [], task := { selecting 5 with issue := [] } }
    ∧ step (preempted 9) = .next (afterStep (preempted 9)) ∧ (afterStep (preempted 9)).task.op ≠ none
    ∧ step (preempted 900) = .next (afterStep (preempted 900)) ∧ (afterStep (preempted 900)).task.op = none :=
  ⟨rfl, Nat.le_refl 0, rfl, next_afterStep _ (by decide +kernel), by decide +kernel, next_afterStep _ (by decide +kernel),
    by decide +kernel⟩

end Sys2Proof.Tests
end

/-! # The clock divisor calculator (R100 to R110): the walk of R105 finds the best candidate -/

namespace Sys2Proof.Machine.Laws

/-! ## The encoding of a candidate and its fields -/

/-- The fields of a candidate's encoding do not overlap (R101). -/
theorem clockEnc_eq_ofNat {pre n l : Nat} (hn : n ≤ 63) (hl : l ≤ 63) :
    clockEnc 0 pre n 0 l = BitVec.ofNat 32 (pre * 2 ^ 18 + n * 2 ^ 12 + l) := by
  have hhigh : pre <<< 18 ||| n <<< 12 = (pre * 2 ^ 6 + n) <<< 12 := by
    rw [← Nat.shiftLeft_add_eq_or_of_lt (by rw [Nat.shiftLeft_eq]; omega)]
    simp only [Nat.shiftLeft_eq]
    omega
  have hlow : (pre * 2 ^ 6 + n) <<< 12 ||| l = (pre * 2 ^ 6 + n) <<< 12 + l :=
    (Nat.shiftLeft_add_eq_or_of_lt (by omega) _).symm
  simp only [clockEnc, Nat.zero_shiftLeft, Nat.zero_or, Nat.or_zero, hhigh, hlow]
  congr 1
  rw [Nat.shiftLeft_eq]
  omega

section Fields

variable {pre n l : Nat} (hpre : pre ≤ 8191) (hn : n ≤ 63) (hl : l ≤ 63)

include hpre hn hl

theorem clockEnc_toNat : (clockEnc 0 pre n 0 l).toNat = pre * 2 ^ 18 + n * 2 ^ 12 + l := by
  rw [clockEnc_eq_ofNat hn hl, BitVec.toNat_ofNat]
  omega

theorem clockEqu_clockEnc : clockEqu (clockEnc 0 pre n 0 l) = false := by
  rw [clockEqu, ← BitVec.testBit_toNat, clockEnc_toNat hpre hn hl]
  exact Nat.testBit_lt_two_pow (by omega)

theorem clockPre_clockEnc : clockPre (clockEnc 0 pre n 0 l) = pre := by
  rw [clockPre, BitVec.extractLsb'_toNat, clockEnc_toNat hpre hn hl, Nat.shiftRight_eq_div_pow]
  omega

theorem clockN_clockEnc : clockN (clockEnc 0 pre n 0 l) = n := by
  rw [clockN, BitVec.extractLsb'_toNat, clockEnc_toNat hpre hn hl, Nat.shiftRight_eq_div_pow]
  omega

/-- R102 of a candidate's encoding is the candidate's frequency of R105. -/
theorem freq_clockEnc (sys : Nat) : freq sys (clockEnc 0 pre n 0 l) = candFreq sys n pre := by
  rw [freq, clockEqu_clockEnc hpre hn hl, clockPre_clockEnc hpre hn hl, clockN_clockEnc hpre hn hl, candFreq]
  rfl

end Fields

/-- The frequency of `MIN_ENC` is the floor (R103). -/
theorem freq_minEnc (sys : Nat) : freq sys minEnc = sys / 524288 :=
  freq_clockEnc (by decide) (by decide) (by decide) sys

/-- The frequency of `EQU_ENC` is the system clock's (R103). -/
theorem freq_equEnc (sys : Nat) : freq sys equEnc = sys :=
  if_pos (by decide)

/-! ## Candidates of one `n` -/

/-- `candPre` is the smallest `pre` of its `n` whose frequency does not exceed the target. -/
theorem candFreq_le_iff (sys t n pre : Nat) : candFreq sys n pre ≤ t ↔ candPre sys t n ≤ pre := by
  have hcomm : (t + 1) * ((pre + 1) * (n + 1)) = (pre + 1) * ((t + 1) * (n + 1)) := by ring
  rw [candFreq, candPre, ← Nat.lt_succ_iff, ← Nat.lt_succ_iff, Nat.div_lt_iff_lt_mul (by positivity),
    Nat.div_lt_iff_lt_mul (by positivity), Nat.succ_eq_add_one, Nat.succ_eq_add_one, hcomm]

/-- A larger pre-divider gives no higher frequency. -/
theorem candFreq_le_of_pre_le (sys n : Nat) {pre q : Nat} (h : pre ≤ q) : candFreq sys n q ≤ candFreq sys n pre :=
  Nat.div_le_div_left (Nat.mul_le_mul_right _ (Nat.succ_le_succ h)) (by positivity)

/-- A candidate is at most half the system clock, because `n` is at least 1. -/
theorem candFreq_le_half (sys : Nat) {n : Nat} (hn : 1 ≤ n) (pre : Nat) : candFreq sys n pre ≤ sys / 2 :=
  Nat.div_le_div_left (Nat.mul_le_mul (Nat.le_add_left 1 pre) (Nat.succ_le_succ hn)) (by decide)

/-! ## The order of R105 -/

/-- `(n, pre)` comes before `(m, q)` or is the same: a higher frequency, else a smaller `n`, else a smaller `pre`. -/
def Preferred (sys n pre m q : Nat) : Prop :=
  candFreq sys m q < candFreq sys n pre
    ∨ (candFreq sys m q = candFreq sys n pre ∧ (n < m ∨ (n = m ∧ pre ≤ q)))

/-- `(m, q)` is a candidate with `m` at most `k` whose frequency does not exceed the target (R105, with `k = 63`). -/
structure IsCandidate (sys t k m q : Nat) : Prop where
  one_le : 1 ≤ m
  le : m ≤ k
  pre_le : q ≤ 8191
  freq_le : candFreq sys m q ≤ t

/-- `(n, pre)` is the best of the candidates with `n` at most `k`. -/
structure IsBest (sys t k n pre : Nat) : Prop extends IsCandidate sys t k n pre where
  preferred : ∀ {m q}, IsCandidate sys t k m q → Preferred sys n pre m q

/-- What the walk holds after `n = k`: the best candidate so far, or nothing when there is none. -/
def WalkHolds (sys t k : Nat) : Option (Nat × Nat) → Prop
  | none => ∀ m q, ¬ IsCandidate sys t k m q
  | some (n, pre) => IsBest sys t k n pre

theorem Preferred.freq_le {sys n pre m q : Nat} (h : Preferred sys n pre m q) :
    candFreq sys m q ≤ candFreq sys n pre := by
  rcases h with h | ⟨h, -⟩ <;> omega

/-- A candidate of the next round was a candidate before, or is of the new `n` with `pre` at least `candPre`. -/
theorem IsCandidate.of_succ {sys t k m q : Nat} (h : IsCandidate sys t (k + 1) m q) :
    IsCandidate sys t k m q ∨ (m = k + 1 ∧ candPre sys t (k + 1) ≤ q) := by
  obtain ⟨hm, hk, hq, hf⟩ := h
  rcases Nat.le_succ_iff.1 hk with hk | rfl
  · exact .inl ⟨hm, hk, hq, hf⟩
  · exact .inr ⟨rfl, (candFreq_le_iff ..).1 hf⟩

theorem IsCandidate.succ {sys t k m q : Nat} (h : IsCandidate sys t k m q) : IsCandidate sys t (k + 1) m q :=
  ⟨h.one_le, Nat.le_succ_of_le h.le, h.pre_le, h.freq_le⟩

/-- The candidate the walk tries at `n = k + 1` is one when its `pre` fits the field. -/
theorem isCandidate_candPre {sys t k : Nat} (h : candPre sys t (k + 1) ≤ 8191) :
    IsCandidate sys t (k + 1) (k + 1) (candPre sys t (k + 1)) :=
  ⟨Nat.succ_pos k, le_rfl, h, (candFreq_le_iff ..).2 le_rfl⟩

/-- Within one `n`, the smallest admissible `pre` comes first. -/
theorem preferred_same_n (sys n : Nat) {pre q : Nat} (h : pre ≤ q) : Preferred sys n pre n q := by
  rcases (candFreq_le_of_pre_le sys n h).lt_or_eq with hlt | heq
  · exact .inl hlt
  · exact .inr ⟨heq, .inr ⟨rfl, h⟩⟩

/-! ## The walk -/

/-- With no `pre` of the new `n` in the field, the candidates stay the same. -/
theorem walkHolds_skip {sys t k : Nat} {b : Option (Nat × Nat)} (hb : WalkHolds sys t k b)
    (hpre : 8191 < candPre sys t (k + 1)) : WalkHolds sys t (k + 1) b := by
  have hold : ∀ {m q}, IsCandidate sys t (k + 1) m q → IsCandidate sys t k m q := fun hc =>
    hc.of_succ.resolve_right fun hnew => by have := hc.pre_le; omega
  match b, hb with
  | none, hb => exact fun m q hc => hb m q (hold hc)
  | some (n, pre), hb => exact ⟨hb.succ, fun hc => hb.preferred (hold hc)⟩

/-- The new `n`'s candidate is the best when it beats every candidate of the smaller `n`. -/
theorem isBest_new {sys t k : Nat} (hpre : candPre sys t (k + 1) ≤ 8191)
    (hbeats : ∀ m q, IsCandidate sys t k m q → candFreq sys m q < candFreq sys (k + 1) (candPre sys t (k + 1))) :
    IsBest sys t (k + 1) (k + 1) (candPre sys t (k + 1)) := by
  refine ⟨isCandidate_candPre hpre, fun {m q} hc => ?_⟩
  rcases hc.of_succ with hold | ⟨rfl, hq⟩
  · exact .inl (hbeats m q hold)
  · exact preferred_same_n sys _ hq

/-- The best so far stays the best when the new `n`'s candidate is not strictly better: a tie goes to the smaller `n`. -/
theorem isBest_keep {sys t k n pre : Nat} (hb : IsBest sys t k n pre)
    (hkeep : candFreq sys (k + 1) (candPre sys t (k + 1)) ≤ candFreq sys n pre) : IsBest sys t (k + 1) n pre := by
  refine ⟨hb.succ, fun {m q} hc => ?_⟩
  rcases hc.of_succ with hold | ⟨rfl, hq⟩
  · exact hb.preferred hold
  · rcases ((candFreq_le_of_pre_le sys _ hq).trans hkeep).lt_or_eq with hlt | heq
    · exact .inl hlt
    · exact .inr ⟨heq, .inl (Nat.lt_succ_of_le hb.le)⟩

/-- One step of the walk keeps what it holds. -/
theorem walkHolds_bestStep {sys t k : Nat} {b : Option (Nat × Nat)} (hb : WalkHolds sys t k b) :
    WalkHolds sys t (k + 1) (bestStep sys t b (k + 1)) := by
  unfold bestStep
  split_ifs with hpre
  · exact walkHolds_skip hb hpre
  · have hfits := Nat.le_of_not_lt hpre
    match b, hb with
    | none, hb => exact isBest_new hfits fun m q hc => absurd hc (hb m q)
    | some (n, pre), hb =>
      by_cases hbetter : candFreq sys n pre < candFreq sys (k + 1) (candPre sys t (k + 1))
      · simp only [if_pos hbetter]
        exact isBest_new hfits fun m q hc => (hb.preferred hc).freq_le.trans_lt hbetter
      · simp only [if_neg hbetter]
        exact isBest_keep hb (Nat.le_of_not_lt hbetter)

/-- The walk over `n = 1 .. k`, by induction on `k`. -/
theorem walkHolds_foldl (sys t k : Nat) :
    WalkHolds sys t k (((List.range k).map (· + 1)).foldl (bestStep sys t) none) := by
  induction k with
  | zero => exact fun m q hc => absurd (hc.one_le.trans hc.le) (by decide)
  | succ k ih =>
    rw [List.range_succ, List.map_append, List.foldl_append]
    exact walkHolds_bestStep ih

/-- From the floor upward the walk finds a candidate, since `(63, 8191)` is one, and it is the best. -/
theorem best_eq_some {sys t : Nat} (hfloor : sys / 524288 ≤ t) :
    ∃ n pre, best sys t = some (n, pre) ∧ IsBest sys t 63 n pre := by
  have hwalk : WalkHolds sys t 63 (best sys t) := walkHolds_foldl sys t 63
  cases hbest : best sys t with
  | none =>
    rw [hbest] at hwalk
    exact absurd ⟨by decide, le_rfl, le_rfl, hfloor⟩ (hwalk 63 8191)
  | some c =>
    rw [hbest] at hwalk
    exact ⟨c.1, c.2, rfl, hwalk⟩

/-! ## FREQ2DIV by the range of the target (R104) -/

theorem frequencyToDivisor_of_ge {sys t : Nat} (h : sys ≤ t) : frequencyToDivisor sys t = equEnc :=
  if_pos h

theorem frequencyToDivisor_of_lt_floor {sys t : Nat} (h : t < sys / 524288) : frequencyToDivisor sys t = minEnc := by
  have hsys : ¬ sys ≤ t := Nat.not_le.2 (h.trans_le (Nat.div_le_self ..))
  rw [frequencyToDivisor, if_neg hsys]
  exact if_pos h

/-- Between the floor and the clock, the result is the encoding of the best candidate. -/
theorem frequencyToDivisor_of_between {sys t : Nat} (hfloor : sys / 524288 ≤ t) (hsys : t < sys) :
    ∃ n pre, IsBest sys t 63 n pre ∧ frequencyToDivisor sys t = clockEnc 0 pre n 0 ((n + 1) / 2) := by
  obtain ⟨n, pre, hbest, hspec⟩ := best_eq_some hfloor
  refine ⟨n, pre, hspec, ?_⟩
  rw [frequencyToDivisor, if_neg (Nat.not_le.2 hsys), floorHz, if_neg (Nat.not_lt.2 hfloor), hbest]

/-- From half the clock upward the best candidate is `(1, 0)`: no other has a frequency as high and comes before it. -/
theorem IsBest.eq_of_half_le {sys t n pre : Nat} (h : IsBest sys t 63 n pre) (hhalf : sys / 2 ≤ t) :
    n = 1 ∧ pre = 0 := by
  have hcand : IsCandidate sys t 63 1 0 := ⟨le_rfl, by decide, by decide, hhalf⟩
  have hle : candFreq sys n pre ≤ candFreq sys 1 0 := candFreq_le_half sys h.one_le pre
  have hn := h.one_le
  rcases h.preferred hcand with hlt | ⟨-, htie⟩ <;> omega

theorem frequencyToDivisor_of_half_le {sys t : Nat} (hhalf : sys / 2 ≤ t) (hsys : t < sys) :
    frequencyToDivisor sys t = 0x00001001 := by
  obtain ⟨n, pre, hbest, hv⟩ := frequencyToDivisor_of_between (by omega) hsys
  obtain ⟨rfl, rfl⟩ := hbest.eq_of_half_le hhalf
  exact hv

/-- The frequency reached between the floor and the clock is the best candidate's. -/
theorem divisorToFrequency_frequencyToDivisor {sys t : Nat} (hfloor : sys / 524288 ≤ t) (hsys : t < sys) :
    ∃ n pre, IsBest sys t 63 n pre ∧ divisorToFrequency sys (frequencyToDivisor sys t) = candFreq sys n pre := by
  obtain ⟨n, pre, hbest, hv⟩ := frequencyToDivisor_of_between hfloor hsys
  have hn := hbest.le
  exact ⟨n, pre, hbest, hv ▸ freq_clockEnc hbest.pre_le hn (by omega) sys⟩

theorem exec_freq2div (t : Word) (s : State) :
    exec (.freq2div t) s = .next (s.ret (.encoding (frequencyToDivisor s.params.sysclkHz t.toNat))) := by
  rfl

/-! ## The obligations -/

/-- Settles O9: the case split of R104, with the walk's invariant `IsBest` between the floor and the clock. -/
theorem frequencyToDivisorIsBest : Obligations.FrequencyToDivisorIsBest := by
  intro s t
  refine ⟨_, exec_freq2div t s, frequencyToDivisor_of_ge, frequencyToDivisor_of_lt_floor, fun hfloor hsys => ?_,
    frequencyToDivisor_of_half_le, Sys2Proof.Laws.OpcodeByte.freq2div t s.params⟩
  obtain ⟨n, pre, hbest, hv⟩ := frequencyToDivisor_of_between hfloor hsys
  have hn := hbest.le
  refine ⟨n, pre, hbest.one_le, hn, hbest.pre_le, hv.trans (clockEnc_eq_ofNat hn (by omega)), hbest.freq_le, ?_⟩
  intro m q hm hm' hq hf
  exact hbest.preferred ⟨hm, hm', hq, hf⟩

/-- Settles O11: the upper bound and the closeness are the two halves of `IsBest`; saturation is the frequency of the
two fixed encodings. -/
theorem divisorLaws : Obligations.DivisorLaws := by
  intro sys t
  refine ⟨fun hfloor hsys => ?_, fun hsys => ?_, fun hfloor => ?_⟩
  · obtain ⟨n, pre, hbest, hfreq⟩ := divisorToFrequency_frequencyToDivisor hfloor hsys
    rw [hfreq]
    exact ⟨hbest.freq_le, fun m q hm hm' hq hf => (hbest.preferred ⟨hm, hm', hq, hf⟩).freq_le⟩
  · rw [frequencyToDivisor_of_ge hsys]
    exact freq_equEnc sys
  · rw [frequencyToDivisor_of_lt_floor hfloor]
    exact freq_minEnc sys

end Sys2Proof.Machine.Laws

/-! # Device configuration (R120 to R123): the setters, and the errors operations end with (R251 to R257) -/

namespace Sys2Proof.Machine.Laws

open Sys2Proof.Safety

/-! ## What the setters have in common -/

section Configure

variable {s : State} {u : Nat} (f : UnitRec → UnitRec)

theorem configure_of_inRange (h : s.params.inRange u = true) :
    s.configure u f = (s.setUnit u { f (s.unit u) with dirty := true }).ret .none :=
  if_pos h

theorem configure_of_not_inRange (h : s.params.inRange u = false) :
    s.configure u f = s.failWith .invalidUnit .none :=
  if_neg (by simp [h])

/-- R120, in range: the unit's record is the new one, marked dirty; every other record and everything else of the state
but the result `Ok` are as they were. -/
theorem configure_spec (hl : s.units.length = s.params.unitCount) (h : s.params.inRange u = true) :
    (s.configure u f).unit u = { f (s.unit u) with dirty := true }
      ∧ (∀ v, v ≠ u → (s.configure u f).unit v = s.unit v) ∧ recordsOnly s (s.configure u f) := by
  rw [configure_of_inRange f h]
  refine ⟨unit_setUnit_self s _ h hl, fun v hv => unit_setUnit_ne s _ hv, ?_⟩
  rw [recordsOnly, State.setUnit, if_pos h]
  rfl

end Configure

/-! ## CFGPINS, SETMODE and SETSPEED as setters -/

theorem exec_cfgpins {u a b c d : Nat} {s : State} (h : s.params.pinsOk ⟨a, b, c, d⟩ = true) :
    exec (.cfgpins u a b c d) s = .next (s.configure u fun r => { r with sdi := a, sdo := b, sck := c, cs := d }) :=
  (execCfgpins_eq u a b c d s).trans (if_pos h)

theorem exec_setmode_of_le {m : Nat} (h : m ≤ 3) (u : Nat) (s : State) :
    exec (.setmode u m) s = .next (s.configure u fun r => { r with mode := BitVec.ofNat 2 m }) :=
  (execSetmode_eq u m s).trans (if_neg (by simp [h]))

theorem exec_setmode_of_gt {u m : Nat} {s : State} (hu : s.params.inRange u = true) (h : 3 < m) :
    exec (.setmode u m) s = .next (s.failWith .invalidMode .none) :=
  (execSetmode_eq u m s).trans (if_pos (by simp [hu, h]))

/-- The unit check comes before the mode check (R122). -/
theorem exec_setmode_of_not_inRange {u : Nat} {s : State} (hu : s.params.inRange u = false) (m : Nat) :
    exec (.setmode u m) s = .next (s.failWith .invalidUnit .none) := by
  rw [← configure_of_not_inRange (fun r => { r with mode := BitVec.ofNat 2 m }) hu]
  exact (execSetmode_eq u m s).trans (if_neg (by simp [hu]))

theorem exec_setspeed (u : Nat) (k : Word) (s : State) :
    exec (.setspeed u k) s = .next (s.configure u fun r =>
      { r with speedKhz := k, divisor := frequencyToDivisor s.params.sysclkHz (k.toNat * 1000) }) :=
  execSetspeed_eq u k s

/-! ## The errors of each operation -/

/-- The unit an operation checks before anything else (R251); none for the operations that answer no `InvalidUnit`. -/
def validatedUnit : Instr → Option Nat
  | .cfgpins u _ _ _ _ | .setmode u _ | .setspeed u _ | .setcs u _ | .setduplex u _ | .select u | .deselect u
  | .init u _ => some u
  | _ => none

/-- The errors an operation that begins in `s` can end with, and the value each carries (R251 to R257). -/
inductive Raises (s : State) : Instr → ErrorKind → Value → Prop
  | invalidUnit {i : Instr} {u : Nat} (hv : validatedUnit i = some u) (hu : s.params.inRange u = false) :
      Raises s i .invalidUnit .none
  | invalidMode {u m : Nat} (hm : 3 < m) : Raises s (.setmode u m) .invalidMode .none
  | slaveNotAllowed (u : Nat) : Raises s (.init u false) .slaveNotAllowed .none
  | pinLockConflict {u o g : Nat} (ho : s.lockOwner g = some o) : Raises s (.init u true) (.pinLockConflict o g) .none
  | readpx (x y : Half) : Raises s (.readpx x y .fail) .outOfMemory (.color 0)
  | readpxs (x1 y1 x2 y2 : Half) (n : Nat) :
      Raises s (.readpxs x1 y1 x2 y2 n .fail) .outOfMemory (.colors (List.replicate n 0))
  | readtouch (c : Byte) : Raises s (.readtouch c .fail) .outOfMemory (.sample 0)

/-- An error recorded where `o` ends either stood there before or is one that `i` raises. -/
def ErrorsRaised (s : State) (i : Instr) (o : Host.Outcome State Fault Refusal) : Prop :=
  ∀ t e v, o = .next t → t.task.result = some (.err e v) → t.task.result = s.task.result ∨ Raises s i e v

/-- A return that records no error: the result stays, or becomes `Ok`. -/
def RecordsNoError (g : State → State) : Prop :=
  ∀ t, (g t).task.result = t.task.result ∨ ∃ v, (g t).task.result = some (.ok v)

theorem recordsNoError_ret (h : State → State) (v : State → Value) : RecordsNoError fun t => (h t).ret (v t) :=
  fun _ => .inr ⟨_, rfl⟩

theorem recordsNoError_settle : RecordsNoError State.settle := by
  intro t
  unfold State.settle
  split
  · exact .inr ⟨_, rfl⟩
  · exact .inl rfl

theorem recordsNoError_recordDone : RecordsNoError State.recordDone := by
  intro t
  unfold State.recordDone
  split
  · exact recordsNoError_settle (t.setSeq _)
  · exact recordsNoError_settle t

section ErrorsRaised

variable {s : State} {i : Instr}

theorem errorsRaised_refused (r : Refusal) : ErrorsRaised s i (.refused r) := by
  rintro _ _ _ ⟨⟩

theorem errorsRaised_failWith {e : ErrorKind} {v : Value} (h : Raises s i e v) (t : State) :
    ErrorsRaised s i (.next (t.failWith e v)) := by
  rintro _ _ _ ⟨⟩ ⟨⟩
  exact .inr h

/-- A bus operation keeps the recorded result to its end or its hang, so its error can only come from its return. -/
theorem errorsRaised_outcome {f : Flow} {g : State → State} (hf : FlowOk s f) (hg : RecordsNoError g) :
    ErrorsRaised s i (f.outcome g) := by
  intro t e v ho he
  refine .inl (FlowAll.of_outcome (R := fun t => t.task.result = some (.err e v) → t.task.result = s.task.result)
    hf ho ?_ ?_ he)
  · rintro x ⟨hx, -⟩ herr
    obtain hkept | ⟨w, hok⟩ := hg x
    · exact hkept.trans hx.result
    · rw [hok] at herr
      cases herr
  · rintro x ⟨hx, -⟩ -
    exact hx.result

theorem errorsRaised_ret (t : State) (v : Value) : ErrorsRaised s i (.next (t.ret v)) := by
  rintro _ _ _ ⟨⟩ ⟨⟩

theorem errorsRaised_configure {u : Nat} (hv : validatedUnit i = some u) (f : UnitRec → UnitRec) :
    ErrorsRaised s i (.next (s.configure u f)) := by
  cases hu : s.params.inRange u with
  | true => rw [configure_of_inRange f hu]; exact errorsRaised_ret _ _
  | false => rw [configure_of_not_inRange f hu]; exact errorsRaised_failWith (.invalidUnit hv hu) s

/-- The unit check of R251 in front of what the operation does with a unit in range. -/
theorem errorsRaised_checked {u : Nat} (hv : validatedUnit i = some u) {o : Host.Outcome State Fault Refusal}
    (ho : ErrorsRaised s i o) :
    ErrorsRaised s i (if s.params.inRange u then o else .next (s.failWith .invalidUnit .none)) := by
  split
  · exact ho
  · next hu => exact errorsRaised_failWith (.invalidUnit hv (by simpa using hu)) s

/-- A frame whose received bytes go to a fresh staging buffer. -/
theorem errorsRaised_readback {n : Nat} {f : State → Flow} (hf : ∀ t, FlowOk t (f t)) (v : State → Value) :
    ErrorsRaised s i ((f (s.heapAlloc n)).outcome fun t => t.heapFree.ret (v t)) :=
  errorsRaised_outcome ((flowOk_heapAlloc s n).after (hf _)) (recordsNoError_ret _ _)

end ErrorsRaised

section Operations

variable (s : State)

theorem errorsRaised_setmode (u m : Nat) : ErrorsRaised s (.setmode u m) (exec (.setmode u m) s) := by
  obtain hm | hm := Nat.lt_or_ge 3 m
  · cases hu : s.params.inRange u with
    | true => rw [exec_setmode_of_gt hu hm]; exact errorsRaised_failWith (.invalidMode hm) s
    | false => rw [exec_setmode_of_not_inRange hu]; exact errorsRaised_failWith (.invalidUnit rfl hu) s
  · rw [exec_setmode_of_le hm]
    exact errorsRaised_configure rfl _

theorem assignDefaultPins_locks (u : Nat) : (s.assignDefaultPins u).locks = s.locks := by
  unfold State.assignDefaultPins
  split
  · exact setUnit_locks ..
  · rfl

/-- The default pins leave the locks alone, so a conflict names an owner that held the pin before (R132). -/
theorem errorsRaised_init (u : Nat) (master : Bool) :
    ErrorsRaised s (.init u master) (exec (.init u master) s) := by
  show ErrorsRaised s _ (execInit u master s)
  rw [execInit_eq]
  refine errorsRaised_checked rfl ?_
  cases master with
  | false => exact errorsRaised_failWith (.slaveNotAllowed u) s
  | true =>
    have hconflict := (acquirePins_spec ((s.assignDefaultPins u).unit u).lockOrder (s.assignDefaultPins u)).2
    rw [if_pos rfl]
    generalize (s.assignDefaultPins u).acquirePins ((s.assignDefaultPins u).unit u).lockOrder = acquired at hconflict ⊢
    obtain ⟨t, _ | ⟨o, g⟩⟩ := acquired
    · exact errorsRaised_ret _ _
    · have howner := (hconflict o g rfl).1
      rw [State.lockOwner, assignDefaultPins_locks] at howner
      exact errorsRaised_failWith (.pinLockConflict howner) t

theorem errorsRaised_transfer (u : Nat) (ws : WordSize) (wc : Nat) (out inb : Option Buf) :
    ErrorsRaised s (.transfer u ws wc out inb) (exec (.transfer u ws wc out inb) s) := by
  show ErrorsRaised s _ (execTransfer u ws wc out inb s)
  unfold execTransfer
  split_ifs
  · exact errorsRaised_outcome (flowOk_transferOn ..) (recordsNoError_ret _ _)
  all_goals exact errorsRaised_refused _

/-- The run of a table that starts has no result yet. -/
theorem errorsRaised_runinit (table : List Byte) (form : TableForm) :
    ErrorsRaised s (.runinit table form) (exec (.runinit table form) s) := by
  show ErrorsRaised s _ (execRuninit table form s)
  unfold execRuninit
  split
  · rintro _ _ _ ⟨⟩ ⟨⟩
  · exact errorsRaised_refused _

/-- R251 to R257: which operation can end with which error. -/
theorem exec_errorsRaised (i : Instr) : ErrorsRaised s i (exec i s) := by
  have hret := recordsNoError_ret id fun _ => Value.none
  have hframed := fun u body hb => flowOk_framed u body hb s
  cases i with
  | freq2div _ | div2freq _ => exact errorsRaised_ret _ _
  | cfgpins u a b c d =>
    cases hpins : s.params.pinsOk ⟨a, b, c, d⟩ with
    | true => rw [exec_cfgpins hpins]; exact errorsRaised_configure rfl _
    | false =>
      show ErrorsRaised s _ (execCfgpins u a b c d s)
      rw [execCfgpins_eq, hpins]
      exact errorsRaised_refused _
  | setmode u m => exact errorsRaised_setmode s u m
  | setspeed u k => rw [exec_setspeed]; exact errorsRaised_configure rfl _
  | setcs u g =>
    show ErrorsRaised s _ (execSetcs u g s)
    rw [execSetcs_eq]
    split
    · exact errorsRaised_configure rfl _
    · exact errorsRaised_refused _
  | setduplex u d =>
    show ErrorsRaised s _ (execSetduplex u d s)
    rw [execSetduplex_eq]
    exact errorsRaised_configure rfl _
  | init u master => exact errorsRaised_init s u master
  | pinmux u =>
    show ErrorsRaised s _ (execPinmux u s)
    rw [execPinmux_eq]
    split
    · exact errorsRaised_ret _ _
    · exact errorsRaised_refused _
  | select u =>
    show ErrorsRaised s _ (execSelect u s)
    rw [execSelect_eq]
    exact errorsRaised_checked rfl (errorsRaised_outcome (flowOk_select u s) hret)
  | deselect u =>
    show ErrorsRaised s _ (execDeselect u s)
    rw [execDeselect_eq]
    exact errorsRaised_checked rfl (errorsRaised_outcome (flowOk_deselect u s) hret)
  | transfer u ws wc out inb => exact errorsRaised_transfer s u ws wc out inb
  | sendcmd c => exact errorsRaised_outcome (flowOk_sendCommand c s) hret
  | senddata buf =>
    cases buf with
    | some b => exact errorsRaised_outcome (flowOk_sendData _ s) hret
    | none => exact errorsRaised_refused _
  | setwin x1 y1 x2 y2 => exact errorsRaised_outcome (hframed _ _ (flowOk_window x1 y1 x2 y2)) hret
  | pushpx _ | pushrep _ _ => exact errorsRaised_outcome (hframed _ _ (flowOk_ramwr _)) hret
  | pushbuf buf n =>
    cases buf with
    | none => exact errorsRaised_refused _
    | some cs =>
      show ErrorsRaised s _ (execPushbuf (some cs) n s)
      rw [execPushbuf]
      split
      · exact errorsRaised_outcome (hframed _ _ (flowOk_ramwr _)) hret
      · exact errorsRaised_refused _
  | readpx x y draw =>
    cases draw with
    | fail => exact errorsRaised_failWith (.readpx x y) s
    | ok =>
      exact errorsRaised_readback
        (fun t => flowOk_framed _ _ (fun v => (flowOk_window x y x y v).andThen (flowOk_ramrd 4)) t) _
  | readpxs x1 y1 x2 y2 n draw =>
    cases draw with
    | fail => exact errorsRaised_failWith (.readpxs x1 y1 x2 y2 n) s
    | ok =>
      exact errorsRaised_readback
        (fun t => flowOk_framed _ _ (fun v => (flowOk_window x1 y1 x2 y2 v).andThen (flowOk_ramrd _)) t) _
  | readtouch c draw =>
    cases draw with
    | fail => exact errorsRaised_failWith (.readtouch c) s
    | ok => exact errorsRaised_readback (fun t => flowOk_framed _ _ (flowOk_touch c) t) _
  | runinit table form => exact errorsRaised_runinit s table form
  | inithdr count =>
    exact errorsRaised_outcome (f := .run (s.advance 1))
      (g := fun t => (t.setSeq { t.task.seq with phase := .record, remaining := count.toNat }).settle)
      (flowOk_advance s 1) fun t => recordsNoError_settle (t.setSeq _)
  | initrec c args =>
    show ErrorsRaised s _ (execInitrec c args s)
    rw [execInitrec_eq]
    exact errorsRaised_outcome (flowOk_record c args s) recordsNoError_recordDone
  | initrecD c args code =>
    show ErrorsRaised s _ (execInitrecD c args code s)
    rw [execInitrecD_eq]
    exact errorsRaised_outcome (flowOk_record c args s) fun t => recordsNoError_recordDone _
  | initend => exact errorsRaised_ret _ _
  | caset x1 x2 => exact errorsRaised_outcome (flowOk_caset x1 x2 s) hret
  | paset y1 y2 => exact errorsRaised_outcome (flowOk_paset y1 y2 s) hret
  | ramwr cs => exact errorsRaised_outcome (flowOk_ramwr _ s) hret
  | ramrd n => exact errorsRaised_readback (flowOk_ramrd _) _

end Operations

/-- An error a step of an operation newly records is one the operation raises. -/
theorem raises_of_exec {s t : State} {i : Instr} {e : ErrorKind} {v : Value} (h : exec i s = .next t)
    (hnew : t.task.result ≠ s.task.result) (herr : t.task.result = some (.err e v)) : Raises s i e v :=
  (exec_errorsRaised s i t e v h herr).resolve_left hnew

/-! ## The obligations -/

/-- Settles O13: a setter of four fields. -/
theorem configurePinsSetsPins : Obligations.ConfigurePinsSetsPins := by
  intro s u a b c d hpins hl
  rw [exec_cfgpins hpins]
  refine ⟨fun hu => ⟨_, rfl, configure_spec _ hl hu⟩, fun hu => ?_, Sys2Proof.Laws.OpcodeByte.cfgpins u a b c d s.params⟩
  rw [configure_of_not_inRange _ hu]

/-- Settles O14: a setter of one field in range, and `InvalidMode` among the errors of every operation. -/
theorem setModeStoresMode : Obligations.SetModeStoresMode := by
  intro s u m hl
  refine ⟨fun hu hm => ?_, exec_setmode_of_gt, fun hu => exec_setmode_of_not_inRange hu m,
    Sys2Proof.Laws.OpcodeByte.setmode u m s.params, rfl, fun i t v h hnew herr => ?_⟩
  · obtain ⟨hself, hothers, hframe⟩ := configure_spec (fun r => { r with mode := BitVec.ofNat 2 m }) hl hu
    refine ⟨_, exec_setmode_of_le hm u s, ?_, ?_, hothers, hframe⟩
    · rw [hself]
      exact Nat.mod_eq_of_lt (Nat.lt_succ_of_le hm)
    · rw [hself]
  · cases raises_of_exec h hnew herr with
    | invalidMode => exact ⟨rfl, _, _, rfl⟩

/-- Settles O15: a setter of two fields; the product is one of natural numbers, so nothing wraps around. -/
theorem setSpeedStoresDivisor : Obligations.SetSpeedStoresDivisor := by
  intro s u k hl
  rw [exec_setspeed]
  refine ⟨fun hu => ⟨_, rfl, configure_spec _ hl hu⟩, fun hu => ?_, Sys2Proof.Laws.OpcodeByte.setspeed u k s.params⟩
  rw [configure_of_not_inRange _ hu]

end Sys2Proof.Machine.Laws

/-! # The transfer engine (R173): which registers a pack writes, and with what -/

namespace Sys2Proof.Machine.Laws

open Sys2Proof.Safety

/-! ## A packed word, and the register block after a pack -/

/-- Byte `b` of a packed word: a byte of the output buffer, 0 beyond the chunk (R173). -/
theorem packWord_byte (s : State) (src : OutSrc) (off n i : Nat) {b : Nat} (hb : b < 4) :
    (s.packWord src off n i).extractLsb' (8 * b) 8 =
      if 4 * i + b < n then s.outByte src (off + (4 * i + b)) else 0 := by
  rw [State.packWord, wordOfBytes_byte _ _ _ _ _ hb]
  interval_cases b <;> rfl

theorem pack_periph_self (p : Fin 4) (src : OutSrc) (off n : Nat) (s : State) :
    (pack p src off n s).periph p =
      { s.periph p with w := packW (s.packWord src off n) ((n + 3) / 4) 0 (s.periph p).w } := by
  rw [pack, packFrom_eq]
  exact Vector.getElem_set_self p.isLt

theorem pack_periph_ne {p q : Fin 4} (src : OutSrc) (off n : Nat) (s : State) (hq : q ≠ p) :
    (pack p src off n s).periph q = s.periph q :=
  (engine_packFrom p src off n _ 0 s).others q hq

/-- R173: a pack of at most 64 bytes writes word register `i` when `i` is below `ceil(n/4)`, and no other. -/
theorem pack_word {n i : Nat} (p : Fin 4) (src : OutSrc) (off : Nat) (s : State) (hn : n ≤ 64) (hi : i < 16) :
    ((pack p src off n s).periph p).w.getD i 0 =
      if i < (n + 3) / 4 then s.packWord src off n i else (s.periph p).w.getD i 0 := by
  rw [pack_periph_self, packW_getD _ _ _ _ _ (by omega) hi]
  simp only [Nat.zero_le, true_and, Nat.zero_add]

/-! ## The rest of the state after a pack -/

theorem newEvents_pack (p : Fin 4) (src : OutSrc) (off n : Nat) (s : State) :
    newEvents s (pack p src off n s) = packEvents p (s.packWord src off n) ((n + 3) / 4) 0 := by
  rw [newEvents, pack, packFrom_eq]
  exact List.drop_left

theorem pack_frame (p : Fin 4) (src : OutSrc) (off n : Nat) (s : State) :
    pack p src off n s =
      { s with periphs := (pack p src off n s).periphs, trace := (pack p src off n s).trace } := by
  rw [pack, packFrom_eq]

/-! ## The obligation -/

/-- Settles O34: a register below `ceil(n/4)` holds its packed word and is the value of its event, any other is as it
was, and a pack writes nothing else of the state. -/
theorem packFillsWordRegisters : Obligations.PackFillsWordRegisters := by
  rintro s _ p src off n hn rfl
  have hword : ∀ i, i < (n + 3) / 4 →
      ((pack p src off n s).periph p).w.getD i 0 = s.packWord src off n i := fun i hi => by
    rw [pack_word p src off s hn (by omega), if_pos hi]
  refine ⟨fun i b hi hb => ?bytes, fun i hi hi16 => ?others, ?events, fun q hq => pack_periph_ne src off n s hq, ?block,
    pack_frame p src off n s⟩
  case bytes =>
    rw [hword i hi, packWord_byte s src off n i hb]
    cases src <;> rfl
  case others => rw [pack_word p src off s hn hi16, if_neg (by omega)]
  case events =>
    rw [newEvents_pack, packEvents]
    refine List.map_congr_left fun i hi => ?_
    rw [Nat.zero_add, hword i (List.mem_range.1 hi)]
  case block => rw [pack_periph_self]

end Sys2Proof.Machine.Laws

/-! # The colour of a readback (R213): the fields of RGB565 -/

namespace Sys2Proof.Machine.Laws

/-- The number of a concatenation: its two parts do not overlap, so the or of them is a sum. -/
theorem append_toNat_eq_add {m n : Nat} (x : BitVec m) (y : BitVec n) :
    (x ++ y).toNat = x.toNat * 2 ^ n + y.toNat := by
  rw [BitVec.toNat_append, ← Nat.shiftLeft_add_eq_or_of_lt y.isLt, Nat.shiftLeft_eq]

/-- The upper `n` bits of a byte are its quotient by `2 ^ k`, where `k` is the number of bits below them. -/
theorem upperBits_toNat (x : Byte) {k n : Nat} (h : k + n = 8) : (x.extractLsb' k n).toNat = x.toNat / 2 ^ k := by
  rw [BitVec.extractLsb'_toNat, Nat.shiftRight_eq_div_pow, Nat.mod_eq_of_lt]
  rw [Nat.div_lt_iff_lt_mul (Nat.two_pow_pos k), ← Nat.pow_add, Nat.add_comm n k, h]
  exact x.isLt

/-- R213 bit by bit: the masks and shifts lay red's upper five bits, green's upper six and blue's upper five side by
side. -/
theorem rgb565_eq_append (r g b : Byte) :
    rgb565 r g b = (r.extractLsb' 3 5 ++ g.extractLsb' 2 6 ++ b.extractLsb' 3 5 : BitVec 16) := by
  refine BitVec.eq_of_getLsbD_eq fun i hi => ?_
  simp only [rgb565, BitVec.getLsbD_append, BitVec.getLsbD_extractLsb']
  interval_cases i <;> simp

/-- Settles O47: a colour is the concatenation of its three fields, and each field is the upper bits of its byte. -/
theorem rgbFieldsAreUpperBits : Obligations.RgbFieldsAreUpperBits := by
  intro r g b
  rw [rgb565_eq_append, append_toNat_eq_add, append_toNat_eq_add, upperBits_toNat r rfl, upperBits_toNat g rfl,
    upperBits_toNat b rfl]
  omega

end Sys2Proof.Machine.Laws

/-! # Error results (R251 to R257): when each is recorded, and by which operation -/

namespace Sys2Proof.Machine.Laws

/-! ## The checks an operation makes before it acts -/

/-- A setter checks its unit before it stores anything (R120, R251). -/
theorem exec_setter_of_not_inRange {s : State} {i : Instr} {u : Nat} {f : UnitRec → UnitRec}
    (h : exec i s = .next (s.configure u f)) (hu : s.params.inRange u = false) :
    exec i s = .next (s.failWith .invalidUnit .none) := by
  rw [h, configure_of_not_inRange f hu]

/-- The unit check of R251 comes first: an encodable operation that makes it ends there, whatever its other operands. -/
theorem exec_of_unit_not_inRange {s : State} {i : Instr} {u : Nat} (hv : validatedUnit i = some u)
    (hwf : i.wf s.params = true) (hu : s.params.inRange u = false) :
    exec i s = .next (s.failWith .invalidUnit .none) := by
  have hout : ¬ s.params.inRange u = true := by simp [hu]
  cases i with
  | cfgpins => cases hv; exact exec_setter_of_not_inRange (exec_cfgpins hwf) hu
  | setmode => cases hv; exact exec_setmode_of_not_inRange hu _
  | setspeed => cases hv; exact exec_setter_of_not_inRange (exec_setspeed ..) hu
  | setcs =>
    cases hv
    exact exec_setter_of_not_inRange ((execSetcs_eq ..).trans (if_pos (of_decide_eq_true hwf))) hu
  | setduplex => cases hv; exact exec_setter_of_not_inRange (execSetduplex_eq ..) hu
  | select | deselect | init => cases hv; exact if_neg hout
  | _ => cases hv

/-- The master check of R253 comes after the unit check, and before any pin or lock. -/
theorem exec_init_slave {s : State} {u : Nat} (hu : s.params.inRange u = true) :
    exec (.init u false) s = .next (s.failWith .slaveNotAllowed .none) :=
  if_pos hu

/-! ## The obligations -/

/-- Settles O43: each of the three draws is looked at before anything is done (R212). -/
theorem outOfMemoryLeavesState : Obligations.OutOfMemoryLeavesState :=
  fun _ _ _ _ _ _ _ => ⟨rfl, rfl, rfl, rfl⟩

/-- Settles O18: the unit check of the eight operations that make it, and the only rule of `Raises` for this error, which
asks for such an operation and a unit out of range. -/
theorem invalidUnitWritesNothing : Obligations.InvalidUnitWritesNothing := by
  intro s u hu
  refine ⟨fun a b c d hpins => exec_of_unit_not_inRange rfl hpins hu, fun m => exec_of_unit_not_inRange rfl rfl hu,
    fun k => exec_of_unit_not_inRange rfl rfl hu, fun g hg => exec_of_unit_not_inRange rfl (decide_eq_true hg) hu,
    fun d => exec_of_unit_not_inRange rfl rfl hu, exec_of_unit_not_inRange rfl rfl hu,
    exec_of_unit_not_inRange rfl rfl hu, fun m => exec_of_unit_not_inRange rfl rfl hu, rfl, fun i t v h hnew herr => ?_⟩
  cases raises_of_exec h hnew herr with
  | invalidUnit hv hout =>
    refine ⟨rfl, ?_⟩
    cases i with
    | cfgpins | setmode | setspeed | setcs | setduplex | select | deselect | init => cases hv; exact hout
    | _ => cases hv

/-- Settles O21: the order of the checks of `init`, and the only rule of `Raises` for this error. -/
theorem initRefusesSlave : Obligations.InitRefusesSlave := by
  intro s u
  refine ⟨exec_init_slave, exec_of_unit_not_inRange rfl rfl, rfl, fun i t v h hnew herr => ?_⟩
  cases raises_of_exec h hnew herr with
  | slaveNotAllowed w => exact ⟨rfl, w, rfl⟩

/-- Settles O55: the rules of `Raises`, one by one; none is for `CannotSetup`. -/
theorem errorKindsByOperation : Obligations.ErrorKindsByOperation := by
  refine ⟨rfl, fun _ _ => rfl, fun _ => rfl, fun s t i e v h hnew herr => ?_⟩
  cases raises_of_exec h hnew herr with
  | invalidUnit hv =>
    cases i with
    | cfgpins | setmode | setspeed | setcs | setduplex | select | deselect | init => simp
    | _ => cases hv
  | invalidMode hm => exact ⟨_, _, rfl, hm⟩
  | slaveNotAllowed u => exact ⟨u, rfl⟩
  | pinLockConflict howner => exact ⟨⟨_, rfl⟩, howner⟩
  | readpx x y => exact .inl ⟨x, y, rfl⟩
  | readpxs x1 y1 x2 y2 n => exact .inr (.inl ⟨x1, y1, x2, y2, n, rfl⟩)
  | readtouch c => exact .inr (.inr ⟨c, rfl⟩)

end Sys2Proof.Machine.Laws

/-! # The codec (R80 to R97): every well-formed instruction is read back from its bytes -/

namespace Sys2Proof.Machine.Laws

/-! ## Each format reads what the encoder writes -/

/-- R81: the `OP` byte, then the operands. -/
theorem reads_host {op : Byte} {bs : List Byte} {i : Instr} (h : Reads (getOperands op) bs i) :
    Reads getHost (op :: bs) i :=
  (reads_byte op).bind h

/-- The operands of a host operation stand in signature order, each in its own layout (log entry 2). -/
theorem reads_hostop {p : Params} {i : Instr} (hf : formatOf i = .hostop) (hwf : i.wf p = true) :
    Reads getHost (encode p i) i := by
  cases i with
  | freq2div t => exact reads_host (reads_word t).map
  | div2freq v => exact reads_host (reads_word v).map
  | pinmux u => exact reads_host (reads_nat u).map
  | transfer u ws wc o b =>
    simp only [encode, List.append_assoc]
    exact reads_host <| (reads_nat u).bind <| (reads_wordSize ws).bind <| (reads_nat wc).bind <|
      (reads_opt reads_buf o).bind (reads_opt reads_buf b).map
  | cfgpins u a b c d =>
    simp only [encode, List.append_assoc]
    exact reads_host <| (reads_nat u).bind <| (reads_nat a).bind <| (reads_nat b).bind <| (reads_nat c).bind
      (reads_nat d).map
  | setmode u m => exact reads_host ((reads_nat u).bind (reads_nat m).map)
  | setspeed u k => exact reads_host ((reads_nat u).bind (reads_word k).map)
  | setcs u g => exact reads_host ((reads_nat u).bind (reads_nat g).map)
  | setduplex u d => exact reads_host ((reads_nat u).bind (reads_bool d).map)
  | select u => exact reads_host (reads_nat u).map
  | deselect u => exact reads_host (reads_nat u).map
  | init u m => exact reads_host ((reads_nat u).bind (reads_bool m).map)
  | sendcmd c => exact reads_host (reads_byte c).map
  | senddata b => exact reads_host (reads_opt reads_buf b).map
  | setwin x1 y1 x2 y2 =>
    simp only [encode, List.append_assoc]
    exact reads_host <| (reads_half x1).bind <| (reads_half y1).bind <| (reads_half x2).bind (reads_half y2).map
  | pushpx c => exact reads_host (reads_half c).map
  | pushrep c n => exact reads_host ((reads_half c).bind (reads_nat n).map)
  | pushbuf b n => exact reads_host ((reads_opt reads_colorBuf b).bind (reads_nat n).map)
  | readpx x y d =>
    simp only [encode, List.append_assoc]
    exact reads_host <| (reads_half x).bind <| (reads_half y).bind (reads_draw d).map
  | readpxs x1 y1 x2 y2 n d =>
    simp only [encode, List.append_assoc]
    exact reads_host <| (reads_half x1).bind <| (reads_half y1).bind <| (reads_half x2).bind <|
      (reads_half y2).bind <| (reads_nat n).bind (reads_draw d).map
  | readtouch c d => exact reads_host ((reads_byte c).bind (reads_draw d).map)
  | runinit t f =>
    have ht : t ≠ [] := by simpa [Instr.wf] using hwf
    exact reads_host ((reads_table ht).bind (reads_form f).map)
  | _ => cases hf

/-- R84, R85: the two readings of `argc`. -/
theorem reads_record (cmd argc : Byte) (args : List Byte) (d : Byte) (h : args.length = argcCount argc) :
    Reads (getRecord cmd) (argc :: (args ++ if argcDelay argc then [d] else []))
      (if argcDelay argc then .initrecD cmd args d else .initrec cmd args) := by
  refine (reads_byte argc).bind (.bind (h ▸ reads_bytes args) ?_)
  cases argcDelay argc with
  | true => exact (reads_byte d).map
  | false => exact .pure _

/-- R88: in counted form every command byte begins a record. -/
theorem reads_counted {p : Params} {cmd : Byte} {bs : List Byte} {i : Instr} (h : Reads (getRecord cmd) bs i) :
    Reads (getInit p .counted) (cmd :: bs) i :=
  (reads_byte cmd).bind (by rwa [if_neg fun hs => nomatch hs.1])

/-- R88: the sentinel is one byte, and no `argc` is read after it. -/
theorem reads_sentinel (p : Params) : Reads (getInit p .sentinel) [p.initSentinel] .initend :=
  (reads_byte p.initSentinel).bind (b2 := []) (by rw [if_pos ⟨rfl, rfl⟩]; exact .pure _)

/-- R89 to R92: the reader of wire commands looks for the four bytes one after the other, and they differ. -/
theorem reads_wire {p : Params} {i : Instr} (hd : p.wireDistinct = true) (hf : formatOf i = .wirecmd)
    (hw : ∀ cs, i ≠ .ramwr cs) : Reads (getWire p) (encode p i) i := by
  simp only [Params.wireDistinct, Bool.and_eq_true, bne_iff_ne] at hd
  obtain ⟨⟨⟨⟨⟨hcp, hcw⟩, hcr⟩, hpw⟩, hpr⟩, hwr⟩ := hd
  cases i with
  | caset a b =>
    refine (reads_byte p.cmdCaset).bind ?_
    rw [if_pos rfl]
    exact (reads_halfBe a).bind (reads_halfBe b).map
  | paset a b =>
    refine (reads_byte p.cmdPaset).bind ?_
    rw [if_neg hcp.symm, if_pos rfl]
    exact (reads_halfBe a).bind (reads_halfBe b).map
  | ramwr cs => exact absurd rfl (hw cs)
  | ramrd n =>
    refine (reads_byte p.cmdRamrd).bind ?_
    rw [if_neg hcr.symm, if_neg hpr.symm, if_neg hwr.symm, if_pos rfl]
    exact (reads_nat n).map
  | _ => cases hf

/-- R91: a memory write takes all that is left of its frame. -/
theorem decode_ramwr {p : Params} (hd : p.wireDistinct = true) (cs : List Half) :
    decode p .wirecmd (encode p (.ramwr cs)) = .ok (.ramwr cs, []) := by
  simp only [Params.wireDistinct, Bool.and_eq_true, bne_iff_ne] at hd
  obtain ⟨⟨⟨⟨⟨-, hcw⟩, -⟩, hpw⟩, -⟩, -⟩ := hd
  simp only [decode, getInstr, getWire, encode, StateT.run, bind, StateT.bind, Except.bind, getByte, if_neg hcw.symm,
    if_neg hpw.symm, if_true, getAllColors, colorsOf_putColors]
  rfl

/-! ## The obligations -/

/-- Settles O2: each of the four formats reads what the encoder writes in it. -/
theorem decodeEncodeRoundTrip : Obligations.DecodeEncodeRoundTrip := by
  intro p i rest hd hwf hrest
  cases hf : formatOf i with
  | hostop => exact reads_hostop hf hwf rest
  | inithdr =>
    cases i with
    | inithdr k => rfl
    | _ => cases hf
  | initrec form =>
    cases i with
    | initrec c args =>
      cases hf
      have hn : args.length < 128 := of_decide_eq_true hwf
      have hr := reads_record c (argcByte false args.length) args 0 (argcCount_argcByte false hn).symm
      rw [argcDelay_argcByte, if_neg Bool.false_ne_true, if_neg Bool.false_ne_true, List.append_nil] at hr
      exact reads_counted hr rest
    | initrecD c args d =>
      cases hf
      have hn : args.length < 128 := of_decide_eq_true hwf
      have hr := reads_record c (argcByte true args.length) args d (argcCount_argcByte true hn).symm
      rw [argcDelay_argcByte, if_pos rfl, if_pos rfl] at hr
      exact reads_counted hr rest
    | initend =>
      cases hf
      exact reads_sentinel p rest
    | _ => cases hf
  | wirecmd =>
    by_cases hw : ∃ cs, i = .ramwr cs
    · obtain ⟨cs, rfl⟩ := hw
      rw [hrest cs rfl, List.append_nil]
      exact decode_ramwr hd cs
    · exact reads_wire hd hf (fun cs hcs => hw ⟨cs, hcs⟩) rest

/-- Settles O3: the layout is what the reader of a record takes, and its length what `recordLength` finds. -/
theorem initRecordLayout : Obligations.InitRecordLayout := by
  intro p cmd argc args d rest hargs
  have hcount : argcCount argc = args.length := hargs.symm
  have hlt : args.length ≤ 127 := hargs.trans_le (by rw [BitVec.toNat_and]; exact Nat.and_le_right)
  refine ⟨(reads_counted (reads_record cmd argc args d hargs)) rest, ?_, ?_⟩
  · rw [recordLength, hcount]
    show (if args.length + (argc.getLsbD 7).toNat ≤ _ then _ else _) = _
    rw [if_pos]
    · rfl
    · cases argc.getLsbD 7 <;> simp
  · cases argc.getLsbD 7 <;> simp <;> omega

/-- R88: a command byte that is no sentinel in its form begins a record. -/
theorem decode_initrec_of_not_sentinel {p : Params} {form : TableForm} {cmd : Byte}
    (h : ¬(form = .sentinel ∧ cmd = p.initSentinel)) (bs : List Byte) :
    decode p (.initrec form) (cmd :: bs) = getRecord cmd bs :=
  congrFun (if_neg h) bs

/-- An init record is no sentinel. -/
theorem getRecord_ne_initend (cmd : Byte) (bs rest : List Byte) : getRecord cmd bs ≠ .ok (.initend, rest) := by
  cases bs with
  | nil => exact fun h => nomatch h
  | cons argc bs =>
    simp only [getRecord, bind, StateT.bind, Except.bind, getByte]
    cases getBytes (argcCount argc) bs with
    | error e => exact fun h => nomatch h
    | ok read =>
      obtain ⟨args, left⟩ := read
      cases argcDelay argc with
      | true => cases left <;> exact fun h => nomatch h
      | false => exact fun h => nomatch h

/-- Settles O4: the sentinel is looked for in sentinel form alone. -/
theorem sentinelOnlyInSentinelForm : Obligations.SentinelOnlyInSentinelForm := by
  intro p bs rest
  refine ⟨reads_sentinel p rest, fun cmd hcmd => ?_, ?_⟩
  · rw [decode_initrec_of_not_sentinel fun h => hcmd h.2, decode_initrec_of_not_sentinel (form := .counted) fun h => nomatch h.1]
  · cases bs with
    | nil => exact fun h => nomatch h
    | cons cmd bs =>
      rw [decode_initrec_of_not_sentinel (form := .counted) fun h => nomatch h.1]
      exact getRecord_ne_initend cmd bs rest

end Sys2Proof.Machine.Laws

/-! # What an operation comes to: the parts it is made of, one form for each kind of instruction -/

namespace Sys2Proof.Machine.Laws

open Sys2Proof.Safety

/-! ## Steps beside the unit table and the registers -/

/-- Nothing differs but pins, routes, locks, brackets, the staging buffer, free draws, the running task's sequencer and
result, and events appended to the trace; the tables keep their sizes. -/
structure Beside (s t : State) : Prop where
  frame : t = { s with
    pins := t.pins, inRoute := t.inRoute, locks := t.locks, irqDepth := t.irqDepth, suspendDepth := t.suspendDepth
    staging := t.staging, draws := t.draws, trace := t.trace
    task := { s.task with seq := t.task.seq, result := t.task.result } }
  pins : t.pins.length = s.pins.length
  locks : t.locks.length = s.locks.length
  trace : ∃ es, t.trace = s.trace ++ es

theorem Beside.refl (s : State) : Beside s s := ⟨rfl, rfl, rfl, [], (List.append_nil _).symm⟩

theorem Beside.trans {s t u : State} (h1 : Beside s t) (h2 : Beside t u) : Beside s u := by
  obtain ⟨e1, h1t⟩ := h1.trace
  obtain ⟨e2, h2t⟩ := h2.trace
  refine ⟨?_, h2.pins.trans h1.pins, h2.locks.trans h1.locks, e1 ++ e2, by rw [h2t, h1t, List.append_assoc]⟩
  rw [h2.frame, h1.frame]

theorem Beside.keeps {s t : State} (h : Beside s t) : Keeps s t where
  params := by rw [h.frame]
  others := by rw [h.frame]
  sched := by rw [h.frame]
  issue := by rw [h.frame]
  op := by rw [h.frame]
  loopback := by rw [h.frame]
  units := by rw [h.frame]
  pins := h.pins
  locks := h.locks
  mem := fun hm => by rw [h.frame]; exact hm
  trace := h.trace

theorem beside_pinCall {s t : State} (h : PinCall s t) : Beside s t := by
  obtain ⟨es, h⟩ := h
  refine ⟨?_, h.length, by rw [h.frame], es, by rw [h.frame]⟩
  rw [h.frame]

theorem beside_suspend (s : State) : Beside s s.suspendAllTasks := ⟨rfl, rfl, rfl, _, rfl⟩
theorem beside_resume (s : State) : Beside s s.resumeAllTasks := ⟨rfl, rfl, rfl, _, rfl⟩
theorem beside_heapAlloc (s : State) (n : Nat) : Beside s (s.heapAlloc n) :=
  ⟨rfl, rfl, rfl, [], (List.append_nil _).symm⟩
theorem beside_advance (s : State) (n : Nat) : Beside s (s.advance n) := ⟨rfl, rfl, rfl, [], (List.append_nil _).symm⟩

theorem lockAcquire_frame (s : State) (g : Nat) :
    s.lockAcquire g = { s with locks := (s.lockAcquire g).locks, trace := s.trace ++ [.lockAcquire g (s.lockAnswer g)] } := by
  unfold State.lockAcquire
  cases s.lockAnswer g <;> rfl

theorem lockAcquire_locks_length (s : State) (g : Nat) : (s.lockAcquire g).locks.length = s.locks.length := by
  unfold State.lockAcquire
  cases s.lockAnswer g with
  | ok => exact List.length_set
  | conflict o => rfl

theorem beside_lockAcquire (s : State) (g : Nat) : Beside s (s.lockAcquire g) :=
  ⟨by rw [lockAcquire_frame], by rw [lockAcquire_frame], lockAcquire_locks_length s g, _, by rw [lockAcquire_frame]⟩

theorem beside_acquirePins (gs : List Nat) (s : State) : Beside s (s.acquirePins gs).1 := by
  induction gs generalizing s with
  | nil => exact .refl s
  | cons g gs ih =>
    rw [State.acquirePins]
    split
    · exact ih s
    · cases s.lockAnswer g with
      | ok => exact (beside_lockAcquire s g).trans (ih _)
      | conflict o => exact beside_lockAcquire s g

/-! ## Returns -/

/-- Nothing differs but the staging buffer, the sequencer, the result, and events appended to the trace: what an operation
does once its flow has ended. -/
structure Aside (s t : State) : Prop where
  frame : t = { s with
    staging := t.staging, trace := t.trace, task := { s.task with seq := t.task.seq, result := t.task.result } }
  trace : ∃ es, t.trace = s.trace ++ es

theorem Aside.trans {s t u : State} (h1 : Aside s t) (h2 : Aside t u) : Aside s u := by
  obtain ⟨e1, h1t⟩ := h1.trace
  obtain ⟨e2, h2t⟩ := h2.trace
  refine ⟨?_, e1 ++ e2, by rw [h2t, h1t, List.append_assoc]⟩
  rw [h2.frame, h1.frame]

theorem aside_setResult (s : State) (r : Option OpResult) : Aside s (s.setResult r) :=
  ⟨rfl, [], (List.append_nil _).symm⟩
theorem aside_setSeq (s : State) (q : Seq) : Aside s (s.setSeq q) := ⟨rfl, [], (List.append_nil _).symm⟩
theorem aside_heapFree (s : State) : Aside s s.heapFree := ⟨rfl, [], (List.append_nil _).symm⟩
theorem aside_schedDelay (s : State) (ms : Nat) : Aside s (s.schedDelay ms) := ⟨rfl, _, rfl⟩
theorem Aside.refl (s : State) : Aside s s := ⟨rfl, [], (List.append_nil _).symm⟩

theorem aside_settle (s : State) : Aside s s.settle := by
  unfold State.settle
  split
  · exact (aside_setSeq s _).trans (aside_setResult _ _)
  · exact .refl s

theorem aside_recordDone (s : State) : Aside s s.recordDone := by
  unfold State.recordDone
  split
  · exact (aside_setSeq s _).trans (aside_settle _)
  · exact aside_settle s

theorem Aside.beside {s t : State} (h : Aside s t) : Beside s t :=
  ⟨by rw [h.frame], by rw [h.frame], by rw [h.frame], h.trace⟩

/-! ## The parts of a bus operation -/

/-- A flow from `s` made of transfers, selections of units, deselections and steps beside them. -/
inductive BusFlow : State → Flow → Prop
  | done (s : State) : BusFlow s (.run s)
  | refuse (s : State) (r : Refusal) : BusFlow s (.refuse r)
  | after {s t : State} {f : Flow} : Beside s t → BusFlow t f → BusFlow s f
  | transfer (p : Fin 4) (len : Nat) (src : OutSrc) (dst : InDst) (s : State) : BusFlow s (transferOn p len src dst s)
  | select {u : Nat} {s : State} : s.params.inRange u = true → BusFlow s (selectFlow u s)
  | deselect (u : Nat) (s : State) : BusFlow s (deselectFlow u s)
  | andThen {s : State} {f : Flow} {k : State → Flow} : BusFlow s f → (∀ t, BusFlow t (k t)) → BusFlow s (f.andThen k)

theorem BusFlow.beside {s t : State} (h : Beside s t) : BusFlow s (.run t) := .after h (.done t)

theorem busFlow_framed (u : Nat) {body : State → Flow} (hb : ∀ t, BusFlow t (body t)) (s : State) :
    BusFlow s (framed u body s) := by
  rw [framed]
  split
  · next hu =>
    exact .andThen (.andThen (.andThen (.after (beside_suspend s) (.select hu)) hb) (.deselect u))
      fun t => .beside (beside_resume t)
  · exact .refuse s _

theorem busFlow_cmdPhase (c : Byte) (s : State) : BusFlow s (cmdPhase c s) :=
  .after (beside_pinCall (pinCall_setLevel s _ _)) (.transfer _ _ _ _ _)

theorem busFlow_dataPhase (bs : List Byte) (s : State) : BusFlow s (dataPhase bs s) :=
  .after (beside_pinCall (pinCall_setLevel s _ _)) (.transfer _ _ _ _ _)

theorem busFlow_caset (x1 x2 : Half) (s : State) : BusFlow s (casetBody x1 x2 s) :=
  .andThen (busFlow_cmdPhase _ s) (busFlow_dataPhase _)

theorem busFlow_paset (y1 y2 : Half) (s : State) : BusFlow s (pasetBody y1 y2 s) :=
  .andThen (busFlow_cmdPhase _ s) (busFlow_dataPhase _)

theorem busFlow_window (x1 y1 x2 y2 : Half) (s : State) : BusFlow s (windowBody x1 y1 x2 y2 s) :=
  .andThen (busFlow_caset x1 x2 s) (busFlow_paset y1 y2)

theorem busFlow_ramwr (bs : List Byte) (s : State) : BusFlow s (ramwrBody bs s) :=
  .andThen (busFlow_cmdPhase _ s) (busFlow_dataPhase _)

theorem busFlow_ramrd (n : Nat) (s : State) : BusFlow s (ramrdBody n s) :=
  .andThen (busFlow_cmdPhase _ s) fun t => .after (beside_pinCall (pinCall_setLevel t _ _)) (.transfer _ _ _ _ _)

theorem busFlow_touch (c : Byte) (s : State) : BusFlow s (touchBody c s) :=
  .andThen (.transfer _ _ _ _ s) fun t => .transfer _ _ _ _ t

theorem busFlow_sendCommand (c : Byte) (s : State) : BusFlow s (sendCommand c s) :=
  busFlow_framed _ (busFlow_cmdPhase c) s

theorem busFlow_sendData (bs : List Byte) (s : State) : BusFlow s (sendData bs s) := by
  rw [sendData]
  split
  · exact .done s
  · exact busFlow_framed _ (busFlow_dataPhase bs) s

theorem busFlow_record (cmd : Byte) (args : List Byte) (s : State) : BusFlow s (recordBody cmd args s) :=
  .andThen (.after (beside_advance s 2) (busFlow_sendCommand cmd _)) fun t =>
    .after (beside_advance t args.length) (busFlow_sendData args _)

/-! ## The form of every instruction -/

/-- The instructions that write no record but for its dirty flag, no lock and no byte of the caller's memory. -/
def busOp : Instr → Bool
  | .sendcmd _ | .senddata _ | .setwin _ _ _ _ | .pushpx _ | .pushrep _ _ | .pushbuf _ _ | .readpx _ _ _
  | .readpxs _ _ _ _ _ _ | .readtouch _ _ | .caset _ _ | .paset _ _ | .ramwr _ | .ramrd _ | .initrec _ _
  | .initrecD _ _ _ | .select _ | .deselect _ | .pinmux _ => true
  | .freq2div _ | .div2freq _ | .transfer _ _ _ _ _ | .cfgpins _ _ _ _ _ | .setmode _ _ | .setspeed _ _
  | .setcs _ _ | .setduplex _ _ | .init _ _ | .runinit _ _ | .inithdr _ | .initend => false

/-- What a setter may store: pins that are pins, a divisor that is kept or comes from the calculator. -/
structure SetsValid (p : Params) (f : UnitRec → UnitRec) : Prop where
  pins : ∀ r, p.pinsOk r.pinSet = true → p.pinsOk (f r).pinSet = true
  divisor : ∀ r, (f r).divisor = r.divisor ∨ ∃ t, (f r).divisor = frequencyToDivisor p.sysclkHz t

/-- The state after `init` of a unit in range, as a master (R130). -/
def initState (s : State) (u : Nat) : State :=
  State.initEnd u ((s.assignDefaultPins u).acquirePins ((s.assignDefaultPins u).unit u).lockOrder)

/-- The outcome of instruction `i` from `s`, by the kind of thing it does. -/
inductive ExecForm (s : State) (i : Instr) : Host.Outcome State Fault Refusal → Prop
  | refused (r : Refusal) : ExecForm s i (.refused r)
  | aside {t : State} : Aside s t → ExecForm s i (.next t)
  | configure {u : Nat} {f : UnitRec → UnitRec} : busOp i = false → s.params.inRange u = true → SetsValid s.params f →
      ExecForm s i (.next (s.configure u f))
  | init {u : Nat} : busOp i = false → s.params.inRange u = true →
      ExecForm s i (.next (initState s u))
  | pins {t : State} (v : Value) : PinUp s t → ExecForm s i (.next (t.ret v))
  | flow {f : Flow} {g : State → State} : BusFlow s f → FlowOk s f → (busOp i = true → RecOk s f) →
      (∀ t, Aside t (g t)) → ExecForm s i (f.outcome g)

section Forms

variable {s : State} {i : Instr}

theorem execForm_result (r : Option OpResult) : ExecForm s i (.next (s.setResult r)) := .aside (aside_setResult s r)

theorem execForm_setter {u : Nat} {f : UnitRec → UnitRec} (hi : busOp i = false) (hf : SetsValid s.params f) :
    ExecForm s i (.next (s.configure u f)) := by
  cases hu : s.params.inRange u with
  | true => exact .configure hi hu hf
  | false => rw [configure_of_not_inRange f hu]; exact execForm_result _

theorem execForm_checked {u : Nat} {o : Host.Outcome State Fault Refusal}
    (ho : s.params.inRange u = true → ExecForm s i o) :
    ExecForm s i (if s.params.inRange u then o else .next (s.failWith .invalidUnit .none)) := by
  split
  · next hu => exact ho hu
  · exact execForm_result _

theorem execForm_flow {f : Flow} (hb : BusFlow s f) (hok : FlowOk s f) (hrec : RecOk s f) (v : State → Value) :
    ExecForm s i (f.outcome fun t => t.ret (v t)) :=
  .flow hb hok (fun _ => hrec) fun t => aside_setResult t _

theorem execForm_framed (u : Nat) {body : State → Flow} (hb : ∀ t, BusFlow t (body t)) (hok : ∀ t, FlowOk t (body t))
    (hrec : ∀ t, RecOk t (body t)) : ExecForm s i ((framed u body s).outcome fun t => t.ret .none) :=
  execForm_flow (busFlow_framed u hb s) (flowOk_framed u body hok s) (recOk_framed u body hrec s) fun _ => .none

/-- A flow whose received bytes go to a fresh staging buffer. -/
theorem execForm_readback (n : Nat) {f : State → Flow} (hb : ∀ t, BusFlow t (f t)) (hok : ∀ t, FlowOk t (f t))
    (hrec : ∀ t, RecOk t (f t)) (v : State → Value) :
    ExecForm s i ((f (s.heapAlloc n)).outcome fun t => t.heapFree.ret (v t)) :=
  .flow (.after (beside_heapAlloc s n) (hb _)) ((flowOk_heapAlloc s n).after (hok _))
    (fun _ => .after (.same (t := s.heapAlloc n) rfl rfl rfl) (hrec _)) fun t => (aside_heapFree t).trans (aside_setResult _ _)

end Forms

theorem setsValid_pins {p : Params} {f : UnitRec → UnitRec} (hpins : ∀ r, p.pinsOk r.pinSet = true → p.pinsOk (f r).pinSet = true)
    (hdiv : ∀ r, (f r).divisor = r.divisor) : SetsValid p f := ⟨hpins, fun r => .inl (hdiv r)⟩

theorem pinsOk_iff {p : Params} {g : PinSet} :
    p.pinsOk g = true ↔ g.sdi < p.npins ∧ g.sdo < p.npins ∧ g.sck < p.npins ∧ g.cs < p.npins := by
  simp only [Params.pinsOk, Bool.and_eq_true, decide_eq_true_eq, and_assoc]

/-- What each instruction does, by its kind. -/
theorem exec_form (i : Instr) (s : State) : ExecForm s i (exec i s) := by
  cases i with
  | freq2div _ | div2freq _ => exact execForm_result _
  | cfgpins u a b c d =>
    show ExecForm s _ (execCfgpins u a b c d s)
    rw [execCfgpins_eq]
    split
    · next hpins => exact execForm_setter rfl (setsValid_pins (fun _ _ => hpins) fun _ => rfl)
    · exact .refused _
  | setmode u m =>
    show ExecForm s _ (execSetmode u m s)
    rw [execSetmode_eq]
    split
    · exact execForm_result _
    · exact execForm_setter rfl (setsValid_pins (fun _ h => h) fun _ => rfl)
  | setspeed u k =>
    rw [exec_setspeed]
    exact execForm_setter rfl ⟨fun _ h => h, fun _ => .inr ⟨_, rfl⟩⟩
  | setcs u g =>
    show ExecForm s _ (execSetcs u g s)
    rw [execSetcs_eq]
    split
    · next hg =>
      refine execForm_setter rfl (setsValid_pins (fun r hr => ?_) fun _ => rfl)
      obtain ⟨hdi, hdo, hck, -⟩ := pinsOk_iff.1 hr
      exact pinsOk_iff.2 ⟨hdi, hdo, hck, hg⟩
    · exact .refused _
  | setduplex u d =>
    show ExecForm s _ (execSetduplex u d s)
    rw [execSetduplex_eq]
    exact execForm_setter rfl (setsValid_pins (fun _ h => h) fun _ => rfl)
  | init u master =>
    show ExecForm s _ (execInit u master s)
    rw [execInit_eq]
    refine execForm_checked fun hu => ?_
    split
    · exact .init rfl hu
    · exact execForm_result _
  | pinmux u =>
    show ExecForm s _ (execPinmux u s)
    rw [execPinmux_eq]
    split
    · exact .pins _ (pinUp_selectUnit s u)
    · exact .refused _
  | select u =>
    show ExecForm s _ (execSelect u s)
    rw [execSelect_eq]
    exact execForm_checked fun hu => execForm_flow (.select hu) (flowOk_select u s) (recOk_select u s) fun _ => .none
  | deselect u =>
    show ExecForm s _ (execDeselect u s)
    rw [execDeselect_eq]
    exact execForm_checked fun _ =>
      execForm_flow (.deselect u s) (flowOk_deselect u s) (recOk_deselect u s) fun _ => .none
  | transfer u ws wc out inb =>
    show ExecForm s _ (execTransfer u ws wc out inb s)
    unfold execTransfer
    split_ifs
    · exact .flow (.transfer ..) (flowOk_transferOn ..) (fun h => nomatch h) fun t => aside_setResult t _
    all_goals exact .refused _
  | sendcmd c =>
    exact execForm_framed _ (busFlow_cmdPhase c) (flowOk_cmdPhase c) (recOk_cmdPhase c)
  | senddata buf =>
    cases buf with
    | some b => exact execForm_flow (busFlow_sendData _ s) (flowOk_sendData _ s) (recOk_sendData _ s) fun _ => .none
    | none => exact .refused _
  | setwin x1 y1 x2 y2 =>
    exact execForm_framed _ (busFlow_window x1 y1 x2 y2) (flowOk_window x1 y1 x2 y2) (recOk_window x1 y1 x2 y2)
  | pushpx _ | pushrep _ _ => exact execForm_framed _ (busFlow_ramwr _) (flowOk_ramwr _) (recOk_ramwr _)
  | pushbuf buf n =>
    cases buf with
    | none => exact .refused _
    | some cs =>
      show ExecForm s _ (execPushbuf (some cs) n s)
      rw [execPushbuf]
      split
      · exact execForm_framed _ (busFlow_ramwr _) (flowOk_ramwr _) (recOk_ramwr _)
      · exact .refused _
  | readpx x y draw =>
    cases draw with
    | fail => exact execForm_result _
    | ok =>
      exact execForm_readback 4
        (busFlow_framed _ fun t => .andThen (busFlow_window x y x y t) (busFlow_ramrd 4))
        (flowOk_framed _ _ fun t => (flowOk_window x y x y t).andThen (flowOk_ramrd 4))
        (recOk_framed _ _ fun t => (recOk_window x y x y t).andThen (recOk_ramrd 4)) _
  | readpxs x1 y1 x2 y2 n draw =>
    cases draw with
    | fail => exact execForm_result _
    | ok =>
      exact execForm_readback (1 + 3 * n)
        (busFlow_framed _ fun t => .andThen (busFlow_window x1 y1 x2 y2 t) (busFlow_ramrd _))
        (flowOk_framed _ _ fun t => (flowOk_window x1 y1 x2 y2 t).andThen (flowOk_ramrd _))
        (recOk_framed _ _ fun t => (recOk_window x1 y1 x2 y2 t).andThen (recOk_ramrd _)) _
  | readtouch c draw =>
    cases draw with
    | fail => exact execForm_result _
    | ok =>
      exact execForm_readback 2 (busFlow_framed _ (busFlow_touch c)) (flowOk_framed _ _ (flowOk_touch c))
        (recOk_framed _ _ (recOk_touch c)) _
  | runinit table form =>
    show ExecForm s _ (execRuninit table form s)
    unfold execRuninit
    split
    · exact .aside ((aside_setSeq s _).trans (aside_setResult _ _))
    · exact .refused _
  | inithdr count => exact .aside ((aside_setSeq s _).trans ((aside_setSeq _ _).trans (aside_settle _)))
  | initrec c args =>
    show ExecForm s _ (execInitrec c args s)
    rw [execInitrec_eq]
    exact .flow (busFlow_record c args s) (flowOk_record c args s) (fun _ => recOk_record c args s) aside_recordDone
  | initrecD c args code =>
    show ExecForm s _ (execInitrecD c args code s)
    rw [execInitrecD_eq]
    exact .flow (busFlow_record c args s) (flowOk_record c args s) (fun _ => recOk_record c args s) fun t =>
      (aside_setSeq t _).trans ((aside_schedDelay _ _).trans (aside_recordDone _))
  | initend => exact .aside ((aside_setSeq s _).trans ((aside_setSeq _ _).trans (aside_setResult _ _)))
  | caset x1 x2 =>
    exact execForm_flow (busFlow_caset x1 x2 s) (flowOk_caset x1 x2 s)
      ((recOk_cmdPhase _ s).andThen (recOk_dataPhase _)) fun _ => .none
  | paset y1 y2 =>
    exact execForm_flow (busFlow_paset y1 y2 s) (flowOk_paset y1 y2 s)
      ((recOk_cmdPhase _ s).andThen (recOk_dataPhase _)) fun _ => .none
  | ramwr cs => exact execForm_flow (busFlow_ramwr _ s) (flowOk_ramwr _ s) (recOk_ramwr _ s) fun _ => .none
  | ramrd n => exact execForm_readback _ (busFlow_ramrd _) (flowOk_ramrd _) (recOk_ramrd _) _

end Sys2Proof.Machine.Laws

/-! # What every operation keeps, and the brackets it holds (R258, R299) -/

namespace Sys2Proof.Machine.Laws

open Sys2Proof.Safety

/-- The brackets are as they were, or the task now spins on a stuck, busy peripheral and has recorded no result. -/
def Balanced (s t : State) : Prop :=
  (t.irqDepth = s.irqDepth ∧ t.suspendDepth = s.suspendDepth ∧ t.task.spin = s.task.spin)
    ∨ (Spins s t ∧ t.task.result = s.task.result)

/-- What `Keeps` says, and the brackets and the spin as they were. -/
structure Calm (s t : State) : Prop where
  keeps : Keeps s t
  irqDepth : t.irqDepth = s.irqDepth
  suspendDepth : t.suspendDepth = s.suspendDepth
  spin : t.task.spin = s.task.spin

theorem Calm.trans {s t u : State} (h1 : Calm s t) (h2 : Calm t u) : Calm s u :=
  ⟨h1.keeps.trans h2.keeps, h2.irqDepth.trans h1.irqDepth, h2.suspendDepth.trans h1.suspendDepth, h2.spin.trans h1.spin⟩

theorem Calm.balanced {s t : State} (h : Calm s t) : Balanced s t := .inl ⟨h.irqDepth, h.suspendDepth, h.spin⟩

theorem Aside.calm {s t : State} (h : Aside s t) : Calm s t :=
  ⟨h.beside.keeps, by rw [h.frame], by rw [h.frame], by rw [h.frame]⟩

theorem calm_setUnit (s : State) (u : Nat) (r : UnitRec) : Calm s (s.setUnit u r) :=
  ⟨(kept_setUnit s u r).1, setUnit_irqDepth .., setUnit_suspendDepth .., (kept_setUnit s u r).2⟩

theorem calm_result (s : State) (r : Option OpResult) : Calm s (s.setResult r) := (aside_setResult s r).calm

theorem calm_configure (s : State) (u : Nat) (f : UnitRec → UnitRec) : Calm s (s.configure u f) := by
  unfold State.configure
  split
  · exact (calm_setUnit s u _).trans (calm_result _ _)
  · exact calm_result s _

theorem calm_pinCall {s t : State} (h : PinCall s t) : Calm s t := by
  obtain ⟨hflow, hirq, hsus, hspin⟩ := flowOk_pinCall h
  exact ⟨hflow.keeps, hirq, hsus, hspin⟩

theorem calm_assignDefaultPins (s : State) (u : Nat) : Calm s (s.assignDefaultPins u) := by
  unfold State.assignDefaultPins
  split
  · exact calm_setUnit s u _
  · exact ⟨.refl s, rfl, rfl, rfl⟩

theorem calm_acquirePins (gs : List Nat) (s : State) : Calm s (s.acquirePins gs).1 := by
  have hframe := (acquirePins_spec gs s).1
  exact ⟨(beside_acquirePins gs s).keeps, by rw [hframe], by rw [hframe], by rw [hframe]⟩

theorem calm_initEnd (u : Nat) (acquired : State × Option (Nat × Nat)) : Calm acquired.1 (State.initEnd u acquired) := by
  obtain ⟨t, _ | ⟨o, g⟩⟩ := acquired
  · exact (calm_setUnit t u _).trans (calm_result _ _)
  · exact calm_result t _

theorem calm_initState (s : State) (u : Nat) : Calm s (initState s u) :=
  (calm_assignDefaultPins s u).trans ((calm_acquirePins _ _).trans (calm_initEnd u _))

/-- Every instruction that has a next state keeps the parameters, the other tasks and the sizes of the tables, and balances
its brackets or hangs. -/
theorem ExecForm.keeps {s t : State} {i : Instr} (h : ExecForm s i (.next t)) : Keeps s t ∧ Balanced s t := by
  generalize ho : Host.Outcome.next t = o at h
  cases h with
  | refused r => cases ho
  | aside h => cases ho; exact ⟨h.calm.keeps, h.calm.balanced⟩
  | configure hi hu hf =>
    cases ho
    exact ⟨(calm_configure s _ _).keeps, (calm_configure s _ _).balanced⟩
  | init hi hu =>
    cases ho
    exact ⟨(calm_initState s _).keeps, (calm_initState s _).balanced⟩
  | pins v h =>
    cases ho
    have hcalm := (calm_pinCall h.call).trans (calm_result _ (some (.ok v)))
    exact ⟨hcalm.keeps, hcalm.balanced⟩
  | flow hb hok hrec hg =>
    refine FlowAll.of_outcome (R := fun t => Keeps s t ∧ Balanced s t) hok ho.symm ?_ ?_
    · rintro x ⟨hx, hirq, hsus, hspin⟩
      refine ⟨hx.keeps.trans (hg x).beside.keeps, .inl ?_⟩
      rw [(hg x).frame]
      exact ⟨hirq, hsus, hspin⟩
    · rintro x ⟨hx, hspins⟩
      exact ⟨hx.keeps, .inr ⟨hspins, hx.result⟩⟩

theorem exec_keeps {s t : State} {i : Instr} (h : exec i s = .next t) : Keeps s t := (h ▸ exec_form i s).keeps.1

theorem exec_balanced {s t : State} {i : Instr} (h : exec i s = .next t) : Balanced s t := (h ▸ exec_form i s).keeps.2

theorem Beside.records {s t : State} (h : Beside s t) : Records s t :=
  .same (by rw [h.frame]) (by rw [h.frame]) (by rw [h.frame])

/-- What a bus operation leaves alone: locks, memory, records but for their dirty flags. -/
theorem ExecForm.bus {s t : State} {i : Instr} (hi : busOp i = true) (h : ExecForm s i (.next t)) :
    Records s t ∧ t.locks = s.locks := by
  generalize ho : Host.Outcome.next t = o at h
  cases h with
  | refused r => cases ho
  | aside h =>
    cases ho
    exact ⟨h.beside.records, by rw [h.frame]⟩
  | configure hi' | init hi' => exact absurd (hi.symm.trans hi') Bool.noConfusion
  | pins v h =>
    cases ho
    exact ⟨(records_pinCall h.call).trans (aside_setResult _ (some (.ok v))).beside.records, (flowOk_pinCall h.call).1.locks⟩
  | flow hb hok hrec hg =>
    refine ⟨FlowAll.of_outcome (hrec hi) ho.symm (fun x hx => hx.trans (hg x).beside.records) fun x hx => hx, ?_⟩
    refine FlowAll.of_outcome (R := fun t => t.locks = s.locks) hok ho.symm ?_ fun x hx => hx.1.locks
    rintro x ⟨hx, -⟩
    rw [(hg x).frame]
    exact hx.locks

/-! ## The obligations -/

/-- Settles O54: every instruction balances its brackets or hangs, and a hang is of the spin `Spins` describes. -/
theorem bracketsAreBalanced : Obligations.BracketsAreBalanced := by
  intro s t i hspin h
  obtain ⟨hirq, hsus, hsame⟩ | ⟨⟨p, hp, hstuck, hbusy⟩, hresult⟩ := exec_balanced h
  · refine ⟨fun _ => ⟨hirq, hsus⟩, fun p hp => ?_⟩
    rw [hsame, hspin] at hp
    cases hp
  · refine ⟨fun hnone => ?_, fun q hq => ?_⟩
    · rw [hp] at hnone
      cases hnone
    · obtain rfl : p = q := Option.some.inj (hp.symm.trans hq)
      exact ⟨hstuck, hbusy, hresult⟩

/-- Settles O44: the eighteen instructions are those of `busOp`. -/
theorem displayOperationsFrame : Obligations.DisplayOperationsFrame := by
  intro s t i hi h
  have hbus : busOp i = true := Bool.eq_true_of_not_eq_false fun h => by cases i <;> cases h <;> exact hi
  have hkeeps := exec_keeps h
  obtain ⟨hrecords, hlocks⟩ := (h ▸ exec_form i s).bus hbus
  exact ⟨fun a => by rw [hrecords.mem], hlocks, hkeeps.params, hkeeps.others, hkeeps.sched, hkeeps.issue, hrecords.unit⟩

end Sys2Proof.Machine.Laws

/-! # What a step can do (R14, R15): the task switch, the fetch, an instruction begun, resumed or broken off -/

namespace Sys2Proof.Machine.Laws

open Sys2Proof.Safety

/-! ## The task switch -/

theorem swapTask_frame (s : State) (k : Nat) :
    s.swapTask k = { s with task := (s.swapTask k).task, others := (s.swapTask k).others } := by
  unfold State.swapTask
  cases s.others[k]? <;> rfl

/-- A switch changes nothing but which task runs, and uses a turn. -/
theorem switchTask_frame (s : State) :
    switchTask s = { s with task := (switchTask s).task, others := (switchTask s).others, sched := s.sched.tail } := by
  unfold switchTask
  cases hs : s.sched with
  | nil =>
    show s = { s with sched := [] }
    rw [← hs]
  | cons turn rest =>
    dsimp only
    split
    · rw [swapTask_frame]; rfl
    · rfl

/-- R15: while a bracket is held there is no switch. -/
theorem switchTask_of_held {s : State} (h : s.unbracketed = false) : switchTask s = { s with sched := s.sched.tail } := by
  unfold switchTask
  cases hs : s.sched with
  | nil =>
    show s = { s with sched := [] }
    rw [← hs]
  | cons turn rest => exact if_neg (by rw [show State.unbracketed { s with sched := rest } = false from h]; decide)

theorem switchTask_of_no_turn {s : State} (h : s.sched = []) : switchTask s = s := by
  unfold switchTask
  rw [h]

/-- A turn that names no task leaves the running one. -/
theorem switchTask_of_no_task {s : State} {turn : Turn} (h : s.sched = [turn]) (hk : s.others.length ≤ turn.task) :
    switchTask s = { s with sched := [] } := by
  unfold switchTask
  rw [h]
  dsimp only
  split
  · unfold State.swapTask
    rw [List.getElem?_eq_none hk]
  · rfl

/-! ## The fetch -/

theorem fetchItem_instr {f : Format} {s s' : State} {i : Instr} (h : fetchItem f s = .instr i s') : s' = s := by
  unfold fetchItem at h
  split at h
  · cases h; rfl
  · cases h

/-- An instruction that is fetched is fetched by a task that neither spins nor is inside an operation, from its table or
from the head of its queue. -/
theorem fetch_instr {s s' : State} {i : Instr} (h : fetch s = .instr i s') :
    s.task.spin = none ∧ s.task.op = none ∧ ∃ issue, s' = { s with task := { s.task with issue := issue } } := by
  unfold fetch at h
  split at h
  · cases h
  · next hspin =>
    refine ⟨by simpa using hspin, ?_⟩
    split at h
    · cases h
    · next hop =>
      refine ⟨hop, ?_⟩
      split at h
      · unfold fetchIssued at h
        split at h
        · cases h
        · split at h
          · cases h; exact ⟨_, rfl⟩
          · cases h
      · exact ⟨_, fetchItem_instr h⟩
      · exact ⟨_, fetchItem_instr h⟩

theorem fetchItem_ne_resume {f : Format} {s : State} {o : Op} : fetchItem f s ≠ .resume o := by
  unfold fetchItem
  split <;> exact fun h => nomatch h

theorem fetch_resume {s : State} {o : Op} (h : fetch s = .resume o) : s.task.spin = none ∧ s.task.op = some o := by
  unfold fetch at h
  split at h
  · cases h
  · next hspin =>
    refine ⟨by simpa using hspin, ?_⟩
    split at h
    · next hop => cases h; exact hop
    · split at h
      · unfold fetchIssued at h
        split at h
        · cases h
        · split at h <;> cases h
      · exact absurd h fetchItem_ne_resume
      · exact absurd h fetchItem_ne_resume

theorem fetch_of_spin {s : State} {p : Fin 4} (h : s.task.spin = some p) : fetch s = .spinning := by
  unfold fetch
  rw [h]
  rfl

section Fetching

variable {s : State} (hspin : s.task.spin = none)

include hspin

theorem fetch_of_op {o : Op} (hop : s.task.op = some o) : fetch s = .resume o := by
  unfold fetch
  rw [hspin, hop]
  rfl

theorem fetch_of_idle (hop : s.task.op = none) (h : s.task.seq.phase = .idle) : fetch s = fetchIssued s := by
  unfold fetch
  rw [hspin, hop, h]
  rfl

theorem fetch_of_header (hop : s.task.op = none) (h : s.task.seq.phase = .header) : fetch s = fetchItem .inithdr s := by
  unfold fetch
  rw [hspin, hop, h]
  rfl

theorem fetch_of_record (hop : s.task.op = none) (h : s.task.seq.phase = .record) :
    fetch s = fetchItem (.initrec s.task.seq.form) s := by
  unfold fetch
  rw [hspin, hop, h]
  rfl

end Fetching

theorem fetchItem_of_ok {f : Format} {s : State} {i : Instr} {r : List Byte} (h : decode s.params f s.tableRest = .ok (i, r)) :
    fetchItem f s = .instr i s := by
  unfold fetchItem
  rw [h]

theorem fetchItem_of_error {f : Format} {s : State} {e : DecodeError} (h : decode s.params f s.tableRest = .error e) :
    fetchItem f s = .overrun := by
  unfold fetchItem
  rw [h]

theorem fetchIssued_of_ok {s : State} {d : Descriptor} {rest : List Descriptor} {i : Instr} {r : List Byte}
    (hq : s.task.issue = d :: rest) (h : decode s.params d.format d.bytes = .ok (i, r)) :
    fetchIssued s = .instr i { s with task := { s.task with issue := rest } } := by
  unfold fetchIssued
  rw [hq]
  dsimp only
  rw [h]

theorem fetchIssued_of_error {s : State} {d : Descriptor} {rest : List Descriptor} {e : DecodeError}
    (hq : s.task.issue = d :: rest) (h : decode s.params d.format d.bytes = .error e) : fetchIssued s = .bad e := by
  unfold fetchIssued
  rw [hq]
  dsimp only
  rw [h]

theorem fetchIssued_of_nil {s : State} (hq : s.task.issue = []) : fetchIssued s = .idle := by
  unfold fetchIssued
  rw [hq]

/-! ## What is done with what was fetched -/

/-- An instruction the turn does not break off, or in which there is nothing to come between. -/
theorem beginInstr_whole {budget : Option Nat} {i : Instr} {s : State} (h : budget = none ∨ microsOf s.params i = none) :
    beginInstr budget i s = exec i s := by
  unfold beginInstr
  obtain h | h := h
  · rw [h]
  · rw [h]
    cases budget <;> rfl

theorem beginInstr_micros {n : Nat} {i : Instr} {s : State} {ms : List Micro} (h : microsOf s.params i = some ms) :
    beginInstr (some n) i s = someMicros n ⟨i, 0, .start⟩ ms s := by
  unfold beginInstr
  rw [h]

theorem budget_eq_none {s : State} (h : s.sched = []) : s.budget = none := by
  unfold State.budget
  rw [h]

/-- A step of the shifters alone: nothing, or the end of one transaction in flight on a peripheral that is not stuck. -/
theorem hardwareStep_next {s t : State} (h : (hardwareStep s).outcome id = .next t) :
    t = s ∨ ∃ p r, s.busy p = true ∧ s.params.isStuck p = false ∧ t = s.transact p r := by
  unfold hardwareStep at h
  cases hp : s.pendingShift with
  | none => rw [hp] at h; cases h; exact .inl rfl
  | some p =>
    have hfound := List.find?_some hp
    simp only [Bool.and_eq_true, Bool.not_eq_true'] at hfound
    rw [hp] at h
    dsimp only [shifter] at h
    split at h
    · cases h; exact .inl rfl
    · split at h
      · cases h; exact .inr ⟨p, _, hfound.1, hfound.2, rfl⟩
      · cases h

/-- What a step that has a next state does, after the task switch. -/
theorem step_cases {s t : State} (h : step s = .next t) :
    (hardwareStep (switchTask s)).outcome id = .next t
      ∨ (∃ o, fetch (switchTask s) = .resume o ∧ resumeOp s.budget o (switchTask s) = .next t)
      ∨ ∃ i s', fetch (switchTask s) = .instr i s' ∧ beginInstr s.budget i s' = .next t := by
  unfold step at h
  cases hf : fetch (switchTask s) with
  | spinning | idle => rw [hf] at h; exact .inl h
  | overrun | bad e => rw [hf] at h; cases h
  | resume o => rw [hf] at h; exact .inr (.inl ⟨o, rfl, h⟩)
  | instr i s' => rw [hf] at h; exact .inr (.inr ⟨i, s', rfl, h⟩)

/-- Some micro-steps of an operation, to its end or to where it is broken off: what every micro-step keeps, in every state
of the operation in progress. -/
theorem someMicros_all {P : State → Prop} (hop : ∀ x o, P x → P (x.setOp o)) {ms : List Micro}
    (hms : ∀ m ∈ ms, MicroKeeps P P m) {n : Nat} {o : Op} {s t : State} (hs : P s)
    (h : someMicros n o ms s = .next t) : P t := by
  have hrun : RunAll P P (runMicros (ms.take n) o.locals (s.setOp none)) :=
    runMicros_all (fun m hm => hms m (List.mem_of_mem_take hm)) _ (hop s none hs)
  unfold someMicros at h
  cases hr : runMicros (ms.take n) o.locals (s.setOp none) with
  | go l x =>
    rw [hr] at h hrun
    cases h
    split
    · exact hop x _ hrun
    · exact hrun
  | ended x | hung x => rw [hr] at h hrun; cases h; exact hrun
  | refuse r => rw [hr] at h; cases h

/-- The rest of an operation, run to its end. -/
theorem runMicros_outcome_all {P : State → Prop} {ms : List Micro} (hms : ∀ m ∈ ms, MicroKeeps P P m) {l : Locals}
    {s t : State} (hs : P s) (h : (runMicros ms l s).flow.outcome id = .next t) : P t := by
  have hrun : RunAll P P (runMicros ms l s) := runMicros_all hms l hs
  cases hr : runMicros ms l s with
  | go l x | ended x | hung x => rw [hr] at h hrun; cases h; exact hrun
  | refuse r => rw [hr] at h; cases h

/-- **What holds of a step**: a property that the shifter, every instruction and every micro-step keep, and that does not
depend on the task's queue or its operation in progress, is kept by what a step does after the task switch. -/
theorem step_all {P : State → Prop} (htransact : ∀ x p r, P x → P (x.transact p r))
    (hop : ∀ x o, P x → P (x.setOp o)) (hissue : ∀ x issue, P x → P { x with task := { x.task with issue := issue } })
    (hexec : ∀ i x y, P x → exec i x = .next y → P y)
    (hmicro : ∀ x i ms, P x → microsOf x.params i = some ms → ∀ m ∈ ms, MicroKeeps P P m)
    {s t : State} (hs : P (switchTask s)) (h : step s = .next t) : P t := by
  obtain h | ⟨o, hf, h⟩ | ⟨i, s', hf, h⟩ := step_cases h
  · obtain rfl | ⟨p, r, -, -, rfl⟩ := hardwareStep_next h
    · exact hs
    · exact htransact _ p r hs
  · unfold resumeOp at h
    cases hm : microsOf (switchTask s).params o.instr with
    | none =>
      rw [hm] at h
      refine hexec o.instr _ t (hop _ none hs) ?_
      cases hb : s.budget <;> (rw [hb] at h; exact h)
    | some ms =>
      rw [hm] at h
      have hdrop : ∀ m ∈ ms.drop o.pos, MicroKeeps P P m := fun m hmem =>
        hmicro _ o.instr ms hs hm m (List.mem_of_mem_drop hmem)
      cases hb : s.budget with
      | none => rw [hb] at h; exact runMicros_outcome_all hdrop (hop _ none hs) h
      | some n => rw [hb] at h; exact someMicros_all hop hdrop hs h
  · obtain ⟨-, -, issue, rfl⟩ := fetch_instr hf
    have hs' := hissue _ issue hs
    unfold beginInstr at h
    cases hb : s.budget with
    | none => rw [hb] at h; exact hexec i _ t hs' h
    | some n =>
      rw [hb] at h
      cases hm : microsOf (switchTask s).params i with
      | none => rw [hm] at h; exact hexec i _ t hs' h
      | some ms => rw [hm] at h; exact someMicros_all hop (hmicro _ i ms hs hm) hs' h

/-! ## The trace and the other tasks -/

/-- `t` has the parameters and the other tasks of `s`, and its trace with events appended. -/
structure Extends (s t : State) : Prop where
  params : t.params = s.params
  others : t.others = s.others
  trace : ∃ es, t.trace = s.trace ++ es

theorem Keeps.extends {s t : State} (h : Keeps s t) : Extends s t := ⟨h.params, h.others, h.trace⟩

theorem Extends.trans {s t u : State} (h1 : Extends s t) (h2 : Extends t u) : Extends s u := by
  obtain ⟨e1, h1t⟩ := h1.trace
  obtain ⟨e2, h2t⟩ := h2.trace
  exact ⟨h2.params.trans h1.params, h2.others.trans h1.others, e1 ++ e2, by rw [h2t, h1t, List.append_assoc]⟩

theorem Extends.refl (s : State) : Extends s s := (Keeps.refl s).extends

theorem microKeeps_extends {m : Micro} (h : MicroKept m) (s : State) : MicroKeeps (Extends s) (Extends s) m := by
  intro l x hx
  have hrun := h x l x (.refl x)
  cases hm : m l x with
  | go l y | ended y => rw [hm] at hrun; exact hx.trans hrun.1.extends
  | hung y => rw [hm] at hrun; exact hx.trans hrun.1.extends
  | refuse r => trivial

theorem step_extends {s t : State} (h : step s = .next t) : Extends (switchTask s) t :=
  step_all (P := Extends (switchTask s)) (fun x p r hx => hx.trans (engine_transact p x r).keeps.extends)
    (fun _ _ hx => ⟨hx.params, hx.others, hx.trace⟩) (fun _ _ hx => ⟨hx.params, hx.others, hx.trace⟩)
    (fun _ _ _ hx he => hx.trans (exec_keeps he).extends)
    (fun _ _ _ _ hm m hmem => microKeeps_extends (microsOf_kept hm m hmem) _) (.refl _) h

/-- Settles O56. -/
theorem stepAppendsToTrace : Obligations.StepAppendsToTrace := by
  intro s t h
  have hext := step_extends h
  rw [switchTask_frame] at hext
  exact ⟨hext.params, hext.trace⟩

/-- Settles O57: there is no switch while a bracket is held, and what a step does after it keeps the other tasks; a task with
nothing to do leaves the step to the shifters, which keep every task. -/
theorem heldBracketKeepsOtherTasks : Obligations.HeldBracketKeepsOtherTasks := by
  intro s t hheld h
  have hswitch := switchTask_of_held hheld
  refine ⟨?_, fun hspin hop hphase hissue => ?_⟩
  · have hext := step_extends h
    rw [hswitch] at hext
    exact hext.others
  · unfold step at h
    rw [hswitch, fetch_of_idle (s := { s with sched := s.sched.tail }) hspin hop hphase,
      fetchIssued_of_nil (s := { s with sched := s.sched.tail }) hissue] at h
    obtain rfl | ⟨p, r, -, -, rfl⟩ := hardwareStep_next h <;> rfl

/-- Settles O33: a task that spins leaves the step to the shifters, which keep tasks and brackets, and a stuck peripheral
takes no part in it. -/
theorem hangHoldsTheProcessor : Obligations.HangHoldsTheProcessor := by
  intro s t p hspin hheld h
  unfold step at h
  rw [switchTask_of_held hheld, fetch_of_spin (s := { s with sched := s.sched.tail }) hspin] at h
  obtain rfl | ⟨q, r, -, hq, rfl⟩ := hardwareStep_next h
  · exact ⟨rfl, rfl, rfl, rfl, fun _ => rfl⟩
  · refine ⟨rfl, rfl, rfl, rfl, fun hp => ?_⟩
    have hne : p ≠ q := fun hpq => by
      subst hpq
      exact Bool.noConfusion (hp.symm.trans hq)
    exact (engine_transact q _ r).others p hne

/-! ## Instructions begun whole -/

/-- Settles O1: what is fetched is begun whole when the turn does not break it off, and a header has no micro-steps. -/
theorem stepRunsDecodedInstruction : Obligations.StepRunsDecodedInstruction := by
  rintro s _ rfl hspin hop
  have hbudget : ∀ i, (∀ turn turns, s.sched = turn :: turns → turn.micros = none ∨ microsOf (switchTask s).params i = none) →
      s.budget = none ∨ microsOf (switchTask s).params i = none := fun i h => by
    unfold State.budget
    cases hs : s.sched with
    | nil => exact .inl rfl
    | cons turn turns => exact h turn turns hs
  refine ⟨switchTask_of_no_turn, fun d rest i r hphase hissue hdec hturn => ?queue, fun i r hphase hdec => ?header,
    fun i r hphase hdec hturn => ?record⟩
  case queue =>
    unfold step
    rw [fetch_of_idle hspin hop hphase, fetchIssued_of_ok hissue hdec]
    exact beginInstr_whole (hbudget i hturn)
  case header =>
    unfold step
    rw [fetch_of_header hspin hop hphase, fetchItem_of_ok hdec]
    refine beginInstr_whole (.inr ?_)
    cases hbytes : (switchTask s).tableRest with
    | nil => rw [hbytes] at hdec; cases hdec
    | cons k bs => rw [hbytes] at hdec; cases hdec; rfl
  case record =>
    unfold step
    rw [fetch_of_record hspin hop hphase, fetchItem_of_ok hdec]
    exact beginInstr_whole (hbudget i hturn)

/-! ## Bytes that are no instruction -/

theorem getOperands_of_unknown {op : Byte} (h : op = 0 ∨ 0x16 < op.toNat) :
    getOperands op = throw (.unknownOp op) := by
  obtain rfl | h := h
  · rfl
  · unfold getOperands
    split
    case h_23 => rfl
    all_goals omega

theorem getBytes_of_short (n : Nat) (bs : List Byte) (h : bs.length < n) : getBytes n bs = .error .truncated := by
  induction n generalizing bs with
  | zero => exact absurd h (Nat.not_lt_zero _)
  | succ n ih =>
    cases bs with
    | nil => rfl
    | cons b bs =>
      simp only [getBytes, bind, StateT.bind, Except.bind, getByte, ih bs (Nat.lt_of_succ_lt_succ h)]

/-- A record that does not lie inside the bytes is not read in counted form (R84, R87). -/
theorem decode_record_of_none (p : Params) {bs : List Byte} (h : recordLength bs = none) :
    decode p (.initrec .counted) bs = .error .truncated := by
  match bs, h with
  | [], _ => rfl
  | [cmd], _ => rfl
  | cmd :: argc :: r, h =>
    rw [decode_initrec_of_not_sentinel (form := .counted) fun h => nomatch h.1]
    have hlen : r.length < argcCount argc + (argcDelay argc).toNat := by
      simpa [recordLength] using h
    simp only [getRecord, bind, StateT.bind, Except.bind, getByte]
    cases hd : argcDelay argc with
    | false =>
      rw [hd] at hlen
      rw [getBytes_of_short (argcCount argc) r hlen]
    | true =>
      rw [hd] at hlen
      obtain hlt | hge := Nat.lt_or_ge r.length (argcCount argc)
      · rw [getBytes_of_short _ _ hlt]
      · rw [getBytes_ok _ _ hge, List.drop_of_length_le (by simpa using Nat.le_of_lt_succ hlen)]
        rfl

/-- Settles O6. -/
theorem undecodableBytesStop : Obligations.UndecodableBytesStop := by
  intro s hsched hspin hop
  refine ⟨fun op bs rest hunknown hphase hissue => ?_, fun hphase hform hnone => ?_⟩
  · unfold step
    rw [switchTask_of_no_turn hsched, fetch_of_idle hspin hop hphase,
      fetchIssued_of_error hissue (congrFun (getOperands_of_unknown hunknown) bs)]
    rfl
  · unfold step
    rw [switchTask_of_no_turn hsched, fetch_of_record hspin hop hphase, hform,
      fetchItem_of_error (decode_record_of_none s.params hnone)]
    rfl

/-! ## An operation broken off and resumed -/

theorem setOp_none {s : State} (h : s.task.op = none) : s.setOp none = s := by
  unfold State.setOp
  rw [← h]

theorem setOp_setOp (s : State) (o o' : Option Op) : (s.setOp o).setOp o' = s.setOp o' := rfl

/-- A step that no turn shortens takes an operation in progress to its end. -/
theorem step_of_op {s : State} {o : Op} {ms : List Micro} (hsched : s.sched = []) (hspin : s.task.spin = none)
    (hop : s.task.op = some o) (hm : microsOf s.params o.instr = some ms) :
    step s = (runMicros (ms.drop o.pos) o.locals (s.setOp none)).flow.outcome id := by
  unfold step
  rw [switchTask_of_no_turn hsched, budget_eq_none hsched, fetch_of_op hspin hop]
  show resumeOp none o s = _
  unfold resumeOp
  rw [hm]

/-- The first `n` micro-steps of an instruction, and where it ends in one step: at its end when it ends within them, and
else where the rest of its micro-steps ends. -/
theorem someMicros_resumes {s t : State} {i : Instr} {n : Nat} {ms : List Micro} (hm : microsOf s.params i = some ms)
    (hsched : s.sched = []) (hspin : s.task.spin = none) (hop : s.task.op = none)
    (h : someMicros n ⟨i, 0, .start⟩ ms s = .next t) :
    (t.task.op = none → exec i s = .next t) ∧ (t.task.op ≠ none → step t = exec i s) := by
  have hkept := runMicros_kept (fun m hmem => microsOf_kept hm m (List.mem_of_mem_take (i := n) hmem)) .start s
  have hsplit := runMicros_split n ms .start s
  unfold someMicros at h
  rw [setOp_none hop] at h
  rw [exec_micros hm]
  unfold carryOut
  rw [hsplit]
  cases hr : runMicros (ms.take n) .start s with
  | go l x =>
    rw [hr] at h hkept
    obtain ⟨hkeeps, hxspin⟩ := hkept
    have hxop : x.task.op = none := hkeeps.op.trans hop
    cases h
    split
    · refine ⟨fun hnone => (nomatch hnone), fun _ => ?_⟩
      have hresume := step_of_op (s := x.setOp (some ⟨i, 0 + n, l⟩)) (hkeeps.sched.trans hsched) (hxspin.trans hspin) rfl
        (hkeeps.params ▸ hm)
      rw [setOp_setOp, setOp_none hxop, Nat.zero_add] at hresume
      rw [Nat.zero_add]
      exact hresume
    · next hlen =>
      refine ⟨fun _ => ?_, fun hne => absurd hxop hne⟩
      rw [List.drop_of_length_le (Nat.le_of_not_lt hlen)]
      rfl
  | ended x =>
    rw [hr] at h hkept
    cases h
    exact ⟨fun _ => rfl, fun hne => absurd (hkept.1.op.trans hop) hne⟩
  | hung x =>
    rw [hr] at h hkept
    cases h
    exact ⟨fun _ => rfl, fun hne => absurd (hkept.1.op.trans hop) hne⟩
  | refuse r => rw [hr] at h; cases h

/-- Settles O60: the micro-steps of an instruction cut in two are those of the whole, and an instruction without any is one
step. -/
theorem preemptedOperationResumes : Obligations.PreemptedOperationResumes := by
  intro s s' t i k n hsched hk hf h
  have hswitch : switchTask s = { s with sched := [] } := switchTask_of_no_task hsched hk
  have hbudget : s.budget = some n := by rw [State.budget, hsched]
  obtain ⟨hspin, hop, issue, hs'⟩ := fetch_instr hf
  have hsched' : s'.sched = [] := by rw [hs', hswitch]
  have hspin' : s'.task.spin = none := by rw [hs']; exact hspin
  have hop' : s'.task.op = none := by rw [hs']; exact hop
  have hbegin : beginInstr (some n) i s' = .next t := by rw [← h, step, hf, hbudget]; rfl
  cases hm : microsOf s'.params i with
  | none =>
    rw [beginInstr_whole (.inr hm)] at hbegin
    exact ⟨fun _ => hbegin, fun hne => absurd ((exec_keeps hbegin).op.trans hop') hne⟩
  | some ms =>
    rw [beginInstr_micros hm] at hbegin
    exact someMicros_resumes hm hsched' hspin' hop' hbegin

end Sys2Proof.Machine.Laws

/-! # Invariants (R59): the shape of the state, and the unit table with the hardware it is reflected in -/

namespace Sys2Proof.Machine.Laws

open Sys2Proof.Safety

/-! ## Properties that the parts of operations keep -/

/-- What a transfer, a busy-wait and the shifter do on peripheral `p`; one that is not stuck and idle is idle after it. -/
structure EngineStep (p : Fin 4) (s t : State) : Prop where
  engine : Engine p s t
  idle : s.params.isStuck p = false → s.busy p = false → t.busy p = false

/-- A property of states that every part an operation is made of keeps. -/
structure Stable (P : State → Prop) : Prop where
  beside : ∀ {s t}, Beside s t → P s → P t
  tasks : ∀ {s} (task : Task) (others : List Task) (sched : List Turn), P s →
    P { s with task := task, others := others, sched := sched }
  engine : ∀ {p s t}, EngineStep p s t → P s → P t
  handoff : ∀ {u s}, s.params.inRange u = true → P s → P (s.handoff u)
  reprogrammed : ∀ {u s t es}, s.params.inRange u = true → s.last = some u → Reprogrammed u s t es → P s → P t
  configured : ∀ {u s f}, s.params.inRange u = true → SetsValid s.params f → P s →
    P (s.setUnit u { f (s.unit u) with dirty := true })
  defaults : ∀ {s} (u : Nat), P s → P (s.assignDefaultPins u)

theorem engineStep_transact (p : Fin 4) (s : State) (r : RegFile) : EngineStep p s (s.transact p r) := by
  refine ⟨engine_transact p s r, fun _ _ => ?_⟩
  unfold State.busy
  rw [transact_periph, if_pos rfl]
  rfl

/-- A flow that ends as a transfer on `p` does. -/
theorem transferOn_engineStep (p : Fin 4) (len : Nat) (src : OutSrc) (dst : InDst) (s : State) :
    FlowAll (EngineStep p s) (EngineStep p s) (transferOn p len src dst s) :=
  (transferOn_all p len src dst s).mono (fun _ h => ⟨h.1, fun _ => h.2.2.2⟩)
    fun _ h => ⟨h.1.engine, fun hs => Bool.noConfusion (hs.symm.trans h.1.stuck)⟩

theorem waitIdle_engineStep (p : Fin 4) (s : State) : FlowAll (EngineStep p s) (EngineStep p s) (waitIdle p s) :=
  (waitIdle_all p s).mono (fun _ h => ⟨h.1, fun _ _ => h.2.2.2⟩)
    fun t h => ⟨(hung_spin p s t h.1 h.2.1 h.2.2).1.engine, fun hs => Bool.noConfusion (hs.symm.trans h.2.2)⟩

namespace Stable

variable {P : State → Prop} (hP : Stable P)

include hP

theorem transfer (p : Fin 4) (len : Nat) (src : OutSrc) (dst : InDst) {s : State} (hs : P s) :
    FlowAll P P (transferOn p len src dst s) :=
  (transferOn_engineStep p len src dst s).mono (fun _ h => hP.engine h hs) fun _ h => hP.engine h hs

theorem wait (p : Fin 4) {s : State} (hs : P s) : FlowAll P P (waitIdle p s) :=
  (waitIdle_engineStep p s).mono (fun _ h => hP.engine h hs) fun _ h => hP.engine h hs

theorem pinCall {s t : State} (h : PinCall s t) (hs : P s) : P t := hP.beside (beside_pinCall h) hs

/-- A reprogram waits for its peripheral, then attaches the unit's pins, writes the configuration and clears the flag. -/
theorem reprogram {u : Nat} {s : State} (hu : s.params.inRange u = true) (hlast : s.last = some u) (hs : P s) :
    FlowAll P P (reprogram u s) := by
  refine FlowAll.andDo ((waitIdle_engineStep _ s).mono (P' := EngineStep (s.params.periphOf u) s) (fun _ h => h)
    fun _ h => hP.engine h hs) fun t ht => ?_
  have hparams := ht.engine.keeps.params
  obtain ⟨es, hre⟩ := reprogram_body u t
  rw [hparams] at hre
  exact hP.reprogrammed (hparams ▸ hu) (ht.engine.last.trans hlast) hre (hP.engine ht hs)

theorem select {u : Nat} {s : State} (hu : s.params.inRange u = true) (hs : P s) : FlowAll P P (selectFlow u s) := by
  obtain ⟨es, hoff⟩ := handoff_spec u s
  have hoffP := hP.handoff hu hs
  rw [selectFlow_eq]
  refine FlowAll.andDo (P := P) ?_ fun t ht => hP.pinCall (pinCall_driveCs t u false) ht
  split
  · refine hP.reprogram ?_ ?_ hoffP <;> rw [hoff.frame]
    exact hu
  · exact hoffP

theorem deselect (u : Nat) {s : State} (hs : P s) : FlowAll P P (deselectFlow u s) := by
  rw [deselectFlow_eq]
  split_ifs
  · exact hs
  · exact hs
  · exact (hP.wait _ hs).andDo fun t ht => hP.pinCall (pinCall_driveCs t u true) ht

theorem busFlow {s : State} {f : Flow} (h : BusFlow s f) (hs : P s) : FlowAll P P f := by
  induction h with
  | done s => exact hs
  | refuse s r => trivial
  | after hb _ ih => exact ih (hP.beside hb hs)
  | transfer p len src dst s => exact hP.transfer p len src dst hs
  | select hu => exact hP.select hu hs
  | deselect u s => exact hP.deselect u hs
  | andThen _ _ ih1 ih2 => exact (ih1 hs).andThen fun t ht => ih2 t ht

theorem setResult {s : State} (hs : P s) (r : Option OpResult) : P (s.setResult r) :=
  hP.beside (aside_setResult s r).beside hs

/-- `init` assigns default pins, acquires pins, and at its end sets mode, duplex and the dirty flag (R130). -/
theorem initState {u : Nat} {s : State} (hu : s.params.inRange u = true) (hs : P s) : P (initState s u) := by
  have hdefaults := hP.defaults u hs
  have hcalm := (calm_assignDefaultPins s u).trans (calm_acquirePins ((s.assignDefaultPins u).unit u).lockOrder _)
  have hacquired := hP.beside (beside_acquirePins ((s.assignDefaultPins u).unit u).lockOrder _) hdefaults
  unfold Laws.initState
  generalize (s.assignDefaultPins u).acquirePins ((s.assignDefaultPins u).unit u).lockOrder = acquired at hcalm hacquired ⊢
  obtain ⟨t, _ | ⟨o, g⟩⟩ := acquired
  · refine hP.setResult (hP.configured (f := fun r => { r with mode := 0, duplex := true }) ?_ ?_ hacquired) _
    · rw [hcalm.keeps.params]
      exact hu
    · exact setsValid_pins (fun _ h => h) fun _ => rfl
  · exact hP.setResult hacquired _

/-- Every instruction keeps a stable property. -/
theorem exec {i : Instr} {s t : State} (hs : P s) (hexec : exec i s = .next t) : P t := by
  have hform := exec_form i s
  rw [hexec] at hform
  generalize ho : Host.Outcome.next t = o at hform
  cases hform with
  | refused r => cases ho
  | aside h => cases ho; exact hP.beside h.beside hs
  | configure hi hu hf =>
    cases ho
    rw [configure_of_inRange _ hu]
    exact hP.setResult (hP.configured hu hf hs) _
  | init hi hu => cases ho; exact hP.initState hu hs
  | pins v h => cases ho; exact hP.setResult (hP.pinCall h.call hs) _
  | flow hb hok hrec hg =>
    exact FlowAll.of_outcome (hP.busFlow hb hs) ho.symm (fun x hx => hP.beside (hg x).beside hx) fun _ hx => hx

theorem switchTask {s : State} (hs : P s) : P (switchTask s) := by
  rw [switchTask_frame]
  exact hP.tasks _ _ _ hs

end Stable

/-! ## The shape of the state -/

theorem shape_of_keeps {s t : State} (hs : Shape s) (hk : Keeps s t)
    (hlast : ∀ u, t.last = some u → s.last = some u ∨ s.params.inRange u = true)
    (hpins : ∀ u, s.params.pinsOk (t.unit u).pinSet = true) : Shape t where
  params := hk.params ▸ hs.params
  sized := by
    obtain ⟨hu, hp, hl⟩ := hs.sized
    exact ⟨by rw [hk.units, hk.params, hu], by rw [hk.pins, hk.params, hp], by rw [hk.locks, hk.params, hl]⟩
  last := fun u h => by
    rw [hk.params]
    exact (hlast u h).elim (hs.last u) id
  pins := fun u => by rw [hk.params]; exact hpins u
  mem := hk.mem hs.mem

/-- No record changes but for its dirty flag, and the marker is kept or names a unit. -/
theorem shape_of_records {s t : State} (hs : Shape s) (hk : Keeps s t)
    (hlast : ∀ u, t.last = some u → s.last = some u ∨ s.params.inRange u = true)
    (hunit : ∀ v, (t.unit v).pinSet = (s.unit v).pinSet) : Shape t :=
  shape_of_keeps hs hk hlast fun v => by rw [hunit]; exact hs.pins v

theorem Records.pinSet {s t : State} (h : Records s t) (v : Nat) : (t.unit v).pinSet = (s.unit v).pinSet := by
  rw [← h.unit v]
  rfl

theorem pinsOk_defPins {p : Params} (h : p.wf = true) (u : Nat) : p.pinsOk (p.defPinsOf u) = true := by
  simp only [Params.wf, Bool.and_eq_true, decide_eq_true_eq, List.all_eq_true] at h
  obtain ⟨⟨⟨⟨⟨⟨⟨⟨-, hdef⟩, -⟩, -⟩, -⟩, hnpins⟩, -⟩, -⟩, -⟩ := h
  unfold Params.defPinsOf
  obtain hlt | hge := Nat.lt_or_ge (u - p.firstUnit) p.defPins.length
  · rw [List.getD_eq_getElem _ _ hlt]
    exact hdef _ (List.getElem_mem hlt)
  · rw [List.getD_eq_default _ _ hge]
    have : 0 < p.npins := by omega
    exact pinsOk_iff.2 ⟨this, this, this, this⟩

theorem shape_setUnit {s : State} {u : Nat} {r : UnitRec} (hs : Shape s) (hu : s.params.inRange u = true)
    (hr : s.params.pinsOk r.pinSet = true) : Shape (s.setUnit u r) := by
  refine shape_of_keeps hs (kept_setUnit s u r).1 (fun v hv => .inl ?_) fun v => ?_
  · rwa [setUnit_last] at hv
  · by_cases hv : v = u
    · rw [hv, unit_setUnit_self s r hu hs.sized.1]
      exact hr
    · rw [unit_setUnit_ne s r hv]
      exact hs.pins v

theorem shape_stable : Stable Shape where
  beside := fun {s t} h hs => shape_of_records hs h.keeps (fun u hu => .inl (by rw [h.frame] at hu; exact hu)) h.records.pinSet
  tasks := fun _ _ _ hs => ⟨hs.params, hs.sized, hs.last, hs.pins, hs.mem⟩
  engine := fun {p s t} h hs =>
    shape_of_records hs h.engine.keeps (fun u hu => .inl (h.engine.last ▸ hu)) fun v => by
      rw [unit_congr h.engine.keeps.params h.engine.units]
  handoff := fun {u s} hu hs => by
    refine shape_of_records hs (flowOk_handoff u s).1.keeps (fun v hv => ?_) (records_handoff u s).pinSet
    unfold State.handoff at hv
    split at hv
    · exact .inl hv
    · cases hv; exact .inr hu
  reprogrammed := fun {u s t es} hu hlast h hs => by
    have hunit : ∀ v, t.unit v = (s.setDirty u false).unit v := unit_congr (by rw [h.frame, setDirty_params]) h.units
    refine shape_of_records hs ?_ (fun v hv => .inl (by rw [h.frame] at hv; exact hv)) fun v => by
      rw [hunit]; exact (records_setDirty s u false).pinSet v
    rw [h.frame]
    exact ⟨rfl, rfl, rfl, rfl, rfl, rfl, by rw [h.units, setDirty_units_length], h.length, rfl, id, es, rfl⟩
  configured := fun {u s f} hu hf hs => shape_setUnit hs hu (hf.pins _ (hs.pins u))
  defaults := fun {s} u hs => by
    unfold State.assignDefaultPins
    split
    · by_cases hu : s.params.inRange u = true
      · exact shape_setUnit hs hu (pinsOk_defPins hs.params u)
      · rw [State.setUnit, if_neg hu]
        exact hs
    · exact hs

/-! ### The shape, micro-step by micro-step -/

/-- Every micro-step of a list keeps a property. -/
def ListAll (P : State → Prop) (ms : List Micro) : Prop := ∀ m ∈ ms, MicroKeeps P P m

section ListAll

variable {P : State → Prop}

theorem ListAll.nil : ListAll P [] := fun _ h => absurd h List.not_mem_nil

theorem ListAll.cons {m : Micro} {ms : List Micro} (h1 : MicroKeeps P P m) (h2 : ListAll P ms) : ListAll P (m :: ms) :=
  List.forall_mem_cons.2 ⟨h1, h2⟩

theorem ListAll.append {a b : List Micro} (h1 : ListAll P a) (h2 : ListAll P b) : ListAll P (a ++ b) :=
  List.forall_mem_append.2 ⟨h1, h2⟩

theorem ListAll.branch {c : Locals → State → Bool} {body : List Micro} (h : ListAll P body) :
    ListAll P (Machine.branch c body) := .cons (microKeeps_note _) h

theorem listAll_loadPins (u : Locals → Nat) : ListAll P (loadPins u) :=
  .cons (microKeeps_note _) (.cons (microKeeps_note _) (.cons (microKeeps_note _) (.cons (microKeeps_note _) .nil)))

variable (hP : Stable P)

include hP

theorem microKeeps_onPinRead (g : PinSet → Nat) {f : Locals → State → Nat → State} (h : ∀ l t g, PinCall t (f l t g)) :
    MicroKeeps P P (onPinRead g f) := by
  refine microKeeps_act fun l s hs => ?_
  unfold State.onPin
  split
  · exact hs
  · exact hP.pinCall (h l s _) hs

theorem microKeeps_wait (p : State → Fin 4) : MicroKeeps P P (span fun s => waitIdle (p s) s) :=
  microKeeps_span fun _ hs => hP.wait _ hs

theorem microKeeps_returnOk : MicroKeeps P P returnOk := microKeeps_finish fun _ hs => hP.setResult hs _

theorem microKeeps_acquire (g : PinSet → Nat) : MicroKeeps P P (acquire g) := by
  intro l s hs
  have hlock := hP.beside (beside_lockAcquire s (g l.pins)) hs
  unfold acquire
  split
  · exact hs
  · cases s.lockAnswer (g l.pins) with
    | ok => exact hlock
    | conflict o => exact hP.setResult hlock _

theorem listAll_detach : ListAll P detachSteps := by
  have route : ∀ l t g, PinCall t ((fun (_ : Locals) (s : State) (g : Nat) => s.matrixRouteOutput g .gpioDriven) l t g) :=
    fun _ t g => (pinUp_routeOutput t g _).call
  have plain : ∀ l t g, PinCall t ((fun (_ : Locals) (s : State) (g : Nat) => s.matrixSelectPinFunction g .gpio) l t g) :=
    fun _ t g => (pinUp_function t g _).call
  refine .append (listAll_loadPins _) (.cons (microKeeps_act fun _ s hs => hP.pinCall (pinUp_routeInput s _ _).call hs) ?_)
  exact .cons (microKeeps_onPinRead hP _ route) (.cons (microKeeps_onPinRead hP _ route)
    (.cons (microKeeps_onPinRead hP _ route) (.cons (microKeeps_onPinRead hP _ plain)
      (.cons (microKeeps_onPinRead hP _ plain) (.cons (microKeeps_onPinRead hP _ plain)
        (.cons (microKeeps_onPinRead hP _ plain)
          (.cons (microKeeps_onPinRead hP _ fun _ t g => pinCall_setLevel t g _) .nil)))))))

theorem listAll_attach (u : Nat) : ListAll P (attachSteps u) := by
  have func : ∀ l t g, PinCall t ((fun l (s : State) g => s.matrixSelectPinFunction g (fnRead u l s)) l t g) :=
    fun _ t g => (pinUp_function t g _).call
  have dir := fun (d : Dir) (g : PinSet → Nat) =>
    microKeeps_onPinRead hP g (f := fun _ s g => s.gpioSetDirection g d) fun _ t g => (pinUp_setDirection t g d).call
  have out := fun (r : State → OutRoute) (g : PinSet → Nat) =>
    microKeeps_onPinRead hP g (f := fun _ s g => s.matrixRouteOutput g (r s)) fun _ t g => (pinUp_routeOutput t g _).call
  refine .append (.append (.append (.append (listAll_loadPins _) ?_) (.branch ?_)) (.branch ?_)) ?_
  · exact .cons (microKeeps_onPinRead hP _ func) (.cons (microKeeps_onPinRead hP _ func)
      (.cons (microKeeps_onPinRead hP _ func) (.cons (dir _ _)
        (.cons (microKeeps_onPinRead hP _ fun _ t g => (pinUp_setPullMode t g _).call) (.cons (dir _ _)
          (.cons (dir _ _) .nil))))))
  · exact .cons (microKeeps_onPinRead hP _ fun _ t g => (pinUp_routeInput t _ _).call) (.cons (out _ _)
      (.cons (out _ _) .nil))
  · exact .cons (microKeeps_act fun _ s hs => hP.pinCall (pinUp_routeInput s _ _).call hs) .nil
  · exact .cons (microKeeps_onPinRead hP _ fun _ t g => (pinUp_setOutput t g).call) .nil

theorem listAll_selectUnit (u : Nat) : ListAll P (selectUnitSteps u) :=
  .cons (microKeeps_note _) (.branch (.append (.branch (.append (listAll_loadPins _) (.branch (listAll_detach hP))))
    (listAll_attach hP u)))

theorem listAll_driveCs (u : Nat) (v : Bool) : ListAll P (driveCsSteps u v) :=
  .cons (microKeeps_note _) (.cons (microKeeps_onPinRead hP _ fun _ t g => pinCall_setLevel t g v) .nil)

theorem listAll_deselect (u : Nat) : ListAll P (deselectBody u) :=
  .branch (.branch (.append (.cons (microKeeps_wait hP _) .nil) (listAll_driveCs hP u true)))

theorem listAll_record (c : Byte) (args : List Byte) : ListAll P (recordSteps c args) := by
  have advance : ∀ n, MicroKeeps P P (act fun _ s => s.advance n) := fun n =>
    microKeeps_act fun _ s hs => hP.beside (beside_advance s n) hs
  exact .cons (advance _) (.cons (microKeeps_span fun s hs => hP.busFlow (busFlow_sendCommand c s) hs)
    (.cons (advance _) (.cons (microKeeps_span fun s hs => hP.busFlow (busFlow_sendData args s) hs) .nil)))

theorem microKeeps_recordDone : MicroKeeps P P (finish State.recordDone) :=
  microKeeps_finish fun s hs => hP.beside (aside_recordDone s).beside hs

end ListAll

/-- A stable property, under a configuration. -/
theorem Stable.withParams {P : State → Prop} (hP : Stable P) (p : Params) : Stable fun s => s.params = p ∧ P s where
  beside := fun h hs => ⟨h.keeps.params.trans hs.1, hP.beside h hs.2⟩
  tasks := fun _ _ _ hs => ⟨hs.1, hP.tasks _ _ _ hs.2⟩
  engine := fun h hs => ⟨h.engine.keeps.params.trans hs.1, hP.engine h hs.2⟩
  handoff := fun {u s} hu hs => ⟨(flowOk_handoff u s).1.keeps.params.trans hs.1, hP.handoff hu hs.2⟩
  reprogrammed := fun hu hlast h hs => ⟨by rw [h.frame]; exact hs.1, hP.reprogrammed hu hlast h hs.2⟩
  configured := fun {u s _} hu hf hs => ⟨(setUnit_params s u _).trans hs.1, hP.configured hu hf hs.2⟩
  defaults := fun {s} u hs => ⟨(calm_assignDefaultPins s u).keeps.params.trans hs.1, hP.defaults u hs.2⟩

/-- The shape of a state under a configuration. -/
def ShapeIn (p : Params) (s : State) : Prop := s.params = p ∧ Shape s

theorem shapeIn_stable (p : Params) : Stable (ShapeIn p) := shape_stable.withParams p

section ShapeIn

variable {p : Params}

/-- A field written into a record, pins into pins. -/
theorem microKeeps_shape_store {u : Nat} {f : State → UnitRec → UnitRec}
    (h : ∀ s r, s.params = p → p.wf = true → p.pinsOk r.pinSet = true → p.pinsOk (f s r).pinSet = true) :
    MicroKeeps (ShapeIn p) (ShapeIn p) (store u f) := by
  refine microKeeps_act fun _ s hs => ?_
  obtain ⟨rfl, hshape⟩ := hs
  refine ⟨setUnit_params s u _, ?_⟩
  by_cases hu : s.params.inRange u = true
  · exact shape_setUnit hshape hu (h s _ rfl hshape.params (hshape.pins u))
  · rw [State.setUnit, if_neg hu]
    exact hshape

/-- A micro-step that stores a field that is no pin. -/
theorem microKeeps_shape_storeNoPin {u : Nat} {f : State → UnitRec → UnitRec} (h : ∀ s r, (f s r).pinSet = r.pinSet) :
    MicroKeeps (ShapeIn p) (ShapeIn p) (store u f) :=
  microKeeps_shape_store fun s r _ _ hr => by rw [h]; exact hr

theorem microKeeps_shape_markDirty (u : Nat) (d : Bool) : MicroKeeps (ShapeIn p) (ShapeIn p) (markDirty u d) :=
  microKeeps_shape_storeNoPin fun _ _ => rfl

theorem shapeIn_setDirty {s : State} (u : Nat) (d : Bool) (hs : ShapeIn p s) : ShapeIn p (s.setDirty u d) :=
  ⟨(setDirty_params s u d).trans hs.1,
    shape_of_records hs.2 (kept_setUnit s u _).1 (fun v hv => .inl (by rwa [setDirty_last] at hv))
      (records_setDirty s u d).pinSet⟩

theorem listAll_shape_writeField (u : Nat) (f : RegField) (v : UnitRec → Word) : ListAll (ShapeIn p) (writeField u f v) :=
  .cons (microKeeps_note _) (.cons (microKeeps_note _) (.cons (microKeeps_act fun _ _ hs =>
    ⟨hs.1, hs.2.params, hs.2.sized, hs.2.last, hs.2.pins, hs.2.mem⟩) .nil))

theorem listAll_shape_reprogram (u : Nat) : ListAll (ShapeIn p) (reprogramSteps u) := by
  unfold reprogramSteps
  refine .append ?_ (.cons (microKeeps_shape_markDirty u false) .nil)
  repeat (refine .append ?_ (listAll_shape_writeField u _ _))
  exact .append (.cons (microKeeps_wait (shapeIn_stable p) _) .nil) (listAll_attach (shapeIn_stable p) u)

theorem listAll_shape_select {u : Nat} (hu : p.inRange u = true) : ListAll (ShapeIn p) (selectBody u) := by
  refine .append (.append (.branch (.append (.append (listAll_selectUnit (shapeIn_stable p) u) (.branch ?_)) ?_))
    (.branch (listAll_shape_reprogram u))) (.branch (listAll_driveCs (shapeIn_stable p) u false))
  · refine .cons (microKeeps_note _) (.cons (microKeeps_act fun l s hs => ?_) .nil)
    split
    · exact shapeIn_setDirty _ true hs
    · exact hs
  · refine .cons (microKeeps_shape_markDirty u true) (.cons (microKeeps_act fun _ s hs => ⟨hs.1, ?_⟩) .nil)
    refine ⟨hs.2.params, hs.2.sized, fun v hv => ?_, hs.2.pins, hs.2.mem⟩
    cases hv
    exact hs.1 ▸ hu

theorem listAll_shape_init (u : Nat) : ListAll (ShapeIn p) (initSteps u) := by
  have hP := shapeIn_stable p
  refine .append (.append (.append (listAll_loadPins _) (.branch ?_)) (listAll_loadPins _)) ?_
  · have hdef : ∀ s : State, s.params = p → p.wf = true → p.pinsOk (s.params.defPinsOf u) = true := fun s hs hwf =>
      hs ▸ pinsOk_defPins hwf u
    refine .cons (microKeeps_shape_store fun s r hs hwf hr => ?_) (.cons (microKeeps_shape_store fun s r hs hwf hr => ?_)
      (.cons (microKeeps_shape_store fun s r hs hwf hr => ?_) (.cons (microKeeps_shape_store fun s r hs hwf hr => ?_) .nil)))
    all_goals
      obtain ⟨hdi, hdo, hck, hcs⟩ := pinsOk_iff.1 hr
      obtain ⟨ddi, ddo, dck, dcs⟩ := pinsOk_iff.1 (hdef s hs hwf)
    · exact pinsOk_iff.2 ⟨ddi, hdo, hck, hcs⟩
    · exact pinsOk_iff.2 ⟨hdi, ddo, hck, hcs⟩
    · exact pinsOk_iff.2 ⟨hdi, hdo, dck, hcs⟩
    · exact pinsOk_iff.2 ⟨hdi, hdo, hck, dcs⟩
  · exact .cons (microKeeps_acquire hP _) (.cons (microKeeps_acquire hP _) (.cons (microKeeps_acquire hP _)
      (.cons (microKeeps_acquire hP _) (.cons (microKeeps_shape_storeNoPin fun _ _ => rfl)
        (.cons (microKeeps_shape_storeNoPin fun _ _ => rfl) (.cons (microKeeps_shape_markDirty u true)
          (.cons (microKeeps_returnOk hP) .nil)))))))

theorem listAll_shape_cfgpins {u a b c d : Nat} (h : p.pinsOk ⟨a, b, c, d⟩ = true) :
    ListAll (ShapeIn p) (cfgpinsSteps u a b c d) := by
  obtain ⟨ha, hb, hc, hd⟩ := pinsOk_iff.1 h
  refine .cons (microKeeps_shape_store fun s r _ _ hr => ?_) (.cons (microKeeps_shape_store fun s r _ _ hr => ?_)
    (.cons (microKeeps_shape_store fun s r _ _ hr => ?_) (.cons (microKeeps_shape_store fun s r _ _ hr => ?_)
      (.cons (microKeeps_shape_markDirty u true) (.cons (microKeeps_returnOk (shapeIn_stable p)) .nil)))))
  all_goals obtain ⟨hdi, hdo, hck, hcs⟩ := pinsOk_iff.1 hr
  · exact pinsOk_iff.2 ⟨ha, hdo, hck, hcs⟩
  · exact pinsOk_iff.2 ⟨hdi, hb, hck, hcs⟩
  · exact pinsOk_iff.2 ⟨hdi, hdo, hc, hcs⟩
  · exact pinsOk_iff.2 ⟨hdi, hdo, hck, hd⟩

/-- Every micro-step of every instruction keeps the shape. -/
theorem microsOf_shape {i : Instr} {ms : List Micro} (h : microsOf p i = some ms) : ListAll (ShapeIn p) ms := by
  have hP := shapeIn_stable p
  have hend : ∀ u, ListAll (ShapeIn p) [markDirty u true, returnOk] := fun u =>
    .cons (microKeeps_shape_markDirty u true) (.cons (microKeeps_returnOk hP) .nil)
  cases i <;> simp only [microsOf, Option.ite_none_right_eq_some, Option.some.injEq, Bool.and_eq_true, decide_eq_true_eq,
    reduceCtorEq] at h
  case cfgpins u a b c d =>
    obtain ⟨⟨-, hpins⟩, rfl⟩ := h
    exact listAll_shape_cfgpins hpins
  case setmode u m =>
    obtain ⟨-, rfl⟩ := h
    exact .cons (microKeeps_shape_storeNoPin fun _ _ => rfl) (hend u)
  case setspeed u k =>
    obtain ⟨-, rfl⟩ := h
    exact .cons (microKeeps_shape_storeNoPin fun _ _ => rfl) (.cons (microKeeps_shape_storeNoPin fun _ _ => rfl) (hend u))
  case setcs u g =>
    obtain ⟨⟨-, hg⟩, rfl⟩ := h
    refine .cons (microKeeps_shape_store fun s r _ _ hr => ?_) (hend u)
    obtain ⟨hdi, hdo, hck, -⟩ := pinsOk_iff.1 hr
    exact pinsOk_iff.2 ⟨hdi, hdo, hck, hg⟩
  case setduplex u d =>
    obtain ⟨-, rfl⟩ := h
    exact .cons (microKeeps_shape_storeNoPin fun _ _ => rfl) (hend u)
  case init u m =>
    obtain ⟨-, rfl⟩ := h
    exact listAll_shape_init u
  case pinmux u =>
    obtain ⟨-, rfl⟩ := h
    exact .append (listAll_selectUnit hP u) (.cons (microKeeps_returnOk hP) .nil)
  case select u =>
    obtain ⟨hu, rfl⟩ := h
    exact .append (listAll_shape_select hu) (.cons (microKeeps_returnOk hP) .nil)
  case deselect u =>
    obtain ⟨-, rfl⟩ := h
    exact .append (listAll_deselect hP u) (.cons (microKeeps_returnOk hP) .nil)
  case initrec c args =>
    subst h
    exact .append (listAll_record hP c args) (.cons (microKeeps_recordDone hP) .nil)
  case initrecD c args code =>
    subst h
    refine .append (listAll_record hP c args) (.cons (microKeeps_act fun _ s hs => ?_) (.cons (microKeeps_act fun _ s hs => ?_)
      (.cons (microKeeps_recordDone hP) .nil)))
    · exact hP.beside (beside_advance s 1) hs
    · exact hP.beside (aside_schedDelay s _).beside hs

end ShapeIn

/-- Settles O52: the shape does not speak of tasks, and the shifters, every instruction and every micro-step keep it. -/
theorem stepKeepsShape : Obligations.StepKeepsShape := by
  intro s t hs h
  have hP := shapeIn_stable s.params
  exact (step_all (P := ShapeIn s.params) (fun x p r hx => hP.engine (engineStep_transact p x r) hx)
    (fun x o hx => hP.tasks _ x.others x.sched hx) (fun x issue hx => hP.tasks _ x.others x.sched hx)
    (fun i x y hx he => hP.exec hx he) (fun x i ms hx hm => microsOf_shape (hx.1 ▸ hm)) (hP.switchTask ⟨rfl, hs⟩) h).2

end Sys2Proof.Machine.Laws

/-! # Invariants (R59): the unit table and the hardware it is reflected in, operation by operation -/

namespace Sys2Proof.Machine.Laws

open Sys2Proof.Safety

/-- The invariants of the unit table look at parameters, records, marker and registers only. -/
theorem consistent_congr {s t : State} (hp : t.params = s.params) (hu : t.units = s.units) (hl : t.last = s.last)
    (hr : t.periphs = s.periphs) (hs : Consistent s) : Consistent t := by
  have hunit := unit_congr hp hu
  have hperiph : ∀ q, t.periph q = s.periph q := fun q => by rw [State.periph, hr]; rfl
  refine ⟨fun u hin => ?_, fun u hin ⟨hlast, hdirty⟩ => ?_, fun u hin hlast hdirty => ?_, fun q hq => ?_⟩
  · rw [hunit, hp]
    exact hs.divisor u (hp ▸ hin)
  · rw [hunit] at hdirty ⊢
    rw [hp, hperiph]
    exact hs.holder u (hp ▸ hin) ⟨hl ▸ hlast, hdirty⟩
  · rw [hunit] at hdirty ⊢
    rw [hp]
    exact hs.clean u (hp ▸ hin) (hl ▸ hlast) hdirty
  · rw [State.busy, hperiph]
    exact hs.idle q (hp ▸ hq)

/-- A transfer, a busy-wait and the shifter keep the configuration fields of every peripheral. -/
theorem consistent_engine {p : Fin 4} {s t : State} (h : EngineStep p s t) (hs : Consistent s) : Consistent t := by
  have hp := h.engine.keeps.params
  have hunit := unit_congr hp h.engine.units
  refine ⟨fun u hin => ?_, fun u hin ⟨hlast, hdirty⟩ => ?_, fun u hin hlast hdirty => ?_, fun q hq => ?_⟩
  · rw [hunit, hp]
    exact hs.divisor u (hp ▸ hin)
  · rw [hunit] at hdirty ⊢
    rw [hp]
    have hbefore := hs.holder u (hp ▸ hin) ⟨h.engine.last ▸ hlast, hdirty⟩
    by_cases hq : s.params.periphOf u = p
    · rw [hq] at hbefore ⊢
      exact (dataOnly_reflects h.engine.config _).2 hbefore
    · rw [h.engine.others _ hq]
      exact hbefore
  · rw [hunit] at hdirty ⊢
    rw [hp]
    exact hs.clean u (hp ▸ hin) (h.engine.last ▸ hlast) hdirty
  · have hidle := hs.idle q (hp ▸ hq)
    by_cases hqp : q = p
    · subst hqp
      exact h.idle (hp ▸ hq) hidle
    · rw [State.busy, h.engine.others q hqp]
      exact hidle

/-- The hand-off: the new holder and the loser are dirty, so that items 3 and 4 ask nothing of them. -/
theorem consistent_handoff {u : Nat} {s : State} (hin : s.params.inRange u = true) (hl : s.units.length = s.params.unitCount)
    (hs : Consistent s) : Consistent (s.handoff u) := by
  by_cases hlast : s.last = some u
  · rw [State.handoff, if_pos hlast]
    exact hs
  obtain ⟨es, h⟩ := handoff_spec u s
  have hparams : (s.handoff u).params = s.params := by rw [h.frame]
  have hmarker : (s.handoff u).last = some u := by rw [h.frame]
  have hunit : ∀ v, (s.handoff u).unit v =
      if v = u ∨ (s.last = some v ∧ s.params.inRange v = true) then { s.unit v with dirty := true } else s.unit v := by
    intro v
    rw [← unit_handoffMarks s u v hin hlast hl]
    refine unit_congr (by rw [hparams, handoffMarks_eq]) ?_ v
    rw [h.units, if_neg hlast]
  refine ⟨fun v hv => ?_, fun v hv ⟨hheld, hdirty⟩ => ?_, fun v hv hne hdirty => ?_, fun q hq => ?_⟩
  · rw [hparams] at hv ⊢
    rw [hunit]
    split <;> exact hs.divisor v hv
  · obtain rfl : u = v := Option.some.inj (hmarker.symm.trans hheld)
    rw [hunit, if_pos (.inl rfl)] at hdirty
    cases hdirty
  · rw [hparams] at hv ⊢
    rw [hunit] at hdirty ⊢
    split at hdirty
    · cases hdirty
    · next hother =>
      rw [if_neg hother]
      exact hs.clean v hv (fun hsv => hother (.inr ⟨hsv, hv⟩)) hdirty
  · rw [State.busy, State.periph, show (s.handoff u).periphs = s.periphs by rw [h.frame]]
    exact hs.idle q (hparams ▸ hq)

/-- A reprogram of the unit that holds the bus: the registers are written from its record (R146). -/
theorem consistent_reprogrammed {u : Nat} {s t : State} {es : List Event} (hin : s.params.inRange u = true)
    (hl : s.units.length = s.params.unitCount) (hlast : s.last = some u) (h : Reprogrammed u s t es) (hs : Consistent s) :
    Consistent t := by
  have hparams : t.params = s.params := by rw [h.frame]
  have hmarker : t.last = some u := by rw [h.frame]; exact hlast
  have hunit : ∀ v, t.unit v = if v = u then { s.unit u with dirty := false } else s.unit v := fun v => by
    rw [← unit_setDirty s u v false hin hl]
    exact unit_congr (by rw [hparams, setDirty_params]) h.units v
  refine ⟨fun v hv => ?_, fun v hv ⟨hheld, hdirty⟩ => ?_, fun v hv hne hdirty => ?_, fun q hq => ?_⟩
  · rw [hparams] at hv ⊢
    rw [hunit]
    split
    · exact hs.divisor u hin
    · exact hs.divisor v hv
  · obtain rfl : u = v := Option.some.inj (hmarker.symm.trans hheld)
    rw [hparams, h.periph, if_pos rfl, hunit, if_pos rfl]
    exact configured_reflects _ _
  · have hvu : v ≠ u := fun hvu => hne (hvu ▸ hmarker)
    rw [hunit, if_neg hvu] at hdirty ⊢
    rw [hparams] at hv ⊢
    exact hs.clean v hv (fun hsv => hvu (Option.some.inj (hsv.symm.trans hlast))) hdirty
  · have hidle := hs.idle q (hparams ▸ hq)
    rw [State.busy, h.periph]
    split <;> exact hidle

/-- A record written anew: dirty, or changed in its pins alone from none to the defaults. -/
theorem consistent_setUnit {u : Nat} {s : State} {r : UnitRec} (hin : s.params.inRange u = true)
    (hl : s.units.length = s.params.unitCount)
    (hdiv : r.divisor = 0 ∨ ∃ t, r.divisor = frequencyToDivisor s.params.sysclkHz t)
    (hholder : r.dirty = false → s.last = some u → reflects (s.periph (s.params.periphOf u)) r)
    (hclean : r.dirty = false → s.last ≠ some u → untouched r (s.params.defPinsOf u)) (hs : Consistent s) :
    Consistent (s.setUnit u r) := by
  have hunit : ∀ v, (s.setUnit u r).unit v = if v = u then r else s.unit v := fun v => by
    by_cases hv : v = u
    · rw [if_pos hv, hv, unit_setUnit_self s r hin hl]
    · rw [if_neg hv, unit_setUnit_ne s r hv]
  have hperiph : ∀ q, (s.setUnit u r).periph q = s.periph q := fun q => by rw [State.periph, setUnit_periphs]; rfl
  refine ⟨fun v hv => ?_, fun v hv ⟨hheld, hdirty⟩ => ?_, fun v hv hne hdirty => ?_, fun q hq => ?_⟩
  all_goals rw [setUnit_params] at *
  · rw [hunit]
    split
    · exact hdiv
    · exact hs.divisor v hv
  · rw [hunit] at hdirty ⊢
    rw [setUnit_last] at hheld
    rw [hperiph]
    split at hdirty
    · next hvu => rw [if_pos hvu]; subst hvu; exact hholder hdirty hheld
    · next hvu => rw [if_neg hvu]; exact hs.holder v hv ⟨hheld, hdirty⟩
  · rw [hunit] at hdirty ⊢
    rw [setUnit_last] at hne
    split at hdirty
    · next hvu => rw [if_pos hvu]; subst hvu; exact hclean hdirty hne
    · next hvu => rw [if_neg hvu]; exact hs.clean v hv hne hdirty
  · rw [State.busy, hperiph]
    exact hs.idle q hq

/-- R131: default pins are assigned to a record without pins, which stays untouched. -/
theorem consistent_defaults {s : State} (u : Nat) (hl : s.units.length = s.params.unitCount) (hs : Consistent s) :
    Consistent (s.assignDefaultPins u) := by
  unfold State.assignDefaultPins
  split
  · by_cases hin : s.params.inRange u = true
    · refine consistent_setUnit hin hl (hs.divisor u hin) (fun hd hlast => hs.holder u hin ⟨hlast, hd⟩) (fun hd hne => ?_) hs
      obtain ⟨hmode, hduplex, hspeed, hdiv, -⟩ := hs.clean u hin hne hd
      exact ⟨hmode, hduplex, hspeed, hdiv, .inr rfl⟩
    · rw [State.setUnit, if_neg hin]
      exact hs
  · exact hs

theorem consistent_stable : Stable fun s => Shape s ∧ Consistent s where
  beside := fun h hs => ⟨shape_stable.beside h hs.1,
    consistent_congr h.keeps.params (by rw [h.frame]) (by rw [h.frame]) (by rw [h.frame]) hs.2⟩
  tasks := fun task others sched hs => ⟨shape_stable.tasks task others sched hs.1,
    hs.2.divisor, hs.2.holder, hs.2.clean, hs.2.idle⟩
  engine := fun h hs => ⟨shape_stable.engine h hs.1, consistent_engine h hs.2⟩
  handoff := fun hu hs => ⟨shape_stable.handoff hu hs.1, consistent_handoff hu hs.1.sized.1 hs.2⟩
  reprogrammed := fun hu hlast h hs =>
    ⟨shape_stable.reprogrammed hu hlast h hs.1, consistent_reprogrammed hu hs.1.sized.1 hlast h hs.2⟩
  configured := fun {u s f} hu hf hs => ⟨shape_stable.configured hu hf hs.1,
    consistent_setUnit hu hs.1.sized.1
      ((hf.divisor (s.unit u)).elim (fun hsame => by rw [hsame]; exact hs.2.divisor u hu) .inr)
      (fun hd => nomatch hd) (fun hd => nomatch hd) hs.2⟩
  defaults := fun u hs => ⟨shape_stable.defaults u hs.1, consistent_defaults u hs.1.sized.1 hs.2⟩

/-! ## Whole operations -/

theorem undisturbed_swapTask {s : State} (h : undisturbed s) (k : Nat) : undisturbed (s.swapTask k) := by
  unfold State.swapTask
  cases hk : s.others[k]? with
  | none => exact h
  | some task =>
    refine ⟨h.others task (List.mem_of_getElem? hk), fun t ht => ?_, h.sched⟩
    obtain hmem | rfl := List.mem_or_eq_of_mem_set ht
    · exact h.others t hmem
    · exact h.running

theorem undisturbed_switchTask {s : State} (h : undisturbed s) : undisturbed (switchTask s) := by
  unfold switchTask
  cases hs : s.sched with
  | nil => exact h
  | cons turn rest =>
    have hrest : undisturbed { s with sched := rest } :=
      ⟨h.running, h.others, fun x hx => h.sched x (hs ▸ List.mem_cons_of_mem _ hx)⟩
    dsimp only
    split
    · exact undisturbed_swapTask hrest _
    · exact hrest

theorem budget_of_undisturbed {s : State} (h : undisturbed s) : s.budget = none := by
  unfold State.budget
  cases hs : s.sched with
  | nil => rfl
  | cons turn rest => exact h.sched turn (hs ▸ List.mem_cons_self)

theorem undisturbed_of_keeps {s t : State} (h : undisturbed s) (hk : Keeps s t) : undisturbed t :=
  ⟨hk.op.trans h.running, fun x hx => h.others x (hk.others ▸ hx), fun x hx => h.sched x (hk.sched ▸ hx)⟩

/-- A step that nothing disturbs is one of the shifters', or a whole instruction. -/
theorem step_of_undisturbed {s t : State} (hu : undisturbed s) (h : step s = .next t) :
    (t = switchTask s ∨ ∃ p r, t = (switchTask s).transact p r)
      ∨ ∃ i issue, exec i { switchTask s with task := { (switchTask s).task with issue := issue } } = .next t := by
  obtain h | ⟨o, hf, -⟩ | ⟨i, s', hf, h⟩ := step_cases h
  · obtain rfl | ⟨p, r, -, -, rfl⟩ := hardwareStep_next h
    · exact .inl (.inl rfl)
    · exact .inl (.inr ⟨p, r, rfl⟩)
  · exact absurd ((fetch_resume hf).2.symm.trans (undisturbed_switchTask hu).running) nofun
  · obtain ⟨-, -, issue, rfl⟩ := fetch_instr hf
    rw [beginInstr_whole (.inl (budget_of_undisturbed hu))] at h
    exact .inr ⟨i, issue, h⟩

/-- Settles O53: every part of an operation keeps the invariants, so every whole operation does. -/
theorem stepKeepsUnitTableConsistent : Obligations.StepKeepsUnitTableConsistent := by
  intro s t hshape hcons hu h
  have hP := consistent_stable
  have hswitched := hP.switchTask ⟨hshape, hcons⟩
  have hundisturbed := undisturbed_switchTask hu
  obtain (rfl | ⟨p, r, rfl⟩) | ⟨i, issue, h⟩ := step_of_undisturbed hu h
  · exact ⟨hswitched.2, hundisturbed⟩
  · exact ⟨(hP.engine (engineStep_transact p _ r) hswitched).2,
      undisturbed_of_keeps hundisturbed (engine_transact p _ r).keeps⟩
  · have hbegun := hP.tasks { (switchTask s).task with issue := issue } (switchTask s).others (switchTask s).sched hswitched
    refine ⟨(hP.exec hbegun h).2, undisturbed_of_keeps ?_ (exec_keeps h)⟩
    exact ⟨hundisturbed.running, hundisturbed.others, hundisturbed.sched⟩

end Sys2Proof.Machine.Laws

/-! # The clock divisor calculator (R101, R102, R106, R109): the fields of an encoding, and how the two functions compose -/

namespace Sys2Proof.Machine.Laws

/-! ## Fields of a word -/

theorem extractLsb'_toNat_div {w : Nat} (v : BitVec w) (low width : Nat) :
    (v.extractLsb' low width).toNat = v.toNat / 2 ^ low % 2 ^ width := by
  rw [BitVec.extractLsb'_toNat, Nat.shiftRight_eq_div_pow]

/-- The parts of `CLOCK` (R101). -/
theorem clock_fields (v : Word) :
    clockL v = v.toNat % 64 ∧ clockH v = v.toNat / 2 ^ 6 % 64 ∧ clockN v = v.toNat / 2 ^ 12 % 64
      ∧ clockPre v = v.toNat / 2 ^ 18 % 8192 := by
  refine ⟨?_, extractLsb'_toNat_div v 6 6, extractLsb'_toNat_div v 12 6, extractLsb'_toNat_div v 18 13⟩
  rw [clockL, extractLsb'_toNat_div, Nat.pow_zero, Nat.div_one]
  rfl

section Fields

variable {pre n l : Nat} (hpre : pre ≤ 8191) (hn : n ≤ 63) (hl : l ≤ 63)

include hpre hn hl

theorem clockH_clockEnc : clockH (clockEnc 0 pre n 0 l) = 0 := by
  rw [(clock_fields _).2.1, clockEnc_toNat hpre hn hl]
  omega

theorem clockL_clockEnc : clockL (clockEnc 0 pre n 0 l) = l := by
  rw [(clock_fields _).1, clockEnc_toNat hpre hn hl]
  omega

end Fields

/-! ## Achieved frequencies -/

/-- The frequency achieved for a target (R104, R106). -/
def achieved (sys t : Nat) : Nat := divisorToFrequency sys (frequencyToDivisor sys t)

theorem achieved_of_ge {sys t : Nat} (h : sys ≤ t) : achieved sys t = sys := by
  rw [achieved, frequencyToDivisor_of_ge h]
  exact freq_equEnc sys

theorem achieved_of_lt_floor {sys t : Nat} (h : t < sys / 524288) : achieved sys t = sys / 524288 := by
  rw [achieved, frequencyToDivisor_of_lt_floor h]
  exact freq_minEnc sys

theorem achieved_of_between {sys t : Nat} (hfloor : sys / 524288 ≤ t) (hsys : t < sys) :
    ∃ n pre, IsBest sys t 63 n pre ∧ achieved sys t = candFreq sys n pre :=
  divisorToFrequency_frequencyToDivisor hfloor hsys

/-- The lowest candidate is one from the floor upward. -/
theorem isCandidate_lowest {sys t : Nat} (hfloor : sys / 524288 ≤ t) : IsCandidate sys t 63 63 8191 :=
  ⟨by decide, le_rfl, le_rfl, hfloor⟩

/-- The best candidate is no lower than the floor. -/
theorem IsBest.floor_le {sys t n pre : Nat} (h : IsBest sys t 63 n pre) (hfloor : sys / 524288 ≤ t) :
    sys / 524288 ≤ candFreq sys n pre :=
  (h.preferred (isCandidate_lowest hfloor)).freq_le

theorem achieved_le (sys t : Nat) : achieved sys t ≤ sys := by
  obtain hge | hlt := le_or_gt sys t
  · exact (achieved_of_ge hge).le
  · obtain hfl | hfl := Nat.lt_or_ge t (sys / 524288)
    · rw [achieved_of_lt_floor hfl]
      exact Nat.div_le_self ..
    · obtain ⟨n, pre, -, hf⟩ := achieved_of_between hfl hlt
      rw [hf]
      exact Nat.div_le_self ..

theorem floor_le_achieved (sys t : Nat) : sys / 524288 ≤ achieved sys t := by
  obtain hge | hlt := le_or_gt sys t
  · rw [achieved_of_ge hge]
    exact Nat.div_le_self ..
  · obtain hfl | hfl := Nat.lt_or_ge t (sys / 524288)
    · exact (achieved_of_lt_floor hfl).ge
    · obtain ⟨n, pre, hbest, hf⟩ := achieved_of_between hfl hlt
      rw [hf]
      exact hbest.floor_le hfl

/-- R109, monotonic: a best candidate for a target is a candidate for a higher one. -/
theorem achieved_mono (sys : Nat) {t t' : Nat} (h : t ≤ t') : achieved sys t ≤ achieved sys t' := by
  obtain hge | hlt := le_or_gt sys t'
  · rw [achieved_of_ge hge]
    exact achieved_le sys t
  · obtain hfl | hfl := Nat.lt_or_ge t (sys / 524288)
    · rw [achieved_of_lt_floor hfl]
      exact floor_le_achieved sys t'
    · obtain ⟨n, pre, hbest, hf⟩ := achieved_of_between hfl (h.trans_lt hlt)
      obtain ⟨n', pre', hbest', hf'⟩ := achieved_of_between (hfl.trans h) hlt
      rw [hf, hf']
      exact (hbest'.preferred ⟨hbest.one_le, hbest.le, hbest.pre_le, hbest.freq_le.trans h⟩).freq_le

/-- The best candidate is one. -/
theorem IsBest.unique {sys t k n pre m q : Nat} (h1 : IsBest sys t k n pre) (h2 : IsBest sys t k m q) :
    n = m ∧ pre = q := by
  have h12 := h1.preferred h2.toIsCandidate
  have h21 := h2.preferred h1.toIsCandidate
  unfold Preferred at h12 h21
  omega

/-- The best candidate for a target is the best one for the frequency it reaches. -/
theorem IsBest.at_freq {sys t k n pre : Nat} (h : IsBest sys t k n pre) : IsBest sys (candFreq sys n pre) k n pre where
  one_le := h.one_le
  le := h.le
  pre_le := h.pre_le
  freq_le := le_rfl
  preferred := fun hc => h.preferred ⟨hc.one_le, hc.le, hc.pre_le, hc.freq_le.trans h.freq_le⟩

/-- R109, idempotent from the floor upward. -/
theorem frequencyToDivisor_achieved {sys t : Nat} (hfloor : sys / 524288 ≤ t) (hsys : t < sys) :
    frequencyToDivisor sys (achieved sys t) = frequencyToDivisor sys t := by
  obtain ⟨n, pre, hbest, hv⟩ := frequencyToDivisor_of_between hfloor hsys
  have hn := hbest.le
  have hf : achieved sys t = candFreq sys n pre := by
    rw [achieved, hv]
    exact freq_clockEnc hbest.pre_le hn (by omega) sys
  obtain ⟨m, q, hbest', hv'⟩ := frequencyToDivisor_of_between (floor_le_achieved sys t)
    ((hf ▸ hbest.freq_le : achieved sys t ≤ t).trans_lt hsys)
  rw [hf] at hbest' hv' ⊢
  obtain ⟨rfl, rfl⟩ := hbest'.unique hbest.at_freq
  rw [hv', hv]

/-- R109, idempotent below the floor: the frequency is. -/
theorem achieved_achieved_of_lt_floor {sys t : Nat} (h : t < sys / 524288) : achieved sys (achieved sys t) = achieved sys t := by
  rw [achieved_of_lt_floor h]
  have hsys : sys / 524288 < sys := by omega
  obtain ⟨n, pre, hbest, hf⟩ := achieved_of_between le_rfl hsys
  exact hf ▸ Nat.le_antisymm hbest.freq_le (hbest.floor_le le_rfl)

/-- The true frequency of a candidate is less than one hertz above the target. -/
theorem lt_of_candFreq_le {sys t n pre : Nat} (h : candFreq sys n pre ≤ t) : sys < (t + 1) * ((pre + 1) * (n + 1)) :=
  (Nat.div_lt_iff_lt_mul (by positivity)).1 (Nat.lt_succ_of_le h)

/-- Every encoding is the clock's own or that of a pair, with `L = (N + 1) div 2` (R103, R105). -/
theorem frequencyToDivisor_shape (sys t : Nat) : frequencyToDivisor sys t = equEnc
    ∨ ∃ n pre, 1 ≤ n ∧ n ≤ 63 ∧ pre ≤ 8191 ∧ frequencyToDivisor sys t = clockEnc 0 pre n 0 ((n + 1) / 2) := by
  obtain hge | hlt := le_or_gt sys t
  · exact .inl (frequencyToDivisor_of_ge hge)
  · obtain hfl | hfl := Nat.lt_or_ge t (sys / 524288)
    · exact .inr ⟨63, 8191, by decide, le_rfl, le_rfl, frequencyToDivisor_of_lt_floor hfl⟩
    · obtain ⟨n, pre, hbest, hv⟩ := frequencyToDivisor_of_between hfl hlt
      exact .inr ⟨n, pre, hbest.one_le, hbest.le, hbest.pre_le, hv⟩

/-! ## The obligations -/

/-- Settles O10: the fields of R101 in the formula of R102. -/
theorem divisorToFrequencyFormula : Obligations.DivisorToFrequencyFormula := by
  intro s v
  obtain ⟨-, -, hn, hpre⟩ := clock_fields v
  refine ⟨_, _, rfl, rfl, ?_, ?_, ?_, ?_, Sys2Proof.Laws.OpcodeByte.div2freq v s.params⟩
  · rw [divisorToFrequency, freq, hn, hpre]
    rfl
  · exact Nat.mul_pos (Nat.succ_pos _) (Nat.succ_pos _)
  · exact Nat.mul_le_mul (Nat.mod_lt _ (by decide) : _ < 8192) (Nat.mod_lt _ (by decide) : _ < 64)
  · rw [divisorToFrequency, freq]
    split
    · exact le_rfl
    · exact Nat.div_le_self ..

/-- Settles O12. -/
theorem divisorMonotoneIdempotent : Obligations.DivisorMonotoneIdempotent := by
  intro sys t
  refine ⟨fun t' h => achieved_mono sys h, fun hfloor hsys => ⟨frequencyToDivisor_achieved hfloor hsys, ?_⟩,
    achieved_achieved_of_lt_floor, ?_⟩
  · obtain ⟨n, pre, hbest, hv⟩ := frequencyToDivisor_of_between hfloor hsys
    have hn := hbest.le
    rw [hv, clockPre_clockEnc hbest.pre_le hn (by omega), clockN_clockEnc hbest.pre_le hn (by omega)]
    exact lt_of_candFreq_le hbest.freq_le
  · refine (frequencyToDivisor_shape sys t).imp id ?_
    rintro ⟨n, pre, h1, hn, hpre, hv⟩
    have hl : (n + 1) / 2 ≤ 63 := by omega
    rw [hv, clockN_clockEnc hpre hn hl]
    exact ⟨clockEqu_clockEnc hpre hn hl, clockH_clockEnc hpre hn hl, h1, hn, clockL_clockEnc hpre hn hl⟩

end Sys2Proof.Machine.Laws

/-! # Device configuration (R124, R125, R130 to R132): SETCS, SETDUPLEX and INIT -/

namespace Sys2Proof.Machine.Laws

open Sys2Proof.Safety

/-! ## Acquiring pins -/

/-- Pin `g` is free or the SPI owner's, and has a lock. -/
def Lockable (s : State) (g : Nat) : Prop :=
  g < s.locks.length ∧ (s.lockOwner g = none ∨ s.lockOwner g = some s.params.ownerSpi)

theorem lockAnswer_of_lockable {s : State} {g : Nat} (h : Lockable s g) : s.lockAnswer g = .ok := by
  unfold State.lockAnswer
  obtain hfree | hown := h.2
  · rw [hfree]
  · rw [hown]
    exact if_pos rfl

theorem lockAnswer_of_other {s : State} {g o : Nat} (h : s.lockOwner g = some o) (ho : o ≠ s.params.ownerSpi) :
    s.lockAnswer g = .conflict o := by
  unfold State.lockAnswer
  rw [h]
  exact if_neg ho

/-- R264: a pin that is granted becomes the SPI owner's, and no other lock changes. -/
theorem lockOwner_lockAcquire {s : State} {g : Nat} (h : Lockable s g) (k : Nat) :
    (s.lockAcquire g).lockOwner k = if k = g then some s.params.ownerSpi else s.lockOwner k := by
  unfold State.lockAcquire
  rw [lockAnswer_of_lockable h]
  show (s.locks.set g (some s.params.ownerSpi)).getD k none = _
  rw [List.getD_eq_getElem?_getD, List.getElem?_set]
  split
  · next hgk => subst hgk; rw [if_pos h.1, if_pos rfl]; rfl
  · next hgk => rw [if_neg (Ne.symm hgk), ← List.getD_eq_getElem?_getD]; rfl

theorem lockAcquire_of_conflict {s : State} {g o : Nat} (h : s.lockAnswer g = .conflict o) :
    s.lockAcquire g = s.emit (.lockAcquire g (.conflict o)) := by
  unfold State.lockAcquire
  rw [h]

/-- A pin whose number is 0 is skipped (R132). -/
theorem acquirePins_filter (gs : List Nat) (s : State) : s.acquirePins (gs.filter (· ≠ 0)) = s.acquirePins gs := by
  induction gs generalizing s with
  | nil => rfl
  | cons g gs ih =>
    by_cases hg : g = 0
    · rw [List.filter_cons_of_neg (by simpa using hg), ih, State.acquirePins, if_pos hg]
    · rw [List.filter_cons_of_pos (by simpa using hg), State.acquirePins, State.acquirePins, if_neg hg, if_neg hg]
      cases s.lockAnswer g with
      | ok => exact ih _
      | conflict o => rfl

/-- What is left once every pin of a list has been granted (R132, R264). -/
structure Acquired (s t : State) (gs : List Nat) : Prop where
  frame : t = { s with locks := t.locks, trace := s.trace ++ gs.map fun g => .lockAcquire g .ok }
  owner : ∀ k, t.lockOwner k = if k ∈ gs then some s.params.ownerSpi else s.lockOwner k

/-- Pins that are nonzero and lockable are granted one by one, whatever pins come after them. -/
theorem acquirePins_lockable (gs rest : List Nat) (s : State) (h : ∀ g ∈ gs, g ≠ 0 ∧ Lockable s g) :
    ∃ t, s.acquirePins (gs ++ rest) = t.acquirePins rest ∧ Acquired s t gs := by
  induction gs generalizing s with
  | nil => exact ⟨s, rfl, by simp, fun k => by simp⟩
  | cons g gs ih =>
    obtain ⟨hg, hlock⟩ := h g List.mem_cons_self
    have hanswer := lockAnswer_of_lockable hlock
    have hnext : ∀ k ∈ gs, k ≠ 0 ∧ Lockable (s.lockAcquire g) k := fun k hk => by
      obtain ⟨hk0, hklen, hkown⟩ := h k (List.mem_cons_of_mem _ hk)
      refine ⟨hk0, (lockAcquire_locks_length s g).symm ▸ hklen, ?_⟩
      rw [lockOwner_lockAcquire hlock, lockAcquire_params]
      split
      · exact .inr rfl
      · exact hkown
    obtain ⟨t, ht, hacquired⟩ := ih (s.lockAcquire g) hnext
    refine ⟨t, ?_, ?_, fun k => ?_⟩
    · rw [List.cons_append, State.acquirePins, if_neg hg, hanswer]
      exact ht
    · rw [hacquired.frame, lockAcquire_frame, hanswer]
      simp
    · rw [hacquired.owner, lockOwner_lockAcquire hlock, lockAcquire_params]
      by_cases hk : k = g <;> simp [hk]

/-! ## INIT -/

/-- The record of a unit once an unconfigured one has its default pins (R131). -/
def withDefaults (s : State) (u : Nat) : UnitRec :=
  if (s.unit u).pinSet = ⟨0, 0, 0, 0⟩ then (s.unit u).withPins (s.params.defPinsOf u) else s.unit u

theorem exec_init_master {s : State} {u : Nat} (hu : s.params.inRange u = true) :
    exec (.init u true) s = .next (initState s u) :=
  (execInit_eq u true s).trans ((if_pos hu).trans (if_pos rfl))

theorem nonzeroPins_eq_filter (r : UnitRec) : nonzeroPins r = r.lockOrder.filter (· ≠ 0) := rfl

/-- R131: the pins of an unconfigured unit are assigned, and nothing but its record changes. -/
structure DefaultsAssigned (s t : State) (u : Nat) : Prop where
  frame : t = { s with units := t.units }
  length : t.units.length = s.units.length
  self : t.unit u = withDefaults s u
  others : ∀ v, v ≠ u → t.unit v = s.unit v

theorem assignDefaultPins_spec {s : State} {u : Nat} (hu : s.params.inRange u = true)
    (hl : s.units.length = s.params.unitCount) : DefaultsAssigned s (s.assignDefaultPins u) u := by
  by_cases h : (s.unit u).pinSet = ⟨0, 0, 0, 0⟩
  · have hself : withDefaults s u = (s.unit u).withPins (s.params.defPinsOf u) := if_pos h
    have hassign : s.assignDefaultPins u = s.setUnit u (withDefaults s u) := by
      rw [hself, State.assignDefaultPins, ← unconfigured_eq, if_pos (beq_iff_eq.2 h)]
    rw [hassign]
    exact ⟨by rw [State.setUnit, if_pos hu], setUnit_units_length s u _, unit_setUnit_self s _ hu hl,
      fun v hv => unit_setUnit_ne s _ hv⟩
  · have hassign : s.assignDefaultPins u = s := by
      rw [State.assignDefaultPins, ← unconfigured_eq, if_neg fun he => h (beq_iff_eq.1 he)]
    rw [hassign]
    exact ⟨rfl, rfl, (if_neg h).symm, fun _ _ => rfl⟩

/-- All that `init` changes: records, locks, events and the result (R130 to R132). -/
def InitFrame (s t : State) : Prop :=
  t = { s with
    units := t.units, locks := t.locks, trace := t.trace
    task := { s.task with result := t.task.result } }

theorem InitFrame.trans {s t u : State} (h1 : InitFrame s t) (h2 : InitFrame t u) : InitFrame s u := by
  unfold InitFrame at *
  rw [h2, h1]

theorem DefaultsAssigned.initFrame {s t : State} {u : Nat} (h : DefaultsAssigned s t u) : InitFrame s t := by
  unfold InitFrame
  rw [h.frame]

theorem Acquired.initFrame {s t : State} {gs : List Nat} (h : Acquired s t gs) : InitFrame s t := by
  unfold InitFrame
  rw [h.frame]

theorem initFrame_setUnit (s : State) (u : Nat) (r : UnitRec) : InitFrame s (s.setUnit u r) := by
  unfold State.setUnit
  split <;> rfl

section Init

variable {s : State} {u : Nat} (hu : s.params.inRange u = true) (hl : s.units.length = s.params.unitCount)

include hu hl

/-- The pins `init` asks for are the configured ones of the record with its defaults, in their order; those before the
first one that is not lockable are granted (R130, R132). -/
theorem initState_acquired {before rest : List Nat} (hpins : nonzeroPins (withDefaults s u) = before ++ rest)
    (h : ∀ g ∈ before, Lockable s g) :
    ∃ t, initState s u = State.initEnd u (t.acquirePins rest) ∧ Acquired (s.assignDefaultPins u) t before := by
  obtain ⟨hframe, -, hself, -⟩ := assignDefaultPins_spec hu hl
  have hlock : ∀ g ∈ before, g ≠ 0 ∧ Lockable (s.assignDefaultPins u) g := fun g hg => by
    have hmem : g ∈ nonzeroPins (withDefaults s u) := hpins ▸ List.mem_append_left rest hg
    refine ⟨(mem_nonzeroPins.1 hmem).1, ?_⟩
    rw [hframe]
    exact h g hg
  obtain ⟨t, ht, hacquired⟩ := acquirePins_lockable before rest _ hlock
  refine ⟨t, ?_, hacquired⟩
  rw [initState, hself, ← acquirePins_filter, ← nonzeroPins_eq_filter, hpins, ht]

end Init

/-! ## The obligations -/

/-- Settles O16: a setter of one field. -/
theorem setChipSelectStoresPin : Obligations.SetChipSelectStoresPin := by
  intro s u g hg hl
  have hexec : exec (.setcs u g) s = .next (s.configure u fun r => { r with cs := g }) :=
    (execSetcs_eq u g s).trans (if_pos hg)
  rw [hexec]
  refine ⟨fun hu => ⟨_, rfl, configure_spec _ hl hu⟩, fun hu => ?_, Sys2Proof.Laws.OpcodeByte.setcs u g s.params⟩
  rw [configure_of_not_inRange _ hu]

/-- Settles O17: a setter of one field. -/
theorem setDuplexStoresFlag : Obligations.SetDuplexStoresFlag := by
  intro s u d hl
  have hexec : exec (.setduplex u d) s = .next (s.configure u fun r => { r with duplex := d }) := execSetduplex_eq u d s
  rw [hexec]
  refine ⟨fun hu => ⟨_, rfl, configure_spec _ hl hu⟩, fun hu => ?_, Sys2Proof.Laws.OpcodeByte.setduplex u d s.params⟩
  rw [configure_of_not_inRange _ hu]

/-- Settles O19: every pin is granted, and the record is then written. -/
theorem initAcquiresPins : Obligations.InitAcquiresPins := by
  intro s u r hl hu hr hfree
  obtain rfl : r = withDefaults s u := hr
  obtain ⟨t, hinit, hacquired⟩ := initState_acquired hu hl (List.append_nil _).symm hfree
  obtain ⟨hframe, hlength, hself, hothers⟩ := assignDefaultPins_spec hu hl
  rw [exec_init_master hu, hinit]
  have hparams : t.params = s.params := by rw [hacquired.frame, hframe]
  have hunits : t.units = (s.assignDefaultPins u).units := by rw [hacquired.frame]
  have hunit : ∀ v, t.unit v = (s.assignDefaultPins u).unit v := unit_congr (by rw [hacquired.frame]) hunits
  have hin : t.params.inRange u = true := hparams ▸ hu
  refine ⟨_, rfl, ?_, fun v hv => ?_, fun g => ?_, ?_, ?_⟩
  · refine (unit_setUnit_self t _ hin ?_).trans ?_
    · rw [hunits, hlength, hparams, hl]
    · rw [hunit, hself]
  · exact (unit_setUnit_ne t _ hv).trans ((hunit v).trans (hothers v hv))
  · have howner : (State.initEnd u (t.acquirePins [])).lockOwner g = t.lockOwner g :=
      congrArg (List.getD · g none) (setUnit_locks t u _)
    rw [howner, hacquired.owner]
    have hdefault : (s.assignDefaultPins u).lockOwner g = s.lockOwner g := by rw [hframe]; rfl
    have hown : (s.assignDefaultPins u).params = s.params := by rw [hframe]
    rw [hdefault, hown]
  · show (t.setUnit u _).trace = _
    rw [setUnit_trace, hacquired.frame, hframe]
  · have hfinal : InitFrame s ((t.setUnit u { t.unit u with mode := 0, duplex := true, dirty := true }).ret .none) :=
      (assignDefaultPins_spec hu hl).initFrame.trans (hacquired.initFrame.trans ((initFrame_setUnit t u _).trans rfl))
    exact hfinal

/-- Settles O20: the pins before the conflict are granted, and the conflict ends `init` as it stands. -/
theorem initStopsAtFirstConflict : Obligations.InitStopsAtFirstConflict := by
  intro s u r before after g o hl hu hr hpins hfree hother hne
  obtain rfl : r = withDefaults s u := hr
  obtain ⟨t, hinit, hacquired⟩ := initState_acquired hu hl hpins hfree
  obtain ⟨hframe, -, hself, hothers⟩ := assignDefaultPins_spec hu hl
  have hparams : t.params = s.params := by rw [hacquired.frame, hframe]
  have hunit : ∀ v, t.unit v = (s.assignDefaultPins u).unit v :=
    unit_congr (by rw [hacquired.frame]) (by rw [hacquired.frame])
  have howner : ∀ k, t.lockOwner k = if k ∈ before then some s.params.ownerSpi else s.lockOwner k := fun k => by
    have hk := hacquired.owner k
    rwa [hframe] at hk
  have hg0 : g ≠ 0 := (mem_nonzeroPins.1 (hpins ▸ List.mem_append_right before List.mem_cons_self)).1
  have hgbefore : g ∉ before := fun hmem => by
    obtain ⟨-, hnone | hown⟩ := hfree g hmem
    · rw [hother] at hnone
      cases hnone
    · exact hne (Option.some.inj (hother.symm.trans hown))
  have hanswer : t.lockAnswer g = .conflict o :=
    lockAnswer_of_other (by rw [howner, if_neg hgbefore, hother]) (hparams ▸ hne)
  rw [exec_init_master hu, hinit, State.acquirePins, if_neg hg0, hanswer]
  dsimp only
  rw [lockAcquire_of_conflict hanswer]
  refine ⟨_, rfl, rfl, (hunit u).trans hself, fun v hv => (hunit v).trans (hothers v hv), howner, ?_, ?_⟩
  · show t.trace ++ _ = _
    rw [hacquired.frame, hframe, List.append_assoc]
  · show (t.emit _).failWith _ _ = _
    rw [hacquired.frame, hframe]
    rfl

end Sys2Proof.Machine.Laws

/-! # Display operations and wire commands (R200 to R214, R89 to R92) -/

namespace Sys2Proof.Machine.Laws

open Sys2Proof.Safety

/-! ## What a body puts on the wire, in the words of the statements -/

theorem Body.newEvents {p : Fin 4} {s t : State} {es : List Event} {W : List WireXfer} (h : Body p s t es W) :
    newEvents s t = es := by
  rw [Safety.newEvents, h.frame, List.drop_left]

theorem Body.wire_eq {p : Fin 4} {s t : State} {es : List Event} {W : List WireXfer} (h : Body p s t es W) :
    Safety.wire s t = W := by
  obtain ⟨level', hwire⟩ := h.wire (s.pin s.params.dcPin).level []
  rw [Safety.wire, h.newEvents, ← List.append_nil es, hwire]
  exact List.append_nil W

theorem CommandPhase.carries {s : State} {c : Byte} {bs : List Byte} {W : List WireXfer} (h : CommandPhase s c bs W) :
    commandWithPayload s W c bs := by
  obtain ⟨r, D, hW, -, hD⟩ := h.split
  exact ⟨r, D, hW, hD.level, hD.sent, hD.count⟩

theorem WindowLog.carries {s : State} {x1 y1 x2 y2 : Half} {W : List WireXfer} (h : WindowLog s x1 y1 x2 y2 W) :
    carriesWindow s W x1 y1 x2 y2 := by
  obtain ⟨r1, r2, r3, r4, rfl⟩ := h
  rfl

/-- The memory-read command, then a reading phase. -/
theorem Phase.reads {s : State} {n : Nat} {r : List Bool} {D : List WireXfer}
    (h : Phase s.params.dcDataLevel (List.replicate n 0xFF) D) :
    readsBytes s (⟨s.params.dcCmdLevel, bitsOf [s.params.cmdRamrd], r⟩ :: D) n (bytesOf (receivedBits D)) := by
  have hcount := h.count
  have hreceived := h.received
  rw [List.length_replicate] at hcount hreceived
  refine ⟨r, D, rfl, h.level, h.sent, hcount, rfl, ?_⟩
  rw [bytesOf_length, hreceived]
  omega

theorem carriesWindow_congr {s s' : State} {W : List WireXfer} {x1 y1 x2 y2 : Half} (hp : s'.params = s.params)
    (h : carriesWindow s' W x1 y1 x2 y2) : carriesWindow s W x1 y1 x2 y2 := by
  unfold carriesWindow at *
  rwa [hp] at h

theorem commandWithPayload_congr {s s' : State} {W : List WireXfer} {c : Byte} {bs : List Byte} (hp : s'.params = s.params)
    (h : commandWithPayload s' W c bs) : commandWithPayload s W c bs := by
  unfold commandWithPayload at *
  rwa [hp] at h

theorem readsBytes_congr {s s' : State} {W : List WireXfer} {n : Nat} {bs : List Byte} (hp : s'.params = s.params)
    (h : readsBytes s' W n bs) : readsBytes s W n bs := by
  unfold readsBytes at *
  rwa [hp] at h

/-! ## Operations that are one frame on the display -/

/-- A display operation that records no value has ended: `Ok`, what a frame leaves, one frame, and `R` of its traffic. -/
def FrameDone (s t : State) (R : List WireXfer → Prop) : Prop :=
  t.task.result = some (.ok .none) ∧ frameLeaves s t s.params.dispUnit ∧ oneFrame s s.params.dispUnit (newEvents s t)
    ∧ R (wire s t)

/-- A display operation that is a frame around a body that runs to its end. -/
theorem frame_done {s : State} {body : State → Flow} {R : List WireXfer → Prop} (hr : displayReady s)
    (hbody : ∀ s1, s1.params = s.params → periphReady s1 s1.dispPeriph → bothPhases (s1.periph s1.dispPeriph) →
      ∃ t es W, body s1 = .run t ∧ Body s1.dispPeriph s1 t es W ∧ R W) :
    ∃ t, ((framed s.params.dispUnit body s).outcome fun t => t.ret .none) = .next t ∧ FrameDone s t R := by
  obtain ⟨t, eb, ht, hframed, hR, -, -⟩ := displayFrame_ready (body := body) (R := fun W _ => R W) hr
    fun s1 hp _ _ => hbody s1 hp
  refine ⟨t.ret .none, ?_, rfl, leaves_ret hframed.leaves _, hframed.one, hR⟩
  rw [ht]
  rfl

/-- The colour operations: the memory-write command and its payload in one frame (R207 to R209). -/
theorem ramwr_done {s : State} (bs : List Byte) (hr : displayReady s) :
    ∃ t, ((framed s.params.dispUnit (ramwrBody bs) s).outcome fun t => t.ret .none) = .next t ∧
      FrameDone s t fun W => commandWithPayload s W s.params.cmdRamwr bs :=
  frame_done hr fun s1 hp hready hboth => by
    obtain ⟨t, es, W, ht, hbody, hphase, -, -⟩ := ramwrBody_ready bs hready hboth
    exact ⟨t, es, W, ht, hbody, commandWithPayload_congr hp (hp ▸ hphase.carries)⟩

theorem pxs_replicate (c : Half) (n : Nat) : pxs (List.replicate n c) = (List.replicate n (px c)).flatten := by
  rw [pxs, List.flatMap_def, List.map_replicate]

/-- Settles O38: the body of SETWIN is a window. -/
theorem setWindowSendsCoordinates : Obligations.SetWindowSendsCoordinates := by
  intro s x1 y1 x2 y2 hr
  exact frame_done hr fun s1 hp hready hboth => by
    obtain ⟨t, es, W, ht, hbody, hlog, -⟩ := windowBody_ready x1 y1 x2 y2 hready hboth
    exact ⟨t, es, W, ht, hbody, carriesWindow_congr hp hlog.carries⟩

/-- Settles O39: each of the three is the memory-write command with the bytes of its colours. -/
theorem pushOperationsSendColours : Obligations.PushOperationsSendColours := by
  intro s hr
  refine ⟨fun c => ramwr_done (px c) hr, fun c n => ?_, fun cs n hn => ?_⟩
  · obtain ⟨t, ht, hresult, hleaves, hone, hwire⟩ := ramwr_done (pxs (List.replicate n c)) hr
    refine ⟨t, ht, hresult, hleaves, hone, ?_⟩
    have hpayload := pxs_replicate c n
    exact hpayload ▸ hwire
  · have hexec : exec (.pushbuf (some cs) n) s =
        (framed s.params.dispUnit (ramwrBody (pxs (cs.take n))) s).outcome fun t => t.ret .none := if_pos hn
    rw [hexec]
    exact ramwr_done (pxs (cs.take n)) hr

/-- Settles O37: no frame for no bytes, else a frame with one data phase. -/
theorem sendDataFramesBuffer : Obligations.SendDataFramesBuffer := by
  intro s b
  have hexec : exec (.senddata (some b)) s =
      (sendData (s.mem.readBytes b.base b.len) s).outcome fun t => t.ret .none := rfl
  rw [hexec]
  refine ⟨fun hlen => ?_, fun hlen hr => ?_⟩
  · rw [hlen]
    rfl
  · have hne : ¬(s.mem.readBytes b.base b.len).isEmpty = true := fun he => by
      have hzero := congrArg List.length (List.isEmpty_iff.1 he)
      rw [readBytes_length] at hzero
      exact absurd hzero (Nat.ne_of_gt hlen)
    rw [sendData, if_neg hne]
    obtain ⟨t, ht, hresult, hleaves, hone, hphase⟩ := frame_done (R := Phase s.params.dcDataLevel (s.mem.readBytes b.base b.len)) hr
      fun s1 hp hready hboth => by
        obtain ⟨t, es, W, ht, hbody, hphase, -, -⟩ := dataPhase_ready (s.mem.readBytes b.base b.len) hready hboth
        exact ⟨t, es, W, ht, hbody, hp ▸ hphase⟩
    have hcount := hphase.count
    rw [readBytes_length] at hcount
    exact ⟨t, ht, hresult, hleaves, hone, hphase.level, hphase.sent, hcount⟩

/-! ## SENDCMD, event for event -/

theorem Phased.events {p : Fin 4} {s t : State} {es : List Event} {level : Bool} {bs : List Byte} {W : List WireXfer}
    (hinside : Inside p s t es) (hphased : Phased s t level bs W) : es = phaseEvents s level bs W := by
  have htrace : t.trace = s.trace ++ es := by rw [hinside.frame]
  have hphase : t.trace = s.trace ++ phaseEvents s level bs W := by rw [hphased.frame]
  exact List.append_cancel_left (htrace.symm.trans hphase)

/-- The events of a frame on a unit that holds the bus clean: no hand-off and no reprogram before the body (R140). -/
theorem Framed.newEvents_of_held {u : Nat} {s t : State} {eb : List Event} (h : Framed u s t eb) (hheld : held s u) :
    newEvents s t = .suspendAll ::
      (csEvents (s.unit u) false ++ (eb ++ (csEvents (s.unit u) true ++ [.resumeAll]))) := by
  obtain ⟨e1, e3, htrace, -, -, -, hrise, hfall, -, -⟩ := h.events
  rw [newEvents, htrace, List.drop_left, hfall hheld, hrise]
  rfl

theorem chunkWord_single (c : Byte) : chunkWord [c] 0 = c.setWidth 32 := by
  show ((0#8 ++ 0#8 : BitVec 16) ++ (0#8 ++ c : BitVec 16)) = c.setWidth 32
  apply BitVec.eq_of_toNat_eq
  rw [append_toNat_eq_add, append_toNat_eq_add, append_toNat_eq_add, BitVec.toNat_setWidth, BitVec.toNat_zero]
  omega

/-- The events of a phase of one byte. -/
theorem phaseEvents_single (s : State) (level : Bool) (c : Byte) (x : WireXfer) :
    phaseEvents s level [c] [x] =
      [.pinLevel s.params.dcPin level, .irqOff, .regWrite s.dispPeriph (.w 0) (c.setWidth 32),
        .regWrite s.dispPeriph .mosiDlen 7, .regWrite s.dispPeriph .misoDlen 7, .regWrite s.dispPeriph .cmdUsr 1,
        .xfer s.dispPeriph (s.periph s.dispPeriph).cfg 8 x.sent 8 x.received, .irqOn] := by
  rw [← chunkWord_single]
  simp [phaseEvents, transferEvents, chunkEvents, chunkOf]

/-- What SENDCMD's body puts on the wire, and its very events when the display held the bus clean. -/
def CommandSent (s : State) (c : Byte) (es : List Event) : Prop :=
  ∃ r, r.length = 8
    ∧ (∀ level es', ∃ level', wireLog s.params.dcPin level (es ++ es') =
        [⟨s.params.dcCmdLevel, bitsOf [c], r⟩] ++ wireLog s.params.dcPin level' es')
    ∧ (held s s.params.dispUnit → es = phaseEvents s s.params.dcCmdLevel [c] [⟨s.params.dcCmdLevel, bitsOf [c], r⟩])

theorem sendCommand_sent {s : State} (c : Byte) (hr : displayReady s) :
    ∃ t eb, sendCommand c s = .run t ∧ Framed s.params.dispUnit s t eb ∧ CommandSent s c eb := by
  refine framed_ready (R := fun es _ => CommandSent s c es) hr fun s1 hp _ _ _ _ hready hboth hcheap => ?_
  have hdisp : s1.dispPeriph = s.params.periphOf s.params.dispUnit := by rw [State.dispPeriph, hp]
  rw [← hdisp] at hready hboth
  obtain ⟨t, es, W, ht, hbody, hphase, -, hphased⟩ := cmdPhase_ready c hready hboth
  obtain ⟨r, rfl, hlength⟩ := hphase.single (List.cons_ne_nil c []) (by simp)
  refine ⟨t, es, ht, hdisp ▸ hbody.toInside, r, hlength, ?_, fun hheld => ?_⟩
  · rw [← hp]
    exact hbody.wire
  · rw [Phased.events hbody.toInside hphased, phaseEvents_single, phaseEvents_single, hdisp, hcheap hheld, hp]
    rfl

/-- Settles O36: a frame around one command phase. -/
theorem sendCommandFramesOneByte : Obligations.SendCommandFramesOneByte := by
  intro s c hr
  obtain ⟨t, eb, ht, hframed, r, hlength, hwire, hevents⟩ := sendCommand_sent c hr
  have hexec : exec (.sendcmd c) s = .next (t.ret .none) := by
    show (sendCommand c s).outcome _ = _
    rw [ht]
    rfl
  refine ⟨t.ret .none, hexec, rfl, leaves_ret hframed.leaves _, hframed.one, ?_, fun hheld hcs => ⟨r, hlength, ?_⟩⟩
  · exact congrArg (List.map fun x => (x.level, x.sent)) (hframed.wire hwire)
  · refine (hframed.newEvents_of_held hheld).trans ?_
    rw [hevents hheld, phaseEvents_single, csEvents, csEvents, if_neg hcs, if_neg hcs]
    rfl

/-! ## Readbacks -/

/-- The traffic of a readback of `n` bytes: the window, then the read command and the bytes (R210, R211). -/
def ReadLog (s : State) (x1 y1 x2 y2 : Half) (n : Nat) (W : List WireXfer) (bs : List Byte) : Prop :=
  ∃ W0 W1, W = W0 ++ W1 ∧ carriesWindow s W0 x1 y1 x2 y2 ∧ readsBytes s W1 n bs

/-- The frame of a readback into a fresh staging buffer runs to its end. -/
theorem readback_ready {s : State} (x1 y1 x2 y2 : Half) (n : Nat) (hr : displayReady s) :
    ∃ t eb, framed s.params.dispUnit (fun t => (windowBody x1 y1 x2 y2 t).andThen (ramrdBody n)) (s.heapAlloc n) = .run t
      ∧ Framed s.params.dispUnit (s.heapAlloc n) t eb
      ∧ ReadLog s x1 y1 x2 y2 n (wire (s.heapAlloc n) t) t.raw := by
  have hready : displayReady (s.heapAlloc n) := hr
  obtain ⟨t, eb, ht, hframed, hlog, -, -⟩ := displayFrame_ready
    (R := fun W staging => ReadLog s x1 y1 x2 y2 n W (staging.getD [])) hready fun s1 hp _ hstaging hidle hboth => by
      have hlength : s1.raw.length = n := by
        rw [State.raw, hstaging]
        simp [State.heapAlloc]
      obtain ⟨t, es, W, ht, hbody, W0, r, D, hW, hwindow, hphase, hraw⟩ := readBody_ready x1 y1 x2 y2 n hidle hboth hlength
      refine ⟨t, es, W, ht, hbody, W0, _, hW, carriesWindow_congr hp hwindow.carries, readsBytes_congr hp ?_⟩
      have hreads := hphase.reads (r := r)
      rwa [← hraw] at hreads
  exact ⟨t, eb, ht, hframed, hlog⟩

/-- A readback has ended with a value: the staging buffer is freed, and `W0` and `W1` were on the wire. -/
theorem readback_done {s t : State} {u n : Nat} {eb : List Event} (v : Value) (h : Framed u (s.heapAlloc n) t eb) :
    (t.heapFree.ret v).task.result = some (.ok v) ∧ (t.heapFree.ret v).staging = none
      ∧ frameLeaves s (t.heapFree.ret v) u ∧ oneFrame s u (newEvents s (t.heapFree.ret v)) :=
  ⟨rfl, rfl, leaves_heapAlloc (leaves_ret (leaves_heapFree h.leaves) v), oneFrame_congr rfl rfl h.one⟩

/-- Settles O40: a readback of four bytes, the first of them a dummy. -/
theorem readPixelDecodesColour : Obligations.ReadPixelDecodesColour := by
  intro s x y hr
  obtain ⟨t, eb, ht, hframed, W0, W1, hW, hwindow, hreads⟩ := readback_ready x y x y 4 hr
  obtain ⟨hresult, hstaging, hleaves, hone⟩ :=
    readback_done (.color (rgb565 (t.rawByte 1) (t.rawByte 2) (t.rawByte 3))) hframed
  refine ⟨t.heapFree.ret (.color (rgb565 (t.rawByte 1) (t.rawByte 2) (t.rawByte 3))), W0, W1, t.raw, ?_, hW, hwindow, hreads, hresult, hstaging, hleaves, hone⟩
  show Flow.outcome _ _ = _
  rw [ht]
  rfl

/-- Settles O41: a readback of one dummy byte and three bytes for each colour. -/
theorem readPixelsDecodesColours : Obligations.ReadPixelsDecodesColours := by
  intro s x1 y1 x2 y2 n hr
  obtain ⟨t, eb, ht, hframed, W0, W1, hW, hwindow, hreads⟩ := readback_ready x1 y1 x2 y2 (1 + 3 * n) hr
  obtain ⟨hresult, hstaging, hleaves, hone⟩ := readback_done (.colors (t.readback n)) hframed
  refine ⟨t.heapFree.ret (.colors (t.readback n)), W0, W1, t.raw, ?_, hW, hwindow, hreads, hresult, hstaging, hleaves, hone⟩
  show Flow.outcome _ _ = _
  rw [ht]
  rfl

/-! ## READTOUCH -/

/-- R214: the upper 12 of 16 bits, as numbers. -/
theorem touchValue_eq (b0 b1 : Byte) : touchValue b0 b1 = BitVec.ofNat 12 ((b0.toNat * 256 + b1.toNat) / 16) := by
  apply BitVec.eq_of_toNat_eq
  rw [touchValue, BitVec.extractLsb'_toNat, append_toNat_eq_add, BitVec.toNat_ofNat, Nat.shiftRight_eq_div_pow]
  norm_num


/-- What a touch sample puts on the wire: the channel command, then 16 bits in; no pin is touched. -/
def SampleLog (c : Byte) (r q : List Bool) : Exchanges := [(bitsOf [c], r), (bitsOf [0xFF, 0xFF], q)]

theorem touch_ready {s : State} (c : Byte) (hr : frameReady s s.params.touchUnit) :
    ∃ t eb, framed s.params.touchUnit (touchBody c) (s.heapAlloc 2) = .run t
      ∧ Framed s.params.touchUnit (s.heapAlloc 2) t eb
      ∧ ∃ r q, Carries eb (SampleLog c r q) ∧ q.length = 16 ∧ t.raw = bytesOf q := by
  have hready : frameReady (s.heapAlloc 2) s.params.touchUnit := hr
  refine framed_ready (R := fun es staging => ∃ r q, Carries es (SampleLog c r q) ∧ q.length = 16 ∧
    staging.getD [] = bytesOf q) hready fun s1 hp _ hstaging _ _ hidle hboth _ => ?_
  have hlength : s1.raw.length = 2 := by
    rw [State.raw, hstaging]
    simp [State.heapAlloc]
  have hunit : s1.params.touchUnit = s.params.touchUnit := congrArg Params.touchUnit hp
  have hperiph : s1.params.periphOf s1.params.touchUnit = s.params.periphOf s.params.touchUnit := by rw [hp]; rfl
  obtain ⟨t, es, ht, hinside, -, hsample⟩ := touchBody_ready (s := s1) c (hperiph ▸ hidle) (hperiph ▸ hboth) hlength
  exact ⟨t, es, ht, hperiph ▸ hinside, hsample⟩

/-- A frame whose body touches no pin: its transactions are those of the body, at whatever level the mode signal has. -/
theorem Framed.wire_carries {u : Nat} {s t : State} {eb : List Event} {w : Exchanges} (h : Framed u s t eb)
    (hcarries : Carries eb w) : ∃ level, Safety.wire s t = w.map fun x => ⟨level, x.1, x.2⟩ := by
  obtain ⟨e1, e3, htrace, hquiet1, hquiet3, -⟩ := h.events
  obtain ⟨l1, hl1⟩ := wireLog_quiet s.params.dcPin (s.pin s.params.dcPin).level e1 (eb ++ (e3 ++ [.resumeAll])) hquiet1
  obtain ⟨l3, hl3⟩ := wireLog_quiet s.params.dcPin l1 e3 [.resumeAll] hquiet3
  refine ⟨l1, ?_⟩
  calc Safety.wire s t
      = wireLog s.params.dcPin (s.pin s.params.dcPin).level (e1 ++ (eb ++ (e3 ++ [.resumeAll]))) := by
        rw [Safety.wire, newEvents, htrace, List.drop_left]
        rfl
    _ = w.map fun x => ⟨l1, x.1, x.2⟩ := by
        rw [hl1, hcarries, hl3]
        exact List.append_nil _

/-- A touch sample writes no pin but those of the hand-off. -/
theorem touch_away {s t : State} (c : Byte) (ht : framed s.params.touchUnit (touchBody c) s = .run t) :
    Away (handoffPins s s.params.touchUnit) s t := by
  have haway := away_framed s.params.touchUnit (touchBody c) s (recOk_touch c) (pins_touch c)
  rwa [ht] at haway

/-- Settles O42: one frame on the touch unit, two transactions, no pin but those of the hand-off. -/
theorem readTouchReturnsSample : Obligations.ReadTouchReturnsSample := by
  intro s c hr
  obtain ⟨t, eb, ht, hframed, r, q, hcarries, hlength, hraw⟩ := touch_ready c hr
  obtain ⟨hresult, hstaging, hleaves, hone⟩ :=
    readback_done (.sample (touchValue (t.rawByte 0) (t.rawByte 1))) hframed
  obtain ⟨level, hwire⟩ := hframed.wire_carries hcarries
  have hbytes : t.raw = [byteAt q 0, byteAt q 1] := by
    rw [hraw, bytesOf, hlength]
    rfl
  refine ⟨t.heapFree.ret (.sample (touchValue (t.rawByte 0) (t.rawByte 1))), r, q, ?_, ?_, hlength, ?_, hstaging, hleaves, hone, fun hdc => touch_away c ht _ hdc⟩
  · show Flow.outcome _ _ = _
    rw [ht]
    rfl
  · exact congrArg (List.map fun x => (x.sent, x.received)) hwire
  · rw [hresult, touchValue_eq, State.rawByte, State.rawByte, hbytes]
    rfl

/-! ## Payload words -/

/-- A word of two halves. -/
theorem append_eq_or (hi lo : Half) : (hi ++ lo : Word) = lo.setWidth 32 ||| (hi.setWidth 32 <<< 16) := by
  apply BitVec.eq_of_getLsbD_eq
  intro k hk
  rw [BitVec.getLsbD_append]
  by_cases h : k < 16
  · simp [h, hk]
  · simp [h, hk, BitVec.getLsbD_of_ge lo k (by omega)]

/-- Colour `j` of a run of pixels stands in bytes `2 j` and `2 j + 1`, the high byte first (R206). -/
theorem pxs_getD (cs : List Half) (j : Nat) :
    (pxs cs).getD (2 * j) 0 = (cs.getD j 0).extractLsb' 8 8
      ∧ (pxs cs).getD (2 * j + 1) 0 = (cs.getD j 0).extractLsb' 0 8 := by
  induction cs generalizing j with
  | nil => exact ⟨by simp [pxs], by simp [pxs]⟩
  | cons c cs ih =>
    cases j with
    | zero => exact ⟨rfl, rfl⟩
    | succ j => exact ih j

theorem pxs_length (cs : List Half) : (pxs cs).length = 2 * cs.length := by
  induction cs with
  | nil => rfl
  | cons c cs ih =>
    have hcons : (pxs (c :: cs)).length = 2 + (pxs cs).length := by
      rw [pxs, List.flatMap_cons, List.length_append]
      rfl
    rw [hcons, ih, List.length_cons]
    omega

/-- Two colours to a word, each with its bytes swapped, 0 where the run has ended (R206). -/
theorem chunkWord_pxs (cs : List Half) (i : Nat) :
    chunkWord (pxs cs) i = bswap16 (cs.getD (2 * i + 1) 0) ++ bswap16 (cs.getD (2 * i) 0) := by
  obtain ⟨h0, h1⟩ := pxs_getD cs (2 * i)
  obtain ⟨h2, h3⟩ := pxs_getD cs (2 * i + 1)
  rw [show 2 * (2 * i) = 4 * i by omega] at h0 h1
  rw [show 2 * (2 * i + 1) = 4 * i + 2 by omega] at h2 h3
  rw [chunkWord, h0, h1, h2, h3]
  rfl

theorem packWord_pxs (s : State) (cs : List Half) (i : Nat) :
    s.packWord (.bytes (pxs cs)) 0 (2 * cs.length) i =
      (bswap16 (cs.getD (2 * i) 0)).setWidth 32 ||| ((bswap16 (cs.getD (2 * i + 1) 0)).setWidth 32 <<< 16) := by
  rw [packWord_chunkOut, ← pxs_length, chunkOut_bytes, chunkWord_pxs, append_eq_or]

/-- Settles O46: a window is the run of two pixels. -/
theorem payloadWordsAreSwapped : Obligations.PayloadWordsAreSwapped := by
  intro s a b cs i _ _
  refine ⟨packWord_pxs s [a, b] 0, ?_⟩
  rw [packWord_pxs]
  split
  · rfl
  · next hlast =>
    have hzero : cs.getD (2 * i + 1) 0 = 0 := List.getD_eq_default _ _ (by omega)
    have hswap : bswap16 0 = 0 := by decide
    rw [hzero, hswap]

/-! ## Wire commands -/

/-- Between two operations on an idle peripheral only the data registers differ. -/
theorem dataOnly_idle {r r' : PeriphRegs} (h : dataOnly r r') (hr : r.usr = false) (hr' : r'.usr = false) :
    r' = { r with w := r'.w, mosiDlen := r'.mosiDlen, misoDlen := r'.misoDlen } := by
  have hflight : r.flight = none := Option.isNone_iff_eq_none.1 (by rw [← Option.not_isSome]; exact congrArg (!·) hr)
  have hflight' : r'.flight = none := Option.isNone_iff_eq_none.1 (by rw [← Option.not_isSome]; exact congrArg (!·) hr')
  have hrest : r' = { r with w := r'.w, flight := r'.flight, mosiDlen := r'.mosiDlen, misoDlen := r'.misoDlen } := h
  rw [hflight', ← hflight] at hrest
  exact hrest

theorem Emits.emitsOnly {s t : State} {c : Byte} {bs : List Byte} {es : List Event} {W : List WireXfer}
    {staging : Option (List Byte)} {v : Value}
    (hbody : Body s.dispPeriph s t es W) (h : Emits s t c bs W) (hready : periphReady s s.dispPeriph) :
    emitsOnly s (({ t with staging := staging } : State).ret v) c bs staging v := by
  obtain ⟨x, D, rfl, hframe⟩ := h.frame
  constructor
  case events =>
    refine ⟨x, D, hbody.wire_eq, ?_⟩
    have htrace : t.trace = s.trace ++ (phaseEvents s s.params.dcCmdLevel [c] [x] ++ phaseEvents s s.params.dcDataLevel bs D) := by
      rw [hframe]
    show List.drop s.trace.length t.trace = _
    rw [htrace, List.drop_left]
  case others => exact h.others
  case own => exact dataOnly_idle h.own hready.1.1 h.idle
  case frame =>
    show ({ t with staging := staging, task := { t.task with result := some (.ok v) } } : State) = _
    rw [hframe]
    rfl

/-- A command and its payload on a ready peripheral, `Ok` at the end. -/
theorem wireCommand_done {s : State} {c : Byte} {bs : List Byte} {f : Flow} (hr : periphReady s s.dispPeriph)
    (hf : ∃ t es W, f = .run t ∧ Body s.dispPeriph s t es W ∧ CommandPhase s c bs W ∧ t.staging = s.staging
      ∧ Emits s t c bs W) :
    ∃ t, (f.outcome fun t => t.ret .none) = .next t ∧ commandWithPayload s (wire s t) c bs
      ∧ emitsOnly s t c bs s.staging .none := by
  obtain ⟨t, es, W, rfl, hbody, hphase, hstaging, hemits⟩ := hf
  refine ⟨t.ret .none, rfl, ?_, ?_⟩
  · show commandWithPayload s (wire s t) c bs
    rw [hbody.wire_eq]
    exact hphase.carries
  · have honly := hemits.emitsOnly (staging := s.staging) (v := .none) hbody hr
    rw [← hstaging] at honly ⊢
    exact honly

/-- RAMRD into its own staging buffer (R92). -/
theorem ramrd_done {s : State} (n : Nat) (hr : periphReady s s.dispPeriph) :
    ∃ t bs, exec (.ramrd n) s = .next t ∧ readsBytes s (wire s t) (1 + 3 * n) bs
      ∧ emitsOnly s t s.params.cmdRamrd (List.replicate (1 + 3 * n) 0xFF) none (.colors (colorsOfReadback bs n)) := by
  have hready : periphReady (s.heapAlloc (1 + 3 * n)) (s.heapAlloc (1 + 3 * n)).dispPeriph := hr
  obtain ⟨t, es, W, ht, hbody, r, D, hW, hphase, hraw, hemits⟩ :=
    ramrdBody_ready (1 + 3 * n) hready hr.2.2.2.2 (by simp [State.raw, State.heapAlloc])
  have hreads := hphase.reads (r := r)
  rw [← hraw] at hreads
  obtain ⟨hevents, hothers, hown, hframe⟩ :=
    hemits.emitsOnly (staging := none) (v := .colors (colorsOfReadback t.raw n)) hbody hready
  refine ⟨t.heapFree.ret (.colors (t.readback n)), t.raw, ?_, ?_, hevents, hothers, hown, hframe.trans rfl⟩
  · show Flow.outcome _ _ = _
    rw [ht]
    rfl
  · show readsBytes s (wire (s.heapAlloc (1 + 3 * n)) t) _ _
    rw [hbody.wire_eq, hW]
    exact hreads

/-- Settles O45: each wire command is its two phases. -/
theorem wireCommandsEmit : Obligations.WireCommandsEmit := by
  intro s hr
  have hboth : bothPhases (s.periph s.dispPeriph) := hr.2.2.2.2
  refine ⟨fun x1 x2 => ?_, fun y1 y2 => ?_, fun cs => ?_, fun n => ramrd_done n hr⟩
  · obtain ⟨t, ht, hwire, honly⟩ := wireCommand_done hr (casetBody_ready x1 x2 hr hboth)
    exact ⟨t, win x1 x2, ht, rfl, hwire, honly⟩
  · obtain ⟨t, ht, hwire, honly⟩ := wireCommand_done hr (pasetBody_ready y1 y2 hr hboth)
    exact ⟨t, win y1 y2, ht, rfl, hwire, honly⟩
  · obtain ⟨t, ht, hwire, honly⟩ := wireCommand_done hr (ramwrBody_ready (pxs cs) hr hboth)
    exact ⟨t, pxs cs, ht, rfl, hwire, honly⟩

end Sys2Proof.Machine.Laws

/-! # TRANSFER (R170 to R179): what it moves, what it leaves alone, what it refuses -/

namespace Sys2Proof.Machine.Laws

open Sys2Proof.Safety

/-! ## Operands -/

/-- The well-formed operands of a transfer (R68, R171). -/
structure TransferOperands (p : Params) (u len : Nat) (out inb : Option Buf) : Prop where
  unit : p.inRange u = true
  holds : (bufHolds len out && bufHolds len inb) = true
  apart : bufsApart len out inb = true

theorem transferOperands_of_wf {p : Params} {u wc : Nat} {ws : WordSize} {out inb : Option Buf}
    (h : (Instr.transfer u ws wc out inb).wf p = true) : TransferOperands p u (ws.bytes * wc) out inb := by
  unfold Instr.wf at h
  rw [Bool.and_eq_true, Bool.and_eq_true, Bool.and_eq_true] at h
  obtain ⟨⟨⟨hunit, hout⟩, hin⟩, hapart⟩ := h
  exact ⟨hunit, by rw [hout, hin]; rfl, hapart⟩

theorem apart_of_bufsApart {len : Nat} {out inb : Option Buf} (h : bufsApart len out inb = true) :
    apart len (.ofBuf out) (.ofBuf inb) := by
  cases out with
  | none => trivial
  | some a =>
    cases inb with
    | none => trivial
    | some b =>
      have hcases : a.base = b.base ∨ a.base + len ≤ b.base ∨ b.base + len ≤ a.base := by
        simpa [bufsApart, or_assoc] using h
      exact hcases

/-- The flow of a transfer (R172). -/
def transferFlow (u len : Nat) (out inb : Option Buf) (s : State) : Flow :=
  transferOn (s.params.periphOf u) len (.ofBuf out) (.ofBuf inb) s

theorem exec_transfer_of_wf {s : State} {u wc : Nat} {ws : WordSize} {out inb : Option Buf}
    (h : (Instr.transfer u ws wc out inb).wf s.params = true) :
    exec (.transfer u ws wc out inb) s = (transferFlow u (ws.bytes * wc) out inb s).outcome fun t => t.ret .none := by
  obtain ⟨hunit, hholds, hapart⟩ := transferOperands_of_wf h
  show execTransfer u ws wc out inb s = _
  rw [execTransfer, if_pos hunit, if_pos hholds, if_pos hapart]
  rfl

/-- A transfer that gives a next state has well-formed operands. -/
theorem exec_transfer_next {s t : State} {u wc : Nat} {ws : WordSize} {out inb : Option Buf}
    (h : exec (.transfer u ws wc out inb) s = .next t) :
    (transferFlow u (ws.bytes * wc) out inb s).outcome (fun t => t.ret .none) = .next t := by
  have hexec : execTransfer u ws wc out inb s = .next t := h
  unfold execTransfer at hexec
  split at hexec
  · split at hexec
    · split at hexec
      · exact hexec
      · cases hexec
    · cases hexec
  · cases hexec

/-! ## The frame of a transfer, however it ends -/

/-- Whatever a transfer comes to, it is the shifter engine's doing, and stores in the input buffer only. -/
theorem transferOn_frame (p : Fin 4) (len : Nat) (src : OutSrc) (dst : InDst) (s : State) :
    FlowAll (fun t => Engine p s t ∧ Stored dst len s t) (fun t => Engine p s t ∧ Stored dst len s t)
      (transferOn p len src dst s) := by
  have hengine := transferOn_all p len src dst s
  have hstored := stored_transferOn p len src dst s
  cases hflow : transferOn p len src dst s with
  | run t =>
    rw [hflow] at hengine hstored
    exact ⟨hengine.1, hstored⟩
  | hung t =>
    rw [hflow] at hengine hstored
    exact ⟨hengine.1.engine, hstored⟩
  | refuse r => trivial

theorem InDst.ofBuf_ne_staging (b : Option Buf) : InDst.ofBuf b ≠ .staging := by
  cases b <;> exact nofun

theorem InDst.ofBuf_eq_mem {b : Option Buf} {base : Nat} (h : InDst.ofBuf b = .mem base) : ∃ c, b = some c ∧ c.base = base := by
  cases b with
  | none => cases h
  | some c => exact ⟨c, rfl, InDst.mem.inj h⟩

/-- Settles O30: the engine and the input buffer. -/
theorem transferFrame : Obligations.TransferFrame := by
  intro s t u ws wc out inb h
  obtain ⟨t', hissue, hseq, ht, hengine, hstored⟩ : ∃ t', t'.task.issue = t.task.issue ∧ t'.task.seq = t.task.seq ∧
      t = { t' with task := t.task } ∧ Engine (s.params.periphOf u) s t' ∧ Stored (.ofBuf inb) (ws.bytes * wc) s t' :=
    (transferOn_frame (s.params.periphOf u) (ws.bytes * wc) (.ofBuf out) (.ofBuf inb) s).of_outcome
      (R := fun t => ∃ t', t'.task.issue = t.task.issue ∧ t'.task.seq = t.task.seq ∧
        t = { t' with task := t.task } ∧ Engine (s.params.periphOf u) s t' ∧ Stored (.ofBuf inb) (ws.bytes * wc) s t')
      (exec_transfer_next h) (fun t' h => ⟨t', rfl, rfl, rfl, h⟩) (fun t' h => ⟨t', rfl, rfl, rfl, h⟩)
  have hmem : ∀ a, (∀ b, inb = some b → a < b.base ∨ b.base + ws.bytes * wc ≤ a) → t'.mem.read a = s.mem.read a :=
    fun a ha => hstored.mem a fun base hbase => by
      obtain ⟨b, hb, rfl⟩ := InDst.ofBuf_eq_mem hbase
      exact ha b hb
  rw [ht]
  exact ⟨hmem, hengine.units, hengine.last, hengine.pins, hengine.inRoute, hengine.locks, hengine.suspendDepth,
    hstored.staging (InDst.ofBuf_ne_staging inb), hengine.keeps.params, hengine.keeps.others, hengine.keeps.sched,
    hissue.symm.trans hengine.keeps.issue, hseq.symm.trans hengine.seq, hengine.others, hengine.config⟩

/-! ## A pack read back -/

/-- Settles O35: byte `k` of a packed buffer is byte `k` of the sequence. -/
theorem unpackInvertsPack : Obligations.UnpackInvertsPack := by
  intro s p bs hlength
  apply List.ext_getElem
  · rw [State.chunkBytes, List.length_map, List.length_range]
  · intro k hk hk'
    have hlt : k < bs.length := hk'
    simp only [State.chunkBytes, List.getElem_map, List.getElem_range, pack_periph_self]
    rw [bufByte_packW s _ _ _ _ _ hlength hlt, Nat.zero_add]
    exact List.getD_eq_getElem bs 0 hk'

/-! ## Refusals -/

theorem shiftRule_of_shiftable {s : State} {p : Fin 4} {src : OutSrc} {off n : Nat}
    (h : (triggeredFile s p src off n).shiftable = true) : shiftRule (s.periph p) := by
  simp only [RegFile.shiftable, Bool.and_eq_true, Bool.not_eq_true'] at h
  obtain ⟨⟨⟨⟨⟨⟨hslave, hwrite⟩, hread⟩, hmosi⟩, hmiso⟩, -⟩, -⟩ := h
  exact ⟨hslave, hwrite, hread, hmosi, hmiso⟩

/-- A chunk on an idle working peripheral for whose configuration the shifter has no rule (R176, U5). -/
theorem chunk_unshiftable {p : Fin 4} {len : Nat} {src : OutSrc} {dst : InDst} {s : State} (hi : idle s p)
    (h : ¬shiftRule (s.periph p)) : chunk p len src dst s = .refuse (.shifterUnspecified p) := by
  obtain ⟨hbusy, hstuck⟩ := hi
  rw [chunk, waitIdle_idle hbusy, andThen_run, pack_trigger_eq _ _ _ hbusy]
  have hflight : ((triggeredState s p src s.off (s.chunkLen len)).periph p).flight =
      some (triggeredFile s p src s.off (s.chunkLen len)) := by rw [triggeredState_periph]; rfl
  have hbusy' : (triggeredState s p src s.off (s.chunkLen len)).busy p = true := by
    rw [State.busy, PeriphRegs.usr, hflight]
    rfl
  have hstuck' : ¬(triggeredState s p src s.off (s.chunkLen len)).params.isStuck p = true := by
    show ¬s.params.isStuck p = true
    rw [hstuck]
    exact Bool.false_ne_true
  have hnot : ¬(triggeredFile s p src s.off (s.chunkLen len)).shiftable = true := fun hs => h (shiftRule_of_shiftable hs)
  rw [waitIdle, if_pos hbusy', if_neg hstuck', shifter, hflight]
  dsimp only
  rw [if_neg hnot]
  rfl

/-- The chunks of a transfer of at least one byte begin with a chunk. -/
theorem chunks_of_pos {len : Nat} (h : 0 < len) (p : Fin 4) (src : OutSrc) (dst : InDst) (s : State) :
    ∃ k, transferOn p len src dst s = ((chunk p len src dst { s.disableInterrupts with off := 0 }).andThen
      (chunks p len src dst k)).andDo State.enableInterrupts := by
  obtain ⟨k, hk⟩ : ∃ k, chunkCount len = k + 1 := ⟨(len + 63) / 64 - 1, by unfold chunkCount; omega⟩
  refine ⟨k, ?_⟩
  rw [transferOn, hk]
  rfl

theorem transferOn_unshiftable {p : Fin 4} {len : Nat} {src : OutSrc} {dst : InDst} {s : State} (hlen : 0 < len)
    (hi : idle s p) (h : ¬shiftRule (s.periph p)) :
    transferOn p len src dst s = .refuse (.shifterUnspecified p) := by
  obtain ⟨k, hk⟩ := chunks_of_pos hlen p src dst s
  have hchunk : chunk p len src dst { s.disableInterrupts with off := 0 } = .refuse (.shifterUnspecified p) :=
    chunk_unshiftable (s := { s.disableInterrupts with off := 0 }) hi h
  rw [hk, hchunk]
  rfl

theorem framed_of_not_inRange {s : State} {u : Nat} (body : State → Flow) (h : s.params.inRange u = false) :
    framed u body s = .refuse .unitOutOfRange := if_neg (Bool.eq_false_iff.1 h)

/-- Settles O31: each check in turn. -/
theorem illegalOperandsRefused : Obligations.IllegalOperandsRefused := by
  intro s u wc ws out inb
  have hexec : exec (.transfer u ws wc out inb) s = execTransfer u ws wc out inb s := rfl
  refine ⟨fun hu => ?unit, fun hu hholds => ?short, fun hu hholds hapart => ?overlap, fun hwf hlen hidle hrule => ?shifter,
    fun a b c d hpins => ?pins, fun g hg => ?cs, fun cs n hn => ?colours, rfl, fun n => rfl, fun hu c => ?display,
    fun hu c => ?touch⟩
  case unit => rw [hexec, execTransfer, if_neg (Bool.eq_false_iff.1 hu)]
  case short => rw [hexec, execTransfer, if_pos hu, if_neg (Bool.eq_false_iff.1 hholds)]
  case overlap => rw [hexec, execTransfer, if_pos hu, if_pos hholds, if_neg (Bool.eq_false_iff.1 hapart)]
  case shifter =>
    rw [exec_transfer_of_wf hwf, transferFlow, transferOn_unshiftable hlen hidle hrule]
    rfl
  case pins => exact (execCfgpins_eq u a b c d s).trans (if_neg (Bool.eq_false_iff.1 hpins))
  case cs => exact (execSetcs_eq u g s).trans (if_neg (Nat.not_lt.2 hg))
  case colours => exact if_neg (Nat.not_le.2 hn)
  case display =>
    show (framed s.params.dispUnit (cmdPhase c) s).outcome _ = _
    rw [framed_of_not_inRange _ hu]
    rfl
  case touch =>
    show (framed s.params.touchUnit (touchBody c) (s.heapAlloc 2)).outcome _ = _
    rw [framed_of_not_inRange (s := s.heapAlloc 2) _ hu]
    rfl

/-! ## What is left in the buffer `W` -/

/-- Byte `k` of a packed buffer above the bytes packed: 0 up to a whole word, then as it was (R173). -/
theorem bufByte_packW_above (s : State) (src : OutSrc) (off n k : Nat) (w : Vector Word 16) (hn : n ≤ 64) (hk : n ≤ k)
    (hk64 : k < 64) :
    bufByte (packW (s.packWord src off n) ((n + 3) / 4) 0 w) k = if k < 4 * ((n + 3) / 4) then 0 else bufByte w k := by
  rw [bufByte, packW_getD _ _ _ _ _ (by omega) (by omega)]
  by_cases hword : k < 4 * ((n + 3) / 4)
  · rw [if_pos hword, if_pos (by omega), packWord_byte _ _ _ _ _ (Nat.mod_lt _ (by decide)), if_neg (by omega)]
  · rw [if_neg hword, if_neg (by omega), bufByte]

/-- Byte `k` of the buffer after `nin` received bits, when none of its bits is received (R176). -/
theorem bufByte_storeReceived_above (inbits : List Bool) (nin : Nat) (w : Vector Word 16) (k : Nat) (hk : k < 64)
    (hn : nin ≤ 8 * k) : bufByte (storeReceived inbits nin w) k = bufByte w k := by
  apply BitVec.eq_of_getLsbD_eq
  intro b hb
  have hpos : streamPos (k / 4) (8 * (k % 4) + b) = 8 * k + (7 - b) := by unfold streamPos; omega
  simp only [bufByte, BitVec.getLsbD_extractLsb', hb, decide_true, Bool.true_and]
  rw [storeReceived_getD _ _ _ _ (by omega), getLsbD_receivedWord _ _ _ _ _ (by omega), hpos, if_neg (by omega)]

theorem byteAt_append_left {a b : List Bool} {k : Nat} (h : 8 * k + 8 ≤ a.length) : byteAt (a ++ b) k = byteAt a k := by
  apply BitVec.eq_of_getLsbD_eq
  intro i hi
  rw [getLsbD_byteAt _ _ _ hi, getLsbD_byteAt _ _ _ hi, List.getD_append _ _ _ _ (by omega)]

theorem byteAt_append_right {a b : List Bool} {n k : Nat} (h : a.length = 8 * n) : byteAt (a ++ b) (n + k) = byteAt b k := by
  apply BitVec.eq_of_getLsbD_eq
  intro i hi
  rw [getLsbD_byteAt _ _ _ hi, getLsbD_byteAt _ _ _ hi, List.getD_append_right _ _ _ _ (by omega)]
  congr 1
  omega

/-- The number of bytes in the last chunk of `m` bytes. -/
def lastChunk (m : Nat) : Nat := m - 64 * ((m - 1) / 64)

/-- The buffer `W` after chunks of `m` bytes that received `bits`: the last chunk's bytes, 0 up to a whole word, and above
them what the chunk before left, or the buffer before (R173, R176). -/
def WordsLeft (p : Fin 4) (m : Nat) (bits : List Bool) (s t : State) : Prop :=
  0 < m → ∀ k, k < 64 → wordByte (t.periph p) k =
    if k < lastChunk m then byteAt bits (m - lastChunk m + k)
    else if k < 4 * ((lastChunk m + 3) / 4) then 0
    else if lastChunk m < m then byteAt bits (m - lastChunk m - 64 + k)
    else wordByte (s.periph p) k

theorem afterChunk_periph (p : Fin 4) (src : OutSrc) (dst : InDst) (n : Nat) (s : State) :
    (afterChunk p src dst n s).periph p =
      { triggered s p src s.off n with
        w := storeReceived (chunkIn s p src s.off n) (chunkNin (s.periph p) n) (triggered s p src s.off n).w
        flight := none } := by
  cases dst <;> exact Vector.getElem_set_self p.isLt

/-- One chunk: its bytes, 0 up to a whole word, then the buffer as it was. -/
theorem wordByte_afterChunk {p : Fin 4} (src : OutSrc) (dst : InDst) {n : Nat} {s : State}
    (hb : bothPhases (s.periph p)) (hn : n ≤ 64) {k : Nat} (hk : k < 64) :
    wordByte ((afterChunk p src dst n s).periph p) k =
      if k < n then byteAt (chunkIn s p src s.off n) k
      else if k < 4 * ((n + 3) / 4) then 0
      else wordByte (s.periph p) k := by
  have hnin : chunkNin (s.periph p) n = 8 * n := if_pos hb.2
  rw [afterChunk_periph, hnin]
  show bufByte (storeReceived _ (8 * n) (packW (s.packWord src s.off n) ((n + 3) / 4) 0 (s.periph p).w)) k = _
  by_cases hkn : k < n
  · rw [if_pos hkn, bufByte_storeReceived _ _ _ _ hk (by omega)]
  · rw [if_neg hkn, bufByte_storeReceived_above _ _ _ _ hk (by omega), bufByte_packW_above _ _ _ _ _ _ hn (by omega) hk]
    rfl

/-- Events carry one list of transactions. -/
theorem Carries.unique {es : List Event} {w w' : Exchanges} (h : Carries es w) (h' : Carries es w') : w = w' := by
  have hmap := (h 0 false []).symm.trans (h' 0 false [])
  rw [wireLog, List.append_nil, List.append_nil] at hmap
  refine List.map_injective_iff.2 (fun x y hxy => ?_) hmap
  injection hxy with _ hsent hreceived
  exact Prod.ext hsent hreceived

theorem carries_xfer (p : Fin 4) (cfg : XferCfg) (nout nin : Nat) (o i : List Bool) :
    Carries [.xfer p cfg nout o nin i] [(o, i)] := fun _ _ _ => rfl

/-- The bits a chunk received are those the line answered. -/
theorem recvOf_afterChunk {p : Fin 4} {src : OutSrc} {dst : InDst} {len n : Nat} {s : State} {es : List Event} {w : Exchanges}
    (h : Chunked p src dst len s (afterChunk p src dst n s) es w) : recvOf w = chunkIn s p src s.off n := by
  have hevents : s.trace ++ es = s.trace ++ (triggerEvents s p src s.off n ++
      [.xfer p (s.periph p).cfg (chunkNout (s.periph p) n)
        (if (s.periph p).usrMosi then bitsOf (chunkOut s src s.off n) else [])
        (chunkNin (s.periph p) n) (chunkIn s p src s.off n)]) := by
    have htrace : (afterChunk p src dst n s).trace = s.trace ++ es := by rw [h.frame]
    rw [← htrace, ← List.append_assoc]
    cases dst <;> rfl
  have hcarries := h.carries
  rw [List.append_cancel_left hevents] at hcarries
  rw [hcarries.unique ((Carries.triggerEvents s p src s.off n).append (carries_xfer _ _ _ _ _ _))]
  exact List.append_nil _

/-- One more chunk before others. -/
theorem WordsLeft.cons {p : Fin 4} {src : OutSrc} {dst : InDst} {n m : Nat} {s t : State} {bits : List Bool}
    (hb : bothPhases (s.periph p)) (hn : n = min 64 (n + m)) (hpos : 0 < n)
    (h : WordsLeft p m bits (afterChunk p src dst n s) t) (hdone : m = 0 → t = afterChunk p src dst n s) :
    WordsLeft p (n + m) (chunkIn s p src s.off n ++ bits) s t := by
  have hin : (chunkIn s p src s.off n).length = 8 * n := by
    rw [chunkIn, lineBits_length]
    exact if_pos hb.2
  intro _ k hk
  by_cases hm : m = 0
  · subst hm
    rw [Nat.add_zero] at hn ⊢
    have hlast : lastChunk n = n := by unfold lastChunk; omega
    rw [hlast, hdone rfl, wordByte_afterChunk src dst hb (by omega) hk, if_neg (Nat.lt_irrefl n)]
    split
    · rw [byteAt_append_left (by omega)]
      congr 1
      omega
    · rfl
  · obtain rfl : n = 64 := by omega
    have hlast : lastChunk (64 + m) = lastChunk m := by unfold lastChunk; omega
    have hle : lastChunk m ≤ m := Nat.sub_le _ _
    have hcase : lastChunk m = m ∨ 64 + lastChunk m ≤ m := by unfold lastChunk; omega
    rw [hlast, h (by omega) k hk, if_pos (show lastChunk m < 64 + m by omega)]
    split
    · rw [show 64 + m - lastChunk m + k = 64 + (m - lastChunk m + k) by omega, byteAt_append_right hin]
    · split
      · rfl
      · obtain heq | hlt := hcase
        · rw [heq, if_neg (Nat.lt_irrefl m), wordByte_afterChunk src dst hb (Nat.le_refl 64) hk, if_pos hk,
            byteAt_append_left (by omega)]
          congr 1
          omega
        · rw [if_pos (by omega), show 64 + m - lastChunk m - 64 + k = 64 + (m - lastChunk m - 64 + k) by omega,
            byteAt_append_right hin]

/-- The chunks that are left, on a ready peripheral, with what they leave in `W`. -/
theorem chunks_words {p : Fin 4} {len : Nat} {src : OutSrc} {dst : InDst} (ha : apart len src dst) (k : Nat) (s : State)
    (hr : periphReady s p) (hoff : s.off ≤ len) (hk : k = chunkCount (len - s.off)) :
    ∃ t es w, chunks p len src dst k s = .run t ∧ Chunked p src dst len s t es w
      ∧ WordsLeft p (len - s.off) (recvOf w) s t := by
  induction k generalizing s with
  | zero =>
    obtain ⟨t, es, w, ht, hchunked⟩ := chunks_ready ha 0 s hr hoff hk
    have hnone : len - s.off = 0 := by unfold chunkCount at hk; omega
    exact ⟨t, es, w, ht, hchunked, fun hpos => absurd hpos (by omega)⟩
  | succ k ih =>
    have hlt : s.off < len := by unfold chunkCount at hk; omega
    obtain ⟨e1, w1, h1⟩ := afterChunk_spec (p := p) (src := src) (dst := dst) hlt
    have hlen : s.chunkLen len = min 64 (len - s.off) := rfl
    have hnext : (afterChunk p src dst (s.chunkLen len) s).off = s.off + s.chunkLen len := by rw [h1.frame]
    obtain ⟨t, e2, w2, ht, h2, hwords⟩ := ih (afterChunk p src dst (s.chunkLen len) s) (h1.ready hr)
      (by rw [hnext]; omega) (by rw [hnext]; unfold chunkCount at *; omega)
    rw [hnext] at hwords
    have hboth : bothPhases (s.periph p) := hr.2.2.2.2
    have hrest : len - s.off = s.chunkLen len + (len - (s.off + s.chunkLen len)) := by omega
    have hrecv : recvOf (w1 ++ w2) = chunkIn s p src s.off (s.chunkLen len) ++ recvOf w2 := by
      rw [← recvOf_afterChunk h1, recvOf, List.flatMap_append]
      rfl
    refine ⟨t, e1 ++ e2, w1 ++ w2, ?_, h1.trans h2 (by omega) (by omega) (by omega) (by omega) ha, ?_⟩
    · rw [chunks, chunk_ready hr hlt, andThen_run, ht]
    · rw [hrest, hrecv]
      refine hwords.cons hboth (by omega) (by omega) fun hzero => ?_
      have hk0 : k = 0 := by unfold chunkCount at hk; omega
      rw [hk0] at ht
      exact (Flow.run.inj ht).symm

/-- A whole transfer on a ready peripheral, with what it leaves in `W`. -/
theorem transferOn_words {p : Fin 4} {len : Nat} {src : OutSrc} {dst : InDst} {s : State} (ha : apart len src dst)
    (hr : periphReady s p) :
    ∃ t es w, transferOn p len src dst s = .run t ∧ Transferred p src dst len s t es w ∧ WordsLeft p len (recvOf w) s t := by
  obtain ⟨t, es, w, ht, htransferred⟩ := transferOn_ready ha hr
  obtain ⟨t', es', w', ht', hchunked, hwords⟩ := chunks_words (p := p) (dst := dst) ha (chunkCount len)
    { s.disableInterrupts with off := 0 } hr (Nat.zero_le len) rfl
  have hrun : transferOn p len src dst s = .run t'.enableInterrupts := by rw [transferOn, ht', andDo_run]
  obtain rfl : t = t'.enableInterrupts := Flow.run.inj (ht.symm.trans hrun)
  have htrace : s.trace ++ (.irqOff :: (es ++ [.irqOn])) = s.trace ++ (.irqOff :: (es' ++ [.irqOn])) := by
    have hleft : t'.enableInterrupts.trace = s.trace ++ (.irqOff :: (es ++ [.irqOn])) := by rw [htransferred.frame]
    have hright : t'.trace = (s.trace ++ [.irqOff]) ++ es' := by rw [hchunked.frame]; rfl
    rw [← hleft]
    show t'.trace ++ [.irqOn] = _
    rw [hright]
    simp
  have hevents : es = es' := List.append_cancel_right (List.cons.inj (List.append_cancel_left htrace)).2
  have hcarries : Carries (.irqOff :: (es ++ [.irqOn])) w' := by
    rw [hevents]
    intro dc level rest
    have hinner := hchunked.carries dc level (.irqOn :: rest)
    rw [List.cons_append, List.append_assoc]
    exact hinner
  obtain rfl : w = w' := htransferred.carries.unique hcarries
  exact ⟨_, es, w, ht, htransferred, hwords⟩

/-! ## What a transfer moves -/

theorem Transferred.newEvents {p : Fin 4} {src : OutSrc} {dst : InDst} {len : Nat} {s t : State} {es : List Event}
    {w : Exchanges} (h : Transferred p src dst len s t es w) : newEvents s t = .irqOff :: (es ++ [.irqOn]) := by
  rw [Safety.newEvents, h.frame, List.drop_left]

theorem Transferred.wire_eq {p : Fin 4} {src : OutSrc} {dst : InDst} {len : Nat} {s t : State} {es : List Event}
    {w : Exchanges} (h : Transferred p src dst len s t es w) :
    wire s t = w.map fun x => ⟨(s.pin s.params.dcPin).level, x.1, x.2⟩ := by
  rw [Safety.wire, h.newEvents, ← List.append_nil (Event.irqOff :: _), h.carries]
  exact List.append_nil _

theorem sentBits_map (w : Exchanges) (level : Bool) : sentBits (w.map fun x => ⟨level, x.1, x.2⟩) = sentOf w := by
  simp [sentBits, sentOf, List.flatMap_map]

/-- The bytes a transfer sends: those of the buffer, or all ones (R173). -/
def bytesSent (s : State) (len : Nat) (out : Option Buf) : List Byte :=
  match out with
  | none => List.replicate len 0xFF
  | some b => s.mem.readBytes b.base len

theorem chunkOut_ofBuf (s : State) (len : Nat) (out : Option Buf) :
    chunkOut s (.ofBuf out) 0 len = bytesSent s len out := by
  cases out with
  | none => exact chunkOut_filler s len
  | some b =>
    apply List.ext_getElem
    · rw [chunkOut_length, bytesSent, readBytes_length]
    · intro k hk _
      have hlt : k < len := by rwa [chunkOut_length] at hk
      rw [← List.getD_eq_getElem _ 0, ← List.getD_eq_getElem _ 0]
      show _ = (s.mem.readBytes b.base len).getD k 0
      rw [readBytes_getD _ _ _ _ hlt, List.getD_eq_getElem _ _ hk]
      simp [chunkOut, State.outByte, OutSrc.ofBuf]

theorem bytesOf_getD {bits : List Bool} {n k : Nat} (h : bits.length = 8 * n) (hk : k < n) :
    (bytesOf bits).getD k 0 = byteAt bits k := by
  have hlt : k < (bytesOf bits).length := by rw [bytesOf_length]; omega
  rw [List.getD_eq_getElem _ _ hlt]
  simp [bytesOf]

/-- The bytes received stand in the input buffer (R175). -/
theorem read_storedMem_inside {s : State} {b : Buf} {bits : List Bool} {n k : Nat} (hwf : s.mem.wf = true)
    (h : bits.length = 8 * n) (hk : k < n) :
    (storedMem (.ofBuf (some b)) 0 (bytesOf bits) s).read (b.base + k) = byteAt bits k := by
  show (s.mem.writeBytes b.base (bytesOf bits)).read (b.base + k) = _
  rw [read_writeBytes_inside _ hwf (by rw [bytesOf_length]; omega), bytesOf_getD h hk]

theorem read_storedMem_outside {s : State} {inb : Option Buf} {bs : List Byte} {a : Nat}
    (h : ∀ b, inb = some b → a < b.base ∨ b.base + bs.length ≤ a) :
    (storedMem (.ofBuf inb) 0 bs s).read a = s.mem.read a := by
  cases inb with
  | none => rfl
  | some b => exact read_writeBytes_of_outside bs (h b rfl)

theorem storedStaging_ofBuf (inb : Option Buf) (bs : List Byte) (s : State) :
    storedStaging (.ofBuf inb) 0 bs s = s.staging := by
  cases inb <;> rfl

theorem Transferred.trace_of_empty {p : Fin 4} {src : OutSrc} {dst : InDst} {s t : State} {es : List Event} {w : Exchanges}
    (h : Transferred p src dst 0 s t es w) (hb : bothPhases (s.periph p)) : Safety.newEvents s t = [.irqOff, .irqOn] := by
  have hnone : w = [] := List.length_eq_zero_iff.1 h.count
  rw [h.newEvents, h.trace hb, hnone]
  rfl

theorem Transferred.noConfig {p : Fin 4} {src : OutSrc} {dst : InDst} {len : Nat} {s t : State} {es : List Event}
    {w : Exchanges} (h : Transferred p src dst len s t es w) : configWrites (Safety.newEvents s t) = [] := by
  have hbracket : configWrites (.irqOff :: (es ++ [.irqOn])) = configWrites (es ++ [.irqOn]) := rfl
  rw [h.newEvents, hbracket, configWrites_append, configWrites_dataEvents h.events]
  rfl

/-- Settles O28: the transfer runs to its end, chunk after chunk. -/
theorem transferMovesBytes : Obligations.TransferMovesBytes := by
  intro s u ws wc len out inb p sent hwf hlen hp hr hmem hsent
  subst hlen hp
  obtain rfl : sent = bytesSent s (ws.bytes * wc) out := hsent
  have hboth : bothPhases (s.periph (s.params.periphOf u)) := hr.2.2.2.2
  obtain ⟨t, es, w, ht, h, hwords⟩ := transferOn_words (apart_of_bufsApart (transferOperands_of_wf hwf).apart) hr
  have hexec : exec (.transfer u ws wc out inb) s = .next (t.ret .none) := by
    rw [exec_transfer_of_wf hwf, transferFlow, ht]
    rfl
  have hevents : newEvents s (t.ret .none) = .irqOff :: (es ++ [.irqOn]) := h.newEvents
  have hwire : wire s (t.ret .none) = w.map fun x => ⟨(s.pin s.params.dcPin).level, x.1, x.2⟩ := h.wire_eq
  generalize ws.bytes * wc = len at *
  have hbytes : (bytesOf (recvOf w)).length = len := by
    rw [bytesOf_length, h.received hboth]
    omega
  refine ⟨t.ret .none, hexec, ?_⟩
  rw [hwire, sentBits_map, receivedBits_map]
  refine ⟨(List.length_map _).trans h.count, fun i hi => ?shape, ?sent, ?inside, fun a ha => ?outside, ?events, ?words, ?none, h.noConfig, h.idle,
    h.others, h.config, ?frame⟩
  case shape =>
    rw [List.getElem_map]
    exact h.shape hboth i (by rwa [List.length_map] at hi)
  case sent => rw [h.sent hboth, chunkOut_ofBuf]
  case inside =>
    rintro b rfl k hk
    show t.mem.read _ = _
    rw [h.mem hboth, read_storedMem_inside hmem (h.received hboth) hk]
  case outside =>
    show t.mem.read a = _
    rw [h.mem hboth, read_storedMem_outside (hbytes.symm ▸ ha)]
  case events => rw [hevents, h.events_eq hboth (s.pin s.params.dcPin).level, chunkOut_ofBuf]
  case words =>
    rintro n hpos rfl k hk
    exact hwords hpos k hk
  case none =>
    rintro rfl
    exact h.trace_of_empty hboth
  case frame =>
    have hstaging : t.staging = s.staging := (h.staging hboth).trans (storedStaging_ofBuf inb _ s)
    have htask : t.task = s.task := by rw [h.frame]
    show ({ t with task := { t.task with result := some (.ok .none) } } : State) = _
    have hframe := h.frame
    rw [hstaging] at hframe
    rw [htask, hframe]
    rfl

/-- Settles O29: what comes back is what went out. -/
theorem transferThroughLoopback : Obligations.TransferThroughLoopback := by
  intro s u ws wc a b hwf hr hmem hline
  have hboth : bothPhases (s.periph (s.params.periphOf u)) := hr.2.2.2.2
  obtain ⟨t, es, w, ht, h⟩ := transferOn_ready (apart_of_bufsApart (transferOperands_of_wf hwf).apart) hr
  have hlooped : recvOf w = bitsOf (s.mem.readBytes a.base (ws.bytes * wc)) := by
    have hsame : recvOf w = sentOf w :=
      List.flatMap_congr fun x hx => h.looped hboth (by rw [hline]) (by rw [hline]) x hx
    rw [hsame, h.sent hboth, chunkOut_ofBuf]
    rfl
  refine ⟨t.ret .none, ?_, fun k hk => ?_⟩
  · rw [exec_transfer_of_wf hwf, transferFlow, ht]
    rfl
  · show t.mem.read _ = _
    rw [h.mem hboth, read_storedMem_inside hmem (h.received hboth) hk, hlooped,
      byteAt_bitsOf _ _ (by rwa [readBytes_length]), readBytes_getD _ _ _ _ hk]

end Sys2Proof.Machine.Laws

/-! # The hand-off, SELECT, DESELECT and PINMUX (R140 to R154) -/

namespace Sys2Proof.Machine.Laws

open Sys2Proof.Safety

/-! ## Pins of a record -/

/-- R26, in the words of the statements. -/
theorem soft_eq_of_iff {s : State} {soft : Nat → Bool}
    (h : ∀ v, soft v = true ↔
      (s.unit v).sdi ≠ (s.params.dedOf (s.params.periphOf v)).sdi
        ∨ (s.unit v).sdo ≠ (s.params.dedOf (s.params.periphOf v)).sdo
        ∨ (s.unit v).sck ≠ (s.params.dedOf (s.params.periphOf v)).sck
        ∨ (s.unit v).cs ≠ (s.params.dedOf (s.params.periphOf v)).cs) : soft = s.soft := by
  funext v
  rw [Bool.eq_iff_iff, h, State.soft, bne_iff_ne]
  generalize s.params.dedOf (s.params.periphOf v) = g
  rw [ne_eq (s.unit v).pinSet, UnitRec.pinSet, PinSet.mk.injEq, not_and_or, not_and_or, not_and_or]

/-- The configured pins of a record that names no pin twice differ from one another. -/
theorem plainPins_ne {s : State} {r : UnitRec} (h : plainPins s r) :
    (r.sdi ≠ 0 → r.sdi ≠ r.sdo ∧ r.sdi ≠ r.sck ∧ r.sdi ≠ r.cs) ∧ (r.sdo ≠ 0 → r.sdo ≠ r.sck ∧ r.sdo ≠ r.cs)
      ∧ (r.sck ≠ 0 → r.sck ≠ r.cs) := by
  have hpairs := List.pairwise_filter.1 h.1
  simp only [List.pairwise_cons, List.mem_cons, List.not_mem_nil, or_false, forall_eq_or_imp, forall_eq,
    decide_not, Bool.not_eq_true', decide_eq_false_iff_not, IsEmpty.forall_iff, implies_true, and_true,
    List.Pairwise.nil] at hpairs
  obtain ⟨⟨hio, hik, hic⟩, ⟨hok, hoc⟩, hkc⟩ := hpairs
  grind

/-- A configured pin of a plain record is touched by a call on it. -/
theorem plainPins_lt {s : State} {r : UnitRec} {g : Nat} (h : plainPins s r) (hg : g ≠ 0)
    (hm : g = r.sdi ∨ g = r.sdo ∨ g = r.sck ∨ g = r.cs) : g < s.pins.length := h.2 g (mem_nonzeroPins.2 ⟨hg, hm⟩)

/-- A configured pin that is one is touched by the calls on it. -/
theorem touched_iff {s : State} {g : Nat} {gs : List Nat} (hg : g ≠ 0) (hlt : g < s.pins.length) :
    touched s g gs ↔ g ∈ gs := and_iff_left ⟨hg, hlt⟩

/-! ## Attaching -/

/-- A state `x` on the way from `s` with the same parameters, the same record of unit `u` but for the dirty flag, and as
many pins. -/
structure UnitKept (s x : State) (u : Nat) : Prop where
  params : x.params = s.params
  unit : ∃ d, x.unit u = { s.unit u with dirty := d }
  length : x.pins.length = s.pins.length

/-- The same, with the output routes and the input route that `attach` leaves alone as the hand-off found them. -/
structure BeforeAttach (s x : State) (lost : Option Nat) (u : Nat) : Prop extends UnitKept s x u where
  out : s.soft u = false → ∀ g, g = (s.unit u).sdo ∨ g = (s.unit u).sck → g ≠ 0 → g < s.pins.length →
    (x.pin g).out = outBefore s lost g
  route : s.soft u = true → (s.unit u).sdi = 0 →
    x.inRoute.get (s.params.periphOf u) = routeBefore s lost (s.params.periphOf u)

theorem inRoute_get_set (v : Vector (Option Nat) 4) (p q : Fin 4) (g : Option Nat) :
    (v.set p g p.isLt).get q = if q = p then g else v.get q := by
  rw [Vector.get_eq_getElem, Vector.get_eq_getElem, Vector.getElem_set]
  split
  · next h => rw [if_pos (Fin.ext h.symm)]
  · next h => rw [if_neg fun he => h (congrArg Fin.val he.symm)]

section Attach

variable {s x : State} {u : Nat} (h : UnitKept s x u)

include h

theorem UnitKept.attach_eq : ∃ d, x.attach u =
    x.attachPins (s.params.periphOf u) { s.unit u with dirty := d } (s.soft u) := by
  obtain ⟨d, hd⟩ := h.unit
  have hsoft : x.soft u = s.soft u := by rw [State.soft, State.soft, hd, h.params]; rfl
  exact ⟨d, by rw [State.attach, hsoft, hd, h.params]⟩

theorem UnitKept.inRoute_ne {q : Fin 4} (hq : q ≠ s.params.periphOf u) :
    (x.attach u).inRoute.get q = x.inRoute.get q := by
  obtain ⟨d, hattach⟩ := h.attach_eq
  rw [hattach, inRoute_attachPins]
  split
  · rfl
  · rw [inRoute_get_set, if_neg hq]

theorem UnitKept.away {g : Nat} (hg : g ∉ nonzeroPins (s.unit u)) : (x.attach u).pin g = x.pin g := by
  obtain ⟨d, hattach⟩ := h.attach_eq
  rw [hattach]
  exact pins_attachPins x _ (r := { s.unit u with dirty := d }) _ hg

theorem UnitKept.level (g : Nat) : ((x.attach u).pin g).level = (x.pin g).level := by
  obtain ⟨d, hattach⟩ := h.attach_eq
  rw [hattach]
  exact (pin_attachPins x _ _ _ g).level

end Attach

/-- R148, R149: what `attach` leaves on the pins of a plain record. -/
theorem BeforeAttach.attached {s x : State} {lost : Option Nat} {u : Nat} (h : BeforeAttach s x lost u)
    (hplain : plainPins s (s.unit u)) :
    attached s (x.attach u) lost u (s.soft u) := by
  obtain ⟨d, hattach⟩ := h.attach_eq
  obtain ⟨hsdi, hsdo, hsck⟩ := plainPins_ne hplain
  have hlt : ∀ {g}, g ≠ 0 → (g = (s.unit u).sdi ∨ g = (s.unit u).sdo ∨ g = (s.unit u).sck ∨ g = (s.unit u).cs) →
      g < x.pins.length := fun hg hm => h.length ▸ plainPins_lt hplain hg hm
  rw [hattach]
  have hpin := pin_attachPins x (s.params.periphOf u) { s.unit u with dirty := d } (s.soft u)
  constructor
  case sdi =>
    intro hg
    obtain ⟨hno, hnk, hnc⟩ := hsdi hg
    have hl := hlt hg (.inl rfl)
    obtain ⟨hfn, hdir, hpull, -, -⟩ := hpin (s.unit u).sdi
    rw [hfn, hdir, hpull]
    simp [touched, hg, hno, hnk, hnc, hl]
  case sdo =>
    intro hg
    obtain ⟨hnk, hnc⟩ := hsdo hg
    have hl := hlt hg (.inr (.inl rfl))
    obtain ⟨hfn, hdir, -, hout, -⟩ := hpin (s.unit u).sdo
    rw [hfn, hdir, hout]
    cases hs : s.soft u with
    | true => simp [touched, hg, hnk, hnc, hl]
    | false => simp [touched, hg, hnk, hnc, hl, h.out hs _ (.inl rfl) hg (h.length ▸ hl)]
  case sck =>
    intro hg
    have hnc := hsck hg
    have hl := hlt hg (.inr (.inr (.inl rfl)))
    obtain ⟨hfn, hdir, -, hout, -⟩ := hpin (s.unit u).sck
    rw [hfn, hdir, hout]
    cases hs : s.soft u with
    | true => simp [touched, hg, hnc, hl]
    | false => simp [touched, hg, hnc, hl, h.out hs _ (.inr rfl) hg (h.length ▸ hl)]
  case cs =>
    intro hg
    have hl := hlt hg (.inr (.inr (.inr rfl)))
    obtain ⟨hfn, hdir, -, hout, -⟩ := hpin (s.unit u).cs
    rw [hfn, hdir, hout]
    simp [touched, hg, hl]
  case route =>
    rw [inRoute_attachPins]
    cases hs : s.soft u with
    | false => simp [inRoute_get_set]
    | true =>
      by_cases hg : (s.unit u).sdi = 0
      · simp [hg, h.route hs hg]
      · simp [hg, inRoute_get_set]


/-- A unit attached once may be attached again. -/
theorem attached_before {s y : State} {lost : Option Nat} {u : Nat} (hkept : UnitKept s y u)
    (h : attached s y lost u (s.soft u)) : BeforeAttach s y lost u where
  toUnitKept := hkept
  out hsoft g hg hg0 _ := by
    obtain rfl | rfl := hg
    · obtain ⟨-, -, hout⟩ := h.sdo hg0
      rw [hout, hsoft]
      rfl
    · obtain ⟨-, -, hout⟩ := h.sck hg0
      rw [hout, hsoft]
      rfl
  route hsoft hsdi := by
    rw [h.route, if_pos hsoft, if_pos hsdi]

theorem unitKept_of_pinCall {s t : State} (h : PinCall s t) (u : Nat) : UnitKept s t u := by
  obtain ⟨es, hp⟩ := h
  exact ⟨hp.params, ⟨(s.unit u).dirty, hp.unit u⟩, hp.length⟩

theorem UnitKept.trans {s t x : State} {u : Nat} (h1 : UnitKept s t u) (h2 : UnitKept t x u) : UnitKept s x u := by
  obtain ⟨d, hd⟩ := h1.unit
  obtain ⟨d', hd'⟩ := h2.unit
  exact ⟨h2.params.trans h1.params, ⟨d', by rw [hd', hd]⟩, h2.length.trans h1.length⟩

/-! ## Detaching -/

/-- The unit a hand-off to `u` detaches: the software-routed holder of the bus (R143). -/
def lostUnit (s : State) (u : Nat) : Option Nat := if s.last = some u then none else s.last.filter s.soft

/-- The state in which the hand-off to `u` begins to attach (R143). -/
def detachLost (s : State) (u : Nat) : State := if s.last = some u then s else s.detachPrev s.last

theorem pinUp_detachLost (s : State) (u : Nat) : PinUp s (detachLost s u) := by
  unfold detachLost State.detachPrev
  split
  · exact .refl s
  · split
    · split
      · exact pinUp_detach s _
      · exact .refl s
    · exact .refl s

/-- A hand-off detaches nothing, or the unit it loses. -/
theorem detachLost_cases (s : State) (u : Nat) :
    (lostUnit s u = none ∧ detachLost s u = s)
      ∨ ∃ v, lostUnit s u = some v ∧ detachLost s u = s.detach v ∧ s.last = some v ∧ v ≠ u := by
  unfold lostUnit detachLost State.detachPrev
  by_cases hu : s.last = some u
  · exact .inl ⟨if_pos hu, if_pos hu⟩
  · rw [if_neg hu, if_neg hu]
    cases hlast : s.last with
    | none => exact .inl ⟨rfl, rfl⟩
    | some v =>
      cases hsoft : s.soft v with
      | false => exact .inl ⟨by simp [Option.filter, hsoft], by simp [hsoft]⟩
      | true =>
        refine .inr ⟨v, by simp [Option.filter, hsoft], by simp [hsoft], rfl, fun he => hu ?_⟩
        rw [hlast, he]

/-- R145: the input of a detached unit's peripheral. -/
theorem inRoute_detachLost (s : State) (u : Nat) (q : Fin 4) :
    (detachLost s u).inRoute.get q = routeBefore s (lostUnit s u) q := by
  obtain ⟨hlost, hstate⟩ | ⟨v, hlost, hstate, -, -⟩ := detachLost_cases s u
  · rw [hlost, hstate]
    rfl
  · rw [hlost, hstate, inRoute_detach, inRoute_get_set]
    exact if_congr eq_comm rfl rfl

/-- R145: the output route of a pin that may be one of a detached unit's. -/
theorem out_detachLost {s : State} {u g : Nat} (hg : g ≠ 0) (hlt : g < s.pins.length) :
    ((detachLost s u).pin g).out = outBefore s (lostUnit s u) g := by
  obtain ⟨hlost, hstate⟩ | ⟨v, hlost, hstate, -, -⟩ := detachLost_cases s u
  · rw [hlost, hstate]
    rfl
  · rw [hlost, hstate, (pin_detach s v g).out, outBefore]
    refine if_congr ((touched_iff hg hlt).trans ?_) rfl rfl
    grind

/-- R145: the level of a pin that may be a detached unit's chip-select. -/
theorem level_detachLost {s : State} {u g : Nat} (hg : g ≠ 0) (hlt : g < s.pins.length) :
    ((detachLost s u).pin g).level = levelBefore s (lostUnit s u) g := by
  obtain ⟨hlost, hstate⟩ | ⟨v, hlost, hstate, -, -⟩ := detachLost_cases s u
  · rw [hlost, hstate]
    rfl
  · rw [hlost, hstate, (pin_detach s v g).level, levelBefore]
    refine if_congr ((touched_iff hg hlt).trans ?_) rfl rfl
    grind

theorem beforeAttach_detachLost (s : State) (u : Nat) : BeforeAttach s (detachLost s u) (lostUnit s u) u where
  toUnitKept := unitKept_of_pinCall (pinUp_detachLost s u).call u
  out _ _ _ hg hlt := out_detachLost hg hlt
  route _ _ := inRoute_detachLost s u _

/-- R145: the pins of a detached unit that the new unit does not use. -/
theorem detachedPins_of_detach {s t : State} {v u : Nat} (hplain : plainPins s (s.unit v))
    (h : ∀ g, g ∉ nonzeroPins (s.unit u) → t.pin g = (s.detach v).pin g) : detachedPins s t v u := by
  intro g hg hnot
  obtain ⟨hg0, hmem⟩ := mem_nonzeroPins.1 hg
  have hlt := hplain.2 g hg
  obtain ⟨hfn, hout, hlevel, hdir, hpull⟩ := pin_detach s v g
  rw [h g hnot]
  refine ⟨?_, fun hsdi => ?_, ?_, hdir, hpull⟩
  · rw [hfn, if_pos]
    grind
  · rw [hout, if_pos]
    grind
  · rw [hlevel]
    refine if_congr ((touched_iff hg0 hlt).trans ?_) rfl rfl
    grind

/-! ## PINMUX -/

theorem selectUnit_of_ne {s : State} {u : Nat} (h : s.last ≠ some u) : s.selectUnit u = (detachLost s u).attach u := by
  rw [State.selectUnit, if_neg h, detachLost, if_neg h]

theorem lostUnit_of_ne {s : State} {u : Nat} (h : s.last ≠ some u) : lostUnit s u = s.last.filter s.soft := if_neg h

theorem exec_pinmux {s : State} {u : Nat} (hu : s.params.inRange u = true) :
    exec (.pinmux u) s = .next ((s.selectUnit u).ret .none) := (execPinmux_eq u s).trans (if_pos hu)

/-- Settles O22: the hand-off detaches and attaches. -/
theorem pinmuxAttachesUnit : Obligations.PinmuxAttachesUnit := by
  intro s u soft lost hsoft hlost
  obtain rfl := soft_eq_of_iff hsoft
  refine ⟨fun hu hlast => ?holder, fun hu hlast => ?handoff, fun hu => (execPinmux_eq u s).trans (if_neg (Bool.eq_false_iff.1 hu))⟩
  case holder => rw [exec_pinmux hu, State.selectUnit, if_pos hlast]
  case handoff =>
    rw [← lostUnit_of_ne hlast] at hlost
    subst hlost
    have hbefore := beforeAttach_detachLost s u
    refine ⟨_, exec_pinmux hu, fun hplain => ⟨?_, fun hcs => ?_⟩, fun q hq => ?_, fun g hg => pins_selectUnit s hg, ?_⟩
    · have hattached := hbefore.attached hplain
      rw [← selectUnit_of_ne hlast] at hattached
      exact ⟨hattached.sdi, hattached.sdo, hattached.sck, hattached.cs, hattached.route⟩
    · show ((s.selectUnit u).pin _).level = _
      rw [selectUnit_of_ne hlast, hbefore.level, level_detachLost hcs (plainPins_lt hplain hcs (.inr (.inr (.inr rfl))))]
    · show (s.selectUnit u).inRoute.get q = _
      rw [selectUnit_of_ne hlast, hbefore.inRoute_ne hq, inRoute_detachLost]
    · obtain ⟨es, hpins⟩ := (pinUp_selectUnit s u).call
      rw [State.ret, State.setResult, hpins.frame]

/-- Settles O23: what the new unit does not use is as the detachment left it. -/
theorem pinmuxDetachesHolder : Obligations.PinmuxDetachesHolder := by
  intro s u prev soft hsoft hu hprev hne hplain
  obtain rfl := soft_eq_of_iff hsoft
  have hlast : s.last ≠ some u := fun h => hne (Option.some.inj (hprev.symm.trans h))
  have hbefore := beforeAttach_detachLost s u
  have hstate : detachLost s u = if s.soft prev then s.detach prev else s := by
    rw [detachLost, if_neg hlast, hprev, State.detachPrev]
  have hpin : ∀ g, g ∉ nonzeroPins (s.unit u) → ((s.selectUnit u).ret .none).pin g = (detachLost s u).pin g :=
    fun g hg => by
      show (s.selectUnit u).pin g = _
      rw [selectUnit_of_ne hlast, hbefore.away hg]
  have hroute : s.params.periphOf prev ≠ s.params.periphOf u →
      ((s.selectUnit u).ret .none).inRoute.get (s.params.periphOf prev) =
        (detachLost s u).inRoute.get (s.params.periphOf prev) := fun hq => by
    show (s.selectUnit u).inRoute.get _ = _
    rw [selectUnit_of_ne hlast, hbefore.inRoute_ne hq]
  refine ⟨_, exec_pinmux hu, fun hsoft => ?_, fun hsoft => ?_⟩
  · rw [hsoft, if_pos rfl] at hstate
    rw [hstate] at hpin hroute
    refine ⟨detachedPins_of_detach hplain hpin, fun hq => (hroute hq).trans ?_⟩
    rw [inRoute_detach, inRoute_get_set, if_pos rfl]
  · rw [hsoft, if_neg Bool.false_ne_true] at hstate
    rw [hstate] at hpin hroute
    exact ⟨fun g _ hg => hpin g hg, hroute⟩

/-! ## SELECT -/

theorem exec_select {s : State} {u : Nat} (hu : s.params.inRange u = true) :
    exec (.select u) s = (selectFlow u s).outcome fun t => t.ret .none := (execSelect_eq u s).trans (if_pos hu)

/-- R140: a `select` of the clean holder of the bus. -/
theorem selectFlow_of_held {s : State} {u : Nat} (h : held s u) : selectFlow u s = .run (s.driveCs u false) := by
  have hsame : s.handoff u = s := if_pos h.1
  rw [selectFlow_eq, hsame, h.2, if_neg Bool.false_ne_true]
  rfl

theorem driveCs_frame (s : State) (u : Nat) (v : Bool) :
    s.driveCs u v = { s with pins := (s.driveCs u v).pins, trace := (s.driveCs u v).trace } := by
  rw [driveCs_eq]
  split <;> rfl

theorem newEvents_driveCs (s : State) (u : Nat) (v : Bool) :
    newEvents s (s.driveCs u v) = if (s.unit u).cs = 0 then [] else [.pinLevel (s.unit u).cs v] := by
  rw [driveCs_eq]
  split
  · exact List.drop_length
  · exact List.drop_left

/-- Settles O24: a `select` of the holder drives its chip-select. -/
theorem selectOfHolderIsCheap : Obligations.SelectOfHolderIsCheap := by
  intro s u hu hheld
  refine ⟨(s.driveCs u false).ret .none, ?_, newEvents_driveCs s u false, fun g => ?_, ?_⟩
  · rw [exec_select hu, selectFlow_of_held hheld]
    rfl
  · refine (pin_driveCs s u g false).trans (if_congr (and_congr_right fun hg => ?_) rfl rfl)
    rw [hg]
  · rw [State.ret, State.setResult, driveCs_frame]

/-- The dirty flag is all a hand-off changes of a record. -/
theorem unitKept_handoff (s : State) (u : Nat) : UnitKept s (s.handoff u) u := by
  obtain ⟨es, hhanded⟩ := handoff_spec u s
  refine ⟨by rw [hhanded.frame], ⟨((s.handoff u).unit u).dirty, ?_⟩, hhanded.length⟩
  rw [← (records_handoff u s).unit u]

theorem handoff_pins (s : State) (u : Nat) :
    (s.handoff u).pins = (s.selectUnit u).pins ∧ (s.handoff u).inRoute = (s.selectUnit u).inRoute := by
  unfold State.handoff
  split
  · next h =>
    rw [State.selectUnit, if_pos h]
    exact ⟨rfl, rfl⟩
  · rw [handoffMarks_eq]
    exact ⟨rfl, rfl⟩

/-- The state in which a reprogram attaches unit `u` is the one the hand-off found, but for the pins and routes of `u`. -/
theorem selectUnit_away {s : State} {u : Nat} :
    (∀ g, g ∉ nonzeroPins (s.unit u) → (s.selectUnit u).pin g = (detachLost s u).pin g)
      ∧ ∀ q, q ≠ s.params.periphOf u → (s.selectUnit u).inRoute.get q = routeBefore s (lostUnit s u) q := by
  have hbefore := beforeAttach_detachLost s u
  by_cases hlast : s.last = some u
  · rw [State.selectUnit, if_pos hlast]
    have hstart : detachLost s u = s := if_pos hlast
    exact ⟨fun g _ => by rw [hstart], fun q _ => by rw [← inRoute_detachLost, hstart]⟩
  · rw [selectUnit_of_ne hlast]
    exact ⟨fun g hg => hbefore.away hg, fun q hq => by rw [hbefore.inRoute_ne hq, inRoute_detachLost]⟩

theorem beforeAttach_handoff {s : State} {u : Nat} (hplain : plainPins s (s.unit u)) :
    BeforeAttach s (s.handoff u) (lostUnit s u) u := by
  have hkept := unitKept_handoff s u
  have hbefore := beforeAttach_detachLost s u
  obtain ⟨hpins, hroutes⟩ := handoff_pins s u
  by_cases hlast : s.last = some u
  · have hsame : s.handoff u = detachLost s u := (if_pos hlast).trans (if_pos hlast).symm
    rw [hsame]
    exact hbefore
  · have hattached := hbefore.attached hplain
    rw [← selectUnit_of_ne hlast] at hattached
    refine attached_before hkept ?_
    obtain ⟨hsdi, hsdo, hsck, hcs, hroute⟩ := hattached
    constructor <;> simp only [pin_congr hpins, hroutes] <;> assumption

/-- R144: a unit that gains the bus is marked dirty, and so is a dirty holder. -/
theorem dirty_handoff {s : State} {u : Nat} (hheld : ¬held s u) (hu : s.params.inRange u = true)
    (hl : s.units.length = s.params.unitCount) : ((s.handoff u).unit u).dirty = true := by
  by_cases hlast : s.last = some u
  · have hsame : s.handoff u = s := if_pos hlast
    rw [hsame]
    exact Bool.eq_true_of_not_eq_false fun hclean => hheld ⟨hlast, hclean⟩
  · obtain ⟨es, hhanded⟩ := handoff_spec u s
    have hunits : (s.handoff u).units = (s.handoffMarks u).units := hhanded.units.trans (if_neg hlast)
    have hparams : (s.handoff u).params = (s.handoffMarks u).params := by rw [hhanded.frame, handoffMarks_eq]
    rw [unit_congr hparams hunits, unit_handoffMarks s u u hu hlast hl, if_pos (.inl rfl)]

/-- What `reprogram(u)` does once its wait has ended (R146). -/
def reprogrammed (s : State) (u : Nat) : State :=
  ((s.attach u).writeConfig (s.params.periphOf u) (s.unit u)).setDirty u false

theorem reprogrammed_pins (s : State) (u : Nat) :
    (reprogrammed s u).pins = (s.attach u).pins ∧ (reprogrammed s u).inRoute = (s.attach u).inRoute := by
  rw [reprogrammed, setDirty_eq, writeConfig_eq]
  exact ⟨rfl, rfl⟩

theorem records_reprogrammed (s : State) (u : Nat) : Records s (reprogrammed s u) := by
  have hattach := records_pinCall (pinUp_attach s u).call
  have hwrite : Records (s.attach u) ((s.attach u).writeConfig (s.params.periphOf u) (s.unit u)) := by
    rw [writeConfig_eq]
    exact .same rfl rfl rfl
  exact (hattach.trans hwrite).trans (records_setDirty _ u false)

/-- R141: a `select` that reprograms on an idle peripheral. -/
theorem selectFlow_of_idle {s : State} {u : Nat} (hheld : ¬held s u) (hu : s.params.inRange u = true)
    (hl : s.units.length = s.params.unitCount) (hidle : s.busy (s.params.periphOf u) = false) :
    selectFlow u s = .run ((reprogrammed (s.handoff u) u).driveCs u false) := by
  obtain ⟨es, hhanded⟩ := handoff_spec u s
  have hparams : (s.handoff u).params = s.params := by rw [hhanded.frame]
  have hbusy : (s.handoff u).busy ((s.handoff u).params.periphOf u) = false := by
    rw [hhanded.frame]
    exact hidle
  rw [selectFlow_eq, if_pos (dirty_handoff hheld hu hl), reprogram, waitIdle_idle hbusy]
  rfl

/-- Its pins and routes: the hand-off, the attach of the reprogram, chip-select low (R141, R146, R151). -/
theorem selectFlow_pins (s : State) (u : Nat) :
    (∀ g, g ∉ nonzeroPins (s.unit u) →
        ((reprogrammed (s.handoff u) u).driveCs u false).pin g = ((s.handoff u).attach u).pin g)
      ∧ (∀ g, ∃ v, ((reprogrammed (s.handoff u) u).driveCs u false).pin g =
        { ((s.handoff u).attach u).pin g with level := v })
      ∧ ((reprogrammed (s.handoff u) u).driveCs u false).inRoute = ((s.handoff u).attach u).inRoute := by
  obtain ⟨hpins, hroutes⟩ := reprogrammed_pins (s.handoff u) u
  have hcs : ((reprogrammed (s.handoff u) u).unit u).cs = (s.unit u).cs :=
    ((records_handoff u s).trans (records_reprogrammed _ u)).cs u
  have hpin := fun g => pin_driveCs (reprogrammed (s.handoff u) u) u g false
  refine ⟨fun g hg => ?_, fun g => ?_, ?_⟩
  · rw [hpin, hcs, if_neg, pin_congr hpins]
    rintro ⟨rfl, hcs0, -⟩
    exact hg (mem_nonzeroPins.2 ⟨hcs0, .inr (.inr (.inr rfl))⟩)
  · rw [hpin, pin_congr hpins]
    split
    · exact ⟨false, rfl⟩
    · exact ⟨_, rfl⟩
  · rw [driveCs_frame, hroutes]

/-- Pins that differ in their level alone are attached alike. -/
theorem attached_congr {s y t : State} {lost : Option Nat} {u : Nat} {soft : Bool} (h : attached s y lost u soft)
    (hpin : ∀ g, ∃ v, t.pin g = { y.pin g with level := v }) (hroute : t.inRoute = y.inRoute) :
    attached s t lost u soft := by
  obtain ⟨hsdi, hsdo, hsck, hcs, hin⟩ := h
  have hfn : ∀ g, (t.pin g).fn = (y.pin g).fn := fun g => by obtain ⟨v, hv⟩ := hpin g; rw [hv]
  have hdir : ∀ g, (t.pin g).dir = (y.pin g).dir := fun g => by obtain ⟨v, hv⟩ := hpin g; rw [hv]
  have hpull : ∀ g, (t.pin g).pull = (y.pin g).pull := fun g => by obtain ⟨v, hv⟩ := hpin g; rw [hv]
  have hout : ∀ g, (t.pin g).out = (y.pin g).out := fun g => by obtain ⟨v, hv⟩ := hpin g; rw [hv]
  constructor <;> simp only [hfn, hdir, hpull, hout, hroute] <;> assumption

theorem lostUnit_eq_some {s : State} {u v : Nat} (h : lostUnit s u = some v) : detachLost s u = s.detach v := by
  obtain ⟨hnone, -⟩ | ⟨w, hsome, hstate, -, -⟩ := detachLost_cases s u
  · exact absurd (hnone.symm.trans h) nofun
  · rw [hstate, Option.some.inj (hsome.symm.trans h)]

theorem Selected.newEvents {u : Nat} {s t : State} {es : List Event} (h : Selected u s t es) : newEvents s t = es := by
  rw [Safety.newEvents, h.frame, List.drop_left]

/-- Settles O25: the hand-off, the reprogram, chip-select low. -/
theorem selectReprogramsHardware : Obligations.SelectReprogramsHardware := by
  intro s u p soft lost hsoft hlost hu hl hp hheld hidle
  subst hp
  obtain rfl := soft_eq_of_iff hsoft
  obtain rfl : lost = lostUnit s u := hlost
  obtain ⟨t, es, ht, hselected⟩ := select_ready hu hl fun _ => hidle
  obtain rfl : t = (reprogrammed (s.handoff u) u).driveCs u false :=
    Flow.run.inj (ht.symm.trans (selectFlow_of_idle hheld hu hl hidle))
  obtain ⟨hpin, hlevel, hroutes⟩ := selectFlow_pins s u
  obtain ⟨hoff, hroute⟩ := selectUnit_away (s := s) (u := u)
  obtain ⟨hpins, hinputs⟩ := handoff_pins s u
  have hkept := unitKept_handoff s u
  have hfresh := hselected.fresh hheld
  generalize (reprogrammed (s.handoff u) u).driveCs u false = t at *
  have haway : ∀ g, g ∉ nonzeroPins (s.unit u) → t.pin g = (detachLost s u).pin g := fun g hg => by
    rw [hpin g hg, hkept.away hg, pin_congr hpins, hoff g hg]
  refine ⟨t.ret .none, ?exec, ?last, hselected.unit, hselected.loser, fun v hv hn => hselected.rest v hv fun h => hn h.1,
    fun hplain => ?attached, fun v hv hplain => ?detached, fun q hq => ?routes, ?writes, ?reflects, congrArg (·.w) hfresh,
    congrArg (·.flight) hfresh, congrArg (·.mosiDlen) hfresh, congrArg (·.misoDlen) hfresh, hselected.others, hselected.cs, hselected.away, ?frame⟩
  case exec =>
    rw [exec_select hu, ht]
    rfl
  case last =>
    show t.last = _
    rw [hselected.frame]
  case attached => exact attached_congr ((beforeAttach_handoff hplain).attached hplain) hlevel hroutes
  case detached =>
    refine detachedPins_of_detach hplain fun g hg => ?_
    rw [← lostUnit_eq_some hv]
    exact haway g hg
  case routes =>
    show t.inRoute.get q = _
    rw [hroutes, hkept.inRoute_ne hq, hinputs, hroute q hq]
  case writes =>
    have hwrites := hselected.writes
    rw [if_neg hheld, ← hselected.newEvents] at hwrites
    exact hwrites
  case reflects =>
    show reflects (t.periph _) _
    rw [hfresh]
    exact configured_reflects _ _
  case frame =>
    rw [State.ret, State.setResult, hselected.frame]

/-- A peripheral that is idle before a `select` is idle after it. -/
theorem Selected.busy {u : Nat} {s t : State} {es : List Event} (h : Selected u s t es) {q : Fin 4}
    (hq : s.busy q = false) : t.busy q = false := by
  by_cases hp : q = s.params.periphOf u
  · subst hp
    by_cases hheld : held s u
    · rw [State.busy, h.cheap hheld]
      exact hq
    · rw [State.busy, h.fresh hheld]
      exact hq
  · rw [State.busy, h.others q hp]
    exact hq

/-- What an alternation of selections needs of a state. -/
structure Selectable (s : State) (a b : Nat) : Prop where
  first : s.params.inRange a = true
  second : s.params.inRange b = true
  length : s.units.length = s.params.unitCount
  idleFirst : s.busy (s.params.periphOf a) = false
  idleSecond : s.busy (s.params.periphOf b) = false

/-- A `select` of the first unit keeps it so, and writes eleven registers unless the unit holds the bus clean (R154). -/
theorem Selectable.select {s : State} {a b : Nat} (h : Selectable s a b) :
    ∃ t, exec (.select a) s = .next t ∧ Selectable t b a ∧ held t a
      ∧ (¬held s a → (regWrites (newEvents s t)).length = 11) ∧ (held s a → regWrites (newEvents s t) = []) := by
  obtain ⟨ha, hb, hl, hia, hib⟩ := h
  obtain ⟨t, es, ht, hselected⟩ := select_ready ha hl fun _ => hia
  have hparams : t.params = s.params := by rw [hselected.frame]
  have hwrites := hselected.writes
  rw [← hselected.newEvents] at hwrites
  refine ⟨t.ret .none, ?_, ⟨?_, ?_, ?_, ?_, ?_⟩, ⟨?_, ?_⟩, fun hheld => ?_, fun hheld => ?_⟩
  · rw [exec_select ha, ht]
    rfl
  · show t.params.inRange b = true
    rw [hparams, hb]
  · show t.params.inRange a = true
    rw [hparams, ha]
  · show t.units.length = t.params.unitCount
    rw [hselected.ulength, hparams, hl]
  · show t.busy (t.params.periphOf b) = false
    rw [hparams]
    exact hselected.busy hib
  · show t.busy (t.params.periphOf a) = false
    rw [hparams]
    exact hselected.busy hia
  · show t.last = _
    rw [hselected.frame]
  · show (t.unit a).dirty = false
    rw [hselected.unit]
  · rw [if_neg hheld] at hwrites
    exact congrArg List.length hwrites
  · rw [if_pos hheld] at hwrites
    exact hwrites

/-- The bus is held by one unit at a time. -/
theorem not_held_of_held {s : State} {a b : Nat} (h : held s a) (hne : a ≠ b) : ¬held s b :=
  fun hb => hne (Option.some.inj (h.1.symm.trans hb.1))

/-- Settles O26: each of the first three selections finds another holder, the fourth its own unit. -/
theorem selectAlternationReprograms : Obligations.SelectAlternationReprograms := by
  intro s a b hab ha hb hl hlast hia hib
  obtain ⟨t1, ht1, hs1, hheld1, hw1, -⟩ := (Selectable.mk ha hb hl hia hib).select
  obtain ⟨t2, ht2, hs2, hheld2, hw2, -⟩ := hs1.select
  obtain ⟨t3, ht3, hs3, hheld3, hw3, -⟩ := hs2.select
  obtain ⟨t4, ht4, -, -, -, hw4⟩ := (Selectable.mk hs3.second hs3.first hs3.length hs3.idleSecond hs3.idleFirst).select
  exact ⟨t1, t2, t3, t4, ht1, ht2, ht3, ht4, hw1 fun h => hlast h.1, hw2 (not_held_of_held hheld1 hab),
    hw3 (not_held_of_held hheld2 hab.symm), hw4 hheld3⟩

/-! ## DESELECT -/

theorem exec_deselect {s : State} {u : Nat} (hu : s.params.inRange u = true) :
    exec (.deselect u) s = (deselectFlow u s).outcome fun t => t.ret .none := (execDeselect_eq u s).trans (if_pos hu)

/-- Settles O27: by the closed form of `deselect`. -/
theorem deselectRaisesChipSelect : Obligations.DeselectRaisesChipSelect := by
  intro s u
  refine ⟨fun hu hnone => ?noop, fun hu hclean hcs hidle => ?raise, fun hu => (execDeselect_eq u s).trans (if_neg (Bool.eq_false_iff.1 hu))⟩
  case noop =>
    have hflow : deselectFlow u s = .run s := by
      rw [deselectFlow_eq]
      obtain hdirty | hcs := hnone
      · rw [if_pos hdirty]
      · rw [if_pos hcs, ite_self]
    rw [exec_deselect hu, hflow]
    rfl
  case raise =>
    refine ⟨(s.driveCs u true).ret .none, ?_, ?_, fun g => ?_, ?_⟩
    · rw [exec_deselect hu, deselect_ready hclean hidle]
      rfl
    · exact (newEvents_driveCs s u true).trans (if_neg hcs)
    · refine (pin_driveCs s u g true).trans (if_congr (and_congr_right fun hg => ?_) rfl rfl)
      rw [hg, and_iff_right hcs]
    · rw [State.ret, State.setResult, driveCs_frame]

end Sys2Proof.Machine.Laws

/-! # Stuck peripherals (R71, R141, R153, R200, R299) -/

namespace Sys2Proof.Machine.Laws

open Sys2Proof.Safety

/-- The running task of `t` spins on peripheral `p` for ever, `irq` interrupt brackets deeper than in `s`; the marker, the
suspend depth, the result and the caller's memory are those of `s` (R299). -/
structure SpinsOn (p : Fin 4) (irq : Nat) (s t : State) : Prop where
  spin : t.task.spin = some p
  busy : t.busy p = true
  last : t.last = s.last
  irqDepth : t.irqDepth = s.irqDepth + irq
  suspendDepth : t.suspendDepth = s.suspendDepth
  result : t.task.result = s.task.result
  mem : t.mem = s.mem

/-- The flow hangs on peripheral `p` inside its own interrupt bracket. -/
def HangsOn (p : Fin 4) (s : State) (f : Flow) : Prop := ∃ t, f = .hung t ∧ SpinsOn p 1 s t

theorem HangsOn.andThen {p : Fin 4} {s : State} {f : Flow} (h : HangsOn p s f) (k : State → Flow) :
    HangsOn p s (f.andThen k) := by
  obtain ⟨t, rfl, ht⟩ := h
  exact ⟨t, rfl, ht⟩

theorem waitIdle_of_stuck {p : Fin 4} {s : State} (hs : s.params.isStuck p = true) (hb : s.busy p = true) :
    waitIdle p s = .hung { s with task := { s.task with spin := some p } } := by
  rw [waitIdle, if_pos hb, if_pos hs]

/-! ## Transfers -/

/-- The first chunk on a stuck peripheral hangs: before the trigger when the peripheral is busy, else after it. -/
theorem chunk_of_stuck {p : Fin 4} {s : State} (hs : s.params.isStuck p = true) (len : Nat) (src : OutSrc) (dst : InDst) :
    ∃ t, chunk p len src dst s = .hung t ∧ t.mem = s.mem := by
  cases hb : s.busy p with
  | true =>
    rw [chunk, waitIdle_of_stuck hs hb]
    exact ⟨_, rfl, rfl⟩
  | false =>
    have hbusy : (triggeredState s p src s.off (s.chunkLen len)).busy p = true := by
      rw [State.busy, triggeredState_periph]
      rfl
    rw [chunk, waitIdle_idle hb, andThen_run, pack_trigger_eq _ _ _ hb,
      waitIdle_of_stuck (s := triggeredState s p src s.off (s.chunkLen len)) hs hbusy]
    exact ⟨_, rfl, rfl⟩

theorem transferOn_of_stuck {p : Fin 4} {s : State} (hs : s.params.isStuck p = true) {len : Nat} (hlen : 0 < len)
    (src : OutSrc) (dst : InDst) : HangsOn p s (transferOn p len src dst s) := by
  obtain ⟨k, hflow⟩ := chunks_of_pos hlen p src dst s
  obtain ⟨t, ht, hmem⟩ := chunk_of_stuck (s := { s.disableInterrupts with off := 0 }) hs len src dst
  have hhung : transferOn p len src dst s = .hung t := by
    rw [hflow, ht]
    rfl
  have hall := transferOn_all p len src dst s
  rw [hhung] at hall
  obtain ⟨⟨hengine, hspin, -, hbusy⟩, hirq⟩ := hall
  exact ⟨t, hhung, hspin, hbusy, hengine.last, hirq, hengine.suspendDepth, hengine.result, hmem⟩

/-! ## The bodies of frames -/

/-- A body of a frame that begins with a transfer of at least one byte on peripheral `p`. -/
def BodyHangs (p : Fin 4) (s : State) (body : State → Flow) : Prop := ∀ t, t.params = s.params → HangsOn p t (body t)

/-- A transfer with the mode signal set before it. -/
theorem hangsOn_dispTransfer {s : State} (hs : s.params.isStuck s.dispPeriph = true) {len : Nat} (hlen : 0 < len)
    (src : OutSrc) (dst : InDst) (v : Bool) :
    HangsOn s.dispPeriph s (transferOn s.dispPeriph len src dst (s.gpioSetLevel s.params.dcPin v)) := by
  obtain ⟨t, ht, hspins⟩ := transferOn_of_stuck (s := s.gpioSetLevel s.params.dcPin v) hs hlen src dst
  exact ⟨t, ht, hspins.spin, hspins.busy, hspins.last, hspins.irqDepth, hspins.suspendDepth, hspins.result, hspins.mem⟩

section Display

variable {s : State} (hs : s.params.isStuck s.dispPeriph = true)

include hs

theorem bodyHangs_of_command {c : State → Byte} {k : State → State → Flow} :
    BodyHangs s.dispPeriph s fun t => (cmdPhase (c t) t).andThen (k t) := by
  intro t hp
  have hd : t.dispPeriph = s.dispPeriph := by rw [State.dispPeriph, State.dispPeriph, hp]
  have hstuck : t.params.isStuck t.dispPeriph = true := by rw [hd, hp, hs]
  exact hd ▸ (hangsOn_dispTransfer hstuck (by decide) (.bytes [c t]) .drop t.params.dcCmdLevel).andThen (k t)

theorem bodyHangs_cmdPhase (c : Byte) : BodyHangs s.dispPeriph s (cmdPhase c) := by
  intro t hp
  have hd : t.dispPeriph = s.dispPeriph := by rw [State.dispPeriph, State.dispPeriph, hp]
  have hstuck : t.params.isStuck t.dispPeriph = true := by rw [hd, hp, hs]
  exact hd ▸ hangsOn_dispTransfer hstuck (by decide) (.bytes [c]) .drop t.params.dcCmdLevel

theorem bodyHangs_dataPhase {bs : List Byte} (hbs : 0 < bs.length) : BodyHangs s.dispPeriph s (dataPhase bs) := by
  intro t hp
  have hd : t.dispPeriph = s.dispPeriph := by rw [State.dispPeriph, State.dispPeriph, hp]
  have hstuck : t.params.isStuck t.dispPeriph = true := by rw [hd, hp, hs]
  exact hd ▸ hangsOn_dispTransfer hstuck hbs (.bytes bs) .drop t.params.dcDataLevel

theorem bodyHangs_ramwr (bs : List Byte) : BodyHangs s.dispPeriph s (ramwrBody bs) :=
  bodyHangs_of_command hs (c := fun t => t.params.cmdRamwr) (k := fun _ => dataPhase bs)

theorem bodyHangs_window (x1 y1 x2 y2 : Half) : BodyHangs s.dispPeriph s (windowBody x1 y1 x2 y2) := by
  intro t hp
  exact (bodyHangs_of_command hs (c := fun t => t.params.cmdCaset) (k := fun _ => dataPhase (win x1 x2)) t hp).andThen _

theorem bodyHangs_read (x1 y1 x2 y2 : Half) (n : Nat) :
    BodyHangs s.dispPeriph s fun t => (windowBody x1 y1 x2 y2 t).andThen (ramrdBody n) :=
  fun t hp => (bodyHangs_window hs x1 y1 x2 y2 t hp).andThen _

end Display

theorem bodyHangs_touch {s : State} (hs : s.params.isStuck (s.params.periphOf s.params.touchUnit) = true) (c : Byte) :
    BodyHangs (s.params.periphOf s.params.touchUnit) s (touchBody c) := by
  intro t hp
  have hd : t.params.periphOf t.params.touchUnit = s.params.periphOf s.params.touchUnit := by rw [hp]
  have hstuck : t.params.isStuck (t.params.periphOf t.params.touchUnit) = true := by rw [hd, hp, hs]
  exact hd ▸ (transferOn_of_stuck hstuck (by decide) (.bytes [c]) .drop).andThen _

/-! ## SELECT -/

/-- A hand-off marks the unit that loses the bus. -/
theorem dirty_handoff_last {s : State} {u v : Nat} (hheld : ¬held s u) (hu : s.params.inRange u = true)
    (hl : s.units.length = s.params.unitCount) (hlast : s.last = some v) (hv : s.params.inRange v = true) :
    ((s.handoff u).unit v).dirty = true := by
  by_cases hvu : v = u
  · rw [hvu]
    exact dirty_handoff hheld hu hl
  · have hne : s.last ≠ some u := fun h => hvu (Option.some.inj (hlast.symm.trans h))
    obtain ⟨es, hhanded⟩ := handoff_spec u s
    have hunits : (s.handoff u).units = (s.handoffMarks u).units := hhanded.units.trans (if_neg hne)
    have hparams : (s.handoff u).params = (s.handoffMarks u).params := by rw [hhanded.frame, handoffMarks_eq]
    rw [unit_congr hparams hunits, unit_handoffMarks s u v hu hne hl, if_pos (.inr ⟨hlast, hv⟩)]

/-- R141: a `select` that must reprogram a busy stuck peripheral waits for ever, the hand-off done. -/
theorem selectFlow_of_stuck {s : State} {u : Nat} (hheld : ¬held s u) (hu : s.params.inRange u = true)
    (hl : s.units.length = s.params.unitCount) (hs : s.params.isStuck (s.params.periphOf u) = true)
    (hb : s.busy (s.params.periphOf u) = true) :
    selectFlow u s = .hung { s.handoff u with
      task := { (s.handoff u).task with spin := some (s.params.periphOf u) } } := by
  obtain ⟨es, hhanded⟩ := handoff_spec u s
  have hparams : (s.handoff u).params = s.params := by rw [hhanded.frame]
  have hstuck : (s.handoff u).params.isStuck (s.params.periphOf u) = true := by rw [hparams, hs]
  have hbusy : (s.handoff u).busy (s.params.periphOf u) = true := by
    rw [hhanded.frame]
    exact hb
  rw [selectFlow_eq, if_pos (dirty_handoff hheld hu hl), reprogram, hparams, waitIdle_of_stuck hstuck hbusy]
  rfl

/-! ## Frames -/

/-- A frame on a stuck peripheral has begun and hangs: in its body, or, when its reprogram already waits, in its select. -/
structure FrameHangs (u : Nat) (s t : State) : Prop where
  spin : t.task.spin = some (s.params.periphOf u)
  last : t.last = some u
  suspendDepth : t.suspendDepth = s.suspendDepth + 1
  inBody : held s u ∨ s.busy (s.params.periphOf u) = false → t.irqDepth = s.irqDepth + 1
  inSelect : ¬held s u → s.busy (s.params.periphOf u) = true → t.irqDepth = s.irqDepth
  busy : t.busy (s.params.periphOf u) = true
  result : t.task.result = s.task.result
  mem : t.mem = s.mem

theorem framed_of_stuck {s : State} {u : Nat} {body : State → Flow} (hu : s.params.inRange u = true)
    (hl : s.units.length = s.params.unitCount) (hs : s.params.isStuck (s.params.periphOf u) = true)
    (hbody : BodyHangs (s.params.periphOf u) s body) : ∃ t, framed u body s = .hung t ∧ FrameHangs u s t := by
  by_cases hreach : held s u ∨ s.busy (s.params.periphOf u) = false
  · obtain ⟨s1, es, hs1, hselected⟩ := select_ready (u := u) (s := s.suspendAllTasks) hu hl fun hheld =>
      hreach.resolve_left hheld
    have hparams : s1.params = s.params := by rw [hselected.frame]; rfl
    obtain ⟨t, ht, hspins⟩ := hbody s1 hparams
    refine ⟨t, ?_, hspins.spin, ?_, ?_, fun _ => ?_, fun hheld hbusy => ?_, hspins.busy, ?_, ?_⟩
    · rw [framed, if_pos hu, hs1, andThen_run, ht]
      rfl
    · rw [hspins.last, hselected.frame]
    · rw [hspins.suspendDepth, hselected.frame]
      rfl
    · rw [hspins.irqDepth, hselected.frame]
      rfl
    · exact absurd hreach (not_or_intro hheld (Bool.eq_false_iff.not_left.2 hbusy))
    · rw [hspins.result, hselected.frame]
      rfl
    · rw [hspins.mem, hselected.frame]
      rfl
  · obtain ⟨hheld, hbusy⟩ := not_or.1 hreach
    have hbusy := Bool.eq_true_of_not_eq_false hbusy
    obtain ⟨es, hhanded⟩ := handoff_spec u s.suspendAllTasks
    have hselect := selectFlow_of_stuck (s := s.suspendAllTasks) hheld hu hl hs hbusy
    refine ⟨{ s.suspendAllTasks.handoff u with
        task := { (s.suspendAllTasks.handoff u).task with spin := some (s.params.periphOf u) } },
      ?_, rfl, ?_, ?_, fun h => absurd h hreach, fun _ _ => ?_, ?_, ?_, ?_⟩
    · rw [framed, if_pos hu, hselect]
      rfl
    · rw [hhanded.frame]
    · rw [hhanded.frame]
      rfl
    · rw [hhanded.frame]
      rfl
    · rw [hhanded.frame]
      exact hbusy
    · rw [hhanded.frame]
      rfl
    · rw [hhanded.frame]
      rfl

/-- The operations that are a frame which sends at least one byte, on the display unit or the touch unit. -/
def framesOn (p : Params) (u : Nat) : Instr → Prop
  | .sendcmd _ | .setwin _ _ _ _ | .pushpx _ | .pushrep _ _ | .readpx _ _ .ok | .readpxs _ _ _ _ _ .ok => u = p.dispUnit
  | .senddata (some b) => 0 < b.len ∧ u = p.dispUnit
  | .pushbuf (some cs) n => n ≤ cs.length ∧ u = p.dispUnit
  | .readtouch _ .ok => u = p.touchUnit
  | _ => False

/-- The frame of an operation, from the state its staging buffer is allocated in. -/
theorem exec_of_framesOn {s : State} {u : Nat} {i : Instr} (hi : framesOn s.params u i)
    (hs : s.params.isStuck (s.params.periphOf u) = true) :
    ∃ n body g, BodyHangs (s.params.periphOf u) s body ∧
      (exec i s = (framed u body s).outcome g ∨ exec i s = (framed u body (s.heapAlloc n)).outcome g) := by
  cases i with
  | sendcmd c =>
    obtain rfl : u = s.params.dispUnit := hi
    exact ⟨0, _, _, bodyHangs_cmdPhase hs c, .inl rfl⟩
  | setwin x1 y1 x2 y2 =>
    obtain rfl : u = s.params.dispUnit := hi
    exact ⟨0, _, _, bodyHangs_window hs x1 y1 x2 y2, .inl rfl⟩
  | pushpx c =>
    obtain rfl : u = s.params.dispUnit := hi
    exact ⟨0, _, _, bodyHangs_ramwr hs (px c), .inl rfl⟩
  | pushrep c n =>
    obtain rfl : u = s.params.dispUnit := hi
    exact ⟨0, _, _, bodyHangs_ramwr hs (pxs (List.replicate n c)), .inl rfl⟩
  | senddata buf =>
    cases buf with
    | none => exact hi.elim
    | some b =>
      obtain ⟨hlen, rfl⟩ : 0 < b.len ∧ u = s.params.dispUnit := hi
      have hpos : 0 < (s.mem.readBytes b.base b.len).length := by rwa [readBytes_length]
      have hne : ¬(s.mem.readBytes b.base b.len).isEmpty = true := fun he => by
        rw [List.isEmpty_iff.1 he] at hpos
        exact Nat.lt_irrefl 0 hpos
      refine ⟨0, _, fun t => t.ret .none, bodyHangs_dataPhase hs hpos, .inl ?_⟩
      exact congrArg (Flow.outcome · fun t => t.ret .none) (if_neg hne)
  | pushbuf buf n =>
    cases buf with
    | none => exact hi.elim
    | some cs =>
      obtain ⟨hn, rfl⟩ : n ≤ cs.length ∧ u = s.params.dispUnit := hi
      exact ⟨0, _, _, bodyHangs_ramwr hs (pxs (cs.take n)), .inl (if_pos hn)⟩
  | readpx x y draw =>
    cases draw with
    | fail => exact hi.elim
    | ok =>
      obtain rfl : u = s.params.dispUnit := hi
      exact ⟨4, _, _, bodyHangs_read hs x y x y 4, .inr rfl⟩
  | readpxs x1 y1 x2 y2 n draw =>
    cases draw with
    | fail => exact hi.elim
    | ok =>
      obtain rfl : u = s.params.dispUnit := hi
      exact ⟨1 + 3 * n, _, _, bodyHangs_read hs x1 y1 x2 y2 (1 + 3 * n), .inr rfl⟩
  | readtouch c draw =>
    cases draw with
    | fail => exact hi.elim
    | ok =>
      obtain rfl : u = s.params.touchUnit := hi
      exact ⟨2, _, _, bodyHangs_touch hs c, .inr rfl⟩
  | _ => exact hi.elim

/-- An operation that sends anything in a frame on a stuck peripheral. -/
theorem exec_of_stuck {s : State} {u : Nat} {i : Instr} (hi : framesOn s.params u i) (hu : s.params.inRange u = true)
    (hl : s.units.length = s.params.unitCount) (hs : s.params.isStuck (s.params.periphOf u) = true) :
    ∃ t, exec i s = .next t ∧ FrameHangs u s t := by
  obtain ⟨n, body, g, hbody, hexec | hexec⟩ := exec_of_framesOn hi hs
  · obtain ⟨t, ht, hhangs⟩ := framed_of_stuck hu hl hs hbody
    exact ⟨t, by rw [hexec, ht]; rfl, hhangs⟩
  · obtain ⟨t, ht, hspin, hlast, hsusp, hbodyIrq, hselIrq, hbusy, hresult, hmem⟩ :=
      framed_of_stuck (s := s.heapAlloc n) hu hl hs hbody
    exact ⟨t, by rw [hexec, ht]; rfl, hspin, hlast, hsusp, hbodyIrq, hselIrq, hbusy, hresult, hmem⟩

/-- Settles O32: each operation in turn waits for the stuck peripheral. -/
theorem stuckPeripheralHangs : Obligations.StuckPeripheralHangs := by
  intro s u hu hs
  refine ⟨fun ws wc out inb hwf hlen => ?transfer, fun hl hheld hb => ?select, fun hclean hcs hb => ?deselect,
    fun i hl hi => ?display⟩
  case transfer =>
    obtain ⟨t, ht, hspins⟩ := transferOn_of_stuck hs hlen (.ofBuf out) (.ofBuf inb)
    refine ⟨t, ?_, hspins.spin, hspins.irqDepth, hspins.suspendDepth, hspins.busy, hspins.result, hspins.mem⟩
    rw [exec_transfer_of_wf hwf, transferFlow, ht]
    rfl
  case select =>
    obtain ⟨es, hhanded⟩ := handoff_spec u s
    refine ⟨{ s.handoff u with task := { (s.handoff u).task with spin := some (s.params.periphOf u) } }, ?_, rfl, ?_,
      dirty_handoff hheld hu hl, fun v hv hvr => dirty_handoff_last hheld hu hl hv hvr, ?_, ?_⟩
    · rw [exec_select hu, selectFlow_of_stuck hheld hu hl hs hb]
      rfl
    · rw [hhanded.frame]
    · rw [hhanded.frame]
    · rw [hhanded.frame]
  case deselect =>
    have hwait := waitIdle_of_stuck hs hb
    rw [exec_deselect hu, deselectFlow_eq, if_neg (Bool.eq_false_iff.1 hclean), if_neg hcs, hwait]
    rfl
  case display =>
    obtain ⟨t, ht, hspin, hlast, hsusp, hbodyIrq, hselIrq, hbusy, hresult, hmem⟩ := exec_of_stuck hi hu hl hs
    exact ⟨t, ht, hspin, hlast, hsusp, hbodyIrq, hselIrq, hbusy, hresult, hmem⟩

end Sys2Proof.Machine.Laws

/-! # The init sequencer (R83 to R88, R230 to R239): items, well-formed tables, whole runs -/

namespace Sys2Proof.Machine.Laws

open Sys2Proof.Safety

/-! ## The cursor after an item -/

theorem afterItem_advance (q : Seq) (m n remaining : Nat) :
    afterItem { q with tp := q.tp + m } n remaining = afterItem q (m + n) remaining := by
  simp only [afterItem, Nat.add_assoc]

/-- "if form = COUNTED and remaining = 0: return" (R231), in the words of the statements. -/
theorem settle_task {s : State} (h : s.task.seq.phase = .record) :
    s.settle = { s with task := { s.task with
      seq := afterItem s.task.seq 0 s.task.seq.remaining
      result := if s.task.seq.form = .counted ∧ s.task.seq.remaining = 0 then some (.ok .none) else s.task.result } } := by
  unfold State.settle afterItem
  split
  · rfl
  · rw [← h]
    rfl

/-- The end of a record: one fewer in counted form, and the run ends when none is left (R231). -/
theorem recordDone_task {s : State} (h : s.task.seq.phase = .record) :
    s.recordDone = { s with task := { s.task with
      seq := afterItem s.task.seq 0 (oneFewer s.task.seq)
      result := if s.task.seq.form = .counted ∧ oneFewer s.task.seq = 0 then some (.ok .none) else s.task.result } } := by
  unfold State.recordDone oneFewer
  split
  · exact settle_task (s := s.setSeq { s.task.seq with remaining := s.task.seq.remaining - 1 }) h
  · exact settle_task h

/-- Settles O49: by the meaning of the two items. -/
theorem headerAndSentinelMoveCursor : Obligations.HeaderAndSentinelMoveCursor := by
  intro s k
  refine ⟨?_, rfl⟩
  have hsettle := settle_task (s := (s.advance 1).setSeq
    { (s.advance 1).task.seq with phase := .record, remaining := k.toNat }) rfl
  refine (congrArg Host.Outcome.next hsettle).trans ?_
  have hzero : k.toNat = 0 ↔ k = 0 := ⟨fun h => BitVec.eq_of_toNat_eq h, fun h => h ▸ rfl⟩
  simp only [State.setSeq, State.advance, afterItem, hzero]

/-! ## Steps beside a frame -/

theorem Aside.leaves {s t t' : State} {u : Nat} (h : Aside t t') (hl : frameLeaves s t u) : frameLeaves s t' u := by
  rw [h.frame]
  exact ⟨hl.last, hl.unit, hl.loser, hl.rest, hl.others, hl.idle, hl.fresh, hl.pins, hl.cs, hl.memory, hl.locks,
    hl.irqDepth, hl.suspendDepth, hl.params, hl.tasks⟩

theorem Aside.ready {t t' : State} (h : Aside t t') (hr : displayReady t) : displayReady t' := by
  rw [h.frame]
  exact hr

theorem aside_advance (s : State) (n : Nat) : Aside s (s.advance n) := aside_setSeq s _

/-! ## One record -/

/-- A record of `n` bytes has been carried out: the cursor, the count, the result, what its frames leave, and the display
ready for the next. -/
structure RecordCarried (s t : State) (n : Nat) : Prop where
  seq : t.task.seq = afterItem s.task.seq n (oneFewer s.task.seq)
  result : t.task.result =
    if s.task.seq.form = .counted ∧ oneFewer s.task.seq = 0 then some (.ok .none) else s.task.result
  leaves : frameLeaves s t s.params.dispUnit
  ready : displayReady t

/-- The end of a record, `m` more bytes fetched after its arguments, some events after its frames. -/
theorem RecordSent.carried {s t x : State} {c : Byte} {args : List Byte} {es : List Event} (h : RecordSent c args s t es)
    (hphase : s.task.seq.phase = .record) (m : Nat) (hx : Aside t x) (htask : x.task = (t.advance m).task) :
    RecordCarried s x.recordDone (2 + args.length + m) := by
  have hseq : x.task.seq = { s.task.seq with tp := s.task.seq.tp + (2 + args.length + m) } := by
    rw [htask]
    simp only [State.advance, State.setSeq, h.task, Nat.add_assoc]
  have hresult : x.task.result = s.task.result := by
    rw [htask]
    show t.task.result = _
    rw [h.task]
  have hdone := recordDone_task (s := x) (by rw [hseq]; exact hphase)
  have haside := hx.trans (aside_recordDone x)
  refine ⟨?_, ?_, haside.leaves h.leaves, haside.ready h.ready⟩
  · rw [hdone, hseq]
    exact afterItem_advance s.task.seq _ 0 _
  · rw [hdone, hseq, hresult]
    rfl

theorem exec_initrec (s : State) (c : Byte) (args : List Byte) :
    exec (.initrec c args) s = (recordBody c args s).outcome State.recordDone := execInitrec_eq c args s

theorem exec_initrecD (s : State) (c d : Byte) (args : List Byte) :
    exec (.initrecD c args d) s =
      (recordBody c args s).outcome fun t => ((t.advance 1).schedDelay (delayMs d)).recordDone :=
  execInitrecD_eq c args d s

theorem recordDone_trace (s : State) : s.recordDone.trace = s.trace := by
  unfold State.recordDone State.settle
  split <;> split <;> rfl

/-- The wire carries nothing more when a delay follows. -/
theorem wireLog_delay (dc : Nat) (level : Bool) (es : List Event) (ms : Nat) :
    wireLog dc level (es ++ [.delay ms]) = wireLog dc level es := by
  obtain ⟨level', hlog⟩ := wireLog_append dc level es [.delay ms]
  rw [hlog]
  exact List.append_nil _

/-- Settles O50: the frames of a record, the delay after them, and the end of the record. -/
theorem initRecordsSendAndDelay : Obligations.InitRecordsSendAndDelay := by
  intro s c d args level hr hphase hlevel
  subst hlevel
  obtain ⟨t, es, ht, hsent⟩ := recordBody_ready c args hr
  obtain ⟨f1, f2, hframes, hone, ⟨r, hlog⟩, hsecond⟩ := hsent.frames
  constructor
  · obtain ⟨hseq, hresult, hleaves, -⟩ := hsent.carried hphase 0 (Aside.refl t) rfl
    have hevents : newEvents s t.recordDone = newEvents s t := by rw [newEvents, recordDone_trace, newEvents]
    refine ⟨t.recordDone, f1, f2, r, ?_, hevents.trans hframes, hone, hlog, hsecond, ?_, hleaves, hseq, hresult⟩
    · rw [exec_initrec, ht]
      rfl
    · rw [Safety.wire, hevents]
      exact hsent.wire
  · have haside : Aside t ((t.advance 1).schedDelay (delayMs d)) := (aside_advance t 1).trans (aside_schedDelay _ _)
    obtain ⟨hseq, hresult, hleaves, -⟩ := hsent.carried hphase 1 haside rfl
    have hevents : newEvents s ((t.advance 1).schedDelay (delayMs d)).recordDone = newEvents s t ++ [.delay (delayMs d)] := by
      rw [newEvents, recordDone_trace, newEvents, hsent.trace]
      show ((t.trace ++ [Event.delay (delayMs d)]).drop s.trace.length) = _
      rw [hsent.trace, List.append_assoc, List.drop_left, List.drop_left]
    refine ⟨((t.advance 1).schedDelay (delayMs d)).recordDone, f1, f2, r, ?_, ?_, hone, hlog, hsecond, ?_, hleaves, ?_,
      hresult⟩
    · rw [exec_initrecD, ht]
      rfl
    · rw [hevents, hframes]
      rfl
    · rw [Safety.wire, hevents, wireLog_delay]
      exact hsent.wire
    · rw [hseq, show 2 + args.length + 1 = 3 + args.length by omega]

/-- A record in either form, carried out on a ready display. -/
theorem record_carried {s : State} {i : Instr} {n : Nat} (hr : displayReady s) (hphase : s.task.seq.phase = .record)
    (hi : (∃ c a, i = .initrec c a ∧ n = 2 + a.length) ∨ ∃ c a d, i = .initrecD c a d ∧ n = 3 + a.length) :
    ∃ t, exec i s = .next t ∧ RecordCarried s t n := by
  obtain ⟨c, args, rfl, rfl⟩ | ⟨c, args, d, rfl, rfl⟩ := hi
  · obtain ⟨t, es, ht, hsent⟩ := recordBody_ready c args hr
    refine ⟨t.recordDone, ?_, hsent.carried hphase 0 (Aside.refl t) rfl⟩
    rw [exec_initrec, ht]
    rfl
  · obtain ⟨t, es, ht, hsent⟩ := recordBody_ready c args hr
    refine ⟨((t.advance 1).schedDelay (delayMs d)).recordDone, ?_, ?_⟩
    · rw [exec_initrecD, ht]
      rfl
    · have hcarried := hsent.carried hphase 1 ((aside_advance t 1).trans (aside_schedDelay _ (delayMs d))) rfl
      rwa [show 2 + args.length + 1 = 3 + args.length by omega] at hcarried

/-! ## Well-formed tables -/

/-- A record in front of other bytes is found with its length (R87). -/
theorem recordLength_append {r : List Byte} (h : isRecord r) (rest : List Byte) :
    recordLength (r ++ rest) = some r.length := by
  obtain ⟨cmd, argc, bs, rfl, hlen⟩ := h
  have hcount : argcCount argc + (argcDelay argc).toNat = bs.length := hlen.symm
  show recordLength (cmd :: argc :: (bs ++ rest)) = _
  rw [recordLength, if_pos (by rw [hcount, List.length_append]; exact Nat.le_add_right _ _), Nat.add_assoc, hcount,
    List.length_cons, List.length_cons, Nat.add_comm]

/-- Where a length is found, a record of that length stands in front (R87). -/
theorem recordLength_eq_some {bs : List Byte} {n : Nat} (h : recordLength bs = some n) :
    ∃ r rest, bs = r ++ rest ∧ isRecord r ∧ r.length = n := by
  match bs, h with
  | cmd :: argc :: r, h =>
    rw [recordLength] at h
    split at h
    · next hle =>
      have hn := Option.some.inj h
      have htake : (r.take (argcCount argc + (argcDelay argc).toNat)).length = argcCount argc + (argcDelay argc).toNat := by
        rw [List.length_take, Nat.min_eq_left hle]
      refine ⟨cmd :: argc :: r.take (argcCount argc + (argcDelay argc).toNat),
        r.drop (argcCount argc + (argcDelay argc).toNat), ?_, ⟨cmd, argc, _, rfl, htake⟩, ?_⟩
      · rw [List.cons_append, List.cons_append, List.take_append_drop]
      · rw [List.length_cons, List.length_cons, htake]
        omega
    · cases h

theorem isRecord_ne_nil {r : List Byte} (h : isRecord r) : ∃ b bs, r = b :: bs := by
  obtain ⟨cmd, argc, bs, rfl, -⟩ := h
  exact ⟨cmd, _, rfl⟩

/-- R237, counted form: `k` records stand one after the other. -/
theorem countedRecords_iff (k : Nat) (bs : List Byte) :
    countedRecords k bs = true ↔ ∃ (records : List (List Byte)) (tail : List Byte), (∀ r ∈ records, isRecord r) ∧ records.length = k ∧
      bs = records.flatten ++ tail := by
  induction k generalizing bs with
  | zero => exact ⟨fun _ => ⟨[], bs, nofun, rfl, rfl⟩, fun _ => rfl⟩
  | succ k ih =>
    rw [countedRecords]
    constructor
    · intro h
      cases hlen : recordLength bs with
      | none => rw [hlen] at h; cases h
      | some n =>
        rw [hlen] at h
        obtain ⟨r, rest, rfl, hr, rfl⟩ := recordLength_eq_some hlen
        dsimp only at h
        rw [List.drop_left] at h
        obtain ⟨records, tail, hrecords, hk, rfl⟩ := (ih rest).1 h
        exact ⟨r :: records, tail, List.forall_mem_cons.2 ⟨hr, hrecords⟩, congrArg (· + 1) hk,
          by rw [List.flatten_cons, List.append_assoc]⟩
    · rintro ⟨records, tail, hrecords, hk, rfl⟩
      cases records with
      | nil => cases hk
      | cons r records =>
        obtain ⟨hr, hrest⟩ := List.forall_mem_cons.1 hrecords
        rw [List.flatten_cons, List.append_assoc, recordLength_append hr]
        dsimp only
        rw [List.drop_left]
        exact (ih _).2 ⟨records, tail, hrest, Nat.succ.inj hk, rfl⟩

/-- The records before the sentinel of a table in sentinel form (R88, R237). -/
def SentinelTable (sentinel : Byte) (bs : List Byte) : Prop :=
  ∃ records : List (List Byte), (∀ r ∈ records, isRecord r) ∧ (∀ r ∈ records, r.head? ≠ some sentinel)
    ∧ ∃ tail, bs = records.flatten ++ sentinel :: tail

/-- R237, sentinel form: the sentinel stands at a record position. -/
theorem sentinelTable_of_sentinelRecords (sentinel : Byte) (k : Nat) (bs : List Byte)
    (h : sentinelRecords sentinel k bs = true) : SentinelTable sentinel bs := by
  induction k generalizing bs with
  | zero => cases h
  | succ k ih =>
    cases bs with
    | nil => cases h
    | cons b bs =>
      rw [sentinelRecords, Bool.or_eq_true] at h
      by_cases hb : b = sentinel
      · subst hb
        exact ⟨[], nofun, nofun, bs, rfl⟩
      · replace h := h.resolve_left fun he => hb (eq_of_beq he)
        cases hlen : recordLength (b :: bs) with
        | none => rw [hlen] at h; cases h
        | some n =>
          rw [hlen] at h
          obtain ⟨r, rest, hbytes, hr, rfl⟩ := recordLength_eq_some hlen
          dsimp only at h
          rw [hbytes, List.drop_left] at h
          obtain ⟨records, hrecords, hheads, tail, rfl⟩ := ih rest h
          obtain ⟨b', r', rfl⟩ := isRecord_ne_nil hr
          have hhead : b = b' := (List.cons.inj hbytes).1
          refine ⟨(b' :: r') :: records, List.forall_mem_cons.2 ⟨hr, hrecords⟩, List.forall_mem_cons.2 ⟨?_, hheads⟩, tail, ?_⟩
          · exact fun he => hb (hhead.trans (Option.some.inj he))
          · rw [hbytes, List.flatten_cons, List.append_assoc]

theorem sentinelRecords_of_sentinelTable (sentinel : Byte) (k : Nat) (bs : List Byte) (hk : bs.length ≤ k)
    (h : SentinelTable sentinel bs) : sentinelRecords sentinel k bs = true := by
  induction k generalizing bs with
  | zero =>
    obtain ⟨records, -, -, tail, rfl⟩ := h
    simp at hk
  | succ k ih =>
    obtain ⟨records, hrecords, hheads, tail, rfl⟩ := h
    cases records with
    | nil =>
      show (sentinel == sentinel || _) = true
      rw [beq_self_eq_true, Bool.true_or]
    | cons r records =>
      obtain ⟨hr, hrest⟩ := List.forall_mem_cons.1 hrecords
      replace hheads := (List.forall_mem_cons.1 hheads).2
      have hlen := recordLength_append hr (records.flatten ++ sentinel :: tail)
      obtain ⟨b, r', rfl⟩ := isRecord_ne_nil hr
      rw [List.flatten_cons, List.append_assoc] at hk ⊢
      have hnext := ih (records.flatten ++ sentinel :: tail)
        (by rw [List.cons_append, List.length_cons, List.length_append] at hk; omega) ⟨records, hrest, hheads, tail, rfl⟩
      rw [List.cons_append, sentinelRecords, ← List.cons_append, hlen]
      dsimp only
      rw [List.drop_left, hnext, Bool.or_true]

/-- Well-formedness in the words of the statement (R231, R237). -/
theorem tableWf_iff (p : Params) (form : TableForm) (table : List Byte) :
    tableWf p form table = true ↔ ∃ records : List (List Byte), (∀ r ∈ records, isRecord r) ∧
      match form with
      | .counted => ∃ k tail, table = k :: (records.flatten ++ tail) ∧ records.length = k.toNat
      | .sentinel => (∀ r ∈ records, r.head? ≠ some p.initSentinel)
          ∧ ∃ tail, table = records.flatten ++ p.initSentinel :: tail := by
  cases form with
  | sentinel =>
    exact ⟨sentinelTable_of_sentinelRecords p.initSentinel _ table,
      sentinelRecords_of_sentinelTable p.initSentinel _ table (Nat.le_refl _)⟩
  | counted =>
    cases table with
    | nil =>
      refine ⟨nofun, ?_⟩
      rintro ⟨records, -, k, tail, htable, -⟩
      cases htable
    | cons k bs =>
      refine (countedRecords_iff k.toNat bs).trans ?_
      constructor
      · rintro ⟨records, tail, hrecords, hk, rfl⟩
        exact ⟨records, hrecords, k, tail, rfl, hk⟩
      · rintro ⟨records, hrecords, k', tail, htable, hk⟩
        obtain ⟨rfl, rfl⟩ := List.cons.inj htable
        exact ⟨records, tail, hrecords, hk, rfl⟩

/-- Settles O48: RUNINIT asks for a well-formed table. -/
theorem runInitStartsOrRefuses : Obligations.RunInitStartsOrRefuses := by
  intro s table form wellFormed hwf
  have hiff : wellFormed ↔ tableWf s.params form table = true := hwf.trans (tableWf_iff s.params form table).symm
  refine ⟨fun h => ?_, fun h => ?_⟩
  · refine (if_pos (hiff.1 h)).trans ?_
    cases form <;> rfl
  · exact if_neg fun h' => h (hiff.2 h')

/-! ## Whole runs -/

/-- The running task is in the middle of nothing and undisturbed, and the display is ready. -/
structure Walking (s : State) : Prop where
  sched : s.sched = []
  spin : s.task.spin = none
  op : s.task.op = none
  ready : displayReady s

theorem step_of_walking {s s' : State} {i : Instr} (h : Walking s) (hf : fetch s = .instr i s') : step s = exec i s' := by
  unfold step
  rw [switchTask_of_no_turn h.sched, budget_eq_none h.sched, hf]
  exact beginInstr_whole (.inl rfl)

/-- What a run keeps, step by step: the caller's memory, both depths, the parameters. -/
structure RunKeeps (s t : State) : Prop where
  memory : ∀ a, t.mem.read a = s.mem.read a
  irqDepth : t.irqDepth = s.irqDepth
  suspendDepth : t.suspendDepth = s.suspendDepth
  params : t.params = s.params

theorem RunKeeps.refl (s : State) : RunKeeps s s := ⟨fun _ => rfl, rfl, rfl, rfl⟩

theorem RunKeeps.trans {s t u : State} (h1 : RunKeeps s t) (h2 : RunKeeps t u) : RunKeeps s u :=
  ⟨fun a => (h2.memory a).trans (h1.memory a), h2.irqDepth.trans h1.irqDepth, h2.suspendDepth.trans h1.suspendDepth,
    h2.params.trans h1.params⟩

/-- A run is over, `n` bytes further on. -/
structure RunEnded (s t : State) (n : Nat) : Prop where
  keeps : RunKeeps s t
  phase : t.task.seq.phase = .idle
  result : t.task.result = some (.ok .none)
  tp : t.task.seq.tp = s.task.seq.tp + n

theorem RunEnded.after {s t u : State} {m n : Nat} (h : RunEnded t u n) (hkeeps : RunKeeps s t)
    (htp : t.task.seq.tp = s.task.seq.tp + m) : RunEnded s u (m + n) :=
  ⟨hkeeps.trans h.keeps, h.phase, h.result, by rw [h.tp, htp, Nat.add_assoc]⟩

theorem core_run_succ {M : Host.Core} {s t : M.State} {k : Nat} (h : M.step s = .next t) : M.run (k + 1) s = M.run k t := by
  rw [Host.Core.run, h]

theorem run_succ {s t : State} {k : Nat} (h : step s = .next t) : Host.Core.run core (k + 1) s = Host.Core.run core k t :=
  core_run_succ (M := core) h

theorem RecordCarried.keeps {s t : State} {n : Nat} (h : RecordCarried s t n) : RunKeeps s t :=
  ⟨h.leaves.memory, h.leaves.irqDepth, h.leaves.suspendDepth, h.leaves.params⟩

theorem RecordCarried.walking {s t : State} {n : Nat} (h : RecordCarried s t n) (hs : Walking s) : Walking t := by
  obtain ⟨-, hsched, -, hop, hspin⟩ := h.leaves.tasks
  exact ⟨hsched.trans hs.sched, hspin.trans hs.spin, hop.trans hs.op, h.ready⟩

theorem RecordCarried.tableRest {s t : State} {r rest : List Byte} (h : RecordCarried s t r.length)
    (hs : s.tableRest = r ++ rest) : t.tableRest = rest := by
  have hbytes : s.task.seq.table.drop s.task.seq.tp = r ++ rest := hs
  rw [State.tableRest, h.seq]
  show s.task.seq.table.drop (s.task.seq.tp + r.length) = rest
  rw [← List.drop_drop, hbytes, List.drop_left]

/-- A step at a record that is none of the sentinel's (R231). -/
theorem record_step {s : State} {r rest : List Byte} (h : Walking s) (hphase : s.task.seq.phase = .record)
    (hr : isRecord r) (hrest : s.tableRest = r ++ rest)
    (hnot : s.task.seq.form = .sentinel → r.head? ≠ some s.params.initSentinel) :
    ∃ t, step s = .next t ∧ RecordCarried s t r.length := by
  obtain ⟨i, hdecode, hi⟩ := decode_record s.params (r ++ rest) r.length (recordLength_append hr rest)
  have hform : decode s.params (.initrec s.task.seq.form) (r ++ rest) =
      decode s.params (.initrec .counted) (r ++ rest) := by
    obtain ⟨b, bs, rfl⟩ := isRecord_ne_nil hr
    rw [List.cons_append, decode_initrec_of_not_sentinel fun hs => hnot hs.1 (congrArg some hs.2),
      decode_initrec_of_not_sentinel (form := .counted) fun hs => nomatch hs.1]
  rw [← hrest] at hform
  rw [← hrest, ← hform] at hdecode
  obtain ⟨t, ht, hcarried⟩ := record_carried h.ready hphase hi
  refine ⟨t, ?_, hcarried⟩
  rw [step_of_walking h ((fetch_of_record h.spin h.op hphase).trans (fetchItem_of_ok hdecode)), ht]

/-- Where a counted run stands by the records it has left (R231). -/
structure CountedStands (s : State) : Prop where
  form : s.task.seq.form = .counted
  finished : s.task.seq.remaining = 0 → s.task.seq.phase = .idle ∧ s.task.result = some (.ok .none)
  goesOn : s.task.seq.remaining ≠ 0 → s.task.seq.phase = .record

/-- After an item of a counted table. -/
theorem countedStands_of_item {s : State} {q : Seq} {n remaining : Nat} {r : Option OpResult} (hform : q.form = .counted)
    (hseq : s.task.seq = afterItem q n remaining)
    (hresult : s.task.result = if q.form = .counted ∧ remaining = 0 then some (.ok .none) else r) : CountedStands s := by
  have hrem : s.task.seq.remaining = remaining := by rw [hseq]; rfl
  refine ⟨by rw [hseq]; exact hform, fun hzero => ⟨?_, ?_⟩, fun hpos => ?_⟩
  · rw [hseq]
    exact if_pos ⟨hform, hrem.symm.trans hzero⟩
  · rw [hresult, if_pos ⟨hform, hrem.symm.trans hzero⟩]
  · rw [hseq]
    exact if_neg fun hz => hpos (hrem.trans hz.2)

/-- A counted run from a record position: one step for each record that is left. -/
theorem counted_run (records : List (List Byte)) (tail : List Byte) {s : State} (h : Walking s) (hstands : CountedStands s)
    (hrecords : ∀ r ∈ records, isRecord r) (hrem : s.task.seq.remaining = records.length)
    (hrest : s.tableRest = records.flatten ++ tail) :
    ∃ t, Host.Core.run core records.length s = .next t ∧ RunEnded s t records.flatten.length
      ∧ t.task.seq.remaining = 0 := by
  induction records generalizing s with
  | nil =>
    obtain ⟨hphase, hresult⟩ := hstands.finished hrem
    exact ⟨s, rfl, ⟨.refl s, hphase, hresult, rfl⟩, hrem⟩
  | cons r records ih =>
    obtain ⟨hr, hrecords⟩ := List.forall_mem_cons.1 hrecords
    have hphase := hstands.goesOn (by rw [hrem]; exact Nat.succ_ne_zero _)
    rw [List.flatten_cons, List.append_assoc] at hrest
    obtain ⟨t, ht, hcarried⟩ := record_step h hphase hr hrest fun hs => by rw [hstands.form] at hs; cases hs
    have hfewer : oneFewer s.task.seq = records.length := by
      rw [oneFewer, if_pos hstands.form, hrem]
      rfl
    have hseq := hcarried.seq
    have hremaining : t.task.seq.remaining = records.length := by rw [hseq]; exact hfewer
    obtain ⟨u, hu, hended, hzero⟩ := ih (hcarried.walking h)
      (countedStands_of_item hstands.form hseq hcarried.result) hrecords hremaining (hcarried.tableRest hrest)
    refine ⟨u, ?_, ?_, hzero⟩
    · rw [List.length_cons, run_succ ht, hu]
    · rw [List.flatten_cons, List.length_append]
      exact hended.after hcarried.keeps (by rw [hseq]; rfl)

/-- The header of a counted table is one step (R83). -/
theorem header_step {s : State} {k : Byte} {bs : List Byte} (h : Walking s) (hphase : s.task.seq.phase = .header)
    (hrest : s.tableRest = k :: bs) :
    step s = .next { s with task := { s.task with
      seq := afterItem s.task.seq 1 k.toNat
      result := if s.task.seq.form = .counted ∧ k = 0 then some (.ok .none) else s.task.result } } := by
  have hdecode : decode s.params .inithdr s.tableRest = .ok (.inithdr k, bs) := by rw [hrest]; rfl
  rw [step_of_walking h ((fetch_of_header h.spin h.op hphase).trans (fetchItem_of_ok hdecode))]
  exact (headerAndSentinelMoveCursor s k).1

/-- The sentinel of a sentinel-form table is one step (R88). -/
theorem sentinel_step {s : State} {bs : List Byte} (h : Walking s) (hphase : s.task.seq.phase = .record)
    (hform : s.task.seq.form = .sentinel) (hrest : s.tableRest = s.params.initSentinel :: bs) :
    step s = .next { s with task := { s.task with
      seq := { s.task.seq with tp := s.task.seq.tp + 1, phase := .idle }, result := some (.ok .none) } } := by
  have hdecode : decode s.params (.initrec s.task.seq.form) s.tableRest = .ok (.initend, bs) := by
    rw [hrest, hform]
    exact reads_sentinel s.params bs
  rw [step_of_walking h ((fetch_of_record h.spin h.op hphase).trans (fetchItem_of_ok hdecode))]
  exact (headerAndSentinelMoveCursor s 0).2

/-- A run in sentinel form from a record position: one step for each record, and one for the sentinel. -/
theorem sentinel_run (records : List (List Byte)) (tail : List Byte) {s : State} (h : Walking s)
    (hphase : s.task.seq.phase = .record) (hform : s.task.seq.form = .sentinel) (hrecords : ∀ r ∈ records, isRecord r)
    (hheads : ∀ r ∈ records, r.head? ≠ some s.params.initSentinel)
    (hrest : s.tableRest = records.flatten ++ s.params.initSentinel :: tail) :
    ∃ t, Host.Core.run core (records.length + 1) s = .next t ∧ RunEnded s t (records.flatten.length + 1) := by
  induction records generalizing s with
  | nil =>
    exact ⟨_, (run_succ (sentinel_step h hphase hform hrest)).trans rfl, ⟨fun _ => rfl, rfl, rfl, rfl⟩, rfl, rfl, rfl⟩
  | cons r records ih =>
    obtain ⟨hr, hrecords⟩ := List.forall_mem_cons.1 hrecords
    obtain ⟨hhead, hheads⟩ := List.forall_mem_cons.1 hheads
    rw [List.flatten_cons, List.append_assoc] at hrest
    obtain ⟨t, ht, hcarried⟩ := record_step h hphase hr hrest fun _ => hhead
    have hseq := hcarried.seq
    have hparams := hcarried.leaves.params
    have hnext : t.task.seq.phase = .record := by
      rw [hseq]
      exact if_neg fun hc => by rw [hform] at hc; cases hc.1
    obtain ⟨u, hu, hended⟩ := ih (hcarried.walking h) hnext (by rw [hseq]; exact hform) hrecords
      (by rwa [hparams]) (by rw [hparams]; exact hcarried.tableRest hrest)
    refine ⟨u, ?_, ?_⟩
    · rw [List.length_cons, run_succ ht, hu]
    · rw [List.flatten_cons, List.length_append, Nat.add_assoc]
      exact hended.after hcarried.keeps (by rw [hseq]; rfl)

/-- Settles O51: the header and then the records, or the records and then the sentinel. -/
theorem countedTableRunsToItsEnd : Obligations.CountedTableRunsToItsEnd := by
  intro s table tail records hsched hspin hop hr hrecords
  have hwalking : Walking s := ⟨hsched, hspin, hop, hr⟩
  refine ⟨fun k htable hk hseq => ?counted, fun htable hheads hseq => ?sentinel⟩
  case counted =>
    have hrest : s.tableRest = k :: (records.flatten ++ tail) := by rw [State.tableRest, hseq]; exact htable
    have hstep := header_step hwalking (by rw [hseq]) hrest
    have hform : s.task.seq.form = .counted := by rw [hseq]
    have htp : s.task.seq.tp = 0 := by rw [hseq]
    have hzero : k = 0 ↔ k.toNat = 0 := ⟨fun h => h ▸ rfl, fun h => BitVec.eq_of_toNat_eq h⟩
    generalize hs1 : ({ s with task := { s.task with
      seq := afterItem s.task.seq 1 k.toNat
      result := if s.task.seq.form = .counted ∧ k = 0 then some (.ok .none) else s.task.result } } : State) = s1 at hstep
    have hkeeps : RunKeeps s s1 := by rw [← hs1]; exact ⟨fun _ => rfl, rfl, rfl, rfl⟩
    have hseq1 : s1.task.seq = afterItem s.task.seq 1 k.toNat := by rw [← hs1]
    have hwalking1 : Walking s1 := by rw [← hs1]; exact ⟨hsched, hspin, hop, hr⟩
    have hstands : CountedStands s1 := countedStands_of_item hform hseq1 (r := s.task.result) (by
      rw [← hs1]
      exact if_congr (and_congr_right fun _ => hzero) rfl rfl)
    have hrest1 : s1.tableRest = records.flatten ++ tail := by
      rw [State.tableRest, hseq1, hseq]
      exact congrArg (List.drop 1) htable
    obtain ⟨t, ht, hended, hremaining⟩ := counted_run records tail hwalking1 hstands hrecords
      (by rw [hseq1]; exact hk.symm) hrest1
    obtain ⟨hkept, hphase, hresult, htpt⟩ := hended.after (m := 1) hkeeps (by rw [hseq1]; rfl)
    refine ⟨t, ?_, hphase, hresult, ?_, hremaining, hkept.memory, hkept.irqDepth, hkept.suspendDepth⟩
    · rw [Nat.add_comm, run_succ hstep, ht]
    · rw [htpt, htp, Nat.zero_add]
  case sentinel =>
    have hrest : s.tableRest = records.flatten ++ s.params.initSentinel :: tail := by
      rw [State.tableRest, hseq]
      exact htable
    obtain ⟨t, ht, ⟨hkept, hphase, hresult, htp⟩⟩ :=
      sentinel_run records tail hwalking (by rw [hseq]) (by rw [hseq]) hrecords hheads hrest
    refine ⟨t, ht, hphase, hresult, ?_, hkept.memory, hkept.irqDepth, hkept.suspendDepth⟩
    rw [htp, hseq, Nat.zero_add]

end Sys2Proof.Machine.Laws

/-! # The register map (R39, R65, R66) -/

namespace Sys2Proof.Machine.Laws

open Sys2Proof.Safety

/-! ## Places of fields -/

/-- Two fields share no bit of a register. -/
def bitsApart (f g : RegField) : Prop :=
  f.place.2.1 + f.place.2.2 ≤ g.place.2.1 ∨ g.place.2.1 + g.place.2.2 ≤ f.place.2.1

theorem mem_allFields (f : RegField) : f ∈ allFields := by
  cases f with
  | w i =>
    refine List.mem_append_right _ (List.mem_map.2 ⟨i.val, List.mem_range.2 i.isLt, ?_⟩)
    exact congrArg RegField.w (Fin.ofNat_val_eq_self i)
  | _ => exact List.mem_append_left _ (by simp [controlFields])

theorem allFields_apart : allFields.Pairwise fun f g => f.place.1 = g.place.1 →
    f.place.2.1 + f.place.2.2 ≤ g.place.2.1 ∨ g.place.2.1 + g.place.2.2 ≤ f.place.2.1 := by
  decide

theorem allFields_nodup : allFields.Nodup := by decide

theorem mem_fieldsAt {f : RegField} {off : Nat} : f ∈ fieldsAt off ↔ f.place.1 = off := by
  rw [fieldsAt, List.mem_filter, beq_iff_eq, and_iff_right (mem_allFields f)]

theorem fieldsAt_nodup (off : Nat) : (fieldsAt off).Nodup := allFields_nodup.filter _

theorem fieldsAt_apart (off : Nat) : (fieldsAt off).Pairwise bitsApart := by
  refine (allFields_apart.filter _).imp_of_mem fun hf hg h => h ?_
  rw [mem_fieldsAt.1 hf, mem_fieldsAt.1 hg]

/-- A place lies inside a register, and has a bit. -/
theorem place_le (f : RegField) : f.place.2.1 + f.place.2.2 ≤ 32 := by
  cases f with
  | w i => exact Nat.le_refl 32
  | _ => decide

/-! ## A field out of a word and into it -/

theorem getLsbD_lowMask (width k : Nat) (hw : width ≤ 32) : (lowMask width).getLsbD k = decide (k < width) := by
  rw [lowMask, BitVec.getLsbD_ofNat, Nat.testBit_two_pow_sub_one, Bool.and_eq_right_iff_imp]
  simp only [decide_eq_true_eq]
  omega

theorem getLsbD_extractField (v : Word) (f : RegField) (k : Nat) :
    (extractField v f).getLsbD k = (decide (k < f.place.2.2) && v.getLsbD (f.place.2.1 + k)) := by
  have hle := place_le f
  rw [extractField, BitVec.getLsbD_and, BitVec.getLsbD_ushiftRight, getLsbD_lowMask _ _ (by omega), Bool.and_comm]

theorem extractField_toNat (v : Word) (f : RegField) :
    (extractField v f).toNat = v.toNat / 2 ^ f.place.2.1 % 2 ^ f.place.2.2 := by
  have hle := place_le f
  apply Nat.eq_of_testBit_eq
  intro k
  rw [Nat.testBit_mod_two_pow, Nat.testBit_div_two_pow]
  exact (getLsbD_extractField v f k).trans (by rw [Nat.add_comm]; rfl)

theorem getLsbD_insertField (acc x : Word) (f : RegField) {k : Nat} (hk : k < 32) :
    (insertField acc f x).getLsbD k =
      if f.place.2.1 ≤ k ∧ k < f.place.2.1 + f.place.2.2 then x.getLsbD (k - f.place.2.1) else acc.getLsbD k := by
  have hle := place_le f
  simp only [insertField, BitVec.getLsbD_or, BitVec.getLsbD_and, BitVec.getLsbD_not, BitVec.getLsbD_shiftLeft,
    getLsbD_lowMask _ _ (show f.place.2.2 ≤ 32 by omega), hk, decide_true, Bool.true_and]
  by_cases hlow : f.place.2.1 ≤ k
  · by_cases hhigh : k < f.place.2.1 + f.place.2.2
    · have hin : k - f.place.2.1 < f.place.2.2 := by omega
      simp [hlow, hhigh, hin, Nat.not_lt.2 hlow]
    · have hout : ¬k - f.place.2.1 < f.place.2.2 := by omega
      simp [hhigh, hout]
  · simp [hlow, Nat.lt_of_not_le hlow]

/-- A value that fits its field. -/
def fits (f : RegField) (x : Word) : Prop := ∀ k, f.place.2.2 ≤ k → x.getLsbD k = false

theorem extractField_insertField_self {acc x : Word} {f : RegField} (hx : fits f x) :
    extractField (insertField acc f x) f = x := by
  have hle := place_le f
  apply BitVec.eq_of_getLsbD_eq
  intro k hk
  rw [getLsbD_extractField]
  by_cases hw : k < f.place.2.2
  · rw [getLsbD_insertField _ _ _ (by omega), if_pos (by omega), Nat.add_sub_cancel_left]
    simp [hw]
  · rw [hx k (by omega)]
    simp [hw]

theorem extractField_insertField_apart {acc x : Word} {f g : RegField} (h : bitsApart f g) :
    extractField (insertField acc g x) f = extractField acc f := by
  have hle := place_le f
  unfold bitsApart at h
  apply BitVec.eq_of_getLsbD_eq
  intro k hk
  rw [getLsbD_extractField, getLsbD_extractField]
  by_cases hw : k < f.place.2.2
  · rw [getLsbD_insertField _ _ _ (by omega), if_neg (by omega)]
  · simp [hw]

theorem extractField_foldl_apart (val : RegField → Word) (f : RegField) (gs : List RegField) (acc : Word)
    (h : ∀ g ∈ gs, bitsApart f g) :
    extractField (gs.foldl (fun acc g => insertField acc g (val g)) acc) f = extractField acc f := by
  induction gs generalizing acc with
  | nil => rfl
  | cons g gs ih =>
    obtain ⟨hg, hgs⟩ := List.forall_mem_cons.1 h
    rw [List.foldl_cons, ih _ hgs, extractField_insertField_apart hg]

/-- A register put together from fields that share no bit gives each field back. -/
theorem extractField_foldl_mem {val : RegField → Word} {f : RegField} {gs : List RegField} (acc : Word)
    (hval : fits f (val f)) (h : gs.Pairwise bitsApart) (hf : f ∈ gs) :
    extractField (gs.foldl (fun acc g => insertField acc g (val g)) acc) f = val f := by
  induction gs generalizing acc with
  | nil => cases hf
  | cons g gs ih =>
    obtain ⟨hg, hgs⟩ := List.pairwise_cons.1 h
    rw [List.foldl_cons]
    obtain rfl | hf := List.mem_cons.1 hf
    · rw [extractField_foldl_apart val f gs _ hg, extractField_insertField_self hval]
    · exact ih _ hgs hf

/-! ## Storing and reading a field -/

theorem fits_bitWord {f : RegField} (hw : f.place.2.2 = 1) (b : Bool) : fits f (bitWord b) := by
  intro k hk
  rw [hw] at hk
  cases b with
  | false => exact BitVec.getLsbD_zero
  | true =>
    show (1#32).getLsbD k = false
    rw [BitVec.getLsbD_one]
    simp only [Bool.and_eq_false_imp, decide_eq_false_iff_not]
    omega

theorem fits_word {f : RegField} (hw : f.place.2.2 = 32) (v : Word) : fits f v :=
  fun k hk => BitVec.getLsbD_of_ge v k (hw ▸ hk)

theorem fits_setWidth {f : RegField} (hw : f.place.2.2 = 24) (v : BitVec 24) : fits f (v.setWidth 32) := by
  intro k hk
  rw [BitVec.getLsbD_setWidth, BitVec.getLsbD_of_ge v k (hw ▸ hk), Bool.and_false]

theorem fits_get (r : PeriphRegs) (f : RegField) : fits f (r.get f) := by
  cases f with
  | w i => exact fits_word rfl _
  | clock => exact fits_word rfl _
  | mosiDlen => exact fits_setWidth rfl _
  | misoDlen => exact fits_setWidth rfl _
  | _ => exact fits_bitWord rfl _

theorem regFile_get_put_ne (r : RegFile) {f g : RegField} (v : Word) (h : f ≠ g) : (r.put g v).get f = r.get f := by
  cases g with
  | w i =>
    cases f with
    | w j =>
      have hne : i.val ≠ j.val := fun he => h (congrArg RegField.w (Fin.ext he.symm))
      exact Vector.getElem_set_ne i.isLt j.isLt hne
    | _ => rfl
  | _ => cases f <;> simp_all [RegFile.put, RegFile.get]

theorem start_toRegFile (r : PeriphRegs) (b : Bool) : (r.start b).toRegFile = r.toRegFile := by
  unfold PeriphRegs.start
  split <;> rfl

theorem get_of_ne_cmdUsr (r : PeriphRegs) {f : RegField} (h : f ≠ .cmdUsr) : r.get f = r.toRegFile.get f := if_neg h

theorem get_put_ne (r : PeriphRegs) {f g : RegField} (v : Word) (h : f ≠ g) : (r.put g v).get f = r.get f := by
  by_cases hg : g = .cmdUsr
  · subst hg
    have hput : r.put .cmdUsr v = r.start (v.getLsbD 0) := if_pos rfl
    rw [hput, get_of_ne_cmdUsr _ h, get_of_ne_cmdUsr _ h, start_toRegFile]
  · have hput : r.put g v = { r with toRegFile := r.toRegFile.put g v } := if_neg hg
    rw [hput]
    by_cases hf : f = .cmdUsr
    · subst hf
      rfl
    · rw [get_of_ne_cmdUsr _ hf, get_of_ne_cmdUsr _ hf]
      exact regFile_get_put_ne r.toRegFile v h

theorem bitWord_getLsbD_zero (v : Word) : (bitWord (v.getLsbD 0)).toNat = v.toNat % 2 := by
  have hbit : v.getLsbD 0 = decide (v.toNat % 2 = 1) := Nat.testBit_zero v.toNat
  rw [hbit]
  obtain h | h := Nat.mod_two_eq_zero_or_one v.toNat
  · rw [h]
    rfl
  · rw [h]
    rfl

/-- A field keeps the low bits of what is stored into it. -/
theorem get_put_self (r : PeriphRegs) {f : RegField} (v : Word) (hf : f ≠ .cmdUsr) :
    ((r.put f v).get f).toNat = v.toNat % 2 ^ f.place.2.2 := by
  have hput : r.put f v = { r with toRegFile := r.toRegFile.put f v } := if_neg hf
  rw [hput, get_of_ne_cmdUsr _ hf]
  show ((r.toRegFile.put f v).get f).toNat = _
  have hmask : (v.setWidth 24 : BitVec 24).toNat = v.toNat % 2 ^ 24 := BitVec.toNat_setWidth 24 v
  have hlen : ((v.setWidth 24 : BitVec 24).setWidth 32).toNat = v.toNat % 2 ^ 24 := by
    rw [BitVec.toNat_setWidth, hmask]
    omega
  cases f with
  | w i =>
    have hset : (r.toRegFile.put (.w i) v).get (.w i) = v := Vector.getElem_set_self i.isLt
    rw [hset]
    exact (Nat.mod_eq_of_lt v.isLt).symm
  | cmdUsr => exact absurd rfl hf
  | clock => exact (Nat.mod_eq_of_lt v.isLt).symm
  | mosiDlen => exact hlen
  | misoDlen => exact hlen
  | _ => exact bitWord_getLsbD_zero v

/-! ## A whole register -/

theorem get_foldl_put_not_mem (val : RegField → Word) (f : RegField) (gs : List RegField) (r : PeriphRegs) (h : f ∉ gs) :
    (gs.foldl (fun acc g => acc.put g (val g)) r).get f = r.get f := by
  induction gs generalizing r with
  | nil => rfl
  | cons g gs ih =>
    obtain ⟨hg, hgs⟩ := not_or.1 (mt List.mem_cons.2 h)
    rw [List.foldl_cons, ih _ hgs, get_put_ne _ _ hg]

theorem get_foldl_put_mem {val : RegField → Word} {f : RegField} {gs : List RegField} (r : PeriphRegs) (hf : f ≠ .cmdUsr)
    (hnodup : gs.Nodup) (hmem : f ∈ gs) :
    ((gs.foldl (fun acc g => acc.put g (val g)) r).get f).toNat = (val f).toNat % 2 ^ f.place.2.2 := by
  induction gs generalizing r with
  | nil => cases hmem
  | cons g gs ih =>
    obtain ⟨hg, hgs⟩ := List.nodup_cons.1 hnodup
    rw [List.foldl_cons]
    obtain rfl | hmem := List.mem_cons.1 hmem
    · rw [get_foldl_put_not_mem val f gs _ hg, get_put_self _ _ hf]
    · exact ih _ hgs hmem

/-- A write that answers stores every field of its register. -/
theorem busWrite_eq_some {r r' : PeriphRegs} {off : Nat} {v : Word} (h : r.busWrite off v = some r') :
    r' = (fieldsAt off).foldl (fun acc f => acc.put f (extractField v f)) r := by
  unfold PeriphRegs.busWrite at h
  split at h
  · exact (Option.some.inj h).symm
  · cases h

theorem get_of_busWrite {r r' : PeriphRegs} {f : RegField} {v : Word} (hf : f ≠ .cmdUsr)
    (h : r.busWrite f.place.1 v = some r') :
    (r'.get f).toNat = v.toNat / 2 ^ f.place.2.1 % 2 ^ f.place.2.2 := by
  rw [busWrite_eq_some h, get_foldl_put_mem r hf (fieldsAt_nodup _) (mem_fieldsAt.2 rfl), extractField_toNat, Nat.mod_mod]

theorem get_of_busWrite_elsewhere {r r' : PeriphRegs} {f : RegField} {off : Nat} {v : Word} (hoff : off ≠ f.place.1)
    (h : r.busWrite off v = some r') : r'.get f = r.get f := by
  rw [busWrite_eq_some h]
  exact get_foldl_put_not_mem _ f _ r fun hmem => hoff (mem_fieldsAt.1 hmem).symm

theorem get_of_busRead {r : PeriphRegs} {f : RegField} {v : Word} (h : r.busRead f.place.1 = some v) :
    v.toNat / 2 ^ f.place.2.1 % 2 ^ f.place.2.2 = (r.get f).toNat := by
  unfold PeriphRegs.busRead at h
  split at h
  · rw [← Option.some.inj h, ← extractField_toNat]
    exact congrArg BitVec.toNat
      (extractField_foldl_mem (val := r.get) _ (fits_get r f) (fieldsAt_apart _) (mem_fieldsAt.2 rfl))
  · cases h

theorem usr_start (r : PeriphRegs) (b : Bool) : (r.start b).usr = (r.usr || b) := by
  unfold PeriphRegs.start
  cases hr : r.usr with
  | true =>
    rw [Bool.not_true, Bool.and_false, if_neg Bool.false_ne_true, hr]
    rfl
  | false =>
    cases b with
    | true => rfl
    | false => exact hr

/-- R30: bit 18 of `CMD` starts a transaction. -/
theorem usr_of_busWrite {r r' : PeriphRegs} {v : Word} (h : r.busWrite 0 v = some r') :
    r'.usr = (r.usr || v.getLsbD 18) := by
  have hfields : fieldsAt 0 = [.cmdUsr] := by decide
  have hbit : (extractField v .cmdUsr).getLsbD 0 = v.getLsbD 18 := by
    rw [getLsbD_extractField]
    rfl
  have hput : r' = r.start ((extractField v .cmdUsr).getLsbD 0) := by
    rw [busWrite_eq_some h, hfields]
    rfl
  rw [hput, hbit, usr_start]

/-- The thirty rows of the map, in the order of the statement (R39). -/
def mapRows : List (RegField × Nat × Nat × Nat) :=
  ([(.cmdUsr, 0x00, 18, 1), (.ctrlRdBitOrder, 0x08, 25, 1), (.ctrlWrBitOrder, 0x08, 26, 1), (.clock, 0x18, 0, 32),
    (.userDoutdin, 0x1C, 0, 1), (.userCsHold, 0x1C, 4, 1), (.userCsSetup, 0x1C, 5, 1), (.userCkPhase, 0x1C, 7, 1),
    (.userUsrMosi, 0x1C, 27, 1), (.userUsrMiso, 0x1C, 28, 1), (.mosiDlen, 0x28, 0, 24), (.misoDlen, 0x2C, 0, 24),
    (.pinCkIdle, 0x34, 29, 1), (.slaveMode, 0x38, 30, 1)] : List (RegField × Nat × Nat × Nat))
    ++ (List.range 16).map fun i => (.w (Fin.ofNat 16 i), 0x80 + 4 * i, 0, 32)

theorem place_of_row {f : RegField} {off low width : Nat} (h : (f, off, low, width) ∈ mapRows) :
    f.place = (off, low, width) := by
  have hrows : ∀ row ∈ mapRows, row.1.place = row.2 := by decide
  exact hrows _ h

theorem clockEqu_iff (v : Word) : clockEqu v = true ↔ v.toNat / 2 ^ 31 = 1 := by
  have hbit : clockEqu v = decide (v.toNat / 2 ^ 31 % 2 = 1) := Nat.testBit_eq_decide_div_mod_eq
  rw [hbit, decide_eq_true_iff]
  omega

/-- Settles O59: each field by its place, each register by its fields. -/
theorem registerMapPlacesFields : Obligations.RegisterMapPlacesFields := by
  intro r
  refine ⟨fun f off low width hrow => ?rows, fun v r' h => usr_of_busWrite h, fun v => ?clock, fun off hoff => ?aligned,
    fun off hoff => ?misaligned⟩
  case rows =>
    have hplace := place_of_row hrow
    obtain rfl : f.place.1 = off := congrArg Prod.fst hplace
    obtain rfl : f.place.2.1 = low := congrArg (·.2.1) hplace
    obtain rfl : f.place.2.2 = width := congrArg (·.2.2) hplace
    exact ⟨fun v r' hf h => get_of_busWrite hf h, fun off' v r' hne h => get_of_busWrite_elsewhere hne h,
      fun v h => get_of_busRead h⟩
  case clock =>
    obtain ⟨hl, hh, hn, hpre⟩ := clock_fields v
    exact ⟨hl, hh, hn, hpre, clockEqu_iff v⟩
  case aligned =>
    refine ⟨by rw [PeriphRegs.busRead, if_pos hoff]; rfl, fun v hv => ?_⟩
    have hfree : ¬(off = 0 ∧ r.usr = true ∧ v.getLsbD 18 = true) := by
      rintro ⟨hzero, husr, hbit⟩
      obtain h | h | h := hv
      · exact h hzero
      · exact Bool.false_ne_true (h.symm.trans husr)
      · exact Bool.false_ne_true (h.symm.trans hbit)
    rw [PeriphRegs.busWrite, if_pos ⟨hoff, hfree⟩]
    rfl
  case misaligned => exact ⟨fun v => if_neg fun h => hoff h.1, if_neg hoff⟩

end Sys2Proof.Machine.Laws

/-! # Collaborators (R262 to R265), reset (R57, R280), words of the encoding tables -/

namespace Sys2Proof.Machine.Laws

open Sys2Proof.Safety

/-! ## Collaborators -/

/-- R262, R263: `gpioSetOutput` is three calls on one pin. -/
theorem gpioSetOutput_eq {s : State} {g : Nat} (hg : g < s.pins.length) :
    s.gpioSetOutput g = { s with
      pins := s.pins.set g { s.pin g with fn := .gpio, dir := .output, out := .gpioDriven }
      trace := s.trace ++ [.pinFunc g .gpio, .pinDir g .output, .routeOut g .gpioDriven] } := by
  have hself : ∀ (t : State) (q : PinState), t.pins = s.pins.set g q → t.pin g = q := fun t q ht => by
    rw [State.pin, ht, List.getD_eq_getElem _ _ (by rwa [List.length_set]), List.getElem_set_self]
  have hfn := hself (s.matrixSelectPinFunction g .gpio) { s.pin g with fn := .gpio } rfl
  have hdir := hself ((s.matrixSelectPinFunction g .gpio).gpioSetDirection g .output)
    { s.pin g with fn := .gpio, dir := .output } (by
      show (s.pins.set g _).set g { (s.matrixSelectPinFunction g .gpio).pin g with dir := .output } = _
      rw [List.set_set, hfn])
  have hpins : (s.gpioSetOutput g).pins =
      s.pins.set g { s.pin g with fn := .gpio, dir := .output, out := .gpioDriven } := by
    show ((s.pins.set g _).set g _).set g
      { ((s.matrixSelectPinFunction g .gpio).gpioSetDirection g .output).pin g with out := .gpioDriven } = _
    rw [List.set_set, List.set_set, hdir]
  have htrace : (s.gpioSetOutput g).trace =
      s.trace ++ [.pinFunc g .gpio, .pinDir g .output, .routeOut g .gpioDriven] := by
    show ((s.trace ++ [_]) ++ [_]) ++ [_] = _
    rw [List.append_assoc, List.append_assoc]
    rfl
  rw [← hpins, ← htrace]
  rfl

/-- Settles O58: each call by its meaning. -/
theorem collaboratorCalls : Obligations.CollaboratorCalls := by
  intro s g d m v f r src p
  have hmax : ∀ n : Nat, max n 0 = n := Nat.max_zero
  refine ⟨rfl, rfl, rfl, gpioSetOutput_eq, rfl, rfl, rfl, rfl, ?_, rfl, ?_, fun ms => rfl⟩
  · rw [hmax]
    rfl
  · rw [hmax]
    rfl

/-! ## Reset -/

theorem unit_initial (p : Params) (u : Nat) : (State.initial p).unit u = .zero := by
  have hget : (List.replicate p.unitCount UnitRec.zero).getD (u - p.firstUnit) .zero = .zero := by
    rw [List.getD_eq_getElem?_getD, List.getElem?_replicate]
    split <;> rfl
  show (if p.inRange u then (List.replicate p.unitCount UnitRec.zero).getD (u - p.firstUnit) .zero else .zero) = _
  rw [hget, ite_self]

theorem busy_initial (p : Params) (q : Fin 4) : (State.initial p).busy q = false := by
  have hget : (State.initial p).periph q = .initial := Vector.getElem_replicate q.isLt
  rw [State.busy, hget]
  rfl

theorem lockOwner_initial (p : Params) (g : Nat) : (State.initial p).lockOwner g = none := by
  show (List.replicate p.npins (none : Option Nat)).getD g none = none
  rw [List.getD_eq_getElem?_getD, List.getElem?_replicate]
  split <;> rfl

/-- Settles O7: field by field. -/
theorem resetState : Obligations.ResetState := by
  rintro p _ rfl
  exact ⟨unit_initial p, rfl, busy_initial p, lockOwner_initial p, rfl, rfl, rfl, rfl, rfl⟩

theorem shape_initial {p : Params} (hp : p.wf = true) : Shape (State.initial p) where
  params := hp
  sized := ⟨List.length_replicate, List.length_replicate, List.length_replicate⟩
  last := nofun
  pins u := by
    have hpins : 0 < p.npins := by
      simp only [Params.wf, Bool.and_eq_true, decide_eq_true_eq] at hp
      omega
    rw [unit_initial]
    exact pinsOk_iff.2 ⟨hpins, hpins, hpins, hpins⟩
  mem := rfl

theorem consistent_initial (p : Params) : Consistent (State.initial p) where
  divisor u _ := .inl (by rw [unit_initial]; rfl)
  holder _ _ h := nomatch h.1
  clean u _ _ _ := by
    rw [unit_initial]
    exact ⟨rfl, rfl, rfl, rfl, .inl rfl⟩
  idle q _ := busy_initial p q

theorem undisturbed_initial (p : Params) : undisturbed (State.initial p) where
  running := rfl
  others _ ht := absurd ht List.not_mem_nil
  sched _ ht := absurd ht List.not_mem_nil

/-- R280: the block waits until a host issues an operation. -/
theorem step_initial (p : Params) : step (State.initial p) = .next (State.initial p) := by
  have hshift : (State.initial p).pendingShift = none := by
    rw [State.pendingShift, List.find?_eq_none]
    intro q _
    rw [busy_initial]
    exact Bool.false_ne_true
  have hidle : step (State.initial p) = (hardwareStep (State.initial p)).outcome id := rfl
  rw [hidle, hardwareStep, hshift]
  rfl

/-- Settles O8: reset, field by field. -/
theorem resetMeetsInvariants : Obligations.ResetMeetsInvariants := fun p hp =>
  ⟨shape_initial hp, consistent_initial p, undisturbed_initial p, step_initial p⟩

/-! ## Words -/

/-- Settles O5: the decoder on seven words. -/
theorem decodeSpecWords : Obligations.DecodeSpecWords := ⟨rfl, rfl, rfl, rfl, rfl, rfl, rfl⟩

end Sys2Proof.Machine.Laws
